-- ==== Sys2Proof/Word.lean ====
section
/-! DEFINITION. The data widths of spec/00_scope.md R8: a byte is 8 bits, a word is 16 bits. -/

namespace Sys2Proof

/-- A byte, 8 bits (R8). -/
abbrev Byte := BitVec 8

/-- A word, 16 bits (R8): a general register, the PC, SR, an address offset. -/
abbrev Word := BitVec 16

end Sys2Proof
end

