-- ==== Sys2Proof/Config.lean ====
section
/-! DEFINITION. The free values and the implementation parameters of spec/00_scope.md R7.
A parameter is plain data that State holds and no step changes (log entry 2), so that a statement
about every state is a statement about every setting of the parameters. -/

namespace Sys2Proof.Config

/-- The free values (log entry 9): the `k`-th word drawn where the spec says "any value"
(spec/93_implementation_defined.md U5, U6, U9, U12, U13, U14). It has no body, so nothing can be
proved of its values and a claim holds whatever they are. -/
opaque freeWord : Nat → Word

/-- `Z_EXTENDED`: the Z rule of ADDX, SUBX, DADD, DSUB (R7, R166). -/
inductive ZExtended where
  | sticky
  | plain
  deriving DecidableEq, Repr

/-- `NEG_V`: V after NEG (R7, R188). -/
inductive NegV where
  | zero
  | overflow
  deriving DecidableEq, Repr

/-- `SWAP_NZ_SCOPE`: the value that N and Z of SWAP describe (R7, R148). -/
inductive SwapScope where
  | byte
  | word
  deriving DecidableEq, Repr

/-- `LDM_R7`: LDM with R7 in the register list (R7, R144). -/
inductive LdmR7 where
  | refuse
  | discard
  deriving DecidableEq, Repr

/-- `ADDQ_NEG_C`: C after ADD:Q with #-1 or #-2 (R7, R162). -/
inductive AddqNegC where
  | any
  | add
  | borrow
  deriving DecidableEq, Repr

/-- `DIVXU_OVF_DEST`: the destination after an overflowing DIVXU (R7, R178). -/
inductive DivxuOvfDest where
  | any
  | unchanged
  deriving DecidableEq, Repr

/-- What happens to a store into the bytes that may already be fetched, `PREFETCH_WINDOW` bytes from its
`npc` on: refused (R7, R70, U17), or made and followed until a transfer of control (the last sentence of
R70, R361). The spec has both sentences; the choice between them is the model's parameter
(log entry 29, DESIGN CHOICE). -/
inductive WindowStore where
  | refuse
  | track
  deriving DecidableEq, Repr

/-- The parameters of R7 that a model takes as an argument. A vector parameter is an entry number of
the exception vector table, or none (R312); entry numbers are 8 bits wide (log entry 43). -/
structure Params where
  /-- `MAX_MODE` (R6): true in maximum mode. -/
  maxMode : Bool
  /-- `R7_BYTE_STEP` (R90): the step of @-R7 and @R7+ with byte size. -/
  r7ByteStep : Word
  zExtended : ZExtended
  negV : NegV
  swapScope : SwapScope
  ldmR7 : LdmR7
  addqNegC : AddqNegC
  divxuOvfDest : DivxuOvfDest
  vecInvalid : Option Byte
  vecZeroDiv : Option Byte
  vecTrapVS : Option Byte
  vecAddrErr : Option Byte
  /-- `PREFETCH_WINDOW` (R70): how many bytes after a store's `npc` may already be fetched. -/
  prefetchWindow : Nat
  /-- What a store into these bytes does (R70). -/
  windowStore : WindowStore
  deriving DecidableEq, Repr

/-- The parameters that `State.reset` holds: R7's defaults where it gives one; maximum mode
(log entry 1, DESIGN CHOICE); the family's vectors of R312 (log entry 13, PRESUMED); the family's LDM
(log entry 21, PRESUMED); a window of one longest instruction and no store into it (log entry 29,
DESIGN CHOICE). -/
def Params.atReset : Params where
  maxMode := true
  r7ByteStep := 2
  zExtended := .sticky
  negV := .zero
  swapScope := .byte
  ldmR7 := .discard
  addqNegC := .any
  divxuOvfDest := .any
  vecInvalid := some 2
  vecZeroDiv := some 3
  vecTrapVS := some 4
  vecAddrErr := some 8
  prefetchWindow := 6
  windowStore := .refuse

end Sys2Proof.Config
end

