-- ==== Sys2Proof/Syntax.lean ====
section
/-! DEFINITION. The instructions: one constructor of `Instr` per instruction form of
spec/30_encoding.md R95, R99, R102, R103, R104. spec/opcode_table.json multiplies these forms out over
the addressing modes (R106); here the addressing mode is the operand `EA` of the constructor
(log entry 47). -/

namespace Sys2Proof

/-- A general register number (R20). R6 is FP and R7 is SP (R23). -/
inductive Reg where
  | r0 | r1 | r2 | r3 | r4 | r5 | r6 | r7
  deriving DecidableEq, Repr

/-- Operand size: the Sz bit, 0 byte and 1 word (R85). -/
inductive Size where
  | b
  | w
  deriving DecidableEq, Repr

/-- The width of an operand in bits (R11, `n(sz)`). -/
abbrev Size.bits : Size → Nat
  | .b => 8
  | .w => 16

/-- The ten addressing modes of an EA field (R86). -/
inductive EA where
  | reg (rn : Reg)
  | ind (rn : Reg)
  | disp8 (d : Byte) (rn : Reg)
  | disp16 (d : Word) (rn : Reg)
  | preDec (rn : Reg)
  | postInc (rn : Reg)
  | abs8 (aa : Byte)
  | abs16 (aa : Word)
  | imm8 (v : Byte)
  | imm16 (v : Word)
  deriving DecidableEq, Repr

/-- Class R of R87. -/
def EA.isReg : EA → Bool
  | .reg _ => true
  | _ => false

/-- Class I of R87. -/
def EA.isImm : EA → Bool
  | .imm8 _ | .imm16 _ => true
  | _ => false

/-- Class M of R87. -/
def EA.isMem (ea : EA) : Bool := !ea.isReg && !ea.isImm

/-- Immediate data whose width is that of the form, #xx:8 or #xx:16. -/
inductive Imm where
  | i8 (v : Byte)
  | i16 (v : Word)
  deriving DecidableEq, Repr

/-- The operand size that an immediate's width announces (R85, R98). -/
def Imm.size : Imm → Size
  | .i8 _ => .b
  | .i16 _ => .w

/-- A branch displacement, d:8 or d:16. -/
inductive Disp where
  | d8 (d : Byte)
  | d16 (d : Word)
  deriving DecidableEq, Repr

/-- The control registers by their ccc code (R31). 010 and 110 name no register: the table marks them
"(Not allowed)" with either size. -/
inductive CtrlReg where
  | sr | ccr | none2 | br | ep | dp | none6 | tp
  deriving DecidableEq, Repr

/-- The sixteen conditions of Bcc, in cccc order (R251). -/
inductive Cond where
  | bra | brn | bhi | bls | bcc | bcs | bne | beq | bvc | bvs | bpl | bmi | bge | blt | bgt | ble
  deriving DecidableEq, Repr

/-- The conditions of SCB (R270). -/
inductive ScbCond where
  | f | ne | eq
  deriving DecidableEq, Repr

/-- The immediates of ADD:Q (R97, R162). -/
inductive QuickImm where
  | plus1 | plus2 | minus1 | minus2
  deriving DecidableEq, Repr

/-- The targets of JMP and JSR (R254, R260). -/
inductive JumpEA where
  | abs16 (aa : Word)
  | ind (rn : Reg)
  | disp8 (d : Byte) (rn : Reg)
  | disp16 (d : Word) (rn : Reg)
  deriving DecidableEq, Repr

/-- The targets of PJMP and PJSR (R256, R262). -/
inductive PageEA where
  | abs24 (page : Byte) (aa : Word)
  | ind (rn : Reg)
  deriving DecidableEq, Repr

/-- The instructions. Operands stand in the order the assembler writes them (R119), the size first. -/
inductive Instr where
  -- data transfer
  | movGLoad (sz : Size) (src : EA) (rd : Reg)
  | movGStore (sz : Size) (rs : Reg) (dst : EA)
  | movGImm8 (sz : Size) (v : Byte) (dst : EA)
  | movGImm16 (v : Word) (dst : EA)
  | movE (v : Byte) (rd : Reg)
  | movI (v : Word) (rd : Reg)
  | movL (sz : Size) (aa : Byte) (rd : Reg)
  | movS (sz : Size) (rs : Reg) (aa : Byte)
  | movFLoad (sz : Size) (d : Byte) (rd : Reg)
  | movFStore (sz : Size) (rs : Reg) (d : Byte)
  | ldm (list : Byte)
  | stm (list : Byte)
  | xch (rs rd : Reg)
  | swap (rd : Reg)
  | movtpe (rs : Reg) (dst : EA)
  | movfpe (src : EA) (rd : Reg)
  -- arithmetic
  | addG (sz : Size) (src : EA) (rd : Reg)
  | addQ (sz : Size) (k : QuickImm) (dst : EA)
  | adds (sz : Size) (src : EA) (rd : Reg)
  | addx (sz : Size) (src : EA) (rd : Reg)
  | dadd (rs rd : Reg)
  | sub (sz : Size) (src : EA) (rd : Reg)
  | subs (sz : Size) (src : EA) (rd : Reg)
  | subx (sz : Size) (src : EA) (rd : Reg)
  | dsub (rs rd : Reg)
  | mulxu (sz : Size) (src : EA) (rd : Reg)
  | divxu (sz : Size) (src : EA) (rd : Reg)
  | cmpG (sz : Size) (src : EA) (rd : Reg)
  | cmpGImm (imm : Imm) (dst : EA)
  | cmpE (v : Byte) (rd : Reg)
  | cmpI (v : Word) (rd : Reg)
  | exts (rd : Reg)
  | extu (rd : Reg)
  | tst (sz : Size) (dst : EA)
  | neg (sz : Size) (dst : EA)
  | clr (sz : Size) (dst : EA)
  | tas (dst : EA)
  -- shift and rotate
  | shal (sz : Size) (dst : EA)
  | shar (sz : Size) (dst : EA)
  | shll (sz : Size) (dst : EA)
  | shlr (sz : Size) (dst : EA)
  | rotl (sz : Size) (dst : EA)
  | rotr (sz : Size) (dst : EA)
  | rotxl (sz : Size) (dst : EA)
  | rotxr (sz : Size) (dst : EA)
  -- logic
  | and (sz : Size) (src : EA) (rd : Reg)
  | or (sz : Size) (src : EA) (rd : Reg)
  | xor (sz : Size) (src : EA) (rd : Reg)
  | not (sz : Size) (dst : EA)
  -- bit manipulation
  | bsetImm (sz : Size) (k : BitVec 4) (dst : EA)
  | bsetReg (sz : Size) (rs : Reg) (dst : EA)
  | bclrImm (sz : Size) (k : BitVec 4) (dst : EA)
  | bclrReg (sz : Size) (rs : Reg) (dst : EA)
  | btstImm (sz : Size) (k : BitVec 4) (dst : EA)
  | btstReg (sz : Size) (rs : Reg) (dst : EA)
  | bnotImm (sz : Size) (k : BitVec 4) (dst : EA)
  | bnotReg (sz : Size) (rs : Reg) (dst : EA)
  -- branch
  | bcc (cond : Cond) (disp : Disp)
  | jmp (target : JumpEA)
  | pjmp (target : PageEA)
  | bsr (disp : Disp)
  | jsr (target : JumpEA)
  | pjsr (target : PageEA)
  | rts
  | prts
  | rtd (k : Imm)
  | prtd (k : Imm)
  | scb (cond : ScbCond) (rn : Reg) (d : Byte)
  -- system control
  | trapa (v : BitVec 4)
  | trapvs
  | rte
  | link (k : Imm)
  | unlk
  | sleep
  | ldc (sz : Size) (src : EA) (cr : CtrlReg)
  | stc (sz : Size) (cr : CtrlReg) (dst : EA)
  | andc (imm : Imm) (cr : CtrlReg)
  | orc (imm : Imm) (cr : CtrlReg)
  | xorc (imm : Imm) (cr : CtrlReg)
  | nop
  deriving DecidableEq, Repr

end Sys2Proof
end

