-- ==== Sys2Proof/WellFormed.lean ====
section
/-! DEFINITION. Which instruction terms an encoding exists for: the "Modes" and "Sz" columns of
spec/30_encoding.md R95. A disallowed control register and size pair is well formed: the decoder
recognises the instruction and the machine has no step for it (R98, R106). -/

namespace Sys2Proof

/-- R9 of R95: classes R and M, and the size-matched immediate. -/
def EA.isSource (sz : Size) : EA → Bool
  | .imm8 _ => sz = .b
  | .imm16 _ => sz = .w
  | _ => true

/-- R8 of R95: classes R and M. -/
def EA.isDest (ea : EA) : Bool := !ea.isImm

/-- Whether R95, R99, R102, R103 or R104 gives the instruction an encoding. -/
def Instr.wellFormed : Instr → Bool
  -- R9: any source of the operand's size
  | .movGLoad sz src _ | .addG sz src _ | .adds sz src _ | .addx sz src _ | .sub sz src _
  | .subs sz src _ | .subx sz src _ | .mulxu sz src _ | .divxu sz src _ | .cmpG sz src _
  | .and sz src _ | .or sz src _ | .xor sz src _ | .ldc sz src _ => src.isSource sz
  -- R8: register or memory
  | .addQ _ _ dst | .tst _ dst | .neg _ dst | .clr _ dst | .tas dst
  | .shal _ dst | .shar _ dst | .shll _ dst | .shlr _ dst
  | .rotl _ dst | .rotr _ dst | .rotxl _ dst | .rotxr _ dst | .not _ dst
  | .bsetImm _ _ dst | .bsetReg _ _ dst | .bclrImm _ _ dst | .bclrReg _ _ dst
  | .btstImm _ _ dst | .btstReg _ _ dst | .bnotImm _ _ dst | .bnotReg _ _ dst
  | .stc _ _ dst => dst.isDest
  -- M7: memory only
  | .movGStore _ _ dst | .movGImm8 _ _ dst | .movGImm16 _ dst | .cmpGImm _ dst
  | .movtpe _ dst => dst.isMem
  | .movfpe src _ => src.isMem
  -- no EA field, or one that is a register or an immediate by the constructor's type
  | .movE _ _ | .movI _ _ | .movL _ _ _ | .movS _ _ _ | .movFLoad _ _ _ | .movFStore _ _ _
  | .ldm _ | .stm _ | .xch _ _ | .swap _ | .dadd _ _ | .dsub _ _ | .cmpE _ _ | .cmpI _ _
  | .exts _ | .extu _ | .bcc _ _ | .jmp _ | .pjmp _ | .bsr _ | .jsr _ | .pjsr _
  | .rts | .prts | .rtd _ | .prtd _ | .scb _ _ _ | .trapa _ | .trapvs | .rte | .link _
  | .unlk | .sleep | .andc _ _ | .orc _ _ | .xorc _ _ | .nop => true

end Sys2Proof
end

