-- ==== Sys2Proof/Decode.lean ====
section
/-! DEFINITION. Decoding and encoding (spec/30_encoding.md). `decode` is total on any bytes: it reads
one instruction from the front and returns the bytes after it, or says why there is none. `encode`
is written from the same tables: R86 for the EA field, R95 for the Op field, R99, R102, R103, R104
for the special formats. -/

namespace Sys2Proof

/-! ## Field codes -/

/-- The register number rrr (R20). -/
def Reg.toBits : Reg → BitVec 3
  | .r0 => 0 | .r1 => 1 | .r2 => 2 | .r3 => 3 | .r4 => 4 | .r5 => 5 | .r6 => 6 | .r7 => 7

def Reg.ofBits (v : BitVec 3) : Reg :=
  match v with
  | 0#3 => .r0 | 1#3 => .r1 | 2#3 => .r2 | 3#3 => .r3
  | 4#3 => .r4 | 5#3 => .r5 | 6#3 => .r6 | 7#3 => .r7

/-- The Sz bit (R85). -/
def Size.toBit : Size → BitVec 1
  | .b => 0
  | .w => 1

def Size.ofBit (v : Bool) : Size := if v then .w else .b

/-- The control register code ccc (R31). -/
def CtrlReg.toBits : CtrlReg → BitVec 3
  | .sr => 0 | .ccr => 1 | .none2 => 2 | .br => 3 | .ep => 4 | .dp => 5 | .none6 => 6 | .tp => 7

def CtrlReg.ofBits (v : BitVec 3) : CtrlReg :=
  match v with
  | 0#3 => .sr | 1#3 => .ccr | 2#3 => .none2 | 3#3 => .br
  | 4#3 => .ep | 5#3 => .dp | 6#3 => .none6 | 7#3 => .tp

/-- The condition code cccc (R103, R251). -/
def Cond.toBits : Cond → BitVec 4
  | .bra => 0x0 | .brn => 0x1 | .bhi => 0x2 | .bls => 0x3
  | .bcc => 0x4 | .bcs => 0x5 | .bne => 0x6 | .beq => 0x7
  | .bvc => 0x8 | .bvs => 0x9 | .bpl => 0xA | .bmi => 0xB
  | .bge => 0xC | .blt => 0xD | .bgt => 0xE | .ble => 0xF

def Cond.ofBits (v : BitVec 4) : Cond :=
  match v with
  | 0x0#4 => .bra | 0x1#4 => .brn | 0x2#4 => .bhi | 0x3#4 => .bls
  | 0x4#4 => .bcc | 0x5#4 => .bcs | 0x6#4 => .bne | 0x7#4 => .beq
  | 0x8#4 => .bvc | 0x9#4 => .bvs | 0xA#4 => .bpl | 0xB#4 => .bmi
  | 0xC#4 => .bge | 0xD#4 => .blt | 0xE#4 => .bgt | _ => .ble

/-- The first byte of an SCB (R103). -/
def ScbCond.toByte : ScbCond → Byte
  | .f => 0x01 | .ne => 0x06 | .eq => 0x07

/-- The Op byte of an ADD:Q (R97). -/
def QuickImm.toByte : QuickImm → Byte
  | .plus1 => 0x08 | .plus2 => 0x09 | .minus1 => 0x0C | .minus2 => 0x0D

/-! ## Fields of a byte and of a word -/

/-- Bits 7 to 4 of a byte. -/
def hiNibble (b : Byte) : BitVec 4 := b.extractLsb' 4 4

/-- Bits 3 to 0 of a byte. -/
def loNibble (b : Byte) : BitVec 4 := b.extractLsb' 0 4

/-- Bit 3 of a byte: Sz of an EA byte, the second half of an Op code row. -/
def bit3 (b : Byte) : Bool := b.getLsbD 3

/-- Bits 2 to 0 of a byte. -/
def low3 (b : Byte) : BitVec 3 := b.extractLsb' 0 3

/-- The high byte of a word. -/
def hiByte (w : Word) : Byte := w.extractLsb' 8 8

/-- The low byte of a word. -/
def loByte (w : Word) : Byte := w.extractLsb' 0 8

/-! ## Encoder -/

/-- A byte of the shape `hhhh s rrr` (R85, R105). -/
def modeByte (h : BitVec 4) (s : BitVec 1) (r : BitVec 3) : Byte := h ++ s ++ r

/-- A byte of the shape `ooooo rrr` (R95, R102). -/
def codeByte (o : BitVec 5) (r : BitVec 3) : Byte := o ++ r

/-- A byte of the shape `oooo bbbb`. -/
def nibbleByte (h l : BitVec 4) : Byte := h ++ l

/-- A 16-bit field, high byte first (R57). -/
def wordBytes (w : Word) : List Byte := [hiByte w, loByte w]

/-- The EA field (R86). -/
def encodeEA (sz : Size) : EA → List Byte
  | .reg r => [modeByte 0xA sz.toBit r.toBits]
  | .preDec r => [modeByte 0xB sz.toBit r.toBits]
  | .postInc r => [modeByte 0xC sz.toBit r.toBits]
  | .ind r => [modeByte 0xD sz.toBit r.toBits]
  | .disp8 d r => [modeByte 0xE sz.toBit r.toBits, d]
  | .disp16 d r => modeByte 0xF sz.toBit r.toBits :: wordBytes d
  | .abs8 a => [modeByte 0x0 sz.toBit 0b101, a]
  | .abs16 a => modeByte 0x1 sz.toBit 0b101 :: wordBytes a
  | .imm8 v => [0x04, v]
  | .imm16 v => 0x0C :: wordBytes v

/-- The bytes of an immediate of either width. -/
def Imm.bytes : Imm → List Byte
  | .i8 v => [v]
  | .i16 v => wordBytes v

/-- The immediate EA field of ANDC, ORC, XORC (R95, class I). -/
def encodeImmEA : Imm → List Byte
  | .i8 v => [0x04, v]
  | .i16 v => 0x0C :: wordBytes v

/-- The register and displacement forms of JMP and JSR behind H'11; `s` is 0 for JMP, 1 for JSR
(R103, R105). -/
def encodeJump (absByte : Byte) (s : BitVec 1) : JumpEA → List Byte
  | .abs16 a => absByte :: wordBytes a
  | .ind r => [0x11, modeByte 0xD s r.toBits]
  | .disp8 d r => [0x11, modeByte 0xE s r.toBits, d]
  | .disp16 d r => 0x11 :: modeByte 0xF s r.toBits :: wordBytes d

/-- The forms of PJMP and PJSR (R103, R105). -/
def encodePageJump (absByte : Byte) (s : BitVec 1) : PageEA → List Byte
  | .abs24 page a => absByte :: page :: wordBytes a
  | .ind r => [0x11, modeByte 0xC s r.toBits]

/-- The bytes of an instruction, byte 1 first. -/
def encode : Instr → List Byte
  | .movfpe ea rd => encodeEA .b ea ++ [0x00, codeByte 0b10000 rd.toBits]
  | .movtpe rs ea => encodeEA .b ea ++ [0x00, codeByte 0b10010 rs.toBits]
  | .dadd rs rd => encodeEA .b (.reg rs) ++ [0x00, codeByte 0b10100 rd.toBits]
  | .dsub rs rd => encodeEA .b (.reg rs) ++ [0x00, codeByte 0b10110 rd.toBits]
  | .cmpGImm (.i8 v) ea => encodeEA .b ea ++ [0x04, v]
  | .cmpGImm (.i16 v) ea => encodeEA .w ea ++ 0x05 :: wordBytes v
  | .movGImm8 sz v ea => encodeEA sz ea ++ [0x06, v]
  | .movGImm16 v ea => encodeEA .w ea ++ 0x07 :: wordBytes v
  | .addQ sz k ea => encodeEA sz ea ++ [k.toByte]
  | .swap rd => encodeEA .b (.reg rd) ++ [0x10]
  | .exts rd => encodeEA .b (.reg rd) ++ [0x11]
  | .extu rd => encodeEA .b (.reg rd) ++ [0x12]
  | .clr sz ea => encodeEA sz ea ++ [0x13]
  | .neg sz ea => encodeEA sz ea ++ [0x14]
  | .not sz ea => encodeEA sz ea ++ [0x15]
  | .tst sz ea => encodeEA sz ea ++ [0x16]
  | .tas ea => encodeEA .b ea ++ [0x17]
  | .shal sz ea => encodeEA sz ea ++ [0x18]
  | .shar sz ea => encodeEA sz ea ++ [0x19]
  | .shll sz ea => encodeEA sz ea ++ [0x1A]
  | .shlr sz ea => encodeEA sz ea ++ [0x1B]
  | .rotl sz ea => encodeEA sz ea ++ [0x1C]
  | .rotr sz ea => encodeEA sz ea ++ [0x1D]
  | .rotxl sz ea => encodeEA sz ea ++ [0x1E]
  | .rotxr sz ea => encodeEA sz ea ++ [0x1F]
  | .addG sz ea rd => encodeEA sz ea ++ [codeByte 0b00100 rd.toBits]
  | .adds sz ea rd => encodeEA sz ea ++ [codeByte 0b00101 rd.toBits]
  | .sub sz ea rd => encodeEA sz ea ++ [codeByte 0b00110 rd.toBits]
  | .subs sz ea rd => encodeEA sz ea ++ [codeByte 0b00111 rd.toBits]
  | .or sz ea rd => encodeEA sz ea ++ [codeByte 0b01000 rd.toBits]
  | .bsetReg sz rs ea => encodeEA sz ea ++ [codeByte 0b01001 rs.toBits]
  | .orc imm cr => encodeImmEA imm ++ [codeByte 0b01001 cr.toBits]
  | .and sz ea rd => encodeEA sz ea ++ [codeByte 0b01010 rd.toBits]
  | .bclrReg sz rs ea => encodeEA sz ea ++ [codeByte 0b01011 rs.toBits]
  | .andc imm cr => encodeImmEA imm ++ [codeByte 0b01011 cr.toBits]
  | .xor sz ea rd => encodeEA sz ea ++ [codeByte 0b01100 rd.toBits]
  | .bnotReg sz rs ea => encodeEA sz ea ++ [codeByte 0b01101 rs.toBits]
  | .xorc imm cr => encodeImmEA imm ++ [codeByte 0b01101 cr.toBits]
  | .cmpG sz ea rd => encodeEA sz ea ++ [codeByte 0b01110 rd.toBits]
  | .btstReg sz rs ea => encodeEA sz ea ++ [codeByte 0b01111 rs.toBits]
  | .movGLoad sz ea rd => encodeEA sz ea ++ [codeByte 0b10000 rd.toBits]
  | .ldc sz ea cr => encodeEA sz ea ++ [codeByte 0b10001 cr.toBits]
  | .movGStore sz rs ea => encodeEA sz ea ++ [codeByte 0b10010 rs.toBits]
  | .xch rs rd => encodeEA .w (.reg rs) ++ [codeByte 0b10010 rd.toBits]
  | .stc sz cr ea => encodeEA sz ea ++ [codeByte 0b10011 cr.toBits]
  | .addx sz ea rd => encodeEA sz ea ++ [codeByte 0b10100 rd.toBits]
  | .mulxu sz ea rd => encodeEA sz ea ++ [codeByte 0b10101 rd.toBits]
  | .subx sz ea rd => encodeEA sz ea ++ [codeByte 0b10110 rd.toBits]
  | .divxu sz ea rd => encodeEA sz ea ++ [codeByte 0b10111 rd.toBits]
  | .bsetImm sz k ea => encodeEA sz ea ++ [nibbleByte 0xC k]
  | .bclrImm sz k ea => encodeEA sz ea ++ [nibbleByte 0xD k]
  | .bnotImm sz k ea => encodeEA sz ea ++ [nibbleByte 0xE k]
  | .btstImm sz k ea => encodeEA sz ea ++ [nibbleByte 0xF k]
  | .ldm list => [0x02, list]
  | .stm list => [0x12, list]
  | .cmpE v rd => [codeByte 0b01000 rd.toBits, v]
  | .cmpI v rd => codeByte 0b01001 rd.toBits :: wordBytes v
  | .movE v rd => [codeByte 0b01010 rd.toBits, v]
  | .movI v rd => codeByte 0b01011 rd.toBits :: wordBytes v
  | .movL sz aa rd => [modeByte 0x6 sz.toBit rd.toBits, aa]
  | .movS sz rs aa => [modeByte 0x7 sz.toBit rs.toBits, aa]
  | .movFLoad sz d rd => [modeByte 0x8 sz.toBit rd.toBits, d]
  | .movFStore sz rs d => [modeByte 0x9 sz.toBit rs.toBits, d]
  | .bcc c (.d8 d) => [nibbleByte 0x2 c.toBits, d]
  | .bcc c (.d16 d) => nibbleByte 0x3 c.toBits :: wordBytes d
  | .jmp t => encodeJump 0x10 0 t
  | .jsr t => encodeJump 0x18 1 t
  | .bsr (.d8 d) => [0x0E, d]
  | .bsr (.d16 d) => 0x1E :: wordBytes d
  | .rts => [0x19]
  | .rtd (.i8 v) => [0x14, v]
  | .rtd (.i16 v) => 0x1C :: wordBytes v
  | .scb c r d => [c.toByte, codeByte 0b10111 r.toBits, d]
  | .pjmp t => encodePageJump 0x13 0 t
  | .pjsr t => encodePageJump 0x03 1 t
  | .prts => [0x11, 0x19]
  | .prtd (.i8 v) => [0x11, 0x14, v]
  | .prtd (.i16 v) => 0x11 :: 0x1C :: wordBytes v
  | .trapa v => [0x08, nibbleByte 0x1 v]
  | .trapvs => [0x09]
  | .rte => [0x0A]
  | .link (.i8 v) => [0x17, v]
  | .link (.i16 v) => 0x1F :: wordBytes v
  | .unlk => [0x0F]
  | .sleep => [0x1A]
  | .nop => [0x00]

/-- The length of an instruction in bytes (R84). -/
def Instr.length (i : Instr) : Nat := (encode i).length

/-! ## Decoder -/

/-- Why bytes are no instruction. -/
inductive DecodeError where
  /-- The bytes match no row of spec/opcode_table.json (R112, R113). -/
  | unassigned
  /-- The bytes end before the instruction does. -/
  | truncated
  deriving DecidableEq, Repr

/-- What a decoding step answers: what it read and the bytes that follow, or why there is nothing. -/
abbrev Decoded (α : Type) := Except DecodeError (α × List Byte)

/-- One byte. -/
def takeByte : List Byte → Decoded Byte
  | b :: t => .ok (b, t)
  | [] => .error .truncated

/-- A 16-bit field, high byte first (R57). -/
def takeWord : List Byte → Decoded Word
  | h :: l :: t => .ok (h ++ l, t)
  | _ => .error .truncated

/-- Apply `f` to what one byte gives. -/
def withByte (t : List Byte) (f : Byte → Instr) : Decoded Instr :=
  match takeByte t with
  | .ok (b, t) => .ok (f b, t)
  | .error e => .error e

/-- Apply `f` to what one 16-bit field gives. -/
def withWord (t : List Byte) (f : Word → Instr) : Decoded Instr :=
  match takeWord t with
  | .ok (w, t) => .ok (f w, t)
  | .error e => .error e

/-- The instruction, where the EA class and size at hand have it (R95, R113). -/
def whenAssigned (c : Bool) (d : Decoded Instr) : Decoded Instr :=
  if c then d else .error .unassigned

/-- The EA field, its first byte `b` already read (R85, R86). -/
def decodeEA (b : Byte) (t : List Byte) : Decoded (Size × EA) :=
  let sz := Size.ofBit (bit3 b)
  let rn := Reg.ofBits (low3 b)
  let ext8 (f : Byte → EA) : Decoded (Size × EA) :=
    match takeByte t with
    | .ok (d, t) => .ok ((sz, f d), t)
    | .error e => .error e
  let ext16 (f : Word → EA) : Decoded (Size × EA) :=
    match takeWord t with
    | .ok (d, t) => .ok ((sz, f d), t)
    | .error e => .error e
  match hiNibble b with
  | 0xA#4 => .ok ((sz, .reg rn), t)
  | 0xB#4 => .ok ((sz, .preDec rn), t)
  | 0xC#4 => .ok ((sz, .postInc rn), t)
  | 0xD#4 => .ok ((sz, .ind rn), t)
  | 0xE#4 => ext8 fun d => .disp8 d rn
  | 0xF#4 => ext16 fun d => .disp16 d rn
  | 0x0#4 =>
    match low3 b, sz with
    | 5#3, _ => ext8 .abs8
    | 4#3, .b => ext8 .imm8
    | 4#3, .w => ext16 .imm16
    | _, _ => .error .unassigned
  | 0x1#4 =>
    match low3 b with
    | 5#3 => ext16 .abs16
    | _ => .error .unassigned
  | _ => .error .unassigned

/-- The byte after the Op byte H'00, with byte size (R100); with word size H'00 is unassigned whatever
follows, so that the byte after it is not asked for (R113; log entry 28). -/
def decodeOp00 (sz : Size) (ea : EA) (t : List Byte) : Decoded Instr :=
  whenAssigned (sz = .b) <|
    match takeByte t with
    | .error e => .error e
    | .ok (op, t) =>
      let r := Reg.ofBits (low3 op)
      match hiNibble op, bit3 op, ea with
      | 0xA#4, false, .reg rs => .ok (.dadd rs r, t)
      | 0xB#4, false, .reg rs => .ok (.dsub rs r, t)
      | 0x8#4, false, ea => whenAssigned ea.isMem (.ok (.movfpe ea r, t))
      | 0x9#4, false, ea => whenAssigned ea.isMem (.ok (.movtpe r ea, t))
      | _, _, _ => .error .unassigned

/-- Op bytes H'00 to H'0F (R95). -/
def decodeOp0 (l : BitVec 4) (sz : Size) (ea : EA) (t : List Byte) : Decoded Instr :=
  match l with
  | 0x0#4 => whenAssigned (ea.isMem || ea.isReg) (decodeOp00 sz ea t)
  | 0x4#4 => whenAssigned (ea.isMem && sz = .b) (withByte t fun v => .cmpGImm (.i8 v) ea)
  | 0x5#4 => whenAssigned (ea.isMem && sz = .w) (withWord t fun v => .cmpGImm (.i16 v) ea)
  | 0x6#4 => whenAssigned ea.isMem (withByte t fun v => .movGImm8 sz v ea)
  | 0x7#4 => whenAssigned (ea.isMem && sz = .w) (withWord t fun v => .movGImm16 v ea)
  | 0x8#4 => whenAssigned ea.isDest (.ok (.addQ sz .plus1 ea, t))
  | 0x9#4 => whenAssigned ea.isDest (.ok (.addQ sz .plus2 ea, t))
  | 0xC#4 => whenAssigned ea.isDest (.ok (.addQ sz .minus1 ea, t))
  | 0xD#4 => whenAssigned ea.isDest (.ok (.addQ sz .minus2 ea, t))
  | _ => .error .unassigned

/-- Op bytes H'10 to H'1F (R95). -/
def decodeOp1 (l : BitVec 4) (sz : Size) (ea : EA) (t : List Byte) : Decoded Instr :=
  match l with
  | 0x0#4 => match sz, ea with
    | .b, .reg r => .ok (.swap r, t)
    | _, _ => .error .unassigned
  | 0x1#4 => match sz, ea with
    | .b, .reg r => .ok (.exts r, t)
    | _, _ => .error .unassigned
  | 0x2#4 => match sz, ea with
    | .b, .reg r => .ok (.extu r, t)
    | _, _ => .error .unassigned
  | 0x3#4 => whenAssigned ea.isDest (.ok (.clr sz ea, t))
  | 0x4#4 => whenAssigned ea.isDest (.ok (.neg sz ea, t))
  | 0x5#4 => whenAssigned ea.isDest (.ok (.not sz ea, t))
  | 0x6#4 => whenAssigned ea.isDest (.ok (.tst sz ea, t))
  | 0x7#4 => whenAssigned (ea.isDest && sz = .b) (.ok (.tas ea, t))
  | 0x8#4 => whenAssigned ea.isDest (.ok (.shal sz ea, t))
  | 0x9#4 => whenAssigned ea.isDest (.ok (.shar sz ea, t))
  | 0xA#4 => whenAssigned ea.isDest (.ok (.shll sz ea, t))
  | 0xB#4 => whenAssigned ea.isDest (.ok (.shlr sz ea, t))
  | 0xC#4 => whenAssigned ea.isDest (.ok (.rotl sz ea, t))
  | 0xD#4 => whenAssigned ea.isDest (.ok (.rotr sz ea, t))
  | 0xE#4 => whenAssigned ea.isDest (.ok (.rotxl sz ea, t))
  | _ => whenAssigned ea.isDest (.ok (.rotxr sz ea, t))  -- H'1F

/-- Op codes 01001, 01011, 01101 with the class selecting: a bit instruction after classes R and M, a
control register instruction after class I (R95, R110). -/
def bitOrControl (ea : EA) (bit : Instr) (ctrl : Imm → Instr) (t : List Byte) : Decoded Instr :=
  match ea with
  | .imm8 v => .ok (ctrl (.i8 v), t)
  | .imm16 v => .ok (ctrl (.i16 v), t)
  | _ => .ok (bit, t)

/-- Op code 10010: XCH after mode Rn with Sz = 1, MOV:G store after class M (R95, C6). -/
def storeOrXch (sz : Size) (ea : EA) (r : Reg) (t : List Byte) : Decoded Instr :=
  match sz, ea with
  | .w, .reg rs => .ok (.xch rs r, t)
  | sz, ea => whenAssigned ea.isMem (.ok (.movGStore sz r ea, t))

/-- The Op field after an EA field (R95). -/
def decodeOp (sz : Size) (ea : EA) (t : List Byte) : Decoded Instr :=
  match takeByte t with
  | .error e => .error e
  | .ok (op, t) =>
    let r := Reg.ofBits (low3 op)
    let cr := CtrlReg.ofBits (low3 op)
    match hiNibble op, bit3 op with
    | 0x0#4, _ => decodeOp0 (loNibble op) sz ea t
    | 0x1#4, _ => decodeOp1 (loNibble op) sz ea t
    | 0x2#4, false => .ok (.addG sz ea r, t)
    | 0x2#4, true => .ok (.adds sz ea r, t)
    | 0x3#4, false => .ok (.sub sz ea r, t)
    | 0x3#4, true => .ok (.subs sz ea r, t)
    | 0x4#4, false => .ok (.or sz ea r, t)
    | 0x4#4, true => bitOrControl ea (.bsetReg sz r ea) (fun v => .orc v cr) t
    | 0x5#4, false => .ok (.and sz ea r, t)
    | 0x5#4, true => bitOrControl ea (.bclrReg sz r ea) (fun v => .andc v cr) t
    | 0x6#4, false => .ok (.xor sz ea r, t)
    | 0x6#4, true => bitOrControl ea (.bnotReg sz r ea) (fun v => .xorc v cr) t
    | 0x7#4, false => .ok (.cmpG sz ea r, t)
    | 0x7#4, true => whenAssigned ea.isDest (.ok (.btstReg sz r ea, t))
    | 0x8#4, false => .ok (.movGLoad sz ea r, t)
    | 0x8#4, true => .ok (.ldc sz ea cr, t)
    | 0x9#4, false => storeOrXch sz ea r t
    | 0x9#4, true => whenAssigned ea.isDest (.ok (.stc sz cr ea, t))
    | 0xA#4, false => .ok (.addx sz ea r, t)
    | 0xA#4, true => .ok (.mulxu sz ea r, t)
    | 0xB#4, false => .ok (.subx sz ea r, t)
    | 0xB#4, true => .ok (.divxu sz ea r, t)
    | 0xC#4, _ => whenAssigned ea.isDest (.ok (.bsetImm sz (loNibble op) ea, t))
    | 0xD#4, _ => whenAssigned ea.isDest (.ok (.bclrImm sz (loNibble op) ea, t))
    | 0xE#4, _ => whenAssigned ea.isDest (.ok (.bnotImm sz (loNibble op) ea, t))
    | _, _ => whenAssigned ea.isDest (.ok (.btstImm sz (loNibble op) ea, t))  -- H'Fx

/-- The general format: EA field, then Op field (R81). -/
def decodeGeneral (b : Byte) (t : List Byte) : Decoded Instr :=
  match decodeEA b t with
  | .ok ((sz, ea), t) => decodeOp sz ea t
  | .error e => .error e

/-- The second byte after H'11 (R105). -/
def decode11 (t : List Byte) : Decoded Instr :=
  match takeByte t with
  | .error e => .error e
  | .ok (b, t) =>
    let r := Reg.ofBits (low3 b)
    match hiNibble b, bit3 b with
    | 0x1#4, _ =>
      match loNibble b with
      | 0x4#4 => withByte t fun v => .prtd (.i8 v)
      | 0x9#4 => .ok (.prts, t)
      | 0xC#4 => withWord t fun v => .prtd (.i16 v)
      | _ => .error .unassigned
    | 0xC#4, false => .ok (.pjmp (.ind r), t)
    | 0xC#4, true => .ok (.pjsr (.ind r), t)
    | 0xD#4, false => .ok (.jmp (.ind r), t)
    | 0xD#4, true => .ok (.jsr (.ind r), t)
    | 0xE#4, false => withByte t fun d => .jmp (.disp8 d r)
    | 0xE#4, true => withByte t fun d => .jsr (.disp8 d r)
    | 0xF#4, false => withWord t fun d => .jmp (.disp16 d r)
    | 0xF#4, true => withWord t fun d => .jsr (.disp16 d r)
    | _, _ => .error .unassigned

/-- SCB after its first byte (R103, R113). -/
def decodeScb (c : ScbCond) (t : List Byte) : Decoded Instr :=
  match takeByte t with
  | .error e => .error e
  | .ok (b, t) =>
    match hiNibble b, bit3 b with
    | 0xB#4, true => withByte t fun d => .scb c (Reg.ofBits (low3 b)) d
    | _, _ => .error .unassigned

/-- TRAPA after its first byte (R104, R113). -/
def decodeTrapa (t : List Byte) : Decoded Instr :=
  match takeByte t with
  | .error e => .error e
  | .ok (b, t) =>
    match hiNibble b with
    | 0x1#4 => .ok (.trapa (loNibble b), t)
    | _ => .error .unassigned

/-- PJMP and PJSR @aa:24 after the first byte (R103). -/
def decodePage24 (f : PageEA → Instr) (t : List Byte) : Decoded Instr :=
  match takeByte t with
  | .error e => .error e
  | .ok (page, t) => withWord t fun a => f (.abs24 page a)

/-- First bytes H'00 to H'0F (R107). -/
def decode0 (b : Byte) (t : List Byte) : Decoded Instr :=
  match loNibble b with
  | 0x0#4 => .ok (.nop, t)
  | 0x1#4 => decodeScb .f t
  | 0x2#4 => withByte t .ldm
  | 0x3#4 => decodePage24 .pjsr t
  | 0x4#4 | 0x5#4 | 0xC#4 | 0xD#4 => decodeGeneral b t
  | 0x6#4 => decodeScb .ne t
  | 0x7#4 => decodeScb .eq t
  | 0x8#4 => decodeTrapa t
  | 0x9#4 => .ok (.trapvs, t)
  | 0xA#4 => .ok (.rte, t)
  | 0xB#4 => .error .unassigned
  | 0xE#4 => withByte t fun d => .bsr (.d8 d)
  | _ => .ok (.unlk, t)  -- H'0F

/-- First bytes H'10 to H'1F (R107). -/
def decode1 (b : Byte) (t : List Byte) : Decoded Instr :=
  match loNibble b with
  | 0x0#4 => withWord t fun a => .jmp (.abs16 a)
  | 0x1#4 => decode11 t
  | 0x2#4 => withByte t .stm
  | 0x3#4 => decodePage24 .pjmp t
  | 0x4#4 => withByte t fun v => .rtd (.i8 v)
  | 0x5#4 | 0xD#4 => decodeGeneral b t
  | 0x6#4 | 0xB#4 => .error .unassigned
  | 0x7#4 => withByte t fun v => .link (.i8 v)
  | 0x8#4 => withWord t fun a => .jsr (.abs16 a)
  | 0x9#4 => .ok (.rts, t)
  | 0xA#4 => .ok (.sleep, t)
  | 0xC#4 => withWord t fun v => .rtd (.i16 v)
  | 0xE#4 => withWord t fun d => .bsr (.d16 d)
  | _ => withWord t fun v => .link (.i16 v)  -- H'1F

/-- The instruction at the front of the bytes (R83). -/
def decode (bytes : List Byte) : Decoded Instr :=
  match takeByte bytes with
  | .error e => .error e
  | .ok (b, t) =>
    let r := Reg.ofBits (low3 b)
    let sz := Size.ofBit (bit3 b)
    match hiNibble b, bit3 b with
    | 0x0#4, _ => decode0 b t
    | 0x1#4, _ => decode1 b t
    | 0x2#4, _ => withByte t fun d => .bcc (Cond.ofBits (loNibble b)) (.d8 d)
    | 0x3#4, _ => withWord t fun d => .bcc (Cond.ofBits (loNibble b)) (.d16 d)
    | 0x4#4, false => withByte t fun v => .cmpE v r
    | 0x4#4, true => withWord t fun v => .cmpI v r
    | 0x5#4, false => withByte t fun v => .movE v r
    | 0x5#4, true => withWord t fun v => .movI v r
    | 0x6#4, _ => withByte t fun a => .movL sz a r
    | 0x7#4, _ => withByte t fun a => .movS sz r a
    | 0x8#4, _ => withByte t fun d => .movFLoad sz d r
    | 0x9#4, _ => withByte t fun d => .movFStore sz r d
    | _, _ => decodeGeneral b t

/-! ## The host's numbering -/

/-- `n` bytes of the number `w`, most significant byte first. -/
def bytesOfNat : Nat → Nat → List Byte
  | 0, _ => []
  | n + 1, w => BitVec.ofNat 8 (w / 256 ^ n) :: bytesOfNat n w

/-- The length of the longest instruction (R80). -/
def maxLength : Nat := 6

/-- The bytes that an opcode-table word stands for, with zeros up to the longest instruction.
spec/opcode_table.json reads an instruction as one big-endian number, byte 1 first (R106;
log entry 8). -/
def tableBytes (nbits w : Nat) : List Byte :=
  let n := (nbits + 7) / 8
  bytesOfNat n w ++ List.replicate (maxLength - n) 0

/-- The instruction that the decoder reads from an opcode-table word. -/
def decodeTableWord (nbits w : Nat) : Option Instr :=
  match decode (tableBytes nbits w) with
  | .ok (i, _) => some i
  | .error _ => none

end Sys2Proof
end

