-- ==== Sys2Proof/Machine/Memory.lean ====
section
/-! DEFINITION. Memory as plain data: the listed bytes, addresses strictly rising, none equal to what
an unlisted address reads as, so that equal memories are equal lists. An address is a number below
2^24 (spec/20_memory.md R51). -/

namespace Sys2Proof.Machine

/-- The listed bytes of memory. -/
abbrev Memory := List Host.Cell

/-- What an unlisted address reads as: H'00 (log entry 5, DESIGN CHOICE; the spec gives the content of
memory that nothing has loaded or written no value, R352). -/
def unlistedByte : Byte := 0

/-- One more than the highest address, 16 Mbytes (R51). -/
def addressLimit : Nat := 2 ^ 24

/-- The byte at an address (R56). -/
def Memory.read : Memory → Nat → Byte
  | [], _ => unlistedByte
  | (k, v) :: m, a => if k = a then v else Memory.read m a

/-- Memory with the byte at an address replaced, in canonical form (R56). -/
def Memory.write : Memory → Nat → Byte → Memory
  | [], a, v => if v = unlistedByte then [] else [(a, v)]
  | (k, x) :: m, a, v =>
    if a < k then
      if v = unlistedByte then (k, x) :: m else (a, v) :: (k, x) :: m
    else if a = k then
      if v = unlistedByte then m else (a, v) :: m
    else (k, x) :: Memory.write m a v

/-- The canonical form. -/
def Memory.wf (m : Memory) : Bool :=
  decide (m.Pairwise fun c d => c.1 < d.1) &&
    m.all fun c => decide (c.2 ≠ unlistedByte) && decide (c.1 < addressLimit)

/-- The word at an address, high byte at the lower address (R57). -/
def Memory.word (m : Memory) (a : Nat) : Word := m.read a ++ m.read (a + 1)

end Sys2Proof.Machine
end

