-- ==== Sys2Proof/Machine/State.lean ====
section
/-! DEFINITION. The state of the machine as plain data (spec/10_state.md), the ways a step can stop,
and the state after reset. -/

namespace Sys2Proof.Machine

/-- The eight general registers (R20). R6 is FP, R7 is SP (R23). -/
structure Regs where
  r0 : Word
  r1 : Word
  r2 : Word
  r3 : Word
  r4 : Word
  r5 : Word
  r6 : Word
  r7 : Word
  deriving DecidableEq, Repr

/-- An interrupt request from outside the CPU (spec/60_exceptions.md R330): the vector-table entry it
uses, its level, and whether the mask holds it back. -/
structure Irq where
  entry : Byte
  level : BitVec 3
  maskable : Bool
  deriving DecidableEq, Repr

/-- Everything the spec gives the machine, and last the model's own two fields. -/
structure State where
  regs : Regs
  /-- The program counter (R25). -/
  pc : Word
  /-- The status register: T bit 15, I2-I0 bits 10 to 8, CCR bits 7 to 0 with N, Z, V, C in bits 3 to 0
  (R28, R32). -/
  sr : Word
  /-- Base register (R33). -/
  br : Byte
  /-- Extended page register (R34). -/
  ep : Byte
  /-- Data page register (R34). -/
  dp : Byte
  /-- Stack page register (R34). -/
  tp : Byte
  /-- Code page register (R35). -/
  cp : Byte
  /-- The run state: true in the power-down state (R38). -/
  asleep : Bool
  mem : Memory
  /-- The implementation parameters of spec/00_scope.md R7 (log entry 2). -/
  params : Config.Params
  /-- Interrupt requests that wait, oldest first (R330; log entry 30). -/
  irq : List Irq
  /-- The model's own: addresses of code bytes stored inside the prefetch window and not refetched
  since, which grows only while `windowStore` is track (spec/20_memory.md R70; log entry 29). -/
  stale : List Nat
  /-- The model's own: how many free values have been drawn (log entry 9). -/
  freeIdx : Nat
  deriving DecidableEq, Repr

/-- Why the machine stops for good. -/
inductive Fault where
  /-- Raised by a step on bytes that are no instruction while `VEC_INVALID` is none (R312, R317). Safe. -/
  | invalidInstruction
  /-- Raised by DIVXU with a zero divisor while `VEC_ZERODIV` is none (R312, R316). Safe. -/
  | zeroDivide
  /-- Raised by TRAP/VS with V = 1 while `VEC_TRAPVS` is none (R312, R314). Safe. -/
  | trapVS
  /-- Raised by a word access at an odd address while `VEC_ADDRERR` is none (R312, R318). Safe. -/
  | addressError
  /-- Raised by an exception entry whose own stack access is at an odd address (R326). Safe. -/
  | doubleFault
  /-- Raised by a step in the power-down state with no interrupt to take: the stuck state of R294 and
  R342, no fault of the hardware. Safe. -/
  | powerDown
  deriving DecidableEq, Repr

/-- Why the model has no step. -/
inductive Refusal where
  /-- Raised by `exec` for an instruction that has no meaning yet. Safe. -/
  | notModelled (mnemonic : String)
  /-- Raised by LDC, STC, ANDC, ORC, XORC with a control register and size that R31 marks
  "(Not allowed)" (spec/93_implementation_defined.md U1). Safe. -/
  | disallowedControlRegister
  /-- Raised by an instruction whose @-Rn or @Rn+ register is also its register operand (R94, U4). Safe. -/
  | registerOverlap
  /-- Raised by a byte-size bit instruction with a bit number of 8 to 15 (R230, U7). Safe. -/
  | bitNumberBeyondByte
  /-- Raised by MULXU.W and DIVXU.W with an odd Rd (R176, R178, U8). Safe. -/
  | oddRegisterPair
  /-- Raised by STM, and by LDM while `LDM_R7` is refuse, with R7 in the list (R144, R145, U10). Safe. -/
  | stackPointerInList
  /-- Raised by PJMP, PJSR, PRTS, PRTD in minimum mode (R256, U11). Safe. -/
  | pageInstructionInMinimumMode
  /-- Raised by PJMP @R7 and PJSR @R7 (R256, U11). Safe. -/
  | pageJumpThroughR7
  /-- Raised by a step on an instruction whose bytes run past H'FFFF (R26, U19). Safe. -/
  | straddlesPcWrap
  /-- Raised by a store into the prefetch window while `windowStore` is refuse (R70, U17). Safe. -/
  | storeInPrefetchWindow
  /-- Raised by a step on a byte whose value the prefetch window makes unknown, while `windowStore` is track
  (R70, R361). Safe. -/
  | staleInstructionFetch
  /-- Raised by `exec` on a term that stores to an immediate, which no encoding stands for (R92). Safe. -/
  | immediateDestination
  deriving DecidableEq, Repr

/-- What a step answers. -/
abbrev Result := Host.Outcome State Fault Refusal

/-- The machine right after reset, for given parameters and memory content: PC, and CP in maximum mode,
from entry 0 of the vector table; T = 0, I2-I0 = 111; not asleep (R45, R350, R351). What R45 leaves
unspecified is 0 (log entry 3, DESIGN CHOICE). -/
def State.resetFrom (params : Config.Params) (mem : Memory) : State where
  regs := ⟨0, 0, 0, 0, 0, 0, 0, 0⟩
  pc := if params.maxMode then mem.word 2 else mem.word 0
  sr := 0x0700
  br := 0
  ep := 0
  dp := 0
  tp := 0
  cp := if params.maxMode then mem.read 1 else 0
  asleep := false
  mem := mem
  params := params
  irq := []
  stale := []
  freeIdx := 0

/-- The machine right after reset, nothing placed in memory. -/
def State.reset : State := State.resetFrom Config.Params.atReset []

end Sys2Proof.Machine
end

