-- ==== Sys2Proof/Machine/Flags.lean ====
section
/-! DEFINITION. The fields of SR (spec/10_state.md R28, R32) and every flag computation: the helpers of
spec/00_scope.md R12, the shifts of spec/42_shift.md, the decimal digits of spec/41_arithmetic.md
R168, R174. -/

namespace Sys2Proof.Machine

/-! ## Fields of SR -/

def State.flagC (s : State) : Bool := s.sr.getLsbD 0
def State.flagV (s : State) : Bool := s.sr.getLsbD 1
def State.flagZ (s : State) : Bool := s.sr.getLsbD 2
def State.flagN (s : State) : Bool := s.sr.getLsbD 3

/-- The interrupt mask level, SR[10:8]. -/
def State.intMask (s : State) : BitVec 3 := s.sr.extractLsb' 8 3

/-- The trace bit, SR[15]. -/
def State.flagT (s : State) : Bool := s.sr.getLsbD 15

/-- SR with its four flags replaced. -/
def srWithFlags (sr : Word) (n z v c : Bool) : Word :=
  sr.extractLsb' 4 12 ++ BitVec.ofBool n ++ BitVec.ofBool z ++ BitVec.ofBool v ++ BitVec.ofBool c

/-- SR with T cleared (R320). -/
def srClearT (sr : Word) : Word := (0 : BitVec 1) ++ sr.extractLsb' 0 15

/-- SR with the interrupt mask replaced (R330). -/
def srWithMask (sr : Word) (level : BitVec 3) : Word :=
  sr.extractLsb' 11 5 ++ level ++ sr.extractLsb' 0 8

/-- SR with CCR, its low byte, replaced (R32). -/
def srWithCcr (sr : Word) (ccr : Byte) : Word := hiByte sr ++ ccr

/-- The reserved bits of SR: 14 to 11, and 7 to 4 of CCR (R28, R32). -/
def srReserved : Word := 0x78F0

/-- A value of SR as an instruction reads it: the reserved bits are any value (U12; log entry 10). -/
def srSeen (sr free : Word) : Word := (sr &&& ~~~srReserved) ||| (free &&& srReserved)

def State.setNZVC (s : State) (n z v c : Bool) : State :=
  { s with sr := srWithFlags s.sr n z v c }

/-- Z replaced, N, V and C kept (R230). -/
def State.setZ (s : State) (z : Bool) : State := s.setNZVC s.flagN z s.flagV s.flagC

/-- Z and C replaced, N and V kept (R168). -/
def State.setZC (s : State) (z c : Bool) : State := s.setNZVC s.flagN z s.flagV c

/-! ## Results with their flags -/

/-- A result and the four flags that go with it. -/
structure Alu (w : Nat) where
  res : BitVec w
  n : Bool
  z : Bool
  v : Bool
  c : Bool
  deriving DecidableEq, Repr

/-- `nz` of R12 with V and C given. -/
def nzFlags {w : Nat} (r : BitVec w) (v c : Bool) : Alu w :=
  { res := r, n := r.msb, z := decide (r = 0), v := v, c := c }

/-- `add_flags` of R12: `a + b + c`, C the carry out, V two's-complement overflow. -/
def addFlags {w : Nat} (a b : BitVec w) (c : Bool) : Alu w :=
  let r := a + b + BitVec.ofNat w c.toNat
  nzFlags r (a.msb == b.msb && r.msb != a.msb) (decide (2 ^ w ≤ a.toNat + b.toNat + c.toNat))

/-- `sub_flags` of R12: `a - b - c`, C the borrow, V two's-complement overflow. -/
def subFlags {w : Nat} (a b : BitVec w) (c : Bool) : Alu w :=
  let r := a - b - BitVec.ofNat w c.toNat
  nzFlags r (a.msb != b.msb && r.msb != a.msb) (decide (a.toNat < b.toNat + c.toNat))

/-- Z of ADDX, SUBX, DADD, DSUB (R166): under `sticky` it can only stay or be cleared. -/
def extendedZ (rule : Config.ZExtended) (old zero : Bool) : Bool :=
  match rule with
  | .sticky => old && zero
  | .plain => zero

/-- The result with Z by `Z_EXTENDED` (R166, R172). -/
def Alu.withExtendedZ {w : Nat} (a : Alu w) (rule : Config.ZExtended) (old : Bool) : Alu w :=
  { a with z := extendedZ rule old a.z }

/-- NEG (R188): 0 - a, V by `NEG_V`. -/
def negFlags {w : Nat} (rule : Config.NegV) (a : BitVec w) : Alu w :=
  let o := subFlags 0 a false
  match rule with
  | .zero => { o with v := false }
  | .overflow => o

/-- The amount of an ADD:Q without its sign (R162). -/
def quickAmount {w : Nat} : QuickImm → BitVec w
  | .plus1 | .minus1 => 1
  | .plus2 | .minus2 => 2

def quickNegative : QuickImm → Bool
  | .plus1 | .plus2 => false
  | .minus1 | .minus2 => true

/-- ADD:Q (R162): C of the negative forms by `ADDQ_NEG_C`, `free` where it is any value. -/
def quickFlags {w : Nat} (rule : Config.AddqNegC) (free : Bool) (k : QuickImm) (a : BitVec w) : Alu w :=
  if quickNegative k then
    let o := subFlags a (quickAmount k) false
    match rule with
    | .any => { o with c := free }
    | .add => { o with c := !o.c }
    | .borrow => o
  else addFlags a (quickAmount k) false

/-! ## Shifts and rotates by one bit (R201 to R208) -/

/-- R201: V is set when the sign changes. -/
def shalFlags {w : Nat} (a : BitVec w) : Alu w :=
  nzFlags (a <<< 1) (a.getMsbD 0 != a.getMsbD 1) a.msb

/-- R202: the sign bit is repeated. -/
def sharFlags {w : Nat} (a : BitVec w) : Alu w :=
  nzFlags (a.sshiftRight 1) false (a.getLsbD 0)

/-- R203. -/
def shllFlags {w : Nat} (a : BitVec w) : Alu w := nzFlags (a <<< 1) false a.msb

/-- R204. -/
def shlrFlags {w : Nat} (a : BitVec w) : Alu w := nzFlags (a >>> 1) false (a.getLsbD 0)

/-- R205. -/
def rotlFlags {w : Nat} (a : BitVec w) : Alu w := nzFlags (a.rotateLeft 1) false a.msb

/-- R206. -/
def rotrFlags {w : Nat} (a : BitVec w) : Alu w := nzFlags (a.rotateRight 1) false (a.getLsbD 0)

/-- R207: C enters bit 0. -/
def rotxlFlags {w : Nat} (c : Bool) (a : BitVec w) : Alu w :=
  nzFlags (a <<< 1 ||| BitVec.ofNat w c.toNat) false a.msb

/-- R208: C enters the most significant bit. -/
def rotxrFlags {w : Nat} (c : Bool) (a : BitVec w) : Alu w :=
  nzFlags (a >>> 1 ||| BitVec.ofNat w c.toNat <<< (w - 1)) false (a.getLsbD 0)

/-! ## Decimal digits -/

/-- Whether both nibbles of a byte are decimal digits (R168). -/
def isDecimal (b : Byte) : Bool := decide (hiNibble b ≤ 9) && decide (loNibble b ≤ 9)

/-- One decimal digit of a sum and its carry (R168). -/
def digitAdd (a b : BitVec 4) (c : Bool) : BitVec 4 × Bool :=
  let t := a.toNat + b.toNat + c.toNat
  if 9 < t then (BitVec.ofNat 4 (t - 10), true) else (BitVec.ofNat 4 t, false)

/-- One decimal digit of a difference and its borrow (R174). -/
def digitSub (a b : BitVec 4) (c : Bool) : BitVec 4 × Bool :=
  let t : Int := (a.toNat : Int) - b.toNat - c.toNat
  if t < 0 then (BitVec.ofNat 4 (t + 10).toNat, true) else (BitVec.ofNat 4 t.toNat, false)

/-- Two digits, the low one first, with the carry or borrow passed on (R168, R174). -/
def bothDigits (digit : BitVec 4 → BitVec 4 → Bool → BitVec 4 × Bool) (a b : Byte) (c : Bool) :
    Byte × Bool :=
  let lo := digit (loNibble a) (loNibble b) c
  let hi := digit (hiNibble a) (hiNibble b) lo.2
  (hi.1 ++ lo.1, hi.2)

/-- Packed decimal sum (R168). -/
def decimalAdd (a b : Byte) (c : Bool) : Byte × Bool := bothDigits digitAdd a b c

/-- Packed decimal difference (R174). -/
def decimalSub (a b : Byte) (c : Bool) : Byte × Bool := bothDigits digitSub a b c

/-! ## Conditions -/

/-- The condition of Bcc (R251). -/
def State.holds (s : State) : Cond → Bool
  | .bra => true
  | .brn => false
  | .bhi => !(s.flagC || s.flagZ)
  | .bls => s.flagC || s.flagZ
  | .bcc => !s.flagC
  | .bcs => s.flagC
  | .bne => !s.flagZ
  | .beq => s.flagZ
  | .bvc => !s.flagV
  | .bvs => s.flagV
  | .bpl => !s.flagN
  | .bmi => s.flagN
  | .bge => !(s.flagN ^^ s.flagV)
  | .blt => s.flagN ^^ s.flagV
  | .bgt => !(s.flagZ || (s.flagN ^^ s.flagV))
  | .ble => s.flagZ || (s.flagN ^^ s.flagV)

/-- The condition of SCB (R270). -/
def State.scbHolds (s : State) : ScbCond → Bool
  | .f => false
  | .ne => !s.flagZ
  | .eq => s.flagZ

end Sys2Proof.Machine
end

