-- ==== Sys2Proof/Machine/Ops.lean ====
section
/-! DEFINITION. The named operations over registers, memory and the stack (spec/10_state.md,
spec/20_memory.md), taking an exception and returning from one (spec/60_exceptions.md R320, R324). -/

namespace Sys2Proof.Machine

/-! ## How an instruction can end early -/

/-- The synchronous exceptions that a rule raises, TRAPA apart (R311). -/
inductive Exn where
  | invalidInstruction
  | zeroDivide
  | trapVS
  | addressError
  deriving DecidableEq, Repr

/-- An instruction that does not run to its end: it raises an exception in the state that its effects
so far have made (R318), or the model has no step for it. -/
inductive Stop where
  | raised (e : Exn) (s : State)
  | refuse (r : Refusal)
  deriving DecidableEq, Repr

/-- The body of a meaning: a state, or why the instruction ended early. -/
abbrev Body (α : Type) := Except Stop α

/-- `k`, unless the spec has the model refuse. -/
def refuseIf {α : Type} (c : Bool) (r : Refusal) (k : Body α) : Body α :=
  if c then .error (.refuse r) else k

/-! ## Registers -/

def Regs.get (g : Regs) : Reg → Word
  | .r0 => g.r0 | .r1 => g.r1 | .r2 => g.r2 | .r3 => g.r3
  | .r4 => g.r4 | .r5 => g.r5 | .r6 => g.r6 | .r7 => g.r7

def Regs.set (g : Regs) (i : Reg) (v : Word) : Regs :=
  match i with
  | .r0 => { g with r0 := v } | .r1 => { g with r1 := v }
  | .r2 => { g with r2 := v } | .r3 => { g with r3 := v }
  | .r4 => { g with r4 := v } | .r5 => { g with r5 := v }
  | .r6 => { g with r6 := v } | .r7 => { g with r7 := v }

/-- `x[i]` of R11. -/
def State.reg (s : State) (i : Reg) : Word := s.regs.get i

/-- `x[i] <- v` of R11. -/
def State.setReg (s : State) (i : Reg) (v : Word) : State := { s with regs := s.regs.set i v }

/-- `rd(i, sz)`: the low byte or the word (R21). -/
def State.rd (s : State) (i : Reg) (sz : Size) : BitVec sz.bits := (s.reg i).setWidth sz.bits

/-- `wr(i, sz, v)`: a byte write keeps bits 15 to 8 (R22). -/
def State.wr (s : State) (i : Reg) : (sz : Size) → BitVec sz.bits → State
  | .b, v => s.setReg i (hiByte (s.reg i) ++ v)
  | .w, v => s.setReg i v

/-- The register after Rn; none after R7 (R176, R178, R256). -/
def nextReg? : Reg → Option Reg
  | .r0 => some .r1 | .r1 => some .r2 | .r2 => some .r3 | .r3 => some .r4
  | .r4 => some .r5 | .r5 => some .r6 | .r6 => some .r7 | .r7 => none

/-- The lower half of the register pair of MULXU.W and DIVXU.W: Rd+1 of an even Rd; none where Rd is
odd (R176, R178). -/
def pairLow? : Reg → Option Reg
  | .r0 => some .r1 | .r2 => some .r3 | .r4 => some .r5 | .r6 => some .r7
  | .r1 | .r3 | .r5 | .r7 => none

/-- All registers, R0 first. -/
def allRegs : List Reg := [.r0, .r1, .r2, .r3, .r4, .r5, .r6, .r7]

/-- The registers of a register list, R0 first: bit i selects Ri (R24, R99). -/
def listedRegs (list : Byte) : List Reg := allRegs.filter fun r => list.getLsbD r.toBits.toNat

/-! ## Free values -/

/-- The next free value and the state that has drawn it (log entry 9). -/
def State.draw (s : State) : Word × State :=
  (Config.freeWord s.freeIdx, { s with freeIdx := s.freeIdx + 1 })

/-! ## Program counter -/

/-- `pc <- npc`: the PC moved past an instruction of `n` bytes, modulo 2^16, CP kept (R25, R26). After
this `s.pc` is what the source writes as "PC" in an operation. -/
def State.advance (s : State) (n : Nat) : State := { s with pc := s.pc + BitVec.ofNat 16 n }

/-- A transfer of control: the instructions at the target are fetched anew (R70, R361). -/
def State.jump (s : State) (target : Word) : State := { s with pc := target, stale := [] }

/-! ## Memory -/

/-- Which page register completes an offset (R53). -/
inductive Kind where
  | code
  | data
  | ext
  | stack
  | zero
  deriving DecidableEq, Repr

/-- The page of a kind (R53). -/
def State.page (s : State) : Kind → Byte
  | .code => s.cp
  | .data => s.dp
  | .ext => s.ep
  | .stack => s.tp
  | .zero => 0

/-- `phys(kind, off)` (R53). -/
def State.phys (s : State) (k : Kind) (off : Word) : Nat :=
  if s.params.maxMode then (s.page k).toNat * 65536 + off.toNat else off.toNat

/-- Whether an address lies among the bytes that may already be fetched, `npc` to
`npc + PREFETCH_WINDOW - 1` (R70). -/
def State.inWindow (s : State) (a : Nat) : Bool :=
  (List.range s.params.prefetchWindow).any fun k => s.phys .code (s.pc + BitVec.ofNat 16 k) == a

/-- Whether a store to an address is refused: it lies in the prefetch window (R70, U17), unless
`windowStore` is track. -/
def State.blocked (s : State) (a : Nat) : Bool :=
  decide (s.params.windowStore = .refuse) && s.inWindow a

/-- `MemWrite(a, 1, v)` (R56), once `State.store` has let it be made; a byte stored inside the prefetch window,
where such stores are tracked, becomes stale (R70, R361; log entry 29). -/
def State.writeByte (s : State) (a : Nat) (v : Byte) : State :=
  { s with
    mem := s.mem.write a v
    stale := if s.inWindow a then a :: s.stale else s.stale }

/-- `MemRead(a, n)`: a word access at an odd address raises AddressError (R56, R57, R58). -/
def State.load (s : State) (a : Nat) : (sz : Size) → Body (BitVec sz.bits)
  | .b => .ok (s.mem.read a)
  | .w => if a % 2 = 1 then .error (.raised .addressError s) else .ok (s.mem.word a)

/-- `MemWrite(a, n, v)`, a word high byte first (R56, R57, R58), refused where it would write a byte of the
prefetch window (R70, U17). -/
def State.store (s : State) (a : Nat) : (sz : Size) → BitVec sz.bits → Body State
  | .b, v => refuseIf (s.blocked a) .storeInPrefetchWindow (.ok (s.writeByte a v))
  | .w, v =>
    if a % 2 = 1 then .error (.raised .addressError s)
    else
      refuseIf (s.blocked a || s.blocked (a + 1)) .storeInPrefetchWindow
        (.ok ((s.writeByte a (hiByte v)).writeByte (a + 1) (loByte v)))

/-! ## Stack -/

/-- SP is R7 (R23). -/
def State.sp (s : State) : Word := s.reg .r7

/-- `push16(v)` (R62). -/
def State.push16 (s : State) (v : Word) : Body State :=
  let s := s.setReg .r7 (s.sp - 2)
  s.store (s.phys .stack s.sp) .w v

/-- `pop16()` (R62). -/
def State.pop16 (s : State) : Body (Word × State) := do
  let v ← s.load (s.phys .stack s.sp) .w
  return (v, s.setReg .r7 (s.sp + 2))

/-- CP pushed as a word: CP in the low byte, any value in the high byte (R62, U13; log entry 11). -/
def State.pushCP (s : State) : Body State :=
  let d := s.draw
  d.2.push16 (loByte d.1 ++ d.2.cp)

/-- CP popped from a word whose high byte is ignored (R62). -/
def State.popCP (s : State) : Body State := do
  let p ← s.pop16
  return { p.2 with cp := loByte p.1 }

/-- PC popped, a transfer of control (R264). -/
def State.popPC (s : State) : Body State := do
  let p ← s.pop16
  return p.2.jump p.1

/-! ## Taking an exception and returning from one -/

/-- SR as an instruction reads it, its reserved bits any value (U12; log entry 10). -/
def State.readSR (s : State) : Word × State :=
  let d := s.draw
  (srSeen s.sr d.1, d.2)

/-- SR pushed. -/
def State.pushSR (s : State) : Body State :=
  let p := s.readSR
  p.2.push16 p.1

/-- The words that an entry stacks: the saved PC, CP in maximum mode, SR (R280, R320, R322). -/
def State.pushFrame (s : State) (savedPC : Word) : Body State := do
  let s ← s.push16 savedPC
  let s ← if s.params.maxMode then s.pushCP else pure s
  s.pushSR

/-- PC, and CP in maximum mode, from a vector-table entry (R312, R320). -/
def State.vectorTo (s : State) (entry : Byte) : State :=
  if s.params.maxMode then
    let a := s.phys .zero (BitVec.ofNat 16 (4 * entry.toNat))
    { s with cp := s.mem.read (a + 1) }.jump (s.mem.word (a + 2))
  else s.jump (s.mem.word (s.phys .zero (BitVec.ofNat 16 (2 * entry.toNat))))

/-- The entry sequence behind the stacking: T cleared, then the vector (R320). -/
def State.enterVector (s : State) (entry : Byte) : State :=
  { s with sr := srClearT s.sr }.vectorTo entry

/-- How an entry ends that cannot stack its frame: an exception inside it is a double fault (R326). -/
def entryStopped : Stop → Result
  | .raised _ _ => .fault .doubleFault
  | .refuse r => .refused r

/-- `enter(e, saved_pc)` of R320. -/
def State.enter (s : State) (entry : Byte) (savedPC : Word) : Result :=
  match s.pushFrame savedPC with
  | .ok s => .next (s.enterVector entry)
  | .error e => entryStopped e

/-- The vector parameter of an exception (R311, R312). -/
def State.vectorOf (s : State) : Exn → Option Byte
  | .invalidInstruction => s.params.vecInvalid
  | .zeroDivide => s.params.vecZeroDiv
  | .trapVS => s.params.vecTrapVS
  | .addressError => s.params.vecAddrErr

/-- The fault that an exception whose vector parameter is none ends the run with (R312). -/
def Exn.fault : Exn → Fault
  | .invalidInstruction => .invalidInstruction
  | .zeroDivide => .zeroDivide
  | .trapVS => .trapVS
  | .addressError => .addressError

/-- The PC that an entry saves: the next instruction's address for ZeroDivide and TrapVS (R314, R316),
any value for InvalidInstruction and AddressError (R317, R318, U14; log entry 12). -/
def State.savedPC (s : State) : Exn → Word × State
  | .zeroDivide | .trapVS => (s.pc, s)
  | .invalidInstruction | .addressError => s.draw

/-- `raise` of R11: the exception's entry, or the fault where its vector parameter is none (R312). -/
def State.raise (s : State) (e : Exn) : Result :=
  match s.vectorOf e with
  | none => .fault e.fault
  | some entry => (s.savedPC e).2.enter entry (s.savedPC e).1

/-- The entry of an interrupt: `enter(e, pc)`, the mask set to its level, `asleep` cleared (R330). -/
def State.enterIrq (s : State) (q : Irq) : Result :=
  match { s with asleep := false }.pushFrame s.pc with
  | .ok s => .next ({ s with sr := srWithMask s.sr q.level }.enterVector q.entry)
  | .error e => entryStopped e

/-- The return of RTE: SR, CP in maximum mode, PC from the stack (R286, R324). -/
def State.returnFromException (s : State) : Body State := do
  let p ← s.pop16
  let s := { p.2 with sr := p.1 }
  let s ← if s.params.maxMode then s.popCP else pure s
  s.popPC

/-- What a meaning answers for its body. -/
def finish : Body State → Result
  | .ok s => .next s
  | .error (.raised e s) => s.raise e
  | .error (.refuse r) => .refused r

end Sys2Proof.Machine
end

