-- ==== Sys2Proof/Machine/Operands.lean ====
section
/-! DEFINITION. Operands: resolving an EA field (spec/30_encoding.md R90), reading and writing the
location (R91, R92), control registers as operands (spec/10_state.md R31), branch and jump targets,
and the shapes of instruction that several meanings share. -/

namespace Sys2Proof.Machine

/-! ## Widening (spec/92_eei_decisions.md D7) -/

/-- An immediate as a word, #xx:8 sign-extended (R266, R290). -/
def immWord : Imm → Word
  | .i8 v => v.signExtend 16
  | .i16 v => v

/-- A displacement as a word, d:8 sign-extended (R250). -/
def dispWord : Disp → Word
  | .d8 d => d.signExtend 16
  | .d16 d => d

/-- How many bytes an immediate takes. -/
def immLen : Imm → Nat
  | .i8 _ => 1
  | .i16 _ => 2

/-- How many bytes a displacement takes. -/
def dispLen : Disp → Nat
  | .d8 _ => 1
  | .d16 _ => 2

/-- A value of operand size as a word, a byte sign-extended (R164, R171). -/
def wordOf : (sz : Size) → BitVec sz.bits → Word
  | .b, v => v.signExtend 16
  | .w, v => v

/-! ## Effective addresses -/

/-- An operand location (R90). -/
inductive Loc where
  | reg (i : Reg)
  | mem (k : Kind) (off : Word)
  | imm (v : Word)
  deriving DecidableEq, Repr

/-- The kind of a base register (R55). -/
def baseKind : Reg → Kind
  | .r0 | .r1 | .r2 | .r3 => .data
  | .r4 | .r5 => .ext
  | .r6 | .r7 => .stack

/-- K, the length of the EA field (R86). -/
def eaLen : EA → Nat
  | .reg _ | .ind _ | .preDec _ | .postInc _ => 1
  | .disp8 _ _ | .abs8 _ | .imm8 _ => 2
  | .disp16 _ _ | .abs16 _ | .imm16 _ => 3

/-- The step of @-Rn and @Rn+ (R90). -/
def State.stride (s : State) (sz : Size) (rn : Reg) : Word :=
  match sz, rn with
  | .w, _ => 2
  | .b, .r7 => s.params.r7ByteStep
  | .b, _ => 1

/-- The location of @aa:8 (R54). -/
def State.abs8 (s : State) (aa : Byte) : Loc := .mem .zero (s.br ++ aa)

/-- The location of @(d:8,Rn) (R90). -/
def State.disp8 (s : State) (d : Byte) (rn : Reg) : Loc :=
  .mem (baseKind rn) (s.reg rn + d.signExtend 16)

/-- `resolve(EA field, sz)`: the location, and the state with the register of @-Rn or @Rn+ updated
(R90). -/
def resolve (sz : Size) (ea : EA) (s : State) : Loc × State :=
  match ea with
  | .reg rn => (.reg rn, s)
  | .ind rn => (.mem (baseKind rn) (s.reg rn), s)
  | .disp8 d rn => (s.disp8 d rn, s)
  | .disp16 d rn => (.mem (baseKind rn) (s.reg rn + d), s)
  | .preDec rn =>
    let a := s.reg rn - s.stride sz rn
    (.mem (baseKind rn) a, s.setReg rn a)
  | .postInc rn => (.mem (baseKind rn) (s.reg rn), s.setReg rn (s.reg rn + s.stride sz rn))
  | .abs8 aa => (s.abs8 aa, s)
  | .abs16 aa => (.mem .data aa, s)
  | .imm8 v => (.imm (v.setWidth 16), s)
  | .imm16 v => (.imm v, s)

/-- `ld(loc, sz)` (R91). -/
def State.ld (s : State) (l : Loc) (sz : Size) : Body (BitVec sz.bits) :=
  match l with
  | .reg i => .ok (s.rd i sz)
  | .mem k off => s.load (s.phys k off) sz
  | .imm v => .ok (v.setWidth sz.bits)

/-- `st(loc, sz, v)` (R92). -/
def State.st (s : State) (l : Loc) (sz : Size) (v : BitVec sz.bits) : Body State :=
  match l with
  | .reg i => .ok (s.wr i sz v)
  | .mem k off => s.store (s.phys k off) sz v
  | .imm _ => .error (.refuse .immediateDestination)

/-- The register that an addressing mode updates (R94). -/
def updatedReg : EA → Option Reg
  | .preDec rn | .postInc rn => some rn
  | _ => none

/-- Whether the addressing mode updates one of the instruction's register operands (R94). -/
def overlaps (ea : EA) (regs : List Reg) : Bool :=
  match updatedReg ea with
  | some rn => regs.contains rn
  | none => false

/-! ## Control registers -/

/-- The control register and size pairs that R31 allows. -/
def ctrlAllowed : CtrlReg → Size → Bool
  | .sr, .w => true
  | .ccr, .b | .br, .b | .ep, .b | .dp, .b | .tp, .b => true
  | _, _ => false

/-- The stored value of a control register, a byte register zero-extended. -/
def State.ctrl (s : State) : CtrlReg → Word
  | .sr => s.sr
  | .ccr => (loByte s.sr).setWidth 16
  | .br => s.br.setWidth 16
  | .ep => s.ep.setWidth 16
  | .dp => s.dp.setWidth 16
  | .tp => s.tp.setWidth 16
  | .none2 | .none6 => 0

/-- `CR <- v`, a byte register taking the low byte (R300). -/
def State.setCtrl (s : State) (cr : CtrlReg) (v : Word) : State :=
  match cr with
  | .sr => { s with sr := v }
  | .ccr => { s with sr := srWithCcr s.sr (loByte v) }
  | .br => { s with br := loByte v }
  | .ep => { s with ep := loByte v }
  | .dp => { s with dp := loByte v }
  | .tp => { s with tp := loByte v }
  | .none2 | .none6 => s

/-- A control register as an instruction reads it out: the reserved bits of SR and CCR are any value
(R301, U12; log entry 10). -/
def State.readCtrl (s : State) (cr : CtrlReg) : Word × State :=
  match cr with
  | .sr => s.readSR
  | .ccr =>
    let p := s.readSR
    ((loByte p.1).setWidth 16, p.2)
  | _ => (s.ctrl cr, s)

/-! ## Jump targets -/

/-- The length of a JMP or JSR (R103). -/
def jumpLen : JumpEA → Nat
  | .abs16 _ => 3
  | .ind _ => 2
  | .disp8 _ _ => 3
  | .disp16 _ _ => 4

/-- The effective address of JMP and JSR (R254, R260). -/
def State.jumpTarget (s : State) : JumpEA → Word
  | .abs16 aa => aa
  | .ind rn => s.reg rn
  | .disp8 d rn => s.reg rn + d.signExtend 16
  | .disp16 d rn => s.reg rn + d

/-- The length of a PJMP or PJSR (R103). -/
def pageLen : PageEA → Nat
  | .abs24 _ _ => 4
  | .ind _ => 2

/-- Page and offset of PJMP and PJSR; none for @R7 (R256, R262). -/
def State.pageTarget (s : State) : PageEA → Option (Byte × Word)
  | .abs24 page aa => some (page, aa)
  | .ind rn =>
    match nextReg? rn with
    | some next => some (loByte (s.reg rn), s.reg next)
    | none => none

/-- A transfer of control to another page. -/
def State.pageJump (s : State) (t : Byte × Word) : State := { s with cp := t.1 }.jump t.2

/-! ## Shapes of instruction

Each takes the state before the instruction and moves the PC past it first. -/

/-- The source operand, and the state after the EA field is resolved. -/
def source (sz : Size) (ea : EA) (s : State) : Body (BitVec sz.bits × State) := do
  let p := resolve sz ea s
  let v ← p.2.ld p.1 sz
  return (v, p.2)

/-- The flags of a result. -/
def State.setAlu {w : Nat} (s : State) (r : Alu w) : State := s.setNZVC r.n r.z r.v r.c

/-- `op <EAs>,Rd`: the result of Rd and the source into Rd, and its flags. -/
def intoReg (sz : Size) (ea : EA) (rd : Reg) (s : State)
    (op : State → BitVec sz.bits → BitVec sz.bits → Alu sz.bits) : Body State :=
  refuseIf (overlaps ea [rd]) .registerOverlap do
    let p ← source sz ea (s.advance (eaLen ea + 1))
    let r := op p.2 (p.2.rd rd sz) p.1
    return (p.2.wr rd sz r.res).setAlu r

/-- `op <EAs>,Rd` on the whole of Rd without flags (R164, R171). -/
def intoRegWord (sz : Size) (ea : EA) (rd : Reg) (s : State) (op : Word → Word → Word) : Body State :=
  refuseIf (overlaps ea [rd]) .registerOverlap do
    let p ← source sz ea (s.advance (eaLen ea + 1))
    return p.2.setReg rd (op (p.2.reg rd) (wordOf sz p.1))

/-- `op <EAd>`: read once, write the result once at the same location, then the flags (R60, R93). -/
def modify (sz : Size) (ea : EA) (s : State) (op : State → BitVec sz.bits → Alu sz.bits) : Body State := do
  let p := resolve sz ea (s.advance (eaLen ea + 1))
  let a ← p.2.ld p.1 sz
  let r := op p.2 a
  let s ← p.2.st p.1 sz r.res
  return s.setAlu r

/-- `op <EAd>`: read once, write nothing, then the flags. -/
def examine (sz : Size) (ea : EA) (n : Nat) (s : State) (op : State → BitVec sz.bits → Alu sz.bits) :
    Body State := do
  let p ← source sz ea (s.advance (eaLen ea + n))
  return p.2.setAlu (op p.2 p.1)

/-- A value moved to memory, N and Z from it, V cleared, C kept; `n` bytes follow the EA field. -/
def moveOut (sz : Size) (ea : EA) (n : Nat) (s : State) (v : State → BitVec sz.bits) : Body State := do
  let p := resolve sz ea (s.advance (eaLen ea + n))
  let s ← p.2.st p.1 sz (v p.2)
  return s.setAlu (nzFlags (v p.2) false s.flagC)

/-- A value moved to a register, N and Z from it, V cleared, C kept. -/
def moveIn (sz : Size) (rd : Reg) (v : BitVec sz.bits) (s : State) : State :=
  (s.wr rd sz v).setAlu (nzFlags v false s.flagC)

/-- The operand of a bit instruction with bit `k` changed by `change`: Z from the bit before (R230). -/
def bitOp {w : Nat} (change : BitVec w → BitVec w → BitVec w) (k : BitVec 4) (s : State) (a : BitVec w) : Alu w :=
  { res := change a (1 <<< k.toNat), n := s.flagN, z := !a.getLsbD k.toNat, v := s.flagV, c := s.flagC }

/-- The bit change of BSET (R231). -/
def setBit {w : Nat} (a m : BitVec w) : BitVec w := a ||| m

/-- The bit change of BCLR (R233). -/
def clearBit {w : Nat} (a m : BitVec w) : BitVec w := a &&& ~~~m

/-- The bit change of BNOT (R237). -/
def invertBit {w : Nat} (a m : BitVec w) : BitVec w := a ^^^ m

/-- The low 4 bits of Rs (R230). -/
def State.bitNumber (s : State) (rs : Reg) : BitVec 4 := (s.reg rs).extractLsb' 0 4

/-- Whether a bit number lies beyond the operand: 8 to 15 with byte size (R230, U7). -/
def beyond (sz : Size) (k : BitVec 4) : Bool := decide (sz.bits ≤ k.toNat)

/-- A bit instruction that writes the operand back. -/
def changeBit (sz : Size) (k : BitVec 4) (ea : EA) (s : State)
    (change : BitVec sz.bits → BitVec sz.bits → BitVec sz.bits) : Body State :=
  refuseIf (beyond sz k) .bitNumberBeyondByte (modify sz ea s (bitOp change k))

/-- A bit instruction that only reads. -/
def testBit (sz : Size) (k : BitVec 4) (ea : EA) (s : State) : Body State :=
  refuseIf (beyond sz k) .bitNumberBeyondByte
    (examine sz ea 1 s (bitOp (fun a _ => a) k))

/-- ANDC, ORC, XORC (R303 to R305): the control register combined with an immediate of its size. -/
def combineCtrl (imm : Imm) (cr : CtrlReg) (s : State) (op : Word → Word → Word) : Body State :=
  refuseIf (!ctrlAllowed cr imm.size) .disallowedControlRegister
    (let s := s.advance (immLen imm + 2)
     pure (s.setCtrl cr (op (s.ctrl cr) (match imm with | .i8 v => v.setWidth 16 | .i16 v => v))))

/-- An instruction that only maximum mode has (R256). -/
def maxModeOnly (s : State) (k : Body State) : Body State :=
  refuseIf (!s.params.maxMode) .pageInstructionInMinimumMode k

end Sys2Proof.Machine
end

