-- ==== Sys2Proof/Machine/Arithmetic.lean ====
section
/-! DEFINITION. The arithmetic instructions (spec/41_arithmetic.md). -/

namespace Sys2Proof.Machine

/-- ADD:G `<EAs>`,Rd (R160). -/
def execAddG (sz : Size) (src : EA) (rd : Reg) (s : State) : Result :=
  finish <| intoReg sz src rd s fun _ a b => addFlags a b false

/-- ADD:Q #xx,`<EAd>` (R162). Where C of a negative form is any value it is a free value (U5;
log entry 15). -/
def execAddQ (sz : Size) (k : QuickImm) (dst : EA) (s : State) : Result :=
  finish do
    let t ← modify sz dst s fun s a => quickFlags s.params.addqNegC (s.draw.1.getLsbD 0) k a
    return t.draw.2

/-- ADDS `<EAs>`,Rd: the whole of Rd, no flags (R164). -/
def execAdds (sz : Size) (src : EA) (rd : Reg) (s : State) : Result :=
  finish <| intoRegWord sz src rd s fun a b => a + b

/-- ADDX `<EAs>`,Rd (R166). -/
def execAddx (sz : Size) (src : EA) (rd : Reg) (s : State) : Result :=
  finish <| intoReg sz src rd s fun s a b =>
    (addFlags a b s.flagC).withExtendedZ s.params.zExtended s.flagZ

/-- The decimal result of DADD and DSUB into Rd with Z and C; any value of all three where a nibble is no
digit (R168, U6; log entry 19). -/
def decimalInto (rs rd : Reg) (s : State) (op : Byte → Byte → Bool → Byte × Bool) : State :=
  let s := s.advance 3
  let a : Byte := s.rd rd .b
  let b : Byte := s.rd rs .b
  if isDecimal a && isDecimal b then
    let r := op a b s.flagC
    (s.wr rd .b r.1).setZC (extendedZ s.params.zExtended s.flagZ (decide (r.1 = 0))) r.2
  else
    let d := s.draw
    (d.2.wr rd .b (loByte d.1)).setZC (d.1.getLsbD 8) (d.1.getLsbD 9)

/-- DADD.B Rs,Rd (R168). -/
def execDadd (rs rd : Reg) (s : State) : Result :=
  finish <| pure (decimalInto rs rd s decimalAdd)

/-- SUB `<EAs>`,Rd (R170). -/
def execSub (sz : Size) (src : EA) (rd : Reg) (s : State) : Result :=
  finish <| intoReg sz src rd s fun _ a b => subFlags a b false

/-- SUBS `<EAs>`,Rd: the whole of Rd, no flags (R171). -/
def execSubs (sz : Size) (src : EA) (rd : Reg) (s : State) : Result :=
  finish <| intoRegWord sz src rd s fun a b => a - b

/-- SUBX `<EAs>`,Rd (R172). -/
def execSubx (sz : Size) (src : EA) (rd : Reg) (s : State) : Result :=
  finish <| intoReg sz src rd s fun s a b =>
    (subFlags a b s.flagC).withExtendedZ s.params.zExtended s.flagZ

/-- DSUB.B Rs,Rd (R174). -/
def execDsub (rs rd : Reg) (s : State) : Result :=
  finish <| pure (decimalInto rs rd s decimalSub)

/-- MULXU.B: the 16-bit product into Rd (R176). -/
def mulxuByte (src : EA) (rd : Reg) (s : State) : Body State :=
  refuseIf (overlaps src [rd]) .registerOverlap do
    let p ← source .b src (s.advance (eaLen src + 1))
    let m : Word := (p.2.rd rd .b).setWidth 16 * BitVec.setWidth 16 (p.1 : Byte)
    return (p.2.setReg rd m).setAlu (nzFlags m false false)

/-- MULXU.W: the 32-bit product of Rd+1 into the pair Rd, Rd+1; Rd must be even (R176, U8). -/
def mulxuWord (src : EA) (rd : Reg) (s : State) : Body State :=
  match pairLow? rd with
  | none => .error (.refuse .oddRegisterPair)
  | some low =>
    refuseIf (overlaps src [rd, low]) .registerOverlap do
      let p ← source .w src (s.advance (eaLen src + 1))
      let m : BitVec 32 := (p.2.reg low).setWidth 32 * BitVec.setWidth 32 (p.1 : Word)
      return ((p.2.setReg rd (m.extractLsb' 16 16)).setReg low (m.extractLsb' 0 16)).setAlu
        (nzFlags m false false)

/-- MULXU `<EAs>`,Rd (R176). -/
def execMulxu (sz : Size) (src : EA) (rd : Reg) (s : State) : Result :=
  match sz with
  | .b => finish (mulxuByte src rd s)
  | .w => finish (mulxuWord src rd s)

/-- The flags of an overflowing DIVXU: V = 1, C = 0, N and Z any value (R178, U9; log entry 20). -/
def divxuOverflowFlags (s : State) : State :=
  let d := s.draw
  d.2.setNZVC (d.1.getLsbD 0) (d.1.getLsbD 1) true false

/-- The destination of an overflowing DIVXU by `DIVXU_OVF_DEST` (R178, U9). -/
def divxuOverflowDest (s : State) (rd : Reg) : State :=
  match s.params.divxuOvfDest with
  | .unchanged => s
  | .any => s.draw.2.setReg rd s.draw.1

/-- DIVXU.B: the quotient into the low byte of Rd, the remainder into the high byte (R178). -/
def divxuByte (src : EA) (rd : Reg) (s : State) : Body State :=
  refuseIf (overlaps src [rd]) .registerOverlap do
    let p ← source .b src (s.advance (eaLen src + 1))
    let s := p.2
    let b : Nat := BitVec.toNat (p.1 : Byte)
    let d := (s.reg rd).toNat
    if b = 0 then .error (.raised .zeroDivide s)
    else if 2 ^ 8 ≤ d / b then pure (divxuOverflowDest (divxuOverflowFlags s) rd)
    else
      let q := BitVec.ofNat 8 (d / b)
      pure ((s.setReg rd (BitVec.ofNat 8 (d % b) ++ q)).setAlu (nzFlags q false false))

/-- DIVXU.W: the pair Rd, Rd+1 divided; the remainder into Rd, the quotient into Rd+1; Rd must be even
(R178, U8). -/
def divxuWord (src : EA) (rd : Reg) (s : State) : Body State :=
  match pairLow? rd with
  | none => .error (.refuse .oddRegisterPair)
  | some low =>
    refuseIf (overlaps src [rd, low]) .registerOverlap do
      let p ← source .w src (s.advance (eaLen src + 1))
      let s := p.2
      let b : Nat := BitVec.toNat (p.1 : Word)
      let d := (s.reg rd).toNat * 65536 + (s.reg low).toNat
      if b = 0 then .error (.raised .zeroDivide s)
      else if 2 ^ 16 ≤ d / b then
        pure (divxuOverflowDest (divxuOverflowDest (divxuOverflowFlags s) rd) low)
      else
        let q := BitVec.ofNat 16 (d / b)
        pure (((s.setReg rd (BitVec.ofNat 16 (d % b))).setReg low q).setAlu (nzFlags q false false))

/-- DIVXU `<EAs>`,Rd (R178). -/
def execDivxu (sz : Size) (src : EA) (rd : Reg) (s : State) : Result :=
  match sz with
  | .b => finish (divxuByte src rd s)
  | .w => finish (divxuWord src rd s)

/-- CMP:G `<EAs>`,Rd (R180). -/
def execCmpG (sz : Size) (src : EA) (rd : Reg) (s : State) : Result :=
  finish <| refuseIf (overlaps src [rd]) .registerOverlap <|
    examine sz src 1 s fun s b => subFlags (s.rd rd sz) b false

/-- CMP:G #xx,`<EAd>` (R181). -/
def execCmpGImm (imm : Imm) (dst : EA) (s : State) : Result :=
  match imm with
  | .i8 v => finish <| examine .b dst 2 s fun _ a => subFlags a v false
  | .i16 v => finish <| examine .w dst 3 s fun _ a => subFlags a v false

/-- CMP:E.B #xx:8,Rd (R182). -/
def execCmpE (v : Byte) (rd : Reg) (s : State) : Result :=
  finish <| pure ((s.advance 2).setAlu (subFlags (s.rd rd .b) v false))

/-- CMP:I.W #xx:16,Rd (R183). -/
def execCmpI (v : Word) (rd : Reg) (s : State) : Result :=
  finish <| pure ((s.advance 3).setAlu (subFlags (s.reg rd) v false))

/-- EXTS.B Rd (R184). -/
def execExts (rd : Reg) (s : State) : Result :=
  let r : Word := (loByte (s.reg rd)).signExtend 16
  finish <| pure (((s.advance 2).setReg rd r).setAlu (nzFlags r false false))

/-- EXTU.B Rd (R185). -/
def execExtu (rd : Reg) (s : State) : Result :=
  let r : Word := (loByte (s.reg rd)).setWidth 16
  finish <| pure (((s.advance 2).setReg rd r).setAlu (nzFlags r false false))

/-- TST `<EAd>` (R186). -/
def execTst (sz : Size) (dst : EA) (s : State) : Result :=
  finish <| examine sz dst 1 s fun _ a => nzFlags a false false

/-- NEG `<EAd>`; V by `NEG_V` (R188). -/
def execNeg (sz : Size) (dst : EA) (s : State) : Result :=
  finish <| modify sz dst s fun s a => negFlags s.params.negV a

/-- CLR `<EAd>`: the destination is written and not read (R190). -/
def execClr (sz : Size) (dst : EA) (s : State) : Result :=
  finish do
    let p := resolve sz dst (s.advance (eaLen dst + 1))
    let s ← p.2.st p.1 sz 0
    return s.setNZVC false true false false

/-- TAS.B `<EAd>`: the flags of the old value, then bit 7 set (R192). -/
def execTas (dst : EA) (s : State) : Result :=
  finish <| modify .b dst s fun _ a => { nzFlags a false false with res := a ||| 0x80 }

end Sys2Proof.Machine
end

