-- ==== Sys2Proof/Machine/Bit.lean ====
section
/-! DEFINITION. The bit manipulation instructions (spec/44_bit.md; their common form is R230). -/

namespace Sys2Proof.Machine

/-- BSET #xx,`<EAd>` (R231). -/
def execBsetImm (sz : Size) (k : BitVec 4) (dst : EA) (s : State) : Result :=
  finish <| changeBit sz k dst s setBit

/-- BSET Rs,`<EAd>` (R232). -/
def execBsetReg (sz : Size) (rs : Reg) (dst : EA) (s : State) : Result :=
  finish <| refuseIf (overlaps dst [rs]) .registerOverlap <|
    changeBit sz (s.bitNumber rs) dst s setBit

/-- BCLR #xx,`<EAd>` (R233). -/
def execBclrImm (sz : Size) (k : BitVec 4) (dst : EA) (s : State) : Result :=
  finish <| changeBit sz k dst s clearBit

/-- BCLR Rs,`<EAd>` (R234). -/
def execBclrReg (sz : Size) (rs : Reg) (dst : EA) (s : State) : Result :=
  finish <| refuseIf (overlaps dst [rs]) .registerOverlap <|
    changeBit sz (s.bitNumber rs) dst s clearBit

/-- BTST #xx,`<EAd>` (R235). -/
def execBtstImm (sz : Size) (k : BitVec 4) (dst : EA) (s : State) : Result :=
  finish <| testBit sz k dst s

/-- BTST Rs,`<EAd>` (R236). -/
def execBtstReg (sz : Size) (rs : Reg) (dst : EA) (s : State) : Result :=
  finish <| refuseIf (overlaps dst [rs]) .registerOverlap <|
    testBit sz (s.bitNumber rs) dst s

/-- BNOT #xx,`<EAd>` (R237). -/
def execBnotImm (sz : Size) (k : BitVec 4) (dst : EA) (s : State) : Result :=
  finish <| changeBit sz k dst s invertBit

/-- BNOT Rs,`<EAd>` (R238). -/
def execBnotReg (sz : Size) (rs : Reg) (dst : EA) (s : State) : Result :=
  finish <| refuseIf (overlaps dst [rs]) .registerOverlap <|
    changeBit sz (s.bitNumber rs) dst s invertBit

end Sys2Proof.Machine
end

