-- ==== Sys2Proof/Machine/Branch.lean ====
section
/-! DEFINITION. The branching instructions (spec/45_branch.md). After `advance`, `s.pc` is `npc`, the
value that the source writes as "PC" (R25). -/

namespace Sys2Proof.Machine

/-- Bcc d:8, Bcc d:16 (R250). -/
def execBcc (cond : Cond) (disp : Disp) (s : State) : Result :=
  let t := s.advance (dispLen disp + 1)
  finish <| pure (if s.holds cond then t.jump (t.pc + dispWord disp) else t)

/-- JMP: the effective address itself becomes the PC (R254). -/
def execJmp (target : JumpEA) (s : State) : Result :=
  finish <| pure (s.jump (s.jumpTarget target))

/-- PJMP (R256). -/
def execPjmp (target : PageEA) (s : State) : Result :=
  finish <| maxModeOnly s <|
    match s.pageTarget target with
    | none => .error (.refuse .pageJumpThroughR7)
    | some t => pure (s.pageJump t)

/-- BSR d:8, BSR d:16 (R258). -/
def execBsr (disp : Disp) (s : State) : Result :=
  let t := s.advance (dispLen disp + 1)
  finish do
    let u ← t.push16 t.pc
    return u.jump (t.pc + dispWord disp)

/-- JSR: the target is computed before the push (R260). -/
def execJsr (target : JumpEA) (s : State) : Result :=
  let t := s.advance (jumpLen target)
  finish do
    let u ← t.push16 t.pc
    return u.jump (s.jumpTarget target)

/-- PJSR (R262). The target is computed before the pushes, where R262 gives no order: the offset of PJSR @R6 is
R7 as it is before them (log entry 48, DESIGN CHOICE). -/
def execPjsr (target : PageEA) (s : State) : Result :=
  let u := s.advance (pageLen target)
  finish <| maxModeOnly s <|
    match s.pageTarget target with
    | none => .error (.refuse .pageJumpThroughR7)
    | some t => do
      let v ← u.push16 u.pc
      let w ← v.pushCP
      return w.pageJump t

/-- RTS (R264). -/
def execRts (s : State) : Result :=
  finish (s.advance 1).popPC

/-- PRTS (R265). -/
def execPrts (s : State) : Result :=
  finish <| maxModeOnly s do
    let t ← (s.advance 2).popCP
    t.popPC

/-- SP moved by an immediate (R266, R268, R290). -/
def addSP (s : State) (k : Imm) : State := s.setReg .r7 (s.sp + immWord k)

/-- RTD #xx:8, RTD #xx:16 (R266). -/
def execRtd (k : Imm) (s : State) : Result :=
  finish do
    let t ← (s.advance (immLen k + 1)).popPC
    return addSP t k

/-- PRTD #xx:8, PRTD #xx:16 (R268). -/
def execPrtd (k : Imm) (s : State) : Result :=
  finish <| maxModeOnly s do
    let t ← (s.advance (immLen k + 2)).popCP
    let u ← t.popPC
    return addSP u k

/-- SCB/F, SCB/NE, SCB/EQ (R270). -/
def execScb (cond : ScbCond) (rn : Reg) (d : Byte) (s : State) : Result :=
  let t := s.advance 3
  finish <| pure <|
    if s.scbHolds cond then t
    else
      let count := s.reg rn - 1
      let u := t.setReg rn count
      if count = 0xFFFF then u else u.jump (u.pc + d.signExtend 16)

end Sys2Proof.Machine
end

