-- ==== Sys2Proof/Machine/DataTransfer.lean ====
section
/-! DEFINITION. The data transfer instructions (spec/40_data_transfer.md). -/

namespace Sys2Proof.Machine

/-- MOV:G `<EAs>`,Rd (R130). -/
def execMovGLoad (sz : Size) (src : EA) (rd : Reg) (s : State) : Result :=
  finish <| intoReg sz src rd s fun s _ b => nzFlags b false s.flagC

/-- MOV:G Rs,`<EAd>` (R131). -/
def execMovGStore (sz : Size) (rs : Reg) (dst : EA) (s : State) : Result :=
  finish <| refuseIf (overlaps dst [rs]) .registerOverlap <|
    moveOut sz dst 1 s fun s => s.rd rs sz

/-- MOV:G #xx:8,`<EAd>`; the word form sign-extends (R132). -/
def execMovGImm8 (sz : Size) (v : Byte) (dst : EA) (s : State) : Result :=
  finish <| moveOut sz dst 2 s fun _ => v.signExtend sz.bits

/-- MOV:G.W #xx:16,`<EAd>` (R132). -/
def execMovGImm16 (v : Word) (dst : EA) (s : State) : Result :=
  finish <| moveOut .w dst 3 s fun _ => v

/-- MOV:E.B #xx:8,Rd (R134). -/
def execMovE (v : Byte) (rd : Reg) (s : State) : Result :=
  finish <| pure (moveIn .b rd v (s.advance 2))

/-- MOV:I.W #xx:16,Rd (R136). -/
def execMovI (v : Word) (rd : Reg) (s : State) : Result :=
  finish <| pure (moveIn .w rd v (s.advance 3))

/-- MOV:L @aa:8,Rd (R138). -/
def execMovL (sz : Size) (aa : Byte) (rd : Reg) (s : State) : Result :=
  finish do
    let s := s.advance 2
    let v ← s.ld (s.abs8 aa) sz
    return moveIn sz rd v s

/-- MOV:S Rs,@aa:8 (R140). -/
def execMovS (sz : Size) (rs : Reg) (aa : Byte) (s : State) : Result :=
  finish do
    let s := s.advance 2
    let t ← s.st (s.abs8 aa) sz (s.rd rs sz)
    return t.setAlu (nzFlags (s.rd rs sz) false t.flagC)

/-- MOV:F @(d:8,R6),Rd (R142). -/
def execMovFLoad (sz : Size) (d : Byte) (rd : Reg) (s : State) : Result :=
  finish do
    let s := s.advance 2
    let v ← s.ld (s.disp8 d .r6) sz
    return moveIn sz rd v s

/-- MOV:F Rs,@(d:8,R6) (R143). -/
def execMovFStore (sz : Size) (rs : Reg) (d : Byte) (s : State) : Result :=
  finish do
    let s := s.advance 2
    let t ← s.st (s.disp8 d .r6) sz (s.rd rs sz)
    return t.setAlu (nzFlags (s.rd rs sz) false t.flagC)

/-- The pops of LDM: R0 first; the word popped for R7 is thrown away (R144). -/
def popRegs : List Reg → State → Body State
  | [], s => pure s
  | i :: rest, s => do
    let p ← s.pop16
    popRegs rest (if i = .r7 then p.2 else p.2.setReg i p.1)

/-- LDM.W @SP+,`<register list>` (R144). R7 in the list follows `LDM_R7`. -/
def execLdm (list : Byte) (s : State) : Result :=
  finish <| refuseIf (list.getLsbD 7 && decide (s.params.ldmR7 = .refuse)) .stackPointerInList <|
    popRegs (listedRegs list) (s.advance 2)

/-- The pushes of STM, in the order given (R145). -/
def pushRegs : List Reg → State → Body State
  | [], s => pure s
  | i :: rest, s => do
    let s ← s.push16 (s.reg i)
    pushRegs rest s

/-- STM.W `<register list>`,@-SP: the highest-numbered register first (R145). R7 in the list is refused
(U10). -/
def execStm (list : Byte) (s : State) : Result :=
  finish <| refuseIf (list.getLsbD 7) .stackPointerInList <|
    pushRegs (listedRegs list).reverse (s.advance 2)

/-- XCH.W Rs,Rd (R146). -/
def execXch (rs rd : Reg) (s : State) : Result :=
  finish <| pure (((s.advance 2).setReg rs (s.reg rd)).setReg rd (s.reg rs))

/-- SWAP.B Rd; N and Z by `SWAP_NZ_SCOPE` (R148). -/
def execSwap (rd : Reg) (s : State) : Result :=
  let r : Word := loByte (s.reg rd) ++ hiByte (s.reg rd)
  let t := (s.advance 2).setReg rd r
  finish <| pure <|
    match s.params.swapScope with
    | .byte => t.setAlu (nzFlags (loByte r) false s.flagC)
    | .word => t.setAlu (nzFlags r false s.flagC)

/-- MOVTPE.B Rs,`<EAd>`: a byte store without flags; the E clock is no state (R150; log entry 37). -/
def execMovtpe (rs : Reg) (dst : EA) (s : State) : Result :=
  finish <| refuseIf (overlaps dst [rs]) .registerOverlap <|
    let p := resolve .b dst (s.advance (eaLen dst + 2))
    p.2.st p.1 .b (p.2.rd rs .b)

/-- MOVFPE.B `<EAs>`,Rd: a byte load without flags (R151; log entry 37). -/
def execMovfpe (src : EA) (rd : Reg) (s : State) : Result :=
  finish <| refuseIf (overlaps src [rd]) .registerOverlap do
    let p ← source .b src (s.advance (eaLen src + 2))
    return p.2.wr rd .b p.1

end Sys2Proof.Machine
end

