-- ==== Sys2Proof/Machine/Logic.lean ====
section
/-! DEFINITION. The logic instructions (spec/43_logic.md; their common form is R220). -/

namespace Sys2Proof.Machine

/-- AND `<EAs>`,Rd (R221). -/
def execAnd (sz : Size) (src : EA) (rd : Reg) (s : State) : Result :=
  finish <| intoReg sz src rd s fun s a b => nzFlags (a &&& b) false s.flagC

/-- OR `<EAs>`,Rd (R222). -/
def execOr (sz : Size) (src : EA) (rd : Reg) (s : State) : Result :=
  finish <| intoReg sz src rd s fun s a b => nzFlags (a ||| b) false s.flagC

/-- XOR `<EAs>`,Rd (R223). -/
def execXor (sz : Size) (src : EA) (rd : Reg) (s : State) : Result :=
  finish <| intoReg sz src rd s fun s a b => nzFlags (a ^^^ b) false s.flagC

/-- NOT `<EAd>` (R224). -/
def execNot (sz : Size) (dst : EA) (s : State) : Result :=
  finish <| modify sz dst s fun s a => nzFlags (~~~a) false s.flagC

end Sys2Proof.Machine
end

