-- ==== Sys2Proof/Machine/Shift.lean ====
section
/-! DEFINITION. The shift and rotate instructions (spec/42_shift.md; their common form is R209). -/

namespace Sys2Proof.Machine

/-- SHAL `<EAd>` (R201). -/
def execShal (sz : Size) (dst : EA) (s : State) : Result :=
  finish <| modify sz dst s fun _ a => shalFlags a

/-- SHAR `<EAd>` (R202). -/
def execShar (sz : Size) (dst : EA) (s : State) : Result :=
  finish <| modify sz dst s fun _ a => sharFlags a

/-- SHLL `<EAd>` (R203). -/
def execShll (sz : Size) (dst : EA) (s : State) : Result :=
  finish <| modify sz dst s fun _ a => shllFlags a

/-- SHLR `<EAd>` (R204). -/
def execShlr (sz : Size) (dst : EA) (s : State) : Result :=
  finish <| modify sz dst s fun _ a => shlrFlags a

/-- ROTL `<EAd>` (R205). -/
def execRotl (sz : Size) (dst : EA) (s : State) : Result :=
  finish <| modify sz dst s fun _ a => rotlFlags a

/-- ROTR `<EAd>` (R206). -/
def execRotr (sz : Size) (dst : EA) (s : State) : Result :=
  finish <| modify sz dst s fun _ a => rotrFlags a

/-- ROTXL `<EAd>` (R207). -/
def execRotxl (sz : Size) (dst : EA) (s : State) : Result :=
  finish <| modify sz dst s fun s a => rotxlFlags s.flagC a

/-- ROTXR `<EAd>` (R208). -/
def execRotxr (sz : Size) (dst : EA) (s : State) : Result :=
  finish <| modify sz dst s fun s a => rotxrFlags s.flagC a

end Sys2Proof.Machine
end

