-- ==== Sys2Proof/Machine/System.lean ====
section
/-! DEFINITION. The system control instructions (spec/46_system.md). -/

namespace Sys2Proof.Machine

/-- The vector-table entry of TRAPA #v (R64, R311). -/
def trapaEntry (v : BitVec 4) : Byte := 16 + v.setWidth 8

/-- TRAPA #xx (R280). -/
def execTrapa (v : BitVec 4) (s : State) : Result :=
  let s := s.advance 2
  finish do
    let t ← s.pushFrame s.pc
    return t.enterVector (trapaEntry v)

/-- TRAP/VS (R284, R314). -/
def execTrapvs (s : State) : Result :=
  let t := s.advance 1
  finish (if s.flagV then .error (.raised .trapVS t) else pure t)

/-- RTE (R286). -/
def execRte (s : State) : Result :=
  finish (s.advance 1).returnFromException

/-- LINK FP,#xx:8 and LINK FP,#xx:16 (R290). -/
def execLink (k : Imm) (s : State) : Result :=
  finish do
    let t ← (s.advance (immLen k + 1)).push16 (s.reg .r6)
    return addSP (t.setReg .r6 t.sp) k

/-- UNLK FP (R292). -/
def execUnlk (s : State) : Result :=
  finish do
    let p ← ((s.advance 1).setReg .r7 (s.reg .r6)).pop16
    return p.2.setReg .r6 p.1

/-- SLEEP (R294). -/
def execSleep (s : State) : Result :=
  finish <| pure { s.advance 1 with asleep := true }

/-- LDC `<EAs>`,CR (R300). -/
def execLdc (sz : Size) (src : EA) (cr : CtrlReg) (s : State) : Result :=
  finish <| refuseIf (!ctrlAllowed cr sz) .disallowedControlRegister do
    let p ← source sz src (s.advance (eaLen src + 1))
    return p.2.setCtrl cr (p.1.setWidth 16)

/-- STC CR,`<EAd>` (R301). -/
def execStc (sz : Size) (cr : CtrlReg) (dst : EA) (s : State) : Result :=
  finish <| refuseIf (!ctrlAllowed cr sz) .disallowedControlRegister <|
    let p := resolve sz dst (s.advance (eaLen dst + 1))
    let c := p.2.readCtrl cr
    c.2.st p.1 sz (c.1.setWidth sz.bits)

/-- ANDC #xx,CR (R303). -/
def execAndc (imm : Imm) (cr : CtrlReg) (s : State) : Result :=
  finish <| combineCtrl imm cr s fun a b => a &&& b

/-- ORC #xx,CR (R304). -/
def execOrc (imm : Imm) (cr : CtrlReg) (s : State) : Result :=
  finish <| combineCtrl imm cr s fun a b => a ||| b

/-- XORC #xx,CR (R305). -/
def execXorc (imm : Imm) (cr : CtrlReg) (s : State) : Result :=
  finish <| combineCtrl imm cr s fun a b => a ^^^ b

/-- NOP (R308). -/
def execNop (s : State) : Result :=
  finish <| pure (s.advance 1)

end Sys2Proof.Machine
end

