-- ==== Sys2Proof/Machine/Dispatch.lean ====
section
/-! DEFINITION. One arm per constructor of `Instr`, each a direct call of that instruction's meaning. -/

namespace Sys2Proof.Machine

/-- The meaning of an instruction in a state. -/
def exec (i : Instr) (s : State) : Host.Outcome State Fault Refusal :=
  match i with
  -- data transfer
  | .movGLoad sz src rd => Sys2Proof.Machine.execMovGLoad sz src rd s
  | .movGStore sz rs dst => Sys2Proof.Machine.execMovGStore sz rs dst s
  | .movGImm8 sz v dst => Sys2Proof.Machine.execMovGImm8 sz v dst s
  | .movGImm16 v dst => Sys2Proof.Machine.execMovGImm16 v dst s
  | .movE v rd => Sys2Proof.Machine.execMovE v rd s
  | .movI v rd => Sys2Proof.Machine.execMovI v rd s
  | .movL sz aa rd => Sys2Proof.Machine.execMovL sz aa rd s
  | .movS sz rs aa => Sys2Proof.Machine.execMovS sz rs aa s
  | .movFLoad sz d rd => Sys2Proof.Machine.execMovFLoad sz d rd s
  | .movFStore sz rs d => Sys2Proof.Machine.execMovFStore sz rs d s
  | .ldm list => Sys2Proof.Machine.execLdm list s
  | .stm list => Sys2Proof.Machine.execStm list s
  | .xch rs rd => Sys2Proof.Machine.execXch rs rd s
  | .swap rd => Sys2Proof.Machine.execSwap rd s
  | .movtpe rs dst => Sys2Proof.Machine.execMovtpe rs dst s
  | .movfpe src rd => Sys2Proof.Machine.execMovfpe src rd s
  -- arithmetic
  | .addG sz src rd => Sys2Proof.Machine.execAddG sz src rd s
  | .addQ sz k dst => Sys2Proof.Machine.execAddQ sz k dst s
  | .adds sz src rd => Sys2Proof.Machine.execAdds sz src rd s
  | .addx sz src rd => Sys2Proof.Machine.execAddx sz src rd s
  | .dadd rs rd => Sys2Proof.Machine.execDadd rs rd s
  | .sub sz src rd => Sys2Proof.Machine.execSub sz src rd s
  | .subs sz src rd => Sys2Proof.Machine.execSubs sz src rd s
  | .subx sz src rd => Sys2Proof.Machine.execSubx sz src rd s
  | .dsub rs rd => Sys2Proof.Machine.execDsub rs rd s
  | .mulxu sz src rd => Sys2Proof.Machine.execMulxu sz src rd s
  | .divxu sz src rd => Sys2Proof.Machine.execDivxu sz src rd s
  | .cmpG sz src rd => Sys2Proof.Machine.execCmpG sz src rd s
  | .cmpGImm imm dst => Sys2Proof.Machine.execCmpGImm imm dst s
  | .cmpE v rd => Sys2Proof.Machine.execCmpE v rd s
  | .cmpI v rd => Sys2Proof.Machine.execCmpI v rd s
  | .exts rd => Sys2Proof.Machine.execExts rd s
  | .extu rd => Sys2Proof.Machine.execExtu rd s
  | .tst sz dst => Sys2Proof.Machine.execTst sz dst s
  | .neg sz dst => Sys2Proof.Machine.execNeg sz dst s
  | .clr sz dst => Sys2Proof.Machine.execClr sz dst s
  | .tas dst => Sys2Proof.Machine.execTas dst s
  -- shift and rotate
  | .shal sz dst => Sys2Proof.Machine.execShal sz dst s
  | .shar sz dst => Sys2Proof.Machine.execShar sz dst s
  | .shll sz dst => Sys2Proof.Machine.execShll sz dst s
  | .shlr sz dst => Sys2Proof.Machine.execShlr sz dst s
  | .rotl sz dst => Sys2Proof.Machine.execRotl sz dst s
  | .rotr sz dst => Sys2Proof.Machine.execRotr sz dst s
  | .rotxl sz dst => Sys2Proof.Machine.execRotxl sz dst s
  | .rotxr sz dst => Sys2Proof.Machine.execRotxr sz dst s
  -- logic
  | .and sz src rd => Sys2Proof.Machine.execAnd sz src rd s
  | .or sz src rd => Sys2Proof.Machine.execOr sz src rd s
  | .xor sz src rd => Sys2Proof.Machine.execXor sz src rd s
  | .not sz dst => Sys2Proof.Machine.execNot sz dst s
  -- bit manipulation
  | .bsetImm sz k dst => Sys2Proof.Machine.execBsetImm sz k dst s
  | .bsetReg sz rs dst => Sys2Proof.Machine.execBsetReg sz rs dst s
  | .bclrImm sz k dst => Sys2Proof.Machine.execBclrImm sz k dst s
  | .bclrReg sz rs dst => Sys2Proof.Machine.execBclrReg sz rs dst s
  | .btstImm sz k dst => Sys2Proof.Machine.execBtstImm sz k dst s
  | .btstReg sz rs dst => Sys2Proof.Machine.execBtstReg sz rs dst s
  | .bnotImm sz k dst => Sys2Proof.Machine.execBnotImm sz k dst s
  | .bnotReg sz rs dst => Sys2Proof.Machine.execBnotReg sz rs dst s
  -- branch
  | .bcc cond disp => Sys2Proof.Machine.execBcc cond disp s
  | .jmp target => Sys2Proof.Machine.execJmp target s
  | .pjmp target => Sys2Proof.Machine.execPjmp target s
  | .bsr disp => Sys2Proof.Machine.execBsr disp s
  | .jsr target => Sys2Proof.Machine.execJsr target s
  | .pjsr target => Sys2Proof.Machine.execPjsr target s
  | .rts => Sys2Proof.Machine.execRts s
  | .prts => Sys2Proof.Machine.execPrts s
  | .rtd k => Sys2Proof.Machine.execRtd k s
  | .prtd k => Sys2Proof.Machine.execPrtd k s
  | .scb cond rn d => Sys2Proof.Machine.execScb cond rn d s
  -- system control
  | .trapa v => Sys2Proof.Machine.execTrapa v s
  | .trapvs => Sys2Proof.Machine.execTrapvs s
  | .rte => Sys2Proof.Machine.execRte s
  | .link k => Sys2Proof.Machine.execLink k s
  | .unlk => Sys2Proof.Machine.execUnlk s
  | .sleep => Sys2Proof.Machine.execSleep s
  | .ldc sz src cr => Sys2Proof.Machine.execLdc sz src cr s
  | .stc sz cr dst => Sys2Proof.Machine.execStc sz cr dst s
  | .andc imm cr => Sys2Proof.Machine.execAndc imm cr s
  | .orc imm cr => Sys2Proof.Machine.execOrc imm cr s
  | .xorc imm cr => Sys2Proof.Machine.execXorc imm cr s
  | .nop => Sys2Proof.Machine.execNop s

end Sys2Proof.Machine
end

