-- ==== Sys2Proof/Machine/Fetch.lean ====
section
/-! DEFINITION. What a step does before an instruction runs: which interrupt it takes
(spec/60_exceptions.md R330), which bytes it fetches (spec/10_state.md R26, spec/20_memory.md R70), and
the placing of one instruction where the next step fetches. -/

namespace Sys2Proof.Machine

/-- Whether an interrupt is accepted: its level is above the mask, or the mask does not hold it back
(R330). -/
def State.accepts (s : State) (q : Irq) : Bool := !q.maskable || decide (s.intMask < q.level)

/-- The first waiting interrupt that `accept` takes, and the others (log entry 30). -/
def firstAccepted (accept : Irq → Bool) : List Irq → Option (Irq × List Irq)
  | [] => none
  | q :: rest =>
    if accept q then some (q, rest)
    else
      match firstAccepted accept rest with
      | some (p, others) => some (p, q :: others)
      | none => none

/-- The interrupt that the next step takes. -/
def State.nextIrq (s : State) : Option (Irq × List Irq) := firstAccepted s.accepts s.irq

/-- Taking a waiting interrupt (R330). -/
def State.takeIrq (s : State) (q : Irq) (others : List Irq) : Result :=
  { s with irq := others }.enterIrq q

/-- Up to `n` bytes of code from an offset on: they end where the offset would pass H'FFFF (R26, U19) and
before a byte that the prefetch window makes unknown (R70, R361). -/
def fetchFrom (s : State) : Nat → Nat → List Byte
  | 0, _ => []
  | n + 1, off =>
    let a := s.phys .code (BitVec.ofNat 16 off)
    if off < 65536 ∧ a ∉ s.stale then s.mem.read a :: fetchFrom s n (off + 1) else []

/-- The bytes at the program counter, as many as the longest instruction has (R52, R80). -/
def State.fetched (s : State) : List Byte := fetchFrom s maxLength s.pc.toNat

/-- Why the bytes at the program counter end before the instruction does. -/
def State.fetchRefusal (s : State) : Refusal :=
  if s.pc.toNat + s.fetched.length < 65536 then .staleInstructionFetch else .straddlesPcWrap

/-- Bytes placed at code offsets from `off` on. -/
def placeBytes (s : State) : Nat → List Byte → Memory
  | _, [] => s.mem
  | off, v :: rest => Memory.write (placeBytes s (off + 1) rest) (s.phys .code (BitVec.ofNat 16 off)) v

/-- The state whose next step fetches the instruction with these bytes: awake, no interrupt to take, no
byte unknown, the bytes at the PC; the PC moves to 0 only where the longest instruction does not fit
below H'10000 (log entry 7). -/
def State.placeInstruction (s : State) (bytes : List Byte) : State :=
  let pc := if s.pc.toNat + maxLength ≤ 65536 then s.pc else 0
  { s with
    pc := pc
    asleep := false
    irq := s.irq.filter fun q => !s.accepts q
    stale := []
    mem := placeBytes s pc.toNat bytes }

end Sys2Proof.Machine
end

