-- ==== Sys2Proof/Machine/Run.lean ====
section
/-! DEFINITION. What one step is made of: the instruction at the program counter, and what comes before
it. -/

namespace Sys2Proof.Machine

/-- The instruction at the program counter: decoded from the bytes fetched now (R70) and run;
InvalidInstruction where they are no instruction (R114, R317). -/
def runInstruction (s : State) : Result :=
  match decode s.fetched with
  | .ok (i, _) => exec i s
  | .error .unassigned => s.raise .invalidInstruction
  | .error .truncated => .refused s.fetchRefusal

/-- An accepted interrupt first (R330), nothing in the power-down state (R294, R342), else the
instruction at the program counter. -/
def runStep (s : State) : Result :=
  match s.nextIrq with
  | some (q, others) => s.takeIrq q others
  | none => if s.asleep then .fault .powerDown else runInstruction s

end Sys2Proof.Machine
end

