-- ==== Sys2Proof/Safety.lean ====
section
/-! DEFINITION. What counts as a well-formed state and as a safe run, and the words in which the
statements speak of operands, of what an instruction leaves alone, and of an exception's entry. -/

namespace Sys2Proof.Machine

/-- Memory and the model's list of stale bytes are as every run leaves them: memory in canonical form,
every stale address an address. -/
def State.wf (s : State) : Bool :=
  s.mem.wf && s.stale.all fun a => decide (a < addressLimit)

/-- A result that is a next state. -/
def completes (r : Result) : Prop := ∃ t, r = .next t

/-- `n` steps from `s` end in neither a fault nor a refusal. -/
def safeFor (n : Nat) (s : State) : Prop := completes (Host.Core.run core n s)

/-! ## Operands -/

/-- `npc`: the address of the next instruction in sequence (R25). -/
def State.npc (s : State) (i : Instr) : Word := s.pc + BitVec.ofNat 16 i.length

/-- Whether an operand can be accessed: a word in memory lies at an even address (R58). -/
def State.canAccess (s : State) : Loc → Size → Bool
  | .mem k off, .w => decide (s.phys k off % 2 = 0)
  | _, _ => true

/-- The operand at a location (R91). -/
def State.valueAt (s : State) (l : Loc) : (sz : Size) → BitVec sz.bits
  | .b => match l with
    | .reg i => loByte (s.reg i)
    | .mem k off => s.mem.read (s.phys k off)
    | .imm v => loByte v
  | .w => match l with
    | .reg i => s.reg i
    | .mem k off => s.mem.word (s.phys k off)
    | .imm v => v

/-- The addresses of the bytes of a location in memory. -/
def State.bytesAt (s : State) : Loc → Size → List Nat
  | .mem k off, .b => [s.phys k off]
  | .mem k off, .w => [s.phys k off, s.phys k off + 1]
  | _, _ => []

/-- The two bytes of a stack word, `n` bytes above SP. -/
def State.stackBytes (s : State) (n : Word) : List Nat :=
  [s.phys .stack (s.sp + n), s.phys .stack (s.sp + n) + 1]

/-- A stack word, `n` bytes above SP. -/
def State.stackWord (s : State) (n : Word) : Word := s.mem.word (s.phys .stack (s.sp + n))

/-- A register behind the addressing mode's own update: @-Rn and @Rn+ move Rn by the operand's size, R7
with byte size by `R7_BYTE_STEP`; nothing else changes (R90). -/
def State.afterMode (s : State) (sz : Size) (ea : EA) (i : Reg) : Word :=
  let step : Word :=
    match sz with
    | .w => 2
    | .b => if i = .r7 then s.params.r7ByteStep else 1
  match ea with
  | .preDec rn => if i = rn then s.reg i - step else s.reg i
  | .postInc rn => if i = rn then s.reg i + step else s.reg i
  | _ => s.reg i

/-! ## What an instruction leaves alone -/

/-- The page registers, BR, CP, the run state, the parameters and the waiting interrupts are kept. -/
def controlsKept (s t : State) : Prop :=
  t.br = s.br ∧ t.ep = s.ep ∧ t.dp = s.dp ∧ t.tp = s.tp ∧ t.cp = s.cp ∧
    t.asleep = s.asleep ∧ t.params = s.params ∧ t.irq = s.irq

/-- The four flags are as given and the twelve other bits of SR are kept. -/
def flagsSet (s t : State) (n z v c : Bool) : Prop :=
  t.flagN = n ∧ t.flagZ = z ∧ t.flagV = v ∧ t.flagC = c ∧
    t.sr.extractLsb' 4 12 = s.sr.extractLsb' 4 12

/-- The registers outside the list are kept. -/
def regsKeptBut (s t : State) (l : List Reg) : Prop := ∀ i, i ∉ l → t.reg i = s.reg i

/-- The bytes of memory outside the list are kept. -/
def memKeptBut (s t : State) (l : List Nat) : Prop := ∀ a, a ∉ l → t.mem.read a = s.mem.read a

/-- Every byte of memory is kept. -/
def memKept (s t : State) : Prop := ∀ a, t.mem.read a = s.mem.read a

/-- An instruction that does not transfer control (R26) and writes no control state. -/
def sequential (i : Instr) (s t : State) : Prop := t.pc = s.npc i ∧ controlsKept s t

/-- What a source operand's addressing mode and a destination register change: the register holds the
result, its upper byte kept with byte size (R22), the other registers are as the addressing mode leaves
them, and memory is kept. -/
def intoRegister (s t : State) (sz : Size) (src : EA) (rd : Reg) (r : BitVec sz.bits) : Prop :=
  t.valueAt (.reg rd) sz = r ∧ (sz = .b → hiByte (t.reg rd) = hiByte (s.reg rd)) ∧
    (∀ i, i ≠ rd → t.reg i = s.afterMode sz src i) ∧ memKept s t

/-- What an operand's addressing mode and a write to its location `l`, resolved in `p`, change: the
location holds the result; a register destination keeps its upper byte with byte size (R22); the other
registers are as the addressing mode leaves them; the bytes of memory outside the location are kept. -/
def intoOperand (s t : State) (sz : Size) (ea : EA) (p : State) (l : Loc) (r : BitVec sz.bits) : Prop :=
  t.valueAt l sz = r ∧ (∀ i, l = .reg i → sz = .b → hiByte (t.reg i) = hiByte (s.reg i)) ∧
    (∀ i, l ≠ .reg i → t.reg i = s.afterMode sz ea i) ∧ memKeptBut s t (p.bytesAt l sz)

/-- An operand is only read: the registers are as the addressing mode leaves them, memory is kept. -/
def onlyRead (s t : State) (sz : Size) (ea : EA) : Prop :=
  (∀ i, t.reg i = s.afterMode sz ea i) ∧ memKept s t

/-! ## What a result is, in numbers and bits -/

/-- The signed sum lies outside the operand's width (R12, V). -/
def addOverflows {w : Nat} (a b : BitVec w) (c : Bool) : Bool :=
  let x : Int := a.toInt + b.toInt + c.toNat
  !decide (-2 ^ (w - 1) ≤ x ∧ x < 2 ^ (w - 1))

/-- The signed difference lies outside the operand's width (R12, V). -/
def subOverflows {w : Nat} (a b : BitVec w) (c : Bool) : Bool :=
  let x : Int := a.toInt - b.toInt - c.toNat
  !decide (-2 ^ (w - 1) ≤ x ∧ x < 2 ^ (w - 1))

/-- Z of ADDX, SUBX, DADD, DSUB from whether the result is 0 (R166). -/
def State.zAfter (s : State) (zero : Bool) : Bool :=
  if s.params.zExtended = .sticky then s.flagZ && zero else zero

/-- The number that ADD:Q adds (R162). -/
def quickValue : QuickImm → Int
  | .plus1 => 1
  | .plus2 => 2
  | .minus1 => -1
  | .minus2 => -2

/-- The number that two decimal digits stand for (R168). -/
def decimalValue (b : Byte) : Nat := 10 * (hiNibble b).toNat + (loNibble b).toNat

/-- `r` is `a` moved one bit to the left, `new` in bit 0. -/
def movedLeft {w : Nat} (r a : BitVec w) (new : Bool) : Prop :=
  ∀ k, k < w → r.getLsbD k = if k = 0 then new else a.getLsbD (k - 1)

/-- `r` is `a` moved one bit to the right, `new` in the most significant bit. -/
def movedRight {w : Nat} (r a : BitVec w) (new : Bool) : Prop :=
  ∀ k, k < w → r.getLsbD k = if k = w - 1 then new else a.getLsbD (k + 1)

/-- `r` is `a` with bit `k` replaced. -/
def bitReplaced {w : Nat} (r a : BitVec w) (k : BitVec 4) (new : Bool) : Prop :=
  ∀ j, j < w → r.getLsbD j = if j = k.toNat then new else a.getLsbD j

/-- A control register holds `v`, a byte register its low byte; every other one is kept (R300). -/
def ctrlWritten (s t : State) (cr : CtrlReg) (v : Word) : Prop :=
  t.sr = (match cr with | .sr => v | .ccr => hiByte s.sr ++ loByte v | _ => s.sr) ∧
    t.br = (match cr with | .br => loByte v | _ => s.br) ∧
    t.ep = (match cr with | .ep => loByte v | _ => s.ep) ∧
    t.dp = (match cr with | .dp => loByte v | _ => s.dp) ∧
    t.tp = (match cr with | .tp => loByte v | _ => s.tp) ∧
    t.cp = s.cp ∧ t.asleep = s.asleep ∧ t.params = s.params ∧ t.irq = s.irq

/-! ## Kinds of instruction -/

/-- The instructions that leave all four flags unchanged (R29). -/
def keepsFlags : Instr → Bool
  | .ldm _ | .stm _ | .xch _ _ | .movtpe _ _ | .movfpe _ _ | .adds _ _ _ | .subs _ _ _
  | .bcc _ _ | .jmp _ | .pjmp _ | .bsr _ | .jsr _ | .pjsr _ | .rts | .prts | .rtd _ | .prtd _
  | .scb _ _ _ | .trapa _ | .trapvs | .link _ | .unlk | .sleep | .stc _ _ _ | .nop => true
  | _ => false

/-- The instructions that write Z only (R29). -/
def writesOnlyZ : Instr → Bool
  | .bsetImm _ _ _ | .bsetReg _ _ _ | .bclrImm _ _ _ | .bclrReg _ _ _
  | .btstImm _ _ _ | .btstReg _ _ _ | .bnotImm _ _ _ | .bnotReg _ _ _ => true
  | _ => false

/-- The instructions that write Z and C only (R29). -/
def writesOnlyZC : Instr → Bool
  | .dadd _ _ | .dsub _ _ => true
  | _ => false

/-- The instructions that can write a control register by its code (R31). -/
def writesControl : Instr → Bool
  | .ldc _ _ _ | .andc _ _ | .orc _ _ | .xorc _ _ => true
  | _ => false

/-- The instructions that write CP without taking an exception (R35). -/
def writesCP : Instr → Bool
  | .pjmp _ | .pjsr _ | .prts | .prtd _ | .rte | .trapa _ => true
  | _ => false

/-- The instructions that can transfer control by their own effect: jumps, calls, returns, conditional
branches, and TRAPA's entry (R361). -/
def mayTransfer : Instr → Bool
  | .bcc _ _ | .jmp _ | .pjmp _ | .bsr _ | .jsr _ | .pjsr _ | .rts | .prts | .rtd _ | .prtd _
  | .scb _ _ _ | .trapa _ | .rte => true
  | _ => false

/-- Whether an address lies among the `PREFETCH_WINDOW` bytes from `npc` on, which may already be fetched
(R70). -/
def State.mayBeFetched (s : State) (npc : Word) (a : Nat) : Prop :=
  ∃ k, k < s.params.prefetchWindow ∧ a = s.phys .code (npc + BitVec.ofNat 16 k)

/-- The bytes can be stored to by what runs before `npc`: none of them may already be fetched, or stores to
such bytes are made (R70; log entry 29). -/
def State.storable (s : State) (npc : Word) (l : List Nat) : Prop :=
  s.params.windowStore = .track ∨ ∀ a ∈ l, ¬s.mayBeFetched npc a

/-! ## Taking an exception -/

/-- How far an entry moves SP (R322). -/
def State.frameSize (s : State) : Word := if s.params.maxMode then 6 else 4

/-- The addresses of the bytes that an entry pushes. -/
def State.frameBytes (s : State) : List Nat :=
  s.stackBytes (-2) ++ s.stackBytes (-4) ++ if s.params.maxMode then s.stackBytes (-6) else []

/-- The entry sequence from `s` to `t`, SR, the run state and the waiting interrupts apart: the words
stacked (the reserved bits of SR and the high byte of CP's word are any value), the vector read, the code at
its target fetched anew, nothing else changed (R320, R322, R361). -/
structure Entered (s t : State) (entry : Byte) (savedPC : Word) : Prop where
  sp : t.sp = s.sp - s.frameSize
  pc_pushed : s.mem.wf = true → t.mem.word (s.phys .stack (s.sp - 2)) = savedPC
  cp_pushed : s.mem.wf = true → s.params.maxMode = true → loByte (t.mem.word (s.phys .stack (s.sp - 4))) = s.cp
  sr_pushed : s.mem.wf = true →
    t.mem.word (s.phys .stack (s.sp - s.frameSize)) &&& ~~~srReserved = s.sr &&& ~~~srReserved
  pc_max : s.params.maxMode = true → t.pc = t.mem.word (4 * entry.toNat + 2)
  cp_max : s.params.maxMode = true → t.cp = t.mem.read (4 * entry.toNat + 1)
  pc_min : s.params.maxMode = false → t.pc = t.mem.word (2 * entry.toNat)
  cp_min : s.params.maxMode = false → t.cp = s.cp
  regs : regsKeptBut s t [.r7]
  mem : memKeptBut s t s.frameBytes
  pages : t.br = s.br ∧ t.ep = s.ep ∧ t.dp = s.dp ∧ t.tp = s.tp ∧ t.params = s.params
  refetched : t.stale = []

/-- SR behind a synchronous exception's entry: T cleared, every other bit kept (R320). -/
def traceCleared (s t : State) : Prop :=
  t.flagT = false ∧ ∀ k, k < 15 → t.sr.getLsbD k = s.sr.getLsbD k

/-- An instruction raises AddressError in the state `p` that its effects before it have made, where `p` has
the flags of `s`: a fault while `VEC_ADDRERR` is none, else the entry with any saved PC, refused where its
frame would lie in the prefetch window (log entry 29), or the double fault of an odd SP
(R70, R312, R318, R326). -/
def raisesAddressError (i : Instr) (s p : State) : Prop :=
  (s.params.vecAddrErr = none → exec i s = .fault .addressError) ∧
    ∀ e, s.params.vecAddrErr = some e →
      (p.sp.toNat % 2 = 0 →
        (s.storable (s.npc i) p.frameBytes → ∃ t pc, exec i s = .next t ∧ Entered p t e pc ∧
          traceCleared s t ∧ t.asleep = s.asleep ∧ t.irq = s.irq) ∧
        (¬s.storable (s.npc i) p.frameBytes → exec i s = .refused .storeInPrefetchWindow)) ∧
      (p.sp.toNat % 2 = 1 → exec i s = .fault .doubleFault)

end Sys2Proof.Machine
end

