-- ==== Sys2Proof/Certificates/Slice0/Obligations.lean ====
section
/-! DEFINITION. The statements for the provers. `p` is everywhere what the meaning resolves the EA field
to: the location `p.1` and the state `p.2` behind the addressing mode's own register update. A docstring
that names a decision D<n> says that clauses of its statement are that decision of
spec/92_eei_decisions.md, which the model follows as a rule (log entries 33 to 36, 38, 42, 44, 45), and no
sentence of the source manual. `storable` says of the bytes that an instruction stores that none of them lies
in the prefetch window behind it, or that the parameter lets such stores be made (spec/20_memory.md R70,
decision D27, on which each statement with `storable` rests; log entry 29); what happens where it does not hold
is in `FetchRefusals` and, for the frame of an exception's entry, in the statement about that entry. -/

open Sys2Proof Sys2Proof.Machine

/-! ## Encoding -/

/-- An instruction's bytes decode to it, whatever follows them, and there are 1 to 6 of them
(spec/30_encoding.md R80, R86, R95, R99, R102, R103, R104). -/
def Obligations.DecodeOfEncode : Prop :=
  ∀ (i : Instr) (rest : List Byte), i.wellFormed = true →
    decode (encode i ++ rest) = .ok (i, rest) ∧ 1 ≤ i.length ∧ i.length ≤ 6

/-- What decodes is a well-formed instruction's own bytes: no other bytes are an instruction
(spec/30_encoding.md R95, R112, R113). -/
def Obligations.DecodeOnlyEncodings : Prop :=
  ∀ (bytes : List Byte) (i : Instr) (rest : List Byte), decode bytes = .ok (i, rest) →
    i.wellFormed = true ∧ bytes = encode i ++ rest

/-- The encodings that the spec works out byte by byte (spec/30_encoding.md R86 Examples 1 and 2;
spec/70_reset_and_hazards.md R379; spec/40_data_transfer.md to spec/46_system.md, examples). -/
def Obligations.SpecWordsDecode : Prop :=
  decode [0xD0, 0x21] = .ok (.addG .b (.ind .r0) .r1, []) ∧
  decode [0x0D, 0x11, 0x21] = .ok (.addG .w (.abs8 0x11) .r1, []) ∧
  decode [0xD8, 0x21] = .ok (.addG .w (.ind .r0) .r1, []) ∧
  decode [0x11, 0xD8] = .ok (.jsr (.ind .r0), []) ∧
  decode [0xDC, 0x06, 0xFF] = .ok (.movGImm8 .w 0xFF (.ind .r4), []) ∧
  decode [0xA8, 0x19] = .ok (.shar .w (.reg .r0), []) ∧
  decode [0x04, 0x3C, 0x50] = .ok (.and .b (.imm8 0x3C) .r0, []) ∧
  decode [0xD2, 0x49] = .ok (.bsetReg .b .r1 (.ind .r2), []) ∧
  decode [0x01, 0xB9, 0xFB] = .ok (.scb .f .r1 0xFB, []) ∧
  decode [0x0C, 0xF8, 0xFF, 0x58] = .ok (.andc (.i16 0xF8FF) .sr, [])

/-- First bytes that are not assigned (spec/30_encoding.md R112). -/
def Obligations.UnassignedFirstBytes : Prop :=
  ∀ b : Byte, b = 0x0B ∨ b = 0x16 ∨ b = 0x1B →
    (∀ rest, decode (b :: rest) = .error .unassigned) ∧ ∀ i, (encode i).head? ≠ some b

/-! ## Steps -/

/-- A step runs the decoded instruction and adds nothing to it, where no interrupt is accepted and the CPU
is awake (spec/00_scope.md R14; spec/20_memory.md R70). Rests on decisions D24, D26, D27. -/
def Obligations.StepRunsDecoded : Prop :=
  ∀ (s : State) (i : Instr) (rest : List Byte),
    s.asleep = false → s.nextIrq = none → decode s.fetched = .ok (i, rest) → step s = exec i s

/-- A step runs the instruction whose bytes stand in memory at the PC, below H'10000 and outside what the
prefetch window makes unknown (spec/10_state.md R25, R26; spec/20_memory.md R70;
spec/30_encoding.md R80). Rests on decisions D6, D27, D34. -/
def Obligations.StepRunsInstructionInMemory : Prop :=
  ∀ (s : State) (i : Instr), i.wellFormed = true → s.asleep = false → s.nextIrq = none →
    s.pc.toNat + i.length ≤ 65536 →
    (∀ k (h : k < (encode i).length),
      s.mem.read (s.phys .code (s.pc + BitVec.ofNat 16 k)) = (encode i)[k] ∧
      s.phys .code (s.pc + BitVec.ofNat 16 k) ∉ s.stale) →
    step s = exec i s

/-- Bytes that are no instruction raise InvalidInstruction before any state is changed: a fault while
`VEC_INVALID` is none, else the entry with any saved PC (spec/30_encoding.md R114;
spec/60_exceptions.md R312, R317, R326; log entries 12, 14). That the entry is refused where its frame would lie
in the prefetch window, counted from the PC, is the model's choice (log entry 29), and no rule of the spec.
Rests on decisions D19, D21, D22. -/
def Obligations.UnassignedBytesRaise : Prop :=
  ∀ s : State, s.asleep = false → s.nextIrq = none → decode s.fetched = .error .unassigned →
    (s.params.vecInvalid = none → step s = .fault .invalidInstruction) ∧
    ∀ e, s.params.vecInvalid = some e →
      (s.sp.toNat % 2 = 0 →
        (s.storable s.pc s.frameBytes → ∃ t w, step s = .next t ∧ Entered s t e w ∧ traceCleared s t ∧
          t.asleep = s.asleep ∧ t.irq = s.irq) ∧
        (¬s.storable s.pc s.frameBytes → step s = .refused .storeInPrefetchWindow)) ∧
      (s.sp.toNat % 2 = 1 → step s = .fault .doubleFault)

/-- The prefetch window and the end of the page. Where the parameter refuses stores into the window, every
instruction whose own store or push has a byte in the window behind it is refused, and no instruction that
completes changes a byte of it or makes one unknown (spec/20_memory.md R70). Where the parameter tracks such
stores: a step does not run an instruction that has a byte which they made unknown, the bytes before it fetched;
an instruction that does not transfer control adds to the list of such bytes every byte it changes in the window,
adds no address outside it and takes none away (exceptions apart, which the settings exclude here); a transfer
of control empties the list (spec/70_reset_and_hazards.md R361; the list and the parameter are the model's, log
entry 29, as is that a push is a store like another). Nor does a step run an instruction whose bytes run past
H'FFFF (spec/10_state.md R26). Rests on decisions D27, D34. -/
def Obligations.FetchRefusals : Prop :=
  (∀ (s : State) (i : Instr) (n : Nat), i.wellFormed = true → s.asleep = false → s.nextIrq = none →
    n < i.length → s.pc.toNat + n < 65536 →
    (∀ k (h : k < (encode i).length), k < n →
      s.mem.read (s.phys .code (s.pc + BitVec.ofNat 16 k)) = (encode i)[k] ∧
      s.phys .code (s.pc + BitVec.ofNat 16 k) ∉ s.stale) →
    s.phys .code (s.pc + BitVec.ofNat 16 n) ∈ s.stale →
    step s = .refused .staleInstructionFetch) ∧
  (∀ (s : State) (i : Instr), i.wellFormed = true → s.asleep = false → s.nextIrq = none →
    s.stale = [] → 65536 < s.pc.toNat + i.length →
    (∀ k (h : k < (encode i).length), s.pc.toNat + k < 65536 →
      s.mem.read (s.phys .code (s.pc + BitVec.ofNat 16 k)) = (encode i)[k]) →
    step s = .refused .straddlesPcWrap) ∧
  (∀ (i : Instr) (s t : State), mayTransfer i = false → s.params.vecZeroDiv = none →
    s.params.vecTrapVS = none → s.params.vecAddrErr = none → exec i s = .next t →
    (∀ a ∈ s.stale, a ∈ t.stale) ∧
    (∀ a, t.mem.read a ≠ s.mem.read a → s.mayBeFetched (s.npc i) a → a ∈ t.stale) ∧
    ∀ a ∈ t.stale, a ∈ s.stale ∨ s.mayBeFetched (s.npc i) a) ∧
  (∀ (i : Instr) (s t : State), mayTransfer i = true → (∀ c d, i ≠ .bcc c d) → (∀ c r d, i ≠ .scb c r d) →
    exec i s = .next t → t.stale = []) ∧
  (∀ (s t : State) (c : Cond) (disp : Disp) (sc : ScbCond) (rn : Reg) (d : Byte),
    (exec (.bcc c disp) s = .next t → t.stale = if s.holds c then [] else s.stale) ∧
    (exec (.scb sc rn d) s = .next t →
      t.stale = if s.scbHolds sc ∨ s.reg rn = 0 then s.stale else [])) ∧
  (∀ (i : Instr) (s t : State), s.params.windowStore = .refuse → exec i s = .next t →
    (∀ a, s.mayBeFetched (s.npc i) a → t.mem.read a = s.mem.read a) ∧ ∀ a ∈ t.stale, a ∈ s.stale) ∧
  (∀ (sz : Size) (dst : EA) (r : Reg) (x : Byte) (w : Word) (q : QuickImm) (k : BitVec 4) (cr : CtrlReg) (s : State),
    dst.isMem = true →
    let free := overlaps dst [r] = false
    let isBit (n : Nat) := sz = .b → n < 8
    ∀ e ∈ [(Instr.movGStore sz r dst, sz, free), (.movGImm8 sz x dst, sz, True), (.movGImm16 w dst, .w, True),
        (.movtpe r dst, .b, free), (.addQ sz q dst, sz, True), (.neg sz dst, sz, True), (.clr sz dst, sz, True),
        (.tas dst, .b, True), (.shal sz dst, sz, True), (.shar sz dst, sz, True), (.shll sz dst, sz, True),
        (.shlr sz dst, sz, True), (.rotl sz dst, sz, True), (.rotr sz dst, sz, True), (.rotxl sz dst, sz, True),
        (.rotxr sz dst, sz, True), (.not sz dst, sz, True), (.bsetImm sz k dst, sz, isBit k.toNat),
        (.bclrImm sz k dst, sz, isBit k.toNat), (.bnotImm sz k dst, sz, isBit k.toNat),
        (.bsetReg sz r dst, sz, free ∧ isBit ((s.reg r).toNat % 16)),
        (.bclrReg sz r dst, sz, free ∧ isBit ((s.reg r).toNat % 16)),
        (.bnotReg sz r dst, sz, free ∧ isBit ((s.reg r).toNat % 16)), (.stc sz cr dst, sz, ctrlAllowed cr sz = true)],
      let p := resolve e.2.1 dst s
      e.2.2 → p.2.canAccess p.1 e.2.1 = true → ¬s.storable (s.npc e.1) (p.2.bytesAt p.1 e.2.1) →
        exec e.1 s = .refused .storeInPrefetchWindow) ∧
  (∀ (sz : Size) (x : Byte) (r : Reg) (s : State),
    ∀ e ∈ [(Instr.movS sz r x, Loc.mem .zero (s.br ++ x)),
        (.movFStore sz r x, .mem .stack (s.reg .r6 + BitVec.ofInt 16 x.toInt))],
      s.canAccess e.2 sz = true → ¬s.storable (s.npc e.1) (s.bytesAt e.2 sz) →
        exec e.1 s = .refused .storeInPrefetchWindow) ∧
  ∀ (d : Disp) (j : JumpEA) (m : Imm) (g : PageEA) (list : Byte) (s : State), s.sp.toNat % 2 = 0 →
    (∀ i ∈ [Instr.bsr d, .jsr j, .link m], ¬s.storable (s.npc i) (s.stackBytes (-2)) →
      exec i s = .refused .storeInPrefetchWindow) ∧
    (s.params.maxMode = true → (s.pageTarget g).isSome = true →
      ¬s.storable (s.npc (.pjsr g)) (s.stackBytes (-2) ++ s.stackBytes (-4)) →
      exec (.pjsr g) s = .refused .storeInPrefetchWindow) ∧
    (list.getLsbD 7 = false → ∀ k, k < (listedRegs list).length →
      ¬s.storable (s.npc (.stm list)) (s.stackBytes (-BitVec.ofNat 16 (2 * k + 2))) →
      exec (.stm list) s = .refused .storeInPrefetchWindow)

/-- Taking an interrupt that is above the mask or not maskable saves the PC, sets the mask to its level, wakes the
CPU and takes the request off the list; requests that the mask holds back are not taken
(spec/60_exceptions.md R330). Two clauses are the model's choice, and no rule of the spec: that of several
requests that could be taken it is the first in the list (log entry 30; R328 and R330 give no order), and that
the entry is refused where its frame would lie in the prefetch window, counted from the PC (log entry 29).
Rests on decisions D19, D21, D24. -/
def Obligations.InterruptEntry : Prop :=
  (∀ (s : State) (before after : List Irq) (q : Irq), s.irq = before ++ q :: after →
    (∀ r ∈ before, r.maskable = true ∧ r.level ≤ s.intMask) →
    (q.maskable = false ∨ s.intMask < q.level) → s.sp.toNat % 2 = 0 →
    (s.storable s.pc s.frameBytes →
      ∃ t, step s = .next t ∧ Entered s t q.entry s.pc ∧ t.intMask = q.level ∧ t.flagT = false ∧
        (∀ k, k < 15 → (k < 8 ∨ 10 < k) → t.sr.getLsbD k = s.sr.getLsbD k) ∧
        t.asleep = false ∧ t.irq = before ++ after) ∧
    (¬s.storable s.pc s.frameBytes → step s = .refused .storeInPrefetchWindow)) ∧
  ∀ s : State, (∀ r ∈ s.irq, r.maskable = true ∧ r.level ≤ s.intMask) → s.nextIrq = none

/-! ## Reset -/

/-- What reset leaves, for every setting of the parameters and every memory image
(spec/10_state.md R45; spec/70_reset_and_hazards.md R350, R351, R352; the spec's own choices, log entry 4;
`State.reset` takes the parameters of log entry 1 and an empty image, log entry 7).
Rests on decisions D23, D25. -/
def Obligations.ResetValues : Prop :=
  (∀ (params : Config.Params) (mem : Memory),
    let s := State.resetFrom params mem
    s.flagT = false ∧ s.intMask = 7 ∧ s.asleep = false ∧ s.mem = mem ∧ s.params = params ∧ s.irq = [] ∧
      (params.maxMode = true → s.cp = mem.read 1 ∧ s.pc = mem.word 2) ∧
      (params.maxMode = false → s.pc = mem.word 0)) ∧
  State.reset = State.resetFrom Config.Params.atReset []

/-- The state after reset is well formed. -/
def Obligations.ResetIsWellFormed : Prop := State.reset.wf = true

/-! ## Memory -/

/-- A read after a write gives the byte written there and the old byte elsewhere, a write keeps the
canonical form, and canonical memories with the same bytes are the same memory (spec/20_memory.md R56). -/
def Obligations.MemoryLaws : Prop :=
  (∀ (m : Memory) (a b : Nat) (v : Byte), m.wf = true →
    (m.write a v).read b = if b = a then v else m.read b) ∧
  (∀ (m : Memory) (a : Nat) (v : Byte), m.wf = true → a < addressLimit → (m.write a v).wf = true) ∧
  ∀ m n : Memory, m.wf = true → n.wf = true → (∀ a, m.read a = n.read a) → m = n

/-! ## Invariants and who writes what -/

/-- Every step from a well-formed state leads to a well-formed state. -/
def Obligations.StepKeepsWellFormed : Prop :=
  ∀ s t : State, s.wf = true → step s = .next t → t.wf = true

/-- No step changes a parameter; the operating mode is fixed for a run (spec/00_scope.md R6;
spec/10_state.md R40; spec/70_reset_and_hazards.md R352). Rests on decision D2. -/
def Obligations.StepKeepsParams : Prop :=
  ∀ s t : State, step s = .next t → t.params = s.params

/-- In minimum mode no step changes CP or a byte above H'FFFF (spec/10_state.md R35;
spec/20_memory.md R51, R53). Rests on decision D10. -/
def Obligations.MinimumModeConfined : Prop :=
  ∀ s t : State, s.params.maxMode = false → step s = .next t →
    t.cp = s.cp ∧ ∀ a, 65536 ≤ a → t.mem.read a = s.mem.read a

/-- Which instructions write BR, EP, DP, TP, which SR's upper byte, which CP (an exception's entry apart,
which the settings exclude here), which the run state; none takes an interrupt request off the list
(spec/10_state.md R31, R32, R35, R38). Rests on decisions D20, D21. -/
def Obligations.ControlStateWriters : Prop :=
  ∀ (i : Instr) (s t : State), exec i s = .next t →
    (writesControl i = false → t.br = s.br ∧ t.ep = s.ep ∧ t.dp = s.dp ∧ t.tp = s.tp) ∧
    (writesControl i = false → i ≠ .rte → t.intMask = s.intMask) ∧
    (writesCP i = false → s.params.vecZeroDiv = none → s.params.vecTrapVS = none →
      s.params.vecAddrErr = none → t.cp = s.cp) ∧
    (i ≠ .sleep → t.asleep = s.asleep) ∧ t.irq = s.irq

/-- Which flags an instruction leaves unchanged, also where it takes an exception
(spec/10_state.md R29; spec/44_bit.md R240). Rests on decisions D20, D21. -/
def Obligations.FlagWriters : Prop :=
  ∀ (i : Instr) (s t : State), exec i s = .next t →
    (keepsFlags i = true → t.flagN = s.flagN ∧ t.flagZ = s.flagZ ∧ t.flagV = s.flagV ∧ t.flagC = s.flagC) ∧
    (writesOnlyZ i = true → t.flagN = s.flagN ∧ t.flagV = s.flagV ∧ t.flagC = s.flagC) ∧
    (writesOnlyZC i = true → t.flagN = s.flagN ∧ t.flagV = s.flagV)

/-! ## Exceptions -/

/-- TRAPA #v enters through entry 16 + v with the next instruction's address saved; it is refused where its frame
would lie in the prefetch window (spec/46_system.md R280; spec/60_exceptions.md R320, R322;
spec/20_memory.md R70; log entry 29). Rests on decisions D19, D21, D27, D37. -/
def Obligations.TrapaEntry : Prop :=
  ∀ (v : BitVec 4) (s : State), s.sp.toNat % 2 = 0 →
    (s.storable (s.npc (.trapa v)) s.frameBytes →
      ∃ t, exec (.trapa v) s = .next t ∧ Entered s t (BitVec.ofNat 8 (16 + v.toNat)) (s.npc (.trapa v)) ∧
        traceCleared s t ∧ t.asleep = s.asleep ∧ t.irq = s.irq) ∧
    (¬s.storable (s.npc (.trapa v)) s.frameBytes → exec (.trapa v) s = .refused .storeInPrefetchWindow)

/-- TRAP/VS only moves the PC while V = 0 and enters through `VEC_TRAPVS` while V = 1, refused where the frame
would lie in the prefetch window (spec/46_system.md R284; spec/60_exceptions.md R312, R314;
spec/20_memory.md R70; log entry 29). Rests on decisions D19, D21, D27. -/
def Obligations.TrapVsBothWays : Prop :=
  ∀ s : State,
    (s.flagV = false → exec .trapvs s = .next { s with pc := s.npc .trapvs }) ∧
    (s.flagV = true → s.params.vecTrapVS = none → exec .trapvs s = .fault .trapVS) ∧
    ∀ e, s.flagV = true → s.params.vecTrapVS = some e →
      (s.sp.toNat % 2 = 0 →
        (s.storable (s.npc .trapvs) s.frameBytes → ∃ t, exec .trapvs s = .next t ∧
          Entered s t e (s.npc .trapvs) ∧ traceCleared s t ∧ t.asleep = s.asleep ∧ t.irq = s.irq) ∧
        (¬s.storable (s.npc .trapvs) s.frameBytes → exec .trapvs s = .refused .storeInPrefetchWindow)) ∧
      (s.sp.toNat % 2 = 1 → exec .trapvs s = .fault .doubleFault)

/-- RTE pops SR, in maximum mode CP, and the PC (spec/46_system.md R286; spec/60_exceptions.md R324). That the
reserved bits of SR are stored as popped is the model's choice (log entry 10), and no rule of the spec.
Rests on decisions D3, D19. -/
def Obligations.RteResult : Prop :=
  ∀ s : State, s.sp.toNat % 2 = 0 →
    ∃ t, exec .rte s = .next t ∧ t.sr = s.stackWord 0 ∧
      (s.params.maxMode = true → t.cp = loByte (s.stackWord 2) ∧ t.pc = s.stackWord 4) ∧
      (s.params.maxMode = false → t.cp = s.cp ∧ t.pc = s.stackWord 2) ∧
      t.sp = s.sp + s.frameSize ∧ regsKeptBut s t [.r7] ∧ memKept s t ∧
      t.br = s.br ∧ t.ep = s.ep ∧ t.dp = s.dp ∧ t.tp = s.tp ∧ t.asleep = s.asleep ∧
      t.params = s.params ∧ t.irq = s.irq

/-- A handler that returns at once: RTE behind TRAPA restores everything but the reserved bits of SR and
the bytes of the frame (spec/46_system.md R280, R286; spec/60_exceptions.md R324).
Rests on decisions D3, D19, D21. -/
def Obligations.TrapaThenRte : Prop :=
  ∀ (v : BitVec 4) (s : State), s.wf = true → s.sp.toNat % 2 = 0 →
    s.storable (s.npc (.trapa v)) s.frameBytes →
    ∃ t u, exec (.trapa v) s = .next t ∧ exec .rte t = .next u ∧
      u.pc = s.npc (.trapa v) ∧ u.sr &&& ~~~srReserved = s.sr &&& ~~~srReserved ∧
      u.regs = s.regs ∧ memKeptBut s u s.frameBytes ∧ controlsKept s u

/-- DIVXU by zero raises ZeroDivide behind the operand's access, Rd and the flags untouched: a fault while
`VEC_ZERODIV` is none, else the entry with the next instruction's address saved, refused where its frame would
lie in the prefetch window (spec/41_arithmetic.md R178; spec/60_exceptions.md R312, R316; spec/20_memory.md R70;
log entry 29). Rests on decisions D12, D19, D21, D27, D32. -/
def Obligations.ZeroDivideEntry : Prop :=
  ∀ (sz : Size) (src : EA) (rd : Reg) (s : State),
    (sz = .b ∧ overlaps src [rd] = false ∨
      ∃ low, sz = .w ∧ pairLow? rd = some low ∧ overlaps src [rd, low] = false) →
    let p := resolve sz src (s.advance (eaLen src + 1))
    p.2.canAccess p.1 sz = true → p.2.valueAt p.1 sz = 0 →
    (s.params.vecZeroDiv = none → exec (.divxu sz src rd) s = .fault .zeroDivide) ∧
    ∀ e, s.params.vecZeroDiv = some e →
      (p.2.sp.toNat % 2 = 0 →
        (s.storable (s.npc (.divxu sz src rd)) p.2.frameBytes → ∃ t, exec (.divxu sz src rd) s = .next t ∧
          Entered p.2 t e (s.npc (.divxu sz src rd)) ∧ traceCleared s t ∧ t.asleep = s.asleep ∧ t.irq = s.irq) ∧
        (¬s.storable (s.npc (.divxu sz src rd)) p.2.frameBytes →
          exec (.divxu sz src rd) s = .refused .storeInPrefetchWindow)) ∧
      (p.2.sp.toNat % 2 = 1 → exec (.divxu sz src rd) s = .fault .doubleFault)

/-- A word operand at an odd address raises AddressError before anything but the addressing mode's register
is changed: in the general format, and in MOV:L, MOV:S and MOV:F (spec/20_memory.md R58;
spec/60_exceptions.md R312, R318). The entry is refused where its frame would lie in the prefetch window
(spec/20_memory.md R70; log entry 29). Rests on decisions D5, D19, D21, D27. -/
def Obligations.OddWordOperand : Prop :=
  (∀ (ea : EA) (r m low : Reg) (v : Byte) (w : Word) (q : QuickImm) (k : BitVec 4) (s : State),
    ea.isMem = true → overlaps ea [r] = false → pairLow? m = some low → overlaps ea [m, low] = false →
    let p := resolve .w ea s
    p.2.canAccess p.1 .w = false →
    ∀ i ∈ [Instr.movGLoad .w ea r, .movGStore .w r ea, .movGImm8 .w v ea, .movGImm16 w ea, .addG .w ea r,
        .addQ .w q ea, .adds .w ea r, .addx .w ea r, .sub .w ea r, .subs .w ea r, .subx .w ea r,
        .cmpG .w ea r, .cmpGImm (.i16 w) ea, .tst .w ea, .neg .w ea, .clr .w ea,
        .shal .w ea, .shar .w ea, .shll .w ea, .shlr .w ea, .rotl .w ea, .rotr .w ea, .rotxl .w ea,
        .rotxr .w ea, .and .w ea r, .or .w ea r, .xor .w ea r, .not .w ea, .bsetImm .w k ea,
        .bsetReg .w r ea, .bclrImm .w k ea, .bclrReg .w r ea, .btstImm .w k ea, .btstReg .w r ea,
        .bnotImm .w k ea, .bnotReg .w r ea, .mulxu .w ea m, .divxu .w ea m, .ldc .w ea .sr,
        .stc .w .sr ea], raisesAddressError i s p.2) ∧
  ∀ (x : Byte) (r : Reg) (s : State),
    (s.canAccess (.mem .zero (s.br ++ x)) .w = false →
      raisesAddressError (.movL .w x r) s s ∧ raisesAddressError (.movS .w r x) s s) ∧
    (s.canAccess (.mem .stack (s.reg .r6 + BitVec.ofInt 16 x.toInt)) .w = false →
      raisesAddressError (.movFLoad .w x r) s s ∧ raisesAddressError (.movFStore .w r x) s s)

/-- With an odd SP every instruction that pushes or pops through it raises AddressError, whose entry then
meets the odd SP itself: a fault either way, and which one depends on `VEC_ADDRERR`; so does taking an
interrupt, and UNLK with an odd FP (spec/20_memory.md R58, R63; spec/60_exceptions.md R318, R326;
log entry 14). Rests on decisions D3, D5, D21. -/
def Obligations.OddStackPointer : Prop :=
  ∀ (s : State) (v : BitVec 4) (d : Disp) (j : JumpEA) (g : PageEA) (m : Imm) (list : Byte),
    let stops (i : Instr) : Prop :=
      (s.params.vecAddrErr = none → exec i s = .fault .addressError) ∧
      (s.params.vecAddrErr ≠ none → exec i s = .fault .doubleFault)
    (s.sp.toNat % 2 = 1 →
      (∀ i ∈ [Instr.trapa v, .rte, .bsr d, .jsr j, .rts, .rtd m, .link m], stops i) ∧
      (s.params.maxMode = true → (s.pageTarget g).isSome = true →
        ∀ i ∈ [Instr.pjsr g, .prts, .prtd m], stops i) ∧
      (list ≠ 0 → list.getLsbD 7 = false → ∀ i ∈ [Instr.ldm list, .stm list], stops i) ∧
      (s.nextIrq ≠ none → step s = .fault .doubleFault)) ∧
    ((s.reg .r6).toNat % 2 = 1 → stops .unlk)

/-! ## Operands -/

/-- The location of each of the ten addressing modes and what the mode does to its register; an immediate
operand is the immediate, and nothing is changed; the page registers by base register and mode
(spec/30_encoding.md R90, R91; spec/20_memory.md R53, R54, R55).
Rests on decisions D7, D8, D9, D10. -/
def Obligations.AddressingModes : Prop :=
  ∀ (sz : Size) (rn : Reg) (d8 aa8 : Byte) (d16 aa16 : Word) (s : State),
    let kind : Kind := match rn with | .r0 | .r1 | .r2 | .r3 => .data | .r4 | .r5 => .ext | .r6 | .r7 => .stack
    resolve sz (.reg rn) s = (.reg rn, s) ∧
    resolve sz (.ind rn) s = (.mem kind (s.reg rn), s) ∧
    resolve sz (.disp8 d8 rn) s = (.mem kind (s.reg rn + d8.signExtend 16), s) ∧
    resolve sz (.disp16 d16 rn) s = (.mem kind (s.reg rn + d16), s) ∧
    (let a := s.afterMode sz (.preDec rn) rn
     resolve sz (.preDec rn) s = (.mem kind a, s.setReg rn a)) ∧
    resolve sz (.postInc rn) s = (.mem kind (s.reg rn), s.setReg rn (s.afterMode sz (.postInc rn) rn)) ∧
    resolve sz (.abs8 aa8) s = (.mem .zero (s.br ++ aa8), s) ∧
    resolve sz (.abs16 aa16) s = (.mem .data aa16, s) ∧
    (∃ l, resolve .b (.imm8 d8) s = (l, s) ∧ s.valueAt l .b = d8 ∧ s.ld l .b = .ok d8) ∧
    (∃ l, resolve .w (.imm16 d16) s = (l, s) ∧ s.valueAt l .w = d16 ∧ s.ld l .w = .ok d16) ∧
    ∀ (k : Kind) (off : Word),
      (s.params.maxMode = false → s.phys k off = off.toNat) ∧
      (s.params.maxMode = true → s.phys k off = off.toNat + 65536 *
        (match k with | .code => s.cp | .data => s.dp | .ext => s.ep | .stack => s.tp | .zero => 0).toNat)

/-! ## Data transfer -/

/-- MOV:G <EAs>,Rd (spec/40_data_transfer.md R130). -/
def Obligations.MovLoadResult : Prop :=
  ∀ (sz : Size) (src : EA) (rd : Reg) (s : State), overlaps src [rd] = false →
    let p := resolve sz src (s.advance (eaLen src + 1))
    p.2.canAccess p.1 sz = true →
    let v := p.2.valueAt p.1 sz
    ∃ t, exec (.movGLoad sz src rd) s = .next t ∧ intoRegister s t sz src rd v ∧
      flagsSet s t v.msb (v == 0) false s.flagC ∧ sequential (.movGLoad sz src rd) s t

/-- MOV:G Rs,<EAd> and MOV:G #xx,<EAd>, whose #xx:8 form with word size sign-extends
(spec/40_data_transfer.md R131, R132). Rests on decision D7. -/
def Obligations.MovStoreResult : Prop :=
  (∀ (sz : Size) (rs : Reg) (dst : EA) (s : State), s.wf = true → dst.isMem = true →
    overlaps dst [rs] = false →
    let p := resolve sz dst (s.advance (eaLen dst + 1))
    p.2.canAccess p.1 sz = true → s.storable (s.npc (.movGStore sz rs dst)) (p.2.bytesAt p.1 sz) →
    let v := s.valueAt (.reg rs) sz
    ∃ t, exec (.movGStore sz rs dst) s = .next t ∧ intoOperand s t sz dst p.2 p.1 v ∧
      flagsSet s t v.msb (v == 0) false s.flagC ∧ sequential (.movGStore sz rs dst) s t) ∧
  (∀ (sz : Size) (x : Byte) (dst : EA) (s : State), s.wf = true → dst.isMem = true →
    let p := resolve sz dst (s.advance (eaLen dst + 2))
    p.2.canAccess p.1 sz = true → s.storable (s.npc (.movGImm8 sz x dst)) (p.2.bytesAt p.1 sz) →
    let v := BitVec.ofInt sz.bits x.toInt
    ∃ t, exec (.movGImm8 sz x dst) s = .next t ∧ intoOperand s t sz dst p.2 p.1 v ∧
      flagsSet s t v.msb (v == 0) false s.flagC ∧ sequential (.movGImm8 sz x dst) s t) ∧
  ∀ (v : Word) (dst : EA) (s : State), s.wf = true → dst.isMem = true →
    let p := resolve .w dst (s.advance (eaLen dst + 3))
    p.2.canAccess p.1 .w = true → s.storable (s.npc (.movGImm16 v dst)) (p.2.bytesAt p.1 .w) →
    ∃ t, exec (.movGImm16 v dst) s = .next t ∧ intoOperand s t .w dst p.2 p.1 v ∧
      flagsSet s t v.msb (v == 0) false s.flagC ∧ sequential (.movGImm16 v dst) s t

/-- MOV:E and MOV:I, their encodings among it (spec/40_data_transfer.md R134, R136). -/
def Obligations.MovShortImmediateResult : Prop :=
  ∀ (x : Byte) (v : Word) (rd : Reg) (s : State),
    (encode (.movE x rd) = [0b01010#5 ++ rd.toBits, x] ∧
      ∃ t, exec (.movE x rd) s = .next t ∧ t.reg rd = hiByte (s.reg rd) ++ x ∧ regsKeptBut s t [rd] ∧
        memKept s t ∧ flagsSet s t (x.getLsbD 7) (x == 0) false s.flagC ∧ sequential (.movE x rd) s t) ∧
    encode (.movI v rd) = [0b01011#5 ++ rd.toBits, hiByte v, loByte v] ∧
      ∃ t, exec (.movI v rd) s = .next t ∧ t.reg rd = v ∧ regsKeptBut s t [rd] ∧
        memKept s t ∧ flagsSet s t (v.getLsbD 15) (v == 0) false s.flagC ∧ sequential (.movI v rd) s t

/-- MOV:L, MOV:S at BR : aa in page 0 and MOV:F at R6 + d in R6's page
(spec/40_data_transfer.md R138, R140, R142, R143). Rests on decisions D7, D9, D10. -/
def Obligations.MovShortMemoryResult : Prop :=
  ∀ (sz : Size) (x : Byte) (r : Reg) (s : State),
    let atBr : Loc := .mem .zero (s.br ++ x)
    let atFp : Loc := .mem .stack (s.reg .r6 + BitVec.ofInt 16 x.toInt)
    (∀ e ∈ [(Instr.movL sz x r, atBr), (.movFLoad sz x r, atFp)], s.canAccess e.2 sz = true →
      let v := s.valueAt e.2 sz
      ∃ t, exec e.1 s = .next t ∧ t.valueAt (.reg r) sz = v ∧
        (sz = .b → hiByte (t.reg r) = hiByte (s.reg r)) ∧ regsKeptBut s t [r] ∧ memKept s t ∧
        flagsSet s t v.msb (v == 0) false s.flagC ∧ sequential e.1 s t) ∧
    ∀ e ∈ [(Instr.movS sz r x, atBr), (.movFStore sz r x, atFp)], s.wf = true → s.canAccess e.2 sz = true →
      s.storable (s.npc e.1) (s.bytesAt e.2 sz) →
      let v := s.valueAt (.reg r) sz
      ∃ t, exec e.1 s = .next t ∧ t.valueAt e.2 sz = v ∧ t.regs = s.regs ∧
        memKeptBut s t (s.bytesAt e.2 sz) ∧
        flagsSet s t v.msb (v == 0) false s.flagC ∧ sequential e.1 s t

/-- LDM pops the listed registers, R0 first, the word of R7 thrown away under `LDM_R7` = discard; STM pushes
them, the highest-numbered first (spec/40_data_transfer.md R144, R145). Rests on decisions D3, D18. -/
def Obligations.LdmStmResult : Prop :=
  ∀ (list : Byte) (s : State), s.sp.toNat % 2 = 0 →
    let l := listedRegs list
    (list.getLsbD 7 = false ∨ s.params.ldmR7 = .discard →
      ∃ t, exec (.ldm list) s = .next t ∧
        (∀ k (h : k < l.length), l[k] ≠ .r7 → t.reg l[k] = s.stackWord (BitVec.ofNat 16 (2 * k))) ∧
        t.sp = s.sp + BitVec.ofNat 16 (2 * l.length) ∧ regsKeptBut s t (.r7 :: l) ∧ memKept s t ∧
        t.sr = s.sr ∧ sequential (.ldm list) s t) ∧
    (s.wf = true → list.getLsbD 7 = false →
      (∀ k, k < l.length → s.storable (s.npc (.stm list)) (s.stackBytes (-BitVec.ofNat 16 (2 * k + 2)))) →
      ∃ t, exec (.stm list) s = .next t ∧ t.sp = s.sp - BitVec.ofNat 16 (2 * l.length) ∧
        (∀ k (h : k < l.length), t.stackWord (BitVec.ofNat 16 (2 * k)) = s.reg l[k]) ∧
        regsKeptBut s t [.r7] ∧
        (∀ a, (∀ k, k < l.length → a ∉ t.stackBytes (BitVec.ofNat 16 (2 * k))) → t.mem.read a = s.mem.read a) ∧
        t.sr = s.sr ∧ sequential (.stm list) s t)

/-- LDM with the list of an STM restores every listed register and SP, whatever the registers hold in
between (spec/40_data_transfer.md R144, R145). Rests on decisions D3, D18. -/
def Obligations.StmThenLdm : Prop :=
  ∀ (list : Byte) (s : State), s.wf = true → s.sp.toNat % 2 = 0 → list.getLsbD 7 = false →
    (∀ k, k < (listedRegs list).length →
      s.storable (s.npc (.stm list)) (s.stackBytes (-BitVec.ofNat 16 (2 * k + 2)))) →
    ∃ t, exec (.stm list) s = .next t ∧
      ∀ g : Regs, g.get .r7 = t.sp →
        ∃ u, exec (.ldm list) { t with regs := g } = .next u ∧
          (∀ i ∈ listedRegs list, u.reg i = s.reg i) ∧ u.sp = s.sp ∧
          (∀ i, i ∉ listedRegs list → i ≠ .r7 → u.reg i = g.get i)

/-- XCH, its encoding and the byte form that does not exist among it (spec/40_data_transfer.md R146). -/
def Obligations.XchResult : Prop :=
  ∀ (rs rd : Reg) (s : State),
    encode (.xch rs rd) = [0b10101#5 ++ rs.toBits, 0b10010#5 ++ rd.toBits] ∧
    (∀ rest, decode ((0b10100#5 ++ rs.toBits) :: (0b10010#5 ++ rd.toBits) :: rest) = .error .unassigned) ∧
    ∃ t, exec (.xch rs rd) s = .next t ∧ t.reg rd = s.reg rs ∧ t.reg rs = s.reg rd ∧
      regsKeptBut s t [rs, rd] ∧ memKept s t ∧ t.sr = s.sr ∧ sequential (.xch rs rd) s t

/-- SWAP, with N and Z of the new low byte or of the word by `SWAP_NZ_SCOPE`
(spec/40_data_transfer.md R148). Rests on decision D15. -/
def Obligations.SwapResult : Prop :=
  ∀ (rd : Reg) (s : State),
    ∃ t, exec (.swap rd) s = .next t ∧ hiByte (t.reg rd) = loByte (s.reg rd) ∧
      loByte (t.reg rd) = hiByte (s.reg rd) ∧ regsKeptBut s t [rd] ∧ memKept s t ∧
      (s.params.swapScope = .byte → flagsSet s t ((t.reg rd).getLsbD 7) (loByte (t.reg rd) == 0) false s.flagC) ∧
      (s.params.swapScope = .word → flagsSet s t ((t.reg rd).getLsbD 15) (t.reg rd == 0) false s.flagC) ∧
      sequential (.swap rd) s t

/-- MOVTPE and MOVFPE move a byte and leave SR alone (spec/40_data_transfer.md R150, R151).
Rests on decision D29. -/
def Obligations.PeripheralMoveResult : Prop :=
  ∀ (ea : EA) (r : Reg) (s : State), s.wf = true → ea.isMem = true → overlaps ea [r] = false →
    let p := resolve .b ea (s.advance (eaLen ea + 2))
    (s.storable (s.npc (.movtpe r ea)) (p.2.bytesAt p.1 .b) →
      ∃ t, exec (.movtpe r ea) s = .next t ∧ intoOperand s t .b ea p.2 p.1 (s.valueAt (.reg r) .b) ∧
        t.sr = s.sr ∧ sequential (.movtpe r ea) s t) ∧
    ∃ t, exec (.movfpe ea r) s = .next t ∧ intoRegister s t .b ea r (p.2.valueAt p.1 .b) ∧
      t.sr = s.sr ∧ sequential (.movfpe ea r) s t

/-! ## Arithmetic -/

/-- ADD:G, SUB, ADDX, SUBX: the sum or difference modulo 2^n, C the carry or borrow of the exact unsigned
values, V whether the exact signed value does not fit, Z of the extended forms by `Z_EXTENDED`
(spec/41_arithmetic.md R160, R166, R170, R172; spec/00_scope.md R12). Rests on decisions D13, D31. -/
def Obligations.AddSubtractResult : Prop :=
  ∀ (sz : Size) (src : EA) (rd : Reg) (s : State), overlaps src [rd] = false →
    let p := resolve sz src (s.advance (eaLen src + 1))
    p.2.canAccess p.1 sz = true →
    let a := s.valueAt (.reg rd) sz
    let b := p.2.valueAt p.1 sz
    let c := s.flagC
    let carry := BitVec.ofNat sz.bits c.toNat
    (∃ t, exec (.addG sz src rd) s = .next t ∧ intoRegister s t sz src rd (a + b) ∧
      flagsSet s t (a + b).msb (a + b == 0) (addOverflows a b false) (decide (2 ^ sz.bits ≤ a.toNat + b.toNat)) ∧
      sequential (.addG sz src rd) s t) ∧
    (∃ t, exec (.sub sz src rd) s = .next t ∧ intoRegister s t sz src rd (a - b) ∧
      flagsSet s t (a - b).msb (a == b) (subOverflows a b false) (decide (a.toNat < b.toNat)) ∧
      sequential (.sub sz src rd) s t) ∧
    (∃ t, exec (.addx sz src rd) s = .next t ∧ intoRegister s t sz src rd (a + b + carry) ∧
      flagsSet s t (a + b + carry).msb (s.zAfter (a + b + carry == 0)) (addOverflows a b c)
        (decide (2 ^ sz.bits ≤ a.toNat + b.toNat + c.toNat)) ∧
      sequential (.addx sz src rd) s t) ∧
    ∃ t, exec (.subx sz src rd) s = .next t ∧ intoRegister s t sz src rd (a - b - carry) ∧
      flagsSet s t (a - b - carry).msb (s.zAfter (a - b - carry == 0)) (subOverflows a b c)
        (decide (a.toNat < b.toNat + c.toNat)) ∧
      sequential (.subx sz src rd) s t

/-- ADDS and SUBS: the whole of Rd for either size, a byte source sign-extended, SR kept
(spec/41_arithmetic.md R164, R171). Rests on decision D7. -/
def Obligations.AddsSubsResult : Prop :=
  ∀ (sz : Size) (src : EA) (rd : Reg) (s : State), overlaps src [rd] = false →
    let p := resolve sz src (s.advance (eaLen src + 1))
    p.2.canAccess p.1 sz = true →
    let b := BitVec.ofInt 16 (p.2.valueAt p.1 sz).toInt
    ∀ e ∈ [(Instr.adds sz src rd, s.reg rd + b), (.subs sz src rd, s.reg rd - b)],
      ∃ t, exec e.1 s = .next t ∧ t.reg rd = e.2 ∧ (∀ i, i ≠ rd → t.reg i = s.afterMode sz src i) ∧
        memKept s t ∧ t.sr = s.sr ∧ sequential e.1 s t

/-- ADD:Q adds 1, 2, -1 or -2 to a register or memory operand; C of the negative forms by `ADDQ_NEG_C`,
any value under its default (spec/41_arithmetic.md R162; log entry 15). Rests on decisions D31, D40. -/
def Obligations.AddQuickResult : Prop :=
  ∀ (sz : Size) (q : QuickImm) (dst : EA) (s : State), s.wf = true → dst.isDest = true →
    let p := resolve sz dst (s.advance (eaLen dst + 1))
    p.2.canAccess p.1 sz = true → s.storable (s.npc (.addQ sz q dst)) (p.2.bytesAt p.1 sz) →
    let a := p.2.valueAt p.1 sz
    let r := a + BitVec.ofInt sz.bits (quickValue q)
    ∃ t c, exec (.addQ sz q dst) s = .next t ∧ intoOperand s t sz dst p.2 p.1 r ∧
      flagsSet s t r.msb (r == 0)
        (!decide (-2 ^ (sz.bits - 1) ≤ a.toInt + quickValue q ∧ a.toInt + quickValue q < 2 ^ (sz.bits - 1))) c ∧
      (0 < quickValue q → c = decide ((2 : Int) ^ sz.bits ≤ a.toNat + quickValue q)) ∧
      (quickValue q < 0 → s.params.addqNegC = .borrow → c = decide ((a.toNat : Int) + quickValue q < 0)) ∧
      (quickValue q < 0 → s.params.addqNegC = .add → c = decide (0 ≤ (a.toNat : Int) + quickValue q)) ∧
      sequential (.addQ sz q dst) s t

/-- DADD and DSUB: on decimal digits the decimal sum and difference with C as carry and borrow; on any
other digits the low byte, Z and C are any value and everything else is as on decimal digits
(spec/41_arithmetic.md R168, R174; log entry 19). Rests on decisions D13, D16. -/
def Obligations.DecimalResult : Prop :=
  ∀ (rs rd : Reg) (s : State),
    let a := loByte (s.reg rd)
    let b := loByte (s.reg rs)
    let digits := isDecimal a = true ∧ isDecimal b = true
    (∃ t r z c, exec (.dadd rs rd) s = .next t ∧ intoRegister s t .b (.reg rs) rd r ∧
      flagsSet s t s.flagN z s.flagV c ∧ sequential (.dadd rs rd) s t ∧
      (digits → isDecimal r = true ∧ z = s.zAfter (r == 0) ∧
        decimalValue r + 100 * c.toNat = decimalValue a + decimalValue b + s.flagC.toNat)) ∧
    ∃ t r z c, exec (.dsub rs rd) s = .next t ∧ intoRegister s t .b (.reg rs) rd r ∧
      flagsSet s t s.flagN z s.flagV c ∧ sequential (.dsub rs rd) s t ∧
      (digits → isDecimal r = true ∧ z = s.zAfter (r == 0) ∧
        decimalValue r + decimalValue b + s.flagC.toNat = decimalValue a + 100 * c.toNat)

/-- MULXU: the product of the exact unsigned values, in Rd for bytes, in the pair of an even Rd for words
(spec/41_arithmetic.md R176). Rests on decision D12. -/
def Obligations.MulxuResult : Prop :=
  (∀ (src : EA) (rd : Reg) (s : State), overlaps src [rd] = false →
    let p := resolve .b src (s.advance (eaLen src + 1))
    ∃ t, exec (.mulxu .b src rd) s = .next t ∧
      (t.reg rd).toNat = (loByte (s.reg rd)).toNat * (p.2.valueAt p.1 .b).toNat ∧
      (∀ i, i ≠ rd → t.reg i = s.afterMode .b src i) ∧ memKept s t ∧
      flagsSet s t (t.reg rd).msb (t.reg rd == 0) false false ∧ sequential (.mulxu .b src rd) s t) ∧
  ∀ (src : EA) (rd low : Reg) (s : State), pairLow? rd = some low → overlaps src [rd, low] = false →
    let p := resolve .w src (s.advance (eaLen src + 1))
    p.2.canAccess p.1 .w = true →
    ∃ t, exec (.mulxu .w src rd) s = .next t ∧
      (t.reg rd).toNat * 65536 + (t.reg low).toNat = (s.reg low).toNat * (p.2.valueAt p.1 .w).toNat ∧
      (∀ i, i ≠ rd → i ≠ low → t.reg i = s.afterMode .w src i) ∧ memKept s t ∧
      flagsSet s t (t.reg rd).msb (t.reg rd == 0 && t.reg low == 0) false false ∧
      sequential (.mulxu .w src rd) s t

/-- DIVXU by a divisor that is not 0: quotient and remainder where the upper half of the dividend is below
the divisor; else V = 1, C = 0, N and Z any value and the destination by `DIVXU_OVF_DEST`
(spec/41_arithmetic.md R178; log entry 20). Rests on decisions D12, D32. -/
def Obligations.DivxuResult : Prop :=
  (∀ (src : EA) (rd : Reg) (s : State), overlaps src [rd] = false →
    let p := resolve .b src (s.advance (eaLen src + 1))
    let b := p.2.valueAt p.1 .b
    b ≠ 0 →
    ∃ t, exec (.divxu .b src rd) s = .next t ∧ (∀ i, i ≠ rd → t.reg i = s.afterMode .b src i) ∧
      memKept s t ∧ sequential (.divxu .b src rd) s t ∧
      (hiByte (s.reg rd) < b →
        (s.reg rd).toNat = (loByte (t.reg rd)).toNat * b.toNat + (hiByte (t.reg rd)).toNat ∧
        hiByte (t.reg rd) < b ∧
        flagsSet s t (loByte (t.reg rd)).msb (loByte (t.reg rd) == 0) false false) ∧
      (b ≤ hiByte (s.reg rd) → (∃ n z, flagsSet s t n z true false) ∧
        (s.params.divxuOvfDest = .unchanged → t.reg rd = s.reg rd))) ∧
  ∀ (src : EA) (rd low : Reg) (s : State), pairLow? rd = some low → overlaps src [rd, low] = false →
    let p := resolve .w src (s.advance (eaLen src + 1))
    let b := p.2.valueAt p.1 .w
    p.2.canAccess p.1 .w = true → b ≠ 0 →
    ∃ t, exec (.divxu .w src rd) s = .next t ∧ (∀ i, i ≠ rd → i ≠ low → t.reg i = s.afterMode .w src i) ∧
      memKept s t ∧ sequential (.divxu .w src rd) s t ∧
      (s.reg rd < b →
        (s.reg rd).toNat * 65536 + (s.reg low).toNat = (t.reg low).toNat * b.toNat + (t.reg rd).toNat ∧
        t.reg rd < b ∧ flagsSet s t (t.reg low).msb (t.reg low == 0) false false) ∧
      (b ≤ s.reg rd → (∃ n z, flagsSet s t n z true false) ∧
        (s.params.divxuOvfDest = .unchanged → t.reg rd = s.reg rd ∧ t.reg low = s.reg low))

/-- The flags of a comparison of `a` with `b` (spec/00_scope.md R12). Rests on decision D31. -/
def Obligations.CompareResult : Prop :=
  (∀ (sz : Size) (src : EA) (rd : Reg) (s : State), overlaps src [rd] = false →
    let p := resolve sz src (s.advance (eaLen src + 1))
    p.2.canAccess p.1 sz = true →
    let a := s.valueAt (.reg rd) sz
    let b := p.2.valueAt p.1 sz
    ∃ t, exec (.cmpG sz src rd) s = .next t ∧ onlyRead s t sz src ∧
      flagsSet s t (a - b).msb (a == b) (subOverflows a b false) (decide (a.toNat < b.toNat)) ∧
      sequential (.cmpG sz src rd) s t) ∧
  (∀ (b : Byte) (dst : EA) (s : State), dst.isMem = true →
    let p := resolve .b dst (s.advance (eaLen dst + 2))
    let a := p.2.valueAt p.1 .b
    ∃ t, exec (.cmpGImm (.i8 b) dst) s = .next t ∧ onlyRead s t .b dst ∧
      flagsSet s t (a - b).msb (a == b) (subOverflows a b false) (decide (a.toNat < b.toNat)) ∧
      sequential (.cmpGImm (.i8 b) dst) s t) ∧
  (∀ (b : Word) (dst : EA) (s : State), dst.isMem = true →
    let p := resolve .w dst (s.advance (eaLen dst + 3))
    p.2.canAccess p.1 .w = true →
    let a := p.2.valueAt p.1 .w
    ∃ t, exec (.cmpGImm (.i16 b) dst) s = .next t ∧ onlyRead s t .w dst ∧
      flagsSet s t (a - b).msb (a == b) (subOverflows a b false) (decide (a.toNat < b.toNat)) ∧
      sequential (.cmpGImm (.i16 b) dst) s t) ∧
  (∀ (b : Byte) (rd : Reg) (s : State),
    let a := loByte (s.reg rd)
    ∃ t, exec (.cmpE b rd) s = .next t ∧ t.regs = s.regs ∧ memKept s t ∧
      flagsSet s t (a - b).msb (a == b) (subOverflows a b false) (decide (a.toNat < b.toNat)) ∧
      sequential (.cmpE b rd) s t) ∧
  ∀ (b : Word) (rd : Reg) (s : State),
    let a := s.reg rd
    ∃ t, exec (.cmpI b rd) s = .next t ∧ t.regs = s.regs ∧ memKept s t ∧
      flagsSet s t (a - b).msb (a == b) (subOverflows a b false) (decide (a.toNat < b.toNat)) ∧
      sequential (.cmpI b rd) s t

/-- EXTS and EXTU, their encodings among it (spec/41_arithmetic.md R184, R185). -/
def Obligations.ExtendResult : Prop :=
  ∀ (rd : Reg) (s : State),
    (encode (.exts rd) = [0b10100#5 ++ rd.toBits, 0x11] ∧
      ∃ t, exec (.exts rd) s = .next t ∧ (t.reg rd).toInt = (loByte (s.reg rd)).toInt ∧
        regsKeptBut s t [rd] ∧ memKept s t ∧
        flagsSet s t ((s.reg rd).getLsbD 7) (loByte (s.reg rd) == 0) false false ∧ sequential (.exts rd) s t) ∧
    encode (.extu rd) = [0b10100#5 ++ rd.toBits, 0x12] ∧
      ∃ t, exec (.extu rd) s = .next t ∧ (t.reg rd).toNat = (loByte (s.reg rd)).toNat ∧
        regsKeptBut s t [rd] ∧ memKept s t ∧
        flagsSet s t false (loByte (s.reg rd) == 0) false false ∧ sequential (.extu rd) s t

/-- TST reads, NEG subtracts from 0 (V by `NEG_V`), CLR writes 0, TAS sets bit 7 with the flags of the value
before (spec/41_arithmetic.md R186, R188, R190, R192). Rests on decision D14. -/
def Obligations.TstNegClrTasResult : Prop :=
  (∀ (sz : Size) (dst : EA) (s : State), s.wf = true → dst.isDest = true →
    let p := resolve sz dst (s.advance (eaLen dst + 1))
    p.2.canAccess p.1 sz = true →
    let a := p.2.valueAt p.1 sz
    (∃ t, exec (.tst sz dst) s = .next t ∧ onlyRead s t sz dst ∧
      flagsSet s t a.msb (a == 0) false false ∧ sequential (.tst sz dst) s t) ∧
    (s.storable (s.npc (.neg sz dst)) (p.2.bytesAt p.1 sz) →
      ∃ t, exec (.neg sz dst) s = .next t ∧ intoOperand s t sz dst p.2 p.1 (-a) ∧
        flagsSet s t (-a).msb (a == 0)
          (decide (s.params.negV = .overflow) && decide (a.toInt = -2 ^ (sz.bits - 1))) (a != 0) ∧
        sequential (.neg sz dst) s t) ∧
    (s.storable (s.npc (.clr sz dst)) (p.2.bytesAt p.1 sz) →
      ∃ t, exec (.clr sz dst) s = .next t ∧ intoOperand s t sz dst p.2 p.1 0 ∧
        flagsSet s t false true false false ∧ sequential (.clr sz dst) s t)) ∧
  ∀ (dst : EA) (s : State), s.wf = true → dst.isDest = true →
    let p := resolve .b dst (s.advance (eaLen dst + 1))
    let a := p.2.valueAt p.1 .b
    s.storable (s.npc (.tas dst)) (p.2.bytesAt p.1 .b) →
    ∃ t r, exec (.tas dst) s = .next t ∧ bitReplaced r a 7 true ∧ intoOperand s t .b dst p.2 p.1 r ∧
      flagsSet s t a.msb (a == 0) false false ∧ sequential (.tas dst) s t

/-! ## Shift and rotate -/

/-- SHAL, SHLL, ROTL, ROTXL: one bit to the left, C the bit shifted out, V of SHAL whether the doubled signed
value does not fit (spec/42_shift.md R201, R203, R205, R207, R209). Rests on decision D31. -/
def Obligations.ShiftLeftResult : Prop :=
  ∀ (sz : Size) (dst : EA) (s : State), s.wf = true → dst.isDest = true →
    let p := resolve sz dst (s.advance (eaLen dst + 1))
    p.2.canAccess p.1 sz = true →
    let a := p.2.valueAt p.1 sz
    ∀ e ∈ [(Instr.shal sz dst, false, addOverflows a a false), (.shll sz dst, false, false),
        (.rotl sz dst, a.msb, false), (.rotxl sz dst, s.flagC, false)],
      s.storable (s.npc e.1) (p.2.bytesAt p.1 sz) →
      ∃ t r, exec e.1 s = .next t ∧ movedLeft r a e.2.1 ∧ intoOperand s t sz dst p.2 p.1 r ∧
        flagsSet s t r.msb (r == 0) e.2.2 a.msb ∧ sequential e.1 s t

/-- SHAR, SHLR, ROTR, ROTXR: one bit to the right, C the bit shifted out, V cleared
(spec/42_shift.md R202, R204, R206, R208, R209). Rests on decision D31. -/
def Obligations.ShiftRightResult : Prop :=
  ∀ (sz : Size) (dst : EA) (s : State), s.wf = true → dst.isDest = true →
    let p := resolve sz dst (s.advance (eaLen dst + 1))
    p.2.canAccess p.1 sz = true →
    let a := p.2.valueAt p.1 sz
    ∀ e ∈ [(Instr.shar sz dst, a.msb), (.shlr sz dst, false), (.rotr sz dst, a.getLsbD 0),
        (.rotxr sz dst, s.flagC)],
      s.storable (s.npc e.1) (p.2.bytesAt p.1 sz) →
      ∃ t r, exec e.1 s = .next t ∧ movedRight r a e.2 ∧ intoOperand s t sz dst p.2 p.1 r ∧
        flagsSet s t r.msb (r == 0) false (a.getLsbD 0) ∧ sequential e.1 s t

/-! ## Logic -/

/-- AND, OR, XOR and NOT, their Op bytes among it (spec/43_logic.md R220, R221, R222, R223, R224). -/
def Obligations.LogicResult : Prop :=
  (∀ (sz : Size) (src : EA) (rd : Reg) (s : State), overlaps src [rd] = false →
    let p := resolve sz src (s.advance (eaLen src + 1))
    p.2.canAccess p.1 sz = true →
    let a := s.valueAt (.reg rd) sz
    let b := p.2.valueAt p.1 sz
    ∀ e ∈ [(Instr.and sz src rd, a &&& b, 0b01010#5), (.or sz src rd, a ||| b, 0b01000#5),
        (.xor sz src rd, a ^^^ b, 0b01100#5)],
      encode e.1 = encodeEA sz src ++ [e.2.2 ++ rd.toBits] ∧
      ∃ t, exec e.1 s = .next t ∧ intoRegister s t sz src rd e.2.1 ∧
        flagsSet s t e.2.1.msb (e.2.1 == 0) false s.flagC ∧ sequential e.1 s t) ∧
  ∀ (sz : Size) (dst : EA) (s : State), s.wf = true → dst.isDest = true →
    let p := resolve sz dst (s.advance (eaLen dst + 1))
    encode (.not sz dst) = encodeEA sz dst ++ [0x15] ∧
    (p.2.canAccess p.1 sz = true → s.storable (s.npc (.not sz dst)) (p.2.bytesAt p.1 sz) →
      let r := ~~~(p.2.valueAt p.1 sz)
      ∃ t, exec (.not sz dst) s = .next t ∧ intoOperand s t sz dst p.2 p.1 r ∧
        flagsSet s t r.msb (r == 0) false s.flagC ∧ sequential (.not sz dst) s t)

/-! ## Bits -/

/-- BSET, BCLR, BNOT replace bit k and BTST only reads it, their Op bytes among it; Z is the bit's complement
before the change; k is the immediate or the low 4 bits of Rs (spec/44_bit.md R230 to R238).
Rests on decision D17. -/
def Obligations.BitResult : Prop :=
  ∀ (sz : Size) (k : BitVec 4) (rs : Reg) (dst : EA) (s : State), s.wf = true → dst.isDest = true →
    k.toNat < sz.bits →
    let p := resolve sz dst (s.advance (eaLen dst + 1))
    p.2.canAccess p.1 sz = true →
    let a := p.2.valueAt p.1 sz
    let old := a.getLsbD k.toNat
    let byReg := overlaps dst [rs] = false ∧ (s.reg rs).toNat % 16 = k.toNat
    (∀ e ∈ [(Instr.bsetImm sz k dst, True, true, 0b1100#4 ++ k), (.bclrImm sz k dst, True, false, 0b1101#4 ++ k),
        (.bnotImm sz k dst, True, !old, 0b1110#4 ++ k), (.bsetReg sz rs dst, byReg, true, 0b01001#5 ++ rs.toBits),
        (.bclrReg sz rs dst, byReg, false, 0b01011#5 ++ rs.toBits),
        (.bnotReg sz rs dst, byReg, !old, 0b01101#5 ++ rs.toBits)],
      encode e.1 = encodeEA sz dst ++ [e.2.2.2] ∧
      (e.2.1 → s.storable (s.npc e.1) (p.2.bytesAt p.1 sz) →
        ∃ t r, exec e.1 s = .next t ∧ bitReplaced r a k e.2.2.1 ∧ intoOperand s t sz dst p.2 p.1 r ∧
          flagsSet s t s.flagN (!old) s.flagV s.flagC ∧ sequential e.1 s t)) ∧
    ∀ e ∈ [(Instr.btstImm sz k dst, True, 0b1111#4 ++ k), (.btstReg sz rs dst, byReg, 0b01111#5 ++ rs.toBits)],
      encode e.1 = encodeEA sz dst ++ [e.2.2] ∧
      (e.2.1 → ∃ t, exec e.1 s = .next t ∧ onlyRead s t sz dst ∧
        flagsSet s t s.flagN (!old) s.flagV s.flagC ∧ sequential e.1 s t)

/-! ## Branches -/

/-- Bcc: the target or the next instruction by the table of conditions, nothing else changed
(spec/45_branch.md R250, R251). Rests on decisions D6, D7. -/
def Obligations.BccResult : Prop :=
  ∀ (disp : Disp) (s : State),
    let d : Word := match disp with | .d8 x => BitVec.ofInt 16 x.toInt | .d16 x => x
    let n := s.flagN
    let z := s.flagZ
    let v := s.flagV
    let c := s.flagC
    ∀ e ∈ [(Cond.bra, true), (.brn, false), (.bhi, !(c || z)), (.bls, c || z), (.bcc, !c), (.bcs, c),
        (.bne, !z), (.beq, z), (.bvc, !v), (.bvs, v), (.bpl, !n), (.bmi, n), (.bge, n == v), (.blt, n != v),
        (.bgt, !z && n == v), (.ble, z || n != v)],
      ∃ t, exec (.bcc e.1 disp) s = .next t ∧
        t.pc = (if e.2 then s.npc (.bcc e.1 disp) + d else s.npc (.bcc e.1 disp)) ∧
        t.regs = s.regs ∧ memKept s t ∧ t.sr = s.sr ∧ controlsKept s t

/-- Behind a comparison of Rd with an operand, BHI, BLS, BHS (BCC), BLO (BCS) are the unsigned orders, BGE,
BLT, BGT, BLE the signed ones, BEQ and BNE equality (spec/45_branch.md R251; spec/00_scope.md R12).
Rests on decision D31. -/
def Obligations.ConditionsAfterCompare : Prop :=
  ∀ (sz : Size) (src : EA) (rd : Reg) (s : State), overlaps src [rd] = false →
    let p := resolve sz src (s.advance (eaLen src + 1))
    p.2.canAccess p.1 sz = true →
    let a := s.valueAt (.reg rd) sz
    let b := p.2.valueAt p.1 sz
    ∃ t, exec (.cmpG sz src rd) s = .next t ∧
      ∀ e ∈ [(Cond.bhi, decide (b.toNat < a.toNat)), (.bls, decide (a.toNat ≤ b.toNat)),
          (.bcc, decide (b.toNat ≤ a.toNat)), (.bcs, decide (a.toNat < b.toNat)),
          (.bge, decide (b.toInt ≤ a.toInt)), (.blt, decide (a.toInt < b.toInt)),
          (.bgt, decide (b.toInt < a.toInt)), (.ble, decide (a.toInt ≤ b.toInt)),
          (.beq, a == b), (.bne, a != b)],
        ∀ disp : Disp, ∃ u, exec (.bcc e.1 disp) t = .next u ∧
          u.pc = if e.2 then t.npc (.bcc e.1 disp) + dispWord disp else t.npc (.bcc e.1 disp)

/-- JMP, its encodings among it: the effective address itself becomes the PC, nothing else is changed
(spec/45_branch.md R254). Rests on decision D7. -/
def Obligations.JmpResult : Prop :=
  ∀ (rn : Reg) (d : Byte) (w : Word) (s : State),
    ∀ e ∈ [(JumpEA.abs16 w, w, [0x10, hiByte w, loByte w]), (.ind rn, s.reg rn, [0x11, 0b11010#5 ++ rn.toBits]),
        (.disp8 d rn, s.reg rn + BitVec.ofInt 16 d.toInt, [0x11, 0b11100#5 ++ rn.toBits, d]),
        (.disp16 w rn, s.reg rn + w, [0x11, 0b11110#5 ++ rn.toBits, hiByte w, loByte w])],
      encode (.jmp e.1) = e.2.2 ∧
      ∃ t, exec (.jmp e.1) s = .next t ∧ t.pc = e.2.1 ∧ t.regs = s.regs ∧ memKept s t ∧ t.sr = s.sr ∧
        controlsKept s t

/-- PJMP and PJSR in maximum mode: the page and the offset from the instruction, or the page from the low
byte of Rn and the offset from the next register; PJSR pushes the next instruction's address and CP
(spec/45_branch.md R256, R262; spec/20_memory.md R62). That PJSR @R6 takes its offset from R7 as it is before
the pushes is the model's choice (log entry 48), and no rule of the spec. Rests on decisions D6, D19. -/
def Obligations.PageJumpResult : Prop :=
  ∀ (target : PageEA) (s : State) (page : Byte) (off : Word), s.wf = true → s.params.maxMode = true →
    (target = .abs24 page off ∨
      ∃ rn next, target = .ind rn ∧ nextReg? rn = some next ∧ page = loByte (s.reg rn) ∧ off = s.reg next) →
    (∃ t, exec (.pjmp target) s = .next t ∧ t.pc = off ∧ t.cp = page ∧ t.regs = s.regs ∧ memKept s t ∧
      t.sr = s.sr ∧ t.br = s.br ∧ t.ep = s.ep ∧ t.dp = s.dp ∧ t.tp = s.tp ∧ t.asleep = s.asleep ∧
      t.params = s.params ∧ t.irq = s.irq) ∧
    (s.sp.toNat % 2 = 0 → s.storable (s.npc (.pjsr target)) (s.stackBytes (-2) ++ s.stackBytes (-4)) →
      ∃ t, exec (.pjsr target) s = .next t ∧ t.pc = off ∧ t.cp = page ∧ t.sp = s.sp - 4 ∧
        t.mem.word (s.phys .stack (s.sp - 2)) = s.npc (.pjsr target) ∧
        loByte (t.mem.word (s.phys .stack (s.sp - 4))) = s.cp ∧ regsKeptBut s t [.r7] ∧
        memKeptBut s t (s.stackBytes (-2) ++ s.stackBytes (-4)) ∧
        t.sr = s.sr ∧ t.br = s.br ∧ t.ep = s.ep ∧ t.dp = s.dp ∧ t.tp = s.tp ∧ t.asleep = s.asleep ∧
        t.params = s.params ∧ t.irq = s.irq)

/-- BSR and JSR push the next instruction's address; JSR's target is computed before the push
(spec/45_branch.md R258, R260). Rests on decisions D3, D6, D7. -/
def Obligations.CallResult : Prop :=
  ∀ (s : State) (disp : Disp) (rn : Reg) (d : Byte) (w : Word), s.wf = true → s.sp.toNat % 2 = 0 →
    ∀ e ∈ [(Instr.bsr disp, s.npc (.bsr disp) + dispWord disp), (.jsr (.abs16 w), w), (.jsr (.ind rn), s.reg rn),
        (.jsr (.disp8 d rn), s.reg rn + BitVec.ofInt 16 d.toInt), (.jsr (.disp16 w rn), s.reg rn + w)],
      s.storable (s.npc e.1) (s.stackBytes (-2)) →
      ∃ t, exec e.1 s = .next t ∧ t.pc = e.2 ∧ t.sp = s.sp - 2 ∧
        t.mem.word (s.phys .stack (s.sp - 2)) = s.npc e.1 ∧ regsKeptBut s t [.r7] ∧
        memKeptBut s t (s.stackBytes (-2)) ∧ t.sr = s.sr ∧ controlsKept s t

/-- RTS, RTD pop the PC; PRTS, PRTD in maximum mode pop CP and the PC; RTD and PRTD then add their immediate
to SP (spec/45_branch.md R264, R265, R266, R268). Rests on decisions D3, D7, D19. -/
def Obligations.ReturnResult : Prop :=
  ∀ (s : State) (k : Imm), s.sp.toNat % 2 = 0 →
    let n : Word := match k with | .i8 x => BitVec.ofInt 16 x.toInt | .i16 x => x
    (∀ e ∈ [(Instr.rts, (0 : Word)), (.rtd k, n)],
      ∃ t, exec e.1 s = .next t ∧ t.pc = s.stackWord 0 ∧ t.sp = s.sp + 2 + e.2 ∧ regsKeptBut s t [.r7] ∧
        memKept s t ∧ t.sr = s.sr ∧ controlsKept s t) ∧
    (s.params.maxMode = true → ∀ e ∈ [(Instr.prts, (0 : Word)), (.prtd k, n)],
      ∃ t, exec e.1 s = .next t ∧ t.cp = loByte (s.stackWord 0) ∧ t.pc = s.stackWord 2 ∧
        t.sp = s.sp + 4 + e.2 ∧ regsKeptBut s t [.r7] ∧ memKept s t ∧ t.sr = s.sr ∧
        t.br = s.br ∧ t.ep = s.ep ∧ t.dp = s.dp ∧ t.tp = s.tp ∧ t.asleep = s.asleep ∧
        t.params = s.params ∧ t.irq = s.irq)

/-- A call and the return behind it: the instruction behind the call runs next, in the same page, with the
same registers (spec/45_branch.md R258, R260, R262, R264, R265). Rests on decisions D3, D6, D19. -/
def Obligations.CallThenReturn : Prop :=
  ∀ s : State, s.wf = true → s.sp.toNat % 2 = 0 →
    (∀ i, (∃ disp, i = Instr.bsr disp) ∨ (∃ target, i = .jsr target) →
      s.storable (s.npc i) (s.stackBytes (-2)) →
      ∃ t u, exec i s = .next t ∧ exec .rts t = .next u ∧ u.pc = s.npc i ∧ u.regs = s.regs ∧ u.sr = s.sr ∧
        controlsKept s u ∧ memKeptBut s u (s.stackBytes (-2))) ∧
    ∀ target, s.params.maxMode = true → (s.pageTarget target).isSome = true →
      s.storable (s.npc (.pjsr target)) (s.stackBytes (-2) ++ s.stackBytes (-4)) →
      ∃ t u, exec (.pjsr target) s = .next t ∧ exec .prts t = .next u ∧ u.pc = s.npc (.pjsr target) ∧
        u.regs = s.regs ∧ u.sr = s.sr ∧ controlsKept s u ∧
        memKeptBut s u (s.stackBytes (-2) ++ s.stackBytes (-4))

/-- SCB: the loop ends on the condition with Rn untouched, or on the count, or goes on
(spec/45_branch.md R270). Rests on decisions D6, D7. -/
def Obligations.ScbResult : Prop :=
  ∀ (rn : Reg) (d : Byte) (s : State),
    ∀ e ∈ [(ScbCond.f, false), (.ne, !s.flagZ), (.eq, s.flagZ)],
      ∃ t, exec (.scb e.1 rn d) s = .next t ∧
        t.reg rn = (if e.2 then s.reg rn else s.reg rn - 1) ∧
        t.pc = (if e.2 ∨ s.reg rn = 0 then s.npc (.scb e.1 rn d)
          else s.npc (.scb e.1 rn d) + BitVec.ofInt 16 d.toInt) ∧
        regsKeptBut s t [rn] ∧ memKept s t ∧ t.sr = s.sr ∧ controlsKept s t

/-! ## System control -/

/-- LINK saves FP, points FP at the saved word and moves SP; UNLK undoes it
(spec/46_system.md R290, R292). Rests on decisions D3, D7. -/
def Obligations.LinkUnlkResult : Prop :=
  (∀ (k : Imm) (s : State), s.wf = true → s.sp.toNat % 2 = 0 →
    s.storable (s.npc (.link k)) (s.stackBytes (-2)) →
    let n : Word := match k with | .i8 x => BitVec.ofInt 16 x.toInt | .i16 x => x
    ∃ t, exec (.link k) s = .next t ∧ t.reg .r6 = s.sp - 2 ∧ t.sp = s.sp - 2 + n ∧
      t.mem.word (s.phys .stack (s.sp - 2)) = s.reg .r6 ∧ regsKeptBut s t [.r6, .r7] ∧
      memKeptBut s t (s.stackBytes (-2)) ∧ t.sr = s.sr ∧ sequential (.link k) s t ∧
      ∃ u, exec .unlk t = .next u ∧ u.reg .r6 = s.reg .r6 ∧ u.sp = s.sp) ∧
  ∀ s : State, (s.reg .r6).toNat % 2 = 0 →
    ∃ t, exec .unlk s = .next t ∧ t.reg .r6 = s.mem.word (s.phys .stack (s.reg .r6)) ∧
      t.sp = s.reg .r6 + 2 ∧ regsKeptBut s t [.r6, .r7] ∧ memKept s t ∧ t.sr = s.sr ∧ sequential .unlk s t

/-- SLEEP enters the power-down state and changes nothing else; in it a step is stuck unless an interrupt is
accepted; NOP, the byte H'00, moves the PC and changes nothing else
(spec/46_system.md R294, R308; spec/60_exceptions.md R342; log entry 32). Rests on decision D28. -/
def Obligations.SleepNopResult : Prop :=
  ∀ s : State,
    exec .sleep s = .next { s with pc := s.pc + 1, asleep := true } ∧
    (s.asleep = true → s.nextIrq = none → step s = .fault .powerDown) ∧
    encode .nop = [0x00] ∧ exec .nop s = .next { s with pc := s.pc + 1 }

/-- LDC loads the control register, ANDC, ORC, XORC combine it with their immediate, for the register and
size pairs of R31; nothing else is changed (spec/46_system.md R300, R303, R304, R305). That the reserved bits
of SR and CCR are stored, and combined as stored, is the model's choice (log entry 10), and no rule of the spec.
Rests on decisions D20, D35. -/
def Obligations.ControlWriteResult : Prop :=
  (∀ (sz : Size) (src : EA) (cr : CtrlReg) (s : State),
    (cr = .sr ∧ sz = .w ∨ cr ∈ [CtrlReg.ccr, .br, .ep, .dp, .tp] ∧ sz = .b) →
    let p := resolve sz src (s.advance (eaLen src + 1))
    p.2.canAccess p.1 sz = true →
    ∃ t, exec (.ldc sz src cr) s = .next t ∧ ctrlWritten s t cr ((p.2.valueAt p.1 sz).setWidth 16) ∧
      t.pc = s.npc (.ldc sz src cr) ∧ onlyRead s t sz src) ∧
  ∀ (imm : Imm) (cr : CtrlReg) (s : State),
    (cr = .sr ∧ imm.size = .w ∨ cr ∈ [CtrlReg.ccr, .br, .ep, .dp, .tp] ∧ imm.size = .b) →
    let v : Word := match imm with | .i8 x => x.setWidth 16 | .i16 x => x
    let old : Word := match cr with
      | .sr => s.sr | .ccr => s.sr &&& 0x00FF | .br => s.br.setWidth 16 | .ep => s.ep.setWidth 16
      | .dp => s.dp.setWidth 16 | .tp => s.tp.setWidth 16 | .none2 | .none6 => 0
    ∀ e ∈ [(Instr.andc imm cr, old &&& v), (.orc imm cr, old ||| v), (.xorc imm cr, old ^^^ v)],
      ∃ t, exec e.1 s = .next t ∧ ctrlWritten s t cr e.2 ∧ t.pc = s.npc e.1 ∧ t.regs = s.regs ∧ memKept s t

/-- STC writes the control register to its destination, the reserved bits of SR and CCR any value, and
leaves SR alone (spec/46_system.md R301; log entry 10). -/
def Obligations.ControlReadResult : Prop :=
  ∀ (sz : Size) (cr : CtrlReg) (dst : EA) (s : State), s.wf = true → dst.isDest = true →
    (cr = .sr ∧ sz = .w ∨ cr ∈ [CtrlReg.ccr, .br, .ep, .dp, .tp] ∧ sz = .b) →
    let p := resolve sz dst (s.advance (eaLen dst + 1))
    p.2.canAccess p.1 sz = true → s.storable (s.npc (.stc sz cr dst)) (p.2.bytesAt p.1 sz) →
    ∃ t v, exec (.stc sz cr dst) s = .next t ∧ intoOperand s t sz dst p.2 p.1 v ∧ t.sr = s.sr ∧
      sequential (.stc sz cr dst) s t ∧
      match cr with
      | .sr => v.setWidth 16 &&& ~~~srReserved = s.sr &&& ~~~srReserved
      | .ccr => v.setWidth 16 &&& 0x000F#16 = s.sr &&& 0x000F
      | .br => v.setWidth 8 = s.br
      | .ep => v.setWidth 8 = s.ep
      | .dp => v.setWidth 8 = s.dp
      | .tp => v.setWidth 8 = s.tp
      | .none2 | .none6 => True

/-- What the spec has a model refuse: a control register and size pair that R31 disallows, the register of
@-Rn or @Rn+ also a register operand, a bit number beyond a byte, an odd Rd of MULXU.W and DIVXU.W, R7 in the
list of STM and (by `LDM_R7`) of LDM, the page instructions in minimum mode and PJMP, PJSR through R7
(spec/10_state.md R31; spec/30_encoding.md R94; spec/44_bit.md R230; spec/41_arithmetic.md R176, R178;
spec/40_data_transfer.md R144, R145; spec/45_branch.md R256). That a refusal comes before an AddressError of
the same instruction (log entry 39), and which of two refusals comes first (log entries 24, 27, 39), is the
model's choice, and no rule of the spec. Rests on decisions D12, D17, D18, D30, D33. -/
def Obligations.SpecRefusals : Prop :=
  ∀ (s : State) (sz : Size) (ea : EA) (r low : Reg) (k : BitVec 4) (list : Byte) (cr : CtrlReg) (imm : Imm)
    (g : PageEA),
    (ctrlAllowed cr sz = false →
      ∀ i ∈ [Instr.ldc sz ea cr, .stc sz cr ea], exec i s = .refused .disallowedControlRegister) ∧
    (ctrlAllowed cr imm.size = false →
      ∀ i ∈ [Instr.andc imm cr, .orc imm cr, .xorc imm cr], exec i s = .refused .disallowedControlRegister) ∧
    (ea = .preDec r ∨ ea = .postInc r →
      ∀ i ∈ [Instr.movGLoad sz ea r, .movGStore sz r ea, .movtpe r ea, .movfpe ea r, .addG sz ea r,
          .adds sz ea r, .addx sz ea r, .sub sz ea r, .subs sz ea r, .subx sz ea r, .mulxu .b ea r,
          .divxu .b ea r, .cmpG sz ea r, .and sz ea r, .or sz ea r, .xor sz ea r, .bsetReg sz r ea,
          .bclrReg sz r ea, .btstReg sz r ea, .bnotReg sz r ea], exec i s = .refused .registerOverlap) ∧
    (pairLow? r = some low → (ea = .preDec r ∨ ea = .postInc r ∨ ea = .preDec low ∨ ea = .postInc low) →
      ∀ i ∈ [Instr.mulxu .w ea r, .divxu .w ea r], exec i s = .refused .registerOverlap) ∧
    (8 ≤ k.toNat →
      ∀ i ∈ [Instr.bsetImm .b k ea, .bclrImm .b k ea, .btstImm .b k ea, .bnotImm .b k ea],
        exec i s = .refused .bitNumberBeyondByte) ∧
    (8 ≤ (s.reg r).toNat % 16 → overlaps ea [r] = false →
      ∀ i ∈ [Instr.bsetReg .b r ea, .bclrReg .b r ea, .btstReg .b r ea, .bnotReg .b r ea],
        exec i s = .refused .bitNumberBeyondByte) ∧
    (r ∈ [Reg.r1, .r3, .r5, .r7] →
      ∀ i ∈ [Instr.mulxu .w ea r, .divxu .w ea r], exec i s = .refused .oddRegisterPair) ∧
    (list.getLsbD 7 = true → exec (.stm list) s = .refused .stackPointerInList ∧
      (s.params.ldmR7 = .refuse → exec (.ldm list) s = .refused .stackPointerInList)) ∧
    (s.params.maxMode = false →
      ∀ i ∈ [Instr.pjmp g, .pjsr g, .prts, .prtd imm], exec i s = .refused .pageInstructionInMinimumMode) ∧
    (s.params.maxMode = true →
      ∀ i ∈ [Instr.pjmp (.ind .r7), .pjsr (.ind .r7)], exec i s = .refused .pageJumpThroughR7)
end

