-- ==== Sys2Proof/Laws/Memory.lean ====
section
/-! SUPPORT. The laws of memory: read after write, the canonical form, and that it is canonical. -/

namespace Sys2Proof.Machine

@[simp] theorem read_nil (a : Nat) : Memory.read [] a = unlistedByte := rfl

@[simp] theorem read_cons (k : Nat) (v : Byte) (m : Memory) (a : Nat) :
    Memory.read ((k, v) :: m) a = if k = a then v else Memory.read m a := rfl

@[simp] theorem wf_nil : Memory.wf [] = true := rfl

/-- The canonical form of a list with a first entry. -/
theorem wf_cons_iff (k : Nat) (v : Byte) (m : Memory) :
    Memory.wf ((k, v) :: m) = true ↔
      (∀ c ∈ m, k < c.1) ∧ v ≠ unlistedByte ∧ k < addressLimit ∧ Memory.wf m = true := by
  simp only [Memory.wf, List.pairwise_cons, List.all_cons, Bool.and_eq_true, decide_eq_true_eq]
  tauto

/-- An address below every listed one reads as unlisted. -/
theorem read_below {m : Memory} {a : Nat} (h : ∀ c ∈ m, a < c.1) : m.read a = unlistedByte := by
  induction m with
  | nil => rfl
  | cons c m ih =>
    obtain ⟨k, v⟩ := c
    have hk : a < k := h (k, v) (by simp)
    simp only [read_cons, if_neg (Nat.ne_of_gt hk)]
    exact ih fun c hc => h c (by simp [hc])

/-- A write leaves every other address alone. -/
theorem read_write_other (m : Memory) {a b : Nat} (v : Byte) (h : b ≠ a) :
    (m.write a v).read b = m.read b := by
  induction m with
  | nil =>
    by_cases hv : v = unlistedByte <;> simp [Memory.write, hv, Ne.symm h]
  | cons c m ih =>
    obtain ⟨k, x⟩ := c
    simp only [Memory.write]
    split
    · split
      · rfl
      · simp [Ne.symm h]
    · split
      · subst a
        split <;> simp [Ne.symm h]
      · simp only [read_cons, ih]

/-- A read after a write to the same address gives the value written. -/
theorem read_write_same {m : Memory} (hm : m.wf = true) (a : Nat) (v : Byte) :
    (m.write a v).read a = v := by
  induction m with
  | nil =>
    by_cases hv : v = unlistedByte <;> simp [Memory.write, hv]
  | cons c m ih =>
    obtain ⟨k, x⟩ := c
    obtain ⟨hlt, -, -, hw⟩ := (wf_cons_iff k x m).mp hm
    simp only [Memory.write]
    split
    · rename_i hak
      split
      · rename_i hv
        have : Memory.read m a = unlistedByte := read_below fun c hc => Nat.lt_trans hak (hlt c hc)
        simp [Nat.ne_of_gt hak, this, hv]
      · simp
    · split
      · subst a
        split
        · rename_i hv
          rw [read_below hlt, hv]
        · simp
      · rename_i hne
        simp only [read_cons, if_neg (Ne.symm hne), ih hw]

/-- Every entry of a written memory is the new one or an old one. -/
theorem mem_write {m : Memory} {a : Nat} {v : Byte} {c : Host.Cell} (h : c ∈ m.write a v) :
    c = (a, v) ∧ v ≠ unlistedByte ∨ c ∈ m := by
  induction m with
  | nil =>
    by_cases hv : v = unlistedByte <;> simp_all [Memory.write]
  | cons d m ih =>
    obtain ⟨k, x⟩ := d
    simp only [Memory.write] at h
    split at h
    · split at h
      · exact .inr h
      · rcases List.mem_cons.mp h with rfl | h
        · exact .inl ⟨rfl, ‹_›⟩
        · exact .inr h
    · split at h
      · split at h
        · exact .inr (by simp [h])
        · rcases List.mem_cons.mp h with rfl | h
          · exact .inl ⟨rfl, ‹_›⟩
          · exact .inr (by simp [h])
      · rcases List.mem_cons.mp h with rfl | h
        · exact .inr (by simp)
        · exact (ih h).imp id fun h => by simp [h]

/-- A write keeps the canonical form. -/
theorem wf_write {m : Memory} (hm : m.wf = true) {a : Nat} (ha : a < addressLimit) (v : Byte) :
    (m.write a v).wf = true := by
  induction m with
  | nil =>
    by_cases hv : v = unlistedByte <;> simp [Memory.write, hv, wf_cons_iff, ha]
  | cons c m ih =>
    obtain ⟨k, x⟩ := c
    obtain ⟨hlt, hx, hk, hw⟩ := (wf_cons_iff k x m).mp hm
    simp only [Memory.write]
    split
    · rename_i hak
      split
      · exact hm
      · rename_i hv
        refine (wf_cons_iff _ _ _).mpr ⟨?_, hv, ha, hm⟩
        intro c hc
        rcases List.mem_cons.mp hc with rfl | hc
        · exact hak
        · exact Nat.lt_trans hak (hlt c hc)
    · split
      · subst a
        split
        · exact hw
        · exact (wf_cons_iff _ _ _).mpr ⟨hlt, ‹_›, ha, hw⟩
      · refine (wf_cons_iff _ _ _).mpr ⟨?_, hx, hk, ih hw⟩
        intro c hc
        rcases mem_write hc with ⟨rfl, -⟩ | hc
        · show k < a
          omega
        · exact hlt c hc

/-- Every listed address is an address. -/
theorem wf_address {m : Memory} (hm : m.wf = true) {c : Host.Cell} (hc : c ∈ m) : c.1 < addressLimit := by
  have := (Bool.and_eq_true_iff.mp hm).2
  have := List.all_eq_true.mp this c hc
  simp only [Bool.and_eq_true, decide_eq_true_eq] at this
  exact this.2

/-! ## Words -/

@[simp] theorem hiByte_append (h l : Byte) : hiByte (h ++ l) = h := by
  apply BitVec.eq_of_getLsbD_eq
  intro i hi
  have : ¬8 + i < 8 := by omega
  simp only [hiByte, BitVec.getLsbD_extractLsb', BitVec.getLsbD_append, hi, this, if_false,
    decide_true, Bool.true_and]
  congr 1; omega

@[simp] theorem loByte_append (h l : Byte) : loByte (h ++ l) = l := by
  apply BitVec.eq_of_getLsbD_eq
  intro i hi
  simp only [loByte, BitVec.getLsbD_extractLsb', BitVec.getLsbD_append, hi, if_true, decide_true,
    Bool.true_and, Nat.zero_add]

/-- A word is its high byte and its low byte. -/
@[simp] theorem hi_lo (v : Word) : hiByte v ++ loByte v = v := by
  apply BitVec.eq_of_getLsbD_eq
  intro i hi
  simp only [hiByte, loByte, BitVec.getLsbD_append, BitVec.getLsbD_extractLsb']
  by_cases h : i < 8
  · simp [h]
  · have h8 : i - 8 < 8 := by omega
    have e : 8 + (i - 8) = i := by omega
    simp [h, h8, e]

/-- A word stored as two bytes, high byte first, is the word read back (R57). -/
theorem word_write {m : Memory} (hm : m.wf = true) {a : Nat} (ha : a < addressLimit) (v : Word) :
    ((m.write a (hiByte v)).write (a + 1) (loByte v)).word a = v := by
  show Memory.read _ a ++ Memory.read _ (a + 1) = v
  rw [read_write_other _ _ (by omega), read_write_same hm, read_write_same (wf_write hm ha _), hi_lo]

/-- A word elsewhere is as before. -/
theorem word_write_other (m : Memory) {a b : Nat} (v : Word) (h1 : b ≠ a) (h2 : b ≠ a + 1)
    (h3 : b + 1 ≠ a) :
    ((m.write a (hiByte v)).write (a + 1) (loByte v)).word b = m.word b := by
  simp only [Memory.word]
  rw [read_write_other _ _ h2, read_write_other _ _ h1, read_write_other _ _ (by omega),
    read_write_other _ _ h3]

end Sys2Proof.Machine
end

