-- ==== Sys2Proof/Laws/State.lean ====
section
/-! SUPPORT. One lemma per field per update of State, so that no later proof unfolds an update. -/

namespace Sys2Proof.Machine

@[simp] theorem setReg_regs (s : State) (i : Reg) (v : Word) : (s.setReg i v).regs = s.regs.set i v := rfl
@[simp] theorem setReg_pc (s : State) (i : Reg) (v : Word) : (s.setReg i v).pc = s.pc := rfl
@[simp] theorem setReg_sr (s : State) (i : Reg) (v : Word) : (s.setReg i v).sr = s.sr := rfl
@[simp] theorem setReg_br (s : State) (i : Reg) (v : Word) : (s.setReg i v).br = s.br := rfl
@[simp] theorem setReg_ep (s : State) (i : Reg) (v : Word) : (s.setReg i v).ep = s.ep := rfl
@[simp] theorem setReg_dp (s : State) (i : Reg) (v : Word) : (s.setReg i v).dp = s.dp := rfl
@[simp] theorem setReg_tp (s : State) (i : Reg) (v : Word) : (s.setReg i v).tp = s.tp := rfl
@[simp] theorem setReg_cp (s : State) (i : Reg) (v : Word) : (s.setReg i v).cp = s.cp := rfl
@[simp] theorem setReg_asleep (s : State) (i : Reg) (v : Word) : (s.setReg i v).asleep = s.asleep := rfl
@[simp] theorem setReg_mem (s : State) (i : Reg) (v : Word) : (s.setReg i v).mem = s.mem := rfl
@[simp] theorem setReg_params (s : State) (i : Reg) (v : Word) : (s.setReg i v).params = s.params := rfl
@[simp] theorem setReg_irq (s : State) (i : Reg) (v : Word) : (s.setReg i v).irq = s.irq := rfl
@[simp] theorem setReg_stale (s : State) (i : Reg) (v : Word) : (s.setReg i v).stale = s.stale := rfl
@[simp] theorem setReg_freeIdx (s : State) (i : Reg) (v : Word) : (s.setReg i v).freeIdx = s.freeIdx := rfl

@[simp] theorem setNZVC_regs (s : State) (n z v c : Bool) : (s.setNZVC n z v c).regs = s.regs := rfl
@[simp] theorem setNZVC_pc (s : State) (n z v c : Bool) : (s.setNZVC n z v c).pc = s.pc := rfl
@[simp] theorem setNZVC_sr (s : State) (n z v c : Bool) : (s.setNZVC n z v c).sr = srWithFlags s.sr n z v c := rfl
@[simp] theorem setNZVC_br (s : State) (n z v c : Bool) : (s.setNZVC n z v c).br = s.br := rfl
@[simp] theorem setNZVC_ep (s : State) (n z v c : Bool) : (s.setNZVC n z v c).ep = s.ep := rfl
@[simp] theorem setNZVC_dp (s : State) (n z v c : Bool) : (s.setNZVC n z v c).dp = s.dp := rfl
@[simp] theorem setNZVC_tp (s : State) (n z v c : Bool) : (s.setNZVC n z v c).tp = s.tp := rfl
@[simp] theorem setNZVC_cp (s : State) (n z v c : Bool) : (s.setNZVC n z v c).cp = s.cp := rfl
@[simp] theorem setNZVC_asleep (s : State) (n z v c : Bool) : (s.setNZVC n z v c).asleep = s.asleep := rfl
@[simp] theorem setNZVC_mem (s : State) (n z v c : Bool) : (s.setNZVC n z v c).mem = s.mem := rfl
@[simp] theorem setNZVC_params (s : State) (n z v c : Bool) : (s.setNZVC n z v c).params = s.params := rfl
@[simp] theorem setNZVC_irq (s : State) (n z v c : Bool) : (s.setNZVC n z v c).irq = s.irq := rfl
@[simp] theorem setNZVC_stale (s : State) (n z v c : Bool) : (s.setNZVC n z v c).stale = s.stale := rfl
@[simp] theorem setNZVC_freeIdx (s : State) (n z v c : Bool) : (s.setNZVC n z v c).freeIdx = s.freeIdx := rfl

@[simp] theorem setAlu_regs {w : Nat} (s : State) (r : Alu w) : (s.setAlu r).regs = s.regs := rfl
@[simp] theorem setAlu_pc {w : Nat} (s : State) (r : Alu w) : (s.setAlu r).pc = s.pc := rfl
@[simp] theorem setAlu_sr {w : Nat} (s : State) (r : Alu w) : (s.setAlu r).sr = srWithFlags s.sr r.n r.z r.v r.c := rfl
@[simp] theorem setAlu_br {w : Nat} (s : State) (r : Alu w) : (s.setAlu r).br = s.br := rfl
@[simp] theorem setAlu_ep {w : Nat} (s : State) (r : Alu w) : (s.setAlu r).ep = s.ep := rfl
@[simp] theorem setAlu_dp {w : Nat} (s : State) (r : Alu w) : (s.setAlu r).dp = s.dp := rfl
@[simp] theorem setAlu_tp {w : Nat} (s : State) (r : Alu w) : (s.setAlu r).tp = s.tp := rfl
@[simp] theorem setAlu_cp {w : Nat} (s : State) (r : Alu w) : (s.setAlu r).cp = s.cp := rfl
@[simp] theorem setAlu_asleep {w : Nat} (s : State) (r : Alu w) : (s.setAlu r).asleep = s.asleep := rfl
@[simp] theorem setAlu_mem {w : Nat} (s : State) (r : Alu w) : (s.setAlu r).mem = s.mem := rfl
@[simp] theorem setAlu_params {w : Nat} (s : State) (r : Alu w) : (s.setAlu r).params = s.params := rfl
@[simp] theorem setAlu_irq {w : Nat} (s : State) (r : Alu w) : (s.setAlu r).irq = s.irq := rfl
@[simp] theorem setAlu_stale {w : Nat} (s : State) (r : Alu w) : (s.setAlu r).stale = s.stale := rfl
@[simp] theorem setAlu_freeIdx {w : Nat} (s : State) (r : Alu w) : (s.setAlu r).freeIdx = s.freeIdx := rfl

@[simp] theorem setZ_regs (s : State) (z : Bool) : (s.setZ z).regs = s.regs := rfl
@[simp] theorem setZ_pc (s : State) (z : Bool) : (s.setZ z).pc = s.pc := rfl
@[simp] theorem setZ_sr (s : State) (z : Bool) : (s.setZ z).sr = srWithFlags s.sr s.flagN z s.flagV s.flagC := rfl
@[simp] theorem setZ_br (s : State) (z : Bool) : (s.setZ z).br = s.br := rfl
@[simp] theorem setZ_ep (s : State) (z : Bool) : (s.setZ z).ep = s.ep := rfl
@[simp] theorem setZ_dp (s : State) (z : Bool) : (s.setZ z).dp = s.dp := rfl
@[simp] theorem setZ_tp (s : State) (z : Bool) : (s.setZ z).tp = s.tp := rfl
@[simp] theorem setZ_cp (s : State) (z : Bool) : (s.setZ z).cp = s.cp := rfl
@[simp] theorem setZ_asleep (s : State) (z : Bool) : (s.setZ z).asleep = s.asleep := rfl
@[simp] theorem setZ_mem (s : State) (z : Bool) : (s.setZ z).mem = s.mem := rfl
@[simp] theorem setZ_params (s : State) (z : Bool) : (s.setZ z).params = s.params := rfl
@[simp] theorem setZ_irq (s : State) (z : Bool) : (s.setZ z).irq = s.irq := rfl
@[simp] theorem setZ_stale (s : State) (z : Bool) : (s.setZ z).stale = s.stale := rfl
@[simp] theorem setZ_freeIdx (s : State) (z : Bool) : (s.setZ z).freeIdx = s.freeIdx := rfl

@[simp] theorem setZC_regs (s : State) (z c : Bool) : (s.setZC z c).regs = s.regs := rfl
@[simp] theorem setZC_pc (s : State) (z c : Bool) : (s.setZC z c).pc = s.pc := rfl
@[simp] theorem setZC_sr (s : State) (z c : Bool) : (s.setZC z c).sr = srWithFlags s.sr s.flagN z s.flagV c := rfl
@[simp] theorem setZC_br (s : State) (z c : Bool) : (s.setZC z c).br = s.br := rfl
@[simp] theorem setZC_ep (s : State) (z c : Bool) : (s.setZC z c).ep = s.ep := rfl
@[simp] theorem setZC_dp (s : State) (z c : Bool) : (s.setZC z c).dp = s.dp := rfl
@[simp] theorem setZC_tp (s : State) (z c : Bool) : (s.setZC z c).tp = s.tp := rfl
@[simp] theorem setZC_cp (s : State) (z c : Bool) : (s.setZC z c).cp = s.cp := rfl
@[simp] theorem setZC_asleep (s : State) (z c : Bool) : (s.setZC z c).asleep = s.asleep := rfl
@[simp] theorem setZC_mem (s : State) (z c : Bool) : (s.setZC z c).mem = s.mem := rfl
@[simp] theorem setZC_params (s : State) (z c : Bool) : (s.setZC z c).params = s.params := rfl
@[simp] theorem setZC_irq (s : State) (z c : Bool) : (s.setZC z c).irq = s.irq := rfl
@[simp] theorem setZC_stale (s : State) (z c : Bool) : (s.setZC z c).stale = s.stale := rfl
@[simp] theorem setZC_freeIdx (s : State) (z c : Bool) : (s.setZC z c).freeIdx = s.freeIdx := rfl

@[simp] theorem draw_regs (s : State) : s.draw.2.regs = s.regs := rfl
@[simp] theorem draw_pc (s : State) : s.draw.2.pc = s.pc := rfl
@[simp] theorem draw_sr (s : State) : s.draw.2.sr = s.sr := rfl
@[simp] theorem draw_br (s : State) : s.draw.2.br = s.br := rfl
@[simp] theorem draw_ep (s : State) : s.draw.2.ep = s.ep := rfl
@[simp] theorem draw_dp (s : State) : s.draw.2.dp = s.dp := rfl
@[simp] theorem draw_tp (s : State) : s.draw.2.tp = s.tp := rfl
@[simp] theorem draw_cp (s : State) : s.draw.2.cp = s.cp := rfl
@[simp] theorem draw_asleep (s : State) : s.draw.2.asleep = s.asleep := rfl
@[simp] theorem draw_mem (s : State) : s.draw.2.mem = s.mem := rfl
@[simp] theorem draw_params (s : State) : s.draw.2.params = s.params := rfl
@[simp] theorem draw_irq (s : State) : s.draw.2.irq = s.irq := rfl
@[simp] theorem draw_stale (s : State) : s.draw.2.stale = s.stale := rfl
@[simp] theorem draw_freeIdx (s : State) : s.draw.2.freeIdx = s.freeIdx + 1 := rfl

@[simp] theorem advance_regs (s : State) (n : Nat) : (s.advance n).regs = s.regs := rfl
@[simp] theorem advance_pc (s : State) (n : Nat) : (s.advance n).pc = s.pc + BitVec.ofNat 16 n := rfl
@[simp] theorem advance_sr (s : State) (n : Nat) : (s.advance n).sr = s.sr := rfl
@[simp] theorem advance_br (s : State) (n : Nat) : (s.advance n).br = s.br := rfl
@[simp] theorem advance_ep (s : State) (n : Nat) : (s.advance n).ep = s.ep := rfl
@[simp] theorem advance_dp (s : State) (n : Nat) : (s.advance n).dp = s.dp := rfl
@[simp] theorem advance_tp (s : State) (n : Nat) : (s.advance n).tp = s.tp := rfl
@[simp] theorem advance_cp (s : State) (n : Nat) : (s.advance n).cp = s.cp := rfl
@[simp] theorem advance_asleep (s : State) (n : Nat) : (s.advance n).asleep = s.asleep := rfl
@[simp] theorem advance_mem (s : State) (n : Nat) : (s.advance n).mem = s.mem := rfl
@[simp] theorem advance_params (s : State) (n : Nat) : (s.advance n).params = s.params := rfl
@[simp] theorem advance_irq (s : State) (n : Nat) : (s.advance n).irq = s.irq := rfl
@[simp] theorem advance_stale (s : State) (n : Nat) : (s.advance n).stale = s.stale := rfl
@[simp] theorem advance_freeIdx (s : State) (n : Nat) : (s.advance n).freeIdx = s.freeIdx := rfl

@[simp] theorem jump_regs (s : State) (t : Word) : (s.jump t).regs = s.regs := rfl
@[simp] theorem jump_pc (s : State) (t : Word) : (s.jump t).pc = t := rfl
@[simp] theorem jump_sr (s : State) (t : Word) : (s.jump t).sr = s.sr := rfl
@[simp] theorem jump_br (s : State) (t : Word) : (s.jump t).br = s.br := rfl
@[simp] theorem jump_ep (s : State) (t : Word) : (s.jump t).ep = s.ep := rfl
@[simp] theorem jump_dp (s : State) (t : Word) : (s.jump t).dp = s.dp := rfl
@[simp] theorem jump_tp (s : State) (t : Word) : (s.jump t).tp = s.tp := rfl
@[simp] theorem jump_cp (s : State) (t : Word) : (s.jump t).cp = s.cp := rfl
@[simp] theorem jump_asleep (s : State) (t : Word) : (s.jump t).asleep = s.asleep := rfl
@[simp] theorem jump_mem (s : State) (t : Word) : (s.jump t).mem = s.mem := rfl
@[simp] theorem jump_params (s : State) (t : Word) : (s.jump t).params = s.params := rfl
@[simp] theorem jump_irq (s : State) (t : Word) : (s.jump t).irq = s.irq := rfl
@[simp] theorem jump_stale (s : State) (t : Word) : (s.jump t).stale = [] := rfl
@[simp] theorem jump_freeIdx (s : State) (t : Word) : (s.jump t).freeIdx = s.freeIdx := rfl

@[simp] theorem writeByte_regs (s : State) (a : Nat) (v : Byte) : (s.writeByte a v).regs = s.regs := rfl
@[simp] theorem writeByte_pc (s : State) (a : Nat) (v : Byte) : (s.writeByte a v).pc = s.pc := rfl
@[simp] theorem writeByte_sr (s : State) (a : Nat) (v : Byte) : (s.writeByte a v).sr = s.sr := rfl
@[simp] theorem writeByte_br (s : State) (a : Nat) (v : Byte) : (s.writeByte a v).br = s.br := rfl
@[simp] theorem writeByte_ep (s : State) (a : Nat) (v : Byte) : (s.writeByte a v).ep = s.ep := rfl
@[simp] theorem writeByte_dp (s : State) (a : Nat) (v : Byte) : (s.writeByte a v).dp = s.dp := rfl
@[simp] theorem writeByte_tp (s : State) (a : Nat) (v : Byte) : (s.writeByte a v).tp = s.tp := rfl
@[simp] theorem writeByte_cp (s : State) (a : Nat) (v : Byte) : (s.writeByte a v).cp = s.cp := rfl
@[simp] theorem writeByte_asleep (s : State) (a : Nat) (v : Byte) : (s.writeByte a v).asleep = s.asleep := rfl
@[simp] theorem writeByte_mem (s : State) (a : Nat) (v : Byte) : (s.writeByte a v).mem = s.mem.write a v := rfl
@[simp] theorem writeByte_params (s : State) (a : Nat) (v : Byte) : (s.writeByte a v).params = s.params := rfl
@[simp] theorem writeByte_irq (s : State) (a : Nat) (v : Byte) : (s.writeByte a v).irq = s.irq := rfl
@[simp] theorem writeByte_stale (s : State) (a : Nat) (v : Byte) : (s.writeByte a v).stale = if s.inWindow a then a :: s.stale else s.stale := rfl
@[simp] theorem writeByte_freeIdx (s : State) (a : Nat) (v : Byte) : (s.writeByte a v).freeIdx = s.freeIdx := rfl

@[simp] theorem pageJump_regs (s : State) (t : Byte × Word) : (s.pageJump t).regs = s.regs := rfl
@[simp] theorem pageJump_pc (s : State) (t : Byte × Word) : (s.pageJump t).pc = t.2 := rfl
@[simp] theorem pageJump_sr (s : State) (t : Byte × Word) : (s.pageJump t).sr = s.sr := rfl
@[simp] theorem pageJump_br (s : State) (t : Byte × Word) : (s.pageJump t).br = s.br := rfl
@[simp] theorem pageJump_ep (s : State) (t : Byte × Word) : (s.pageJump t).ep = s.ep := rfl
@[simp] theorem pageJump_dp (s : State) (t : Byte × Word) : (s.pageJump t).dp = s.dp := rfl
@[simp] theorem pageJump_tp (s : State) (t : Byte × Word) : (s.pageJump t).tp = s.tp := rfl
@[simp] theorem pageJump_cp (s : State) (t : Byte × Word) : (s.pageJump t).cp = t.1 := rfl
@[simp] theorem pageJump_asleep (s : State) (t : Byte × Word) : (s.pageJump t).asleep = s.asleep := rfl
@[simp] theorem pageJump_mem (s : State) (t : Byte × Word) : (s.pageJump t).mem = s.mem := rfl
@[simp] theorem pageJump_params (s : State) (t : Byte × Word) : (s.pageJump t).params = s.params := rfl
@[simp] theorem pageJump_irq (s : State) (t : Byte × Word) : (s.pageJump t).irq = s.irq := rfl
@[simp] theorem pageJump_stale (s : State) (t : Byte × Word) : (s.pageJump t).stale = [] := rfl
@[simp] theorem pageJump_freeIdx (s : State) (t : Byte × Word) : (s.pageJump t).freeIdx = s.freeIdx := rfl

@[simp] theorem wr_pc (s : State) (i : Reg) (sz : Size) (v : BitVec sz.bits) : (s.wr i sz v).pc = s.pc := by cases sz <;> rfl
@[simp] theorem wr_sr (s : State) (i : Reg) (sz : Size) (v : BitVec sz.bits) : (s.wr i sz v).sr = s.sr := by cases sz <;> rfl
@[simp] theorem wr_br (s : State) (i : Reg) (sz : Size) (v : BitVec sz.bits) : (s.wr i sz v).br = s.br := by cases sz <;> rfl
@[simp] theorem wr_ep (s : State) (i : Reg) (sz : Size) (v : BitVec sz.bits) : (s.wr i sz v).ep = s.ep := by cases sz <;> rfl
@[simp] theorem wr_dp (s : State) (i : Reg) (sz : Size) (v : BitVec sz.bits) : (s.wr i sz v).dp = s.dp := by cases sz <;> rfl
@[simp] theorem wr_tp (s : State) (i : Reg) (sz : Size) (v : BitVec sz.bits) : (s.wr i sz v).tp = s.tp := by cases sz <;> rfl
@[simp] theorem wr_cp (s : State) (i : Reg) (sz : Size) (v : BitVec sz.bits) : (s.wr i sz v).cp = s.cp := by cases sz <;> rfl
@[simp] theorem wr_asleep (s : State) (i : Reg) (sz : Size) (v : BitVec sz.bits) : (s.wr i sz v).asleep = s.asleep := by cases sz <;> rfl
@[simp] theorem wr_mem (s : State) (i : Reg) (sz : Size) (v : BitVec sz.bits) : (s.wr i sz v).mem = s.mem := by cases sz <;> rfl
@[simp] theorem wr_params (s : State) (i : Reg) (sz : Size) (v : BitVec sz.bits) : (s.wr i sz v).params = s.params := by cases sz <;> rfl
@[simp] theorem wr_irq (s : State) (i : Reg) (sz : Size) (v : BitVec sz.bits) : (s.wr i sz v).irq = s.irq := by cases sz <;> rfl
@[simp] theorem wr_stale (s : State) (i : Reg) (sz : Size) (v : BitVec sz.bits) : (s.wr i sz v).stale = s.stale := by cases sz <;> rfl
@[simp] theorem wr_freeIdx (s : State) (i : Reg) (sz : Size) (v : BitVec sz.bits) : (s.wr i sz v).freeIdx = s.freeIdx := by cases sz <;> rfl

/-! ## Registers -/

@[simp] theorem regs_get_set (g : Regs) (i j : Reg) (v : Word) :
    (g.set i v).get j = if j = i then v else g.get j := by
  cases i <;> cases j <;> rfl

/-- Two register files that agree on every register are equal. -/
theorem regs_ext {g h : Regs} (eq : ∀ i, g.get i = h.get i) : g = h := by
  cases g; cases h
  have e0 := eq .r0; have e1 := eq .r1; have e2 := eq .r2; have e3 := eq .r3
  have e4 := eq .r4; have e5 := eq .r5; have e6 := eq .r6; have e7 := eq .r7
  simp only [Regs.get] at e0 e1 e2 e3 e4 e5 e6 e7
  simp only [e0, e1, e2, e3, e4, e5, e6, e7]

@[simp] theorem reg_setReg (s : State) (i j : Reg) (v : Word) :
    (s.setReg i v).reg j = if j = i then v else s.reg j := regs_get_set s.regs i j v

@[simp] theorem reg_setNZVC (s : State) (n z v c : Bool) (i : Reg) : (s.setNZVC n z v c).reg i = s.reg i := rfl
@[simp] theorem reg_setAlu {w : Nat} (s : State) (r : Alu w) (i : Reg) : (s.setAlu r).reg i = s.reg i := rfl
@[simp] theorem reg_setZ (s : State) (z : Bool) (i : Reg) : (s.setZ z).reg i = s.reg i := rfl
@[simp] theorem reg_setZC (s : State) (z c : Bool) (i : Reg) : (s.setZC z c).reg i = s.reg i := rfl
@[simp] theorem reg_draw (s : State) (i : Reg) : s.draw.2.reg i = s.reg i := rfl
@[simp] theorem reg_advance (s : State) (n : Nat) (i : Reg) : (s.advance n).reg i = s.reg i := rfl
@[simp] theorem reg_jump (s : State) (t : Word) (i : Reg) : (s.jump t).reg i = s.reg i := rfl
@[simp] theorem reg_pageJump (s : State) (t : Byte × Word) (i : Reg) : (s.pageJump t).reg i = s.reg i := rfl
@[simp] theorem reg_writeByte (s : State) (a : Nat) (v : Byte) (i : Reg) : (s.writeByte a v).reg i = s.reg i := rfl

@[simp] theorem wr_word (s : State) (i : Reg) (v : Word) : s.wr i .w v = s.setReg i v := rfl
@[simp] theorem wr_byte (s : State) (i : Reg) (v : Byte) : s.wr i .b v = s.setReg i (hiByte (s.reg i) ++ v) := rfl

/-- A register written with operand size, read back whole: the other registers are untouched. -/
theorem reg_wr_of_ne {i j : Reg} (h : j ≠ i) (s : State) (sz : Size) (v : BitVec sz.bits) :
    (s.wr i sz v).reg j = s.reg j := by
  cases sz <;> simp [h]

/-- The value written is the value read back with the same size (R21, R22). -/
@[simp] theorem rd_wr (s : State) (i : Reg) (sz : Size) (v : BitVec sz.bits) : (s.wr i sz v).rd i sz = v := by
  cases sz
  · simp only [wr_byte, State.rd, reg_setReg, if_true]
    exact BitVec.setWidth_append_eq_right
  · simp [State.rd]

/-! ## Flags -/

@[simp] theorem flagC_setNZVC (s : State) (n z v c : Bool) : (s.setNZVC n z v c).flagC = c := by
  show (srWithFlags s.sr n z v c).getLsbD 0 = c
  simp only [srWithFlags, BitVec.getLsbD_append]; simp
@[simp] theorem flagV_setNZVC (s : State) (n z v c : Bool) : (s.setNZVC n z v c).flagV = v := by
  show (srWithFlags s.sr n z v c).getLsbD 1 = v
  simp only [srWithFlags, BitVec.getLsbD_append]; simp
@[simp] theorem flagZ_setNZVC (s : State) (n z v c : Bool) : (s.setNZVC n z v c).flagZ = z := by
  show (srWithFlags s.sr n z v c).getLsbD 2 = z
  simp only [srWithFlags, BitVec.getLsbD_append]; simp
@[simp] theorem flagN_setNZVC (s : State) (n z v c : Bool) : (s.setNZVC n z v c).flagN = n := by
  show (srWithFlags s.sr n z v c).getLsbD 3 = n
  simp only [srWithFlags, BitVec.getLsbD_append]; simp

/-- A bit of SR above the flags is as before. -/
theorem srWithFlags_high (sr : Word) (n z v c : Bool) (k : Nat) (h : 4 ≤ k) :
    (srWithFlags sr n z v c).getLsbD k = sr.getLsbD k := by
  simp only [srWithFlags, BitVec.getLsbD_append, BitVec.getLsbD_extractLsb']
  have h1 : ¬k < 1 := by omega
  have h2 : ¬k - 1 < 1 := by omega
  have h3 : ¬k - 1 - 1 < 1 := by omega
  have h4 : ¬k - 1 - 1 - 1 < 1 := by omega
  simp only [h1, h2, h3, h4, if_false]
  have e : 4 + (k - 1 - 1 - 1 - 1) = k := by omega
  rw [e]
  by_cases h16 : k < 16
  · have : k - 1 - 1 - 1 - 1 < 12 := by omega
    simp [this]
  · rw [BitVec.getLsbD_of_ge sr k (by omega)]; simp

@[simp] theorem intMask_setNZVC (s : State) (n z v c : Bool) : (s.setNZVC n z v c).intMask = s.intMask := by
  apply BitVec.eq_of_getLsbD_eq
  intro k hk
  simp only [State.intMask, setNZVC_sr, BitVec.getLsbD_extractLsb', hk, decide_true, Bool.true_and]
  exact srWithFlags_high s.sr n z v c (8 + k) (by omega)

@[simp] theorem flagT_setNZVC (s : State) (n z v c : Bool) : (s.setNZVC n z v c).flagT = s.flagT :=
  srWithFlags_high s.sr n z v c 15 (by omega)

/-- Writing the flags a state already has changes nothing. -/
@[simp] theorem srWithFlags_self (s : State) : srWithFlags s.sr s.flagN s.flagZ s.flagV s.flagC = s.sr := by
  apply BitVec.eq_of_getLsbD_eq
  intro k hk
  by_cases h : 4 ≤ k
  · exact srWithFlags_high s.sr _ _ _ _ k h
  · have : k = 0 ∨ k = 1 ∨ k = 2 ∨ k = 3 := by omega
    rcases this with rfl | rfl | rfl | rfl
    · exact flagC_setNZVC s s.flagN s.flagZ s.flagV s.flagC
    · exact flagV_setNZVC s s.flagN s.flagZ s.flagV s.flagC
    · exact flagZ_setNZVC s s.flagN s.flagZ s.flagV s.flagC
    · exact flagN_setNZVC s s.flagN s.flagZ s.flagV s.flagC

/-- The flags that a result sets. -/
theorem setAlu_flags {w : Nat} (s : State) (r : Alu w) :
    (s.setAlu r).flagN = r.n ∧ (s.setAlu r).flagZ = r.z ∧ (s.setAlu r).flagV = r.v ∧ (s.setAlu r).flagC = r.c :=
  ⟨flagN_setNZVC .., flagZ_setNZVC .., flagV_setNZVC .., flagC_setNZVC ..⟩

end Sys2Proof.Machine
end

