-- ==== Sys2Proof/Laws/Ops.lean ====
section
/-! SUPPORT. What the operations over addresses, memory and the stack do: an equation where the access is
aligned, the exception where it is not, and what a push leaves in memory. -/

namespace Sys2Proof.Machine

/-! ## Addresses -/

theorem phys_lt (s : State) (k : Kind) (off : Word) : s.phys k off < addressLimit := by
  have h1 := (s.page k).isLt
  have h2 := off.isLt
  unfold State.phys addressLimit
  split <;> omega

/-- An address has the parity of its offset. -/
theorem phys_mod (s : State) (k : Kind) (off : Word) : s.phys k off % 2 = off.toNat % 2 := by
  unfold State.phys
  split <;> omega

/-- The byte behind an even address is the one behind the offset, in the same page. -/
theorem phys_succ (s : State) (k : Kind) {off : Word} (h : s.phys k off % 2 = 0) :
    s.phys k off + 1 = s.phys k (off + 1) := by
  rw [phys_mod] at h
  have h2 := off.isLt
  have : (off + 1).toNat = off.toNat + 1 := by
    rw [BitVec.toNat_add, show (1 : Word).toNat = 1 from rfl]
    omega
  unfold State.phys
  split <;> omega

theorem phys_succ_lt (s : State) (k : Kind) {off : Word} (h : s.phys k off % 2 = 0) :
    s.phys k off + 1 < addressLimit := phys_succ s k h ▸ phys_lt s k _

/-- Different offsets of one kind are different addresses. -/
theorem phys_inj (s : State) (k : Kind) {a b : Word} : s.phys k a = s.phys k b ↔ a = b := by
  refine ⟨fun h => ?_, fun h => h ▸ rfl⟩
  apply BitVec.eq_of_toNat_eq
  unfold State.phys at h
  split at h <;> omega

/-- An address depends on the operating mode and the page registers only. -/
theorem phys_congr {s t : State} (hp : t.params = s.params) (k : Kind) (hk : t.page k = s.page k)
    (off : Word) : t.phys k off = s.phys k off := by
  unfold State.phys
  rw [hp, hk]

@[simp] theorem phys_setReg (s : State) (i : Reg) (v : Word) (k : Kind) (off : Word) :
    (s.setReg i v).phys k off = s.phys k off := phys_congr rfl k (by cases k <;> rfl) off
@[simp] theorem phys_setNZVC (s : State) (n z v c : Bool) (k : Kind) (off : Word) :
    (s.setNZVC n z v c).phys k off = s.phys k off := phys_congr rfl k (by cases k <;> rfl) off
@[simp] theorem phys_setAlu {w : Nat} (s : State) (r : Alu w) (k : Kind) (off : Word) :
    (s.setAlu r).phys k off = s.phys k off := phys_congr rfl k (by cases k <;> rfl) off
@[simp] theorem phys_draw (s : State) (k : Kind) (off : Word) :
    s.draw.2.phys k off = s.phys k off := phys_congr rfl k (by cases k <;> rfl) off
@[simp] theorem phys_advance (s : State) (n : Nat) (k : Kind) (off : Word) :
    (s.advance n).phys k off = s.phys k off := phys_congr rfl k (by cases k <;> rfl) off
@[simp] theorem phys_jump (s : State) (t : Word) (k : Kind) (off : Word) :
    (s.jump t).phys k off = s.phys k off := phys_congr rfl k (by cases k <;> rfl) off
@[simp] theorem phys_writeByte (s : State) (a : Nat) (v : Byte) (k : Kind) (off : Word) :
    (s.writeByte a v).phys k off = s.phys k off := phys_congr rfl k (by cases k <;> rfl) off
@[simp] theorem phys_wr (s : State) (i : Reg) (sz : Size) (v : BitVec sz.bits) (k : Kind) (off : Word) :
    (s.wr i sz v).phys k off = s.phys k off :=
  phys_congr (by simp) k (by cases k <;> simp [State.page]) off

/-! ## Loads and stores -/

@[simp] theorem load_byte (s : State) (a : Nat) : s.load a .b = .ok (s.mem.read a) := rfl

theorem load_word {s : State} {a : Nat} (h : a % 2 = 0) : s.load a .w = .ok (s.mem.word a) := by
  have : ¬a % 2 = 1 := by omega
  simp [State.load, this]

theorem load_odd {s : State} {a : Nat} (h : a % 2 ≠ 0) :
    s.load a .w = .error (.raised .addressError s) := by
  have : a % 2 = 1 := by omega
  simp [State.load, this]

/-! ## The prefetch window -/

/-- The window in words: `PREFETCH_WINDOW` bytes from the PC on (R70). -/
theorem inWindow_iff (s : State) (a : Nat) : s.inWindow a = true ↔ s.mayBeFetched s.pc a := by
  simp only [State.inWindow, State.mayBeFetched, List.any_eq_true, List.mem_range, beq_iff_eq, @eq_comm Nat a]

theorem blocked_iff (s : State) (a : Nat) :
    s.blocked a = true ↔ s.params.windowStore = .refuse ∧ s.mayBeFetched s.pc a := by
  rw [State.blocked, Bool.and_eq_true, decide_eq_true_iff, inWindow_iff]

/-- The window depends on CP and the parameters only. -/
theorem mayBeFetched_congr {s t : State} (hp : t.params = s.params) (hc : t.cp = s.cp) (npc : Word) (a : Nat) :
    t.mayBeFetched npc a ↔ s.mayBeFetched npc a := by
  simp only [State.mayBeFetched, hp, phys_congr hp .code hc]

theorem blocked_congr {s t : State} (hp : t.params = s.params) (hc : t.cp = s.cp) (h : t.pc = s.pc) (a : Nat) :
    t.blocked a = s.blocked a := by
  rw [Bool.eq_iff_iff, blocked_iff, blocked_iff, hp, h, mayBeFetched_congr hp hc]

theorem storable_congr {s t : State} (hp : t.params = s.params) (hc : t.cp = s.cp) {npc : Word} {l : List Nat}
    (h : s.storable npc l) : t.storable npc l := by
  rw [State.storable, hp]
  exact h.imp_right fun h a ha => fun hm => h a ha ((mayBeFetched_congr hp hc npc a).mp hm)

/-- Fewer bytes can be stored to where more can. -/
theorem State.storable.mono {s : State} {npc : Word} {l m : List Nat} (h : s.storable npc l) (hs : m ⊆ l) :
    s.storable npc m := h.imp_right fun h a ha => h a (hs ha)

theorem blocked_of_storable {s : State} {l : List Nat} (h : s.storable s.pc l) {a : Nat} (ha : a ∈ l) :
    s.blocked a = false := by
  rw [← Bool.not_eq_true, blocked_iff]
  rintro ⟨hr, hm⟩
  rcases h with h | h
  · rw [h] at hr
    cases hr
  · exact h a ha hm

theorem not_storable_iff (s : State) (npc : Word) (l : List Nat) :
    ¬s.storable npc l ↔ s.params.windowStore = .refuse ∧ ∃ a ∈ l, s.mayBeFetched npc a := by
  have : s.params.windowStore ≠ .track ↔ s.params.windowStore = .refuse := by
    cases s.params.windowStore <;> decide
  simp only [State.storable, not_or, this, not_forall, not_not, exists_prop]

/-- A byte of the window that no store is made to. -/
theorem blocked_of_refuse {s : State} (hr : s.params.windowStore = .refuse) {a : Nat}
    (h : s.mayBeFetched s.pc a) : s.blocked a = true := (blocked_iff s a).mpr ⟨hr, h⟩

/-- The state after a store. -/
def State.stored (s : State) (a : Nat) : (sz : Size) → BitVec sz.bits → State
  | .b, v => s.writeByte a v
  | .w, v => (s.writeByte a (hiByte v)).writeByte (a + 1) (loByte v)

theorem store_byte {s : State} {a : Nat} (h : s.blocked a = false) (v : Byte) :
    s.store a .b v = .ok (s.stored a .b v) := by
  simp only [State.store, h]
  rfl

/-- A word at an even address is stored, or refused. -/
theorem store_even {s : State} {a : Nat} (h : a % 2 = 0) (v : Word) :
    s.store a .w v = refuseIf (s.blocked a || s.blocked (a + 1)) .storeInPrefetchWindow (.ok (s.stored a .w v)) := by
  have : ¬a % 2 = 1 := by omega
  simp only [State.store, this, if_false]
  rfl

theorem store_word {s : State} {a : Nat} (h : a % 2 = 0) (h1 : s.blocked a = false)
    (h2 : s.blocked (a + 1) = false) (v : Word) : s.store a .w v = .ok (s.stored a .w v) := by
  rw [store_even h, h1, h2]
  rfl

/-- A store into the window is refused (R70, U17). -/
theorem store_blocked_byte {s : State} {a : Nat} (h : s.blocked a = true) (v : Byte) :
    s.store a .b v = .error (.refuse .storeInPrefetchWindow) := by
  simp only [State.store, h]
  rfl

theorem store_blocked_word {s : State} {a : Nat} (h : a % 2 = 0)
    (hb : s.blocked a = true ∨ s.blocked (a + 1) = true) (v : Word) :
    s.store a .w v = .error (.refuse .storeInPrefetchWindow) := by
  have e : (s.blocked a || s.blocked (a + 1)) = true := by rcases hb with h | h <;> simp [h]
  rw [store_even h, e]
  rfl

theorem store_odd {s : State} {a : Nat} (h : a % 2 ≠ 0) (v : Word) :
    s.store a .w v = .error (.raised .addressError s) := by
  have : a % 2 = 1 := by omega
  simp [State.store, this]

@[simp] theorem stored_regs (s : State) (a : Nat) (sz : Size) (v : BitVec sz.bits) : (s.stored a sz v).regs = s.regs := by cases sz <;> rfl
@[simp] theorem stored_reg (s : State) (a : Nat) (sz : Size) (v : BitVec sz.bits) (i : Reg) : (s.stored a sz v).reg i = s.reg i := by cases sz <;> rfl
@[simp] theorem stored_pc (s : State) (a : Nat) (sz : Size) (v : BitVec sz.bits) : (s.stored a sz v).pc = s.pc := by cases sz <;> rfl
@[simp] theorem stored_sr (s : State) (a : Nat) (sz : Size) (v : BitVec sz.bits) : (s.stored a sz v).sr = s.sr := by cases sz <;> rfl
@[simp] theorem stored_br (s : State) (a : Nat) (sz : Size) (v : BitVec sz.bits) : (s.stored a sz v).br = s.br := by cases sz <;> rfl
@[simp] theorem stored_ep (s : State) (a : Nat) (sz : Size) (v : BitVec sz.bits) : (s.stored a sz v).ep = s.ep := by cases sz <;> rfl
@[simp] theorem stored_dp (s : State) (a : Nat) (sz : Size) (v : BitVec sz.bits) : (s.stored a sz v).dp = s.dp := by cases sz <;> rfl
@[simp] theorem stored_tp (s : State) (a : Nat) (sz : Size) (v : BitVec sz.bits) : (s.stored a sz v).tp = s.tp := by cases sz <;> rfl
@[simp] theorem stored_cp (s : State) (a : Nat) (sz : Size) (v : BitVec sz.bits) : (s.stored a sz v).cp = s.cp := by cases sz <;> rfl
@[simp] theorem stored_asleep (s : State) (a : Nat) (sz : Size) (v : BitVec sz.bits) : (s.stored a sz v).asleep = s.asleep := by cases sz <;> rfl
@[simp] theorem stored_params (s : State) (a : Nat) (sz : Size) (v : BitVec sz.bits) : (s.stored a sz v).params = s.params := by cases sz <;> rfl
@[simp] theorem stored_irq (s : State) (a : Nat) (sz : Size) (v : BitVec sz.bits) : (s.stored a sz v).irq = s.irq := by cases sz <;> rfl
@[simp] theorem stored_freeIdx (s : State) (a : Nat) (sz : Size) (v : BitVec sz.bits) : (s.stored a sz v).freeIdx = s.freeIdx := by cases sz <;> rfl
@[simp] theorem phys_stored (s : State) (a : Nat) (sz : Size) (v : BitVec sz.bits) (k : Kind) (off : Word) :
    (s.stored a sz v).phys k off = s.phys k off :=
  phys_congr (by simp) k (by cases k <;> simp [State.page]) off

@[simp] theorem stored_mem_byte (s : State) (a : Nat) (v : Byte) : (s.stored a .b v).mem = s.mem.write a v := rfl

@[simp] theorem stored_mem_word (s : State) (a : Nat) (v : Word) :
    (s.stored a .w v).mem = Memory.write (s.mem.write a (hiByte v)) (a + 1) (loByte v) := rfl

/-- A store of a word leaves every other byte alone. -/
theorem read_stored_word (s : State) {a b : Nat} (v : Word) (h1 : b ≠ a) (h2 : b ≠ a + 1) :
    (s.stored a .w v).mem.read b = s.mem.read b := by
  rw [stored_mem_word, read_write_other _ _ h2, read_write_other _ _ h1]

theorem wf_stored {s : State} (hs : s.mem.wf = true) (k : Kind) (off : Word) (sz : Size) (v : BitVec sz.bits)
    (h : sz = .w → s.phys k off % 2 = 0) : (s.stored (s.phys k off) sz v).mem.wf = true := by
  cases sz
  · exact wf_write hs (phys_lt s k off) _
  · exact wf_write (wf_write hs (phys_lt s k off) _) (phys_succ_lt s k (h rfl)) _

/-! ## The stack -/

/-- The state after a push. -/
def State.pushed (s : State) (v : Word) : State :=
  (s.setReg .r7 (s.sp - 2)).stored (s.phys .stack (s.sp - 2)) .w v

/-- SP is even. -/
def State.spEven (s : State) : Prop := s.sp.toNat % 2 = 0

theorem toNat_sub_two_mod {v : Word} : (v - 2).toNat % 2 = v.toNat % 2 := by
  have := v.isLt
  rw [BitVec.toNat_sub, show (2 : Word).toNat = 2 from rfl]
  omega

theorem toNat_add_two_mod {v : Word} : (v + 2).toNat % 2 = v.toNat % 2 := by
  have := v.isLt
  rw [BitVec.toNat_add, show (2 : Word).toNat = 2 from rfl]
  omega

@[simp] theorem sp_setReg (s : State) (v : Word) : (s.setReg .r7 v).sp = v := by
  simp [State.sp]

theorem sp_setReg_of_ne (s : State) {i : Reg} (h : i ≠ .r7) (v : Word) : (s.setReg i v).sp = s.sp := by
  simp [State.sp, Ne.symm h]

theorem stackBytes_eq (s : State) (n : Word) :
    s.stackBytes (-n) = [s.phys .stack (s.sp - n), s.phys .stack (s.sp - n) + 1] := by
  simp only [State.stackBytes, BitVec.sub_eq_add_neg]

theorem push16_ok {s : State} (h : s.spEven) (hw : s.storable s.pc (s.stackBytes (-2))) (v : Word) :
    s.push16 v = .ok (s.pushed v) := by
  rw [stackBytes_eq] at hw
  have hb (a : Nat) : (s.setReg .r7 (s.sp - 2)).blocked a = s.blocked a := blocked_congr rfl rfl rfl a
  simp only [State.push16, State.pushed, sp_setReg, phys_setReg]
  refine store_word ?_ ?_ ?_ _
  · rw [phys_mod, toNat_sub_two_mod]
    exact h
  · rw [hb]; exact blocked_of_storable hw (by simp)
  · rw [hb]; exact blocked_of_storable hw (by simp)

theorem push16_odd {s : State} (h : ¬s.spEven) (v : Word) :
    s.push16 v = .error (.raised .addressError (s.setReg .r7 (s.sp - 2))) := by
  simp only [State.push16, sp_setReg, phys_setReg]
  apply store_odd
  rw [phys_mod, toNat_sub_two_mod]
  exact h

/-- A push into the window is refused (R70, U17). -/
theorem push16_blocked {s : State} (h : s.spEven) (hw : ¬s.storable s.pc (s.stackBytes (-2))) (v : Word) :
    s.push16 v = .error (.refuse .storeInPrefetchWindow) := by
  obtain ⟨hr, a, ha, hm⟩ := (not_storable_iff ..).mp hw
  rw [stackBytes_eq] at ha
  have hb (b : Nat) : (s.setReg .r7 (s.sp - 2)).blocked b = s.blocked b := blocked_congr rfl rfl rfl b
  simp only [State.push16, sp_setReg, phys_setReg]
  refine store_blocked_word ?_ ?_ _
  · rw [phys_mod, toNat_sub_two_mod]
    exact h
  · have hx := blocked_of_refuse hr hm
    rw [hb, hb]
    simp only [List.mem_cons, List.not_mem_nil, or_false] at ha
    rcases ha with rfl | rfl
    · exact .inl hx
    · exact .inr hx

@[simp] theorem pushed_sp (s : State) (v : Word) : (s.pushed v).sp = s.sp - 2 := by
  simp [State.pushed, State.sp]
@[simp] theorem pushed_reg (s : State) (v : Word) (i : Reg) :
    (s.pushed v).reg i = if i = .r7 then s.sp - 2 else s.reg i := by
  simp [State.pushed]
@[simp] theorem pushed_pc (s : State) (v : Word) : (s.pushed v).pc = s.pc := rfl
@[simp] theorem pushed_sr (s : State) (v : Word) : (s.pushed v).sr = s.sr := rfl
@[simp] theorem pushed_br (s : State) (v : Word) : (s.pushed v).br = s.br := rfl
@[simp] theorem pushed_ep (s : State) (v : Word) : (s.pushed v).ep = s.ep := rfl
@[simp] theorem pushed_dp (s : State) (v : Word) : (s.pushed v).dp = s.dp := rfl
@[simp] theorem pushed_tp (s : State) (v : Word) : (s.pushed v).tp = s.tp := rfl
@[simp] theorem pushed_cp (s : State) (v : Word) : (s.pushed v).cp = s.cp := rfl
@[simp] theorem pushed_asleep (s : State) (v : Word) : (s.pushed v).asleep = s.asleep := rfl
@[simp] theorem pushed_params (s : State) (v : Word) : (s.pushed v).params = s.params := rfl
@[simp] theorem pushed_irq (s : State) (v : Word) : (s.pushed v).irq = s.irq := rfl
@[simp] theorem pushed_freeIdx (s : State) (v : Word) : (s.pushed v).freeIdx = s.freeIdx := rfl
@[simp] theorem phys_pushed (s : State) (v : Word) (k : Kind) (off : Word) :
    (s.pushed v).phys k off = s.phys k off := by simp [State.pushed]

theorem pushed_mem (s : State) (v : Word) :
    (s.pushed v).mem = Memory.write (s.mem.write (s.phys .stack (s.sp - 2)) (hiByte v))
      (s.phys .stack (s.sp - 2) + 1) (loByte v) := rfl

theorem pushed_wf {s : State} (hs : s.mem.wf = true) (h : s.spEven) (v : Word) :
    (s.pushed v).mem.wf = true := by
  have h2 : s.phys .stack (s.sp - 2) % 2 = 0 := by rw [phys_mod, toNat_sub_two_mod]; exact h
  exact wf_write (wf_write hs (phys_lt _ _ _) _) (phys_succ_lt _ _ h2) _

/-- The word pushed is the word on top. -/
theorem pushed_word {s : State} (hs : s.mem.wf = true) (v : Word) :
    (s.pushed v).mem.word (s.phys .stack (s.sp - 2)) = v := by
  rw [pushed_mem]
  exact word_write hs (phys_lt _ _ _) v

/-- A push leaves every other byte alone. -/
theorem read_pushed (s : State) (v : Word) {a : Nat} (h1 : a ≠ s.phys .stack (s.sp - 2))
    (h2 : a ≠ s.phys .stack (s.sp - 2) + 1) : (s.pushed v).mem.read a = s.mem.read a := by
  rw [pushed_mem, read_write_other _ _ h2, read_write_other _ _ h1]

/-- A push leaves every other even word of the stack page alone. -/
theorem word_pushed {s : State} (h : s.spEven) (v : Word) {off : Word} (ho : off.toNat % 2 = 0)
    (hne : off ≠ s.sp - 2) :
    (s.pushed v).mem.word (s.phys .stack off) = s.mem.word (s.phys .stack off) := by
  have h1 : s.phys .stack off % 2 = 0 := by rw [phys_mod]; exact ho
  have h2 : s.phys .stack (s.sp - 2) % 2 = 0 := by rw [phys_mod, toNat_sub_two_mod]; exact h
  have h3 : s.phys .stack off ≠ s.phys .stack (s.sp - 2) := fun e => hne ((phys_inj s _).mp e)
  rw [pushed_mem]
  exact word_write_other _ _ h3 (by omega) (by omega)

theorem pop16_ok {s : State} (h : s.spEven) :
    s.pop16 = .ok (s.mem.word (s.phys .stack s.sp), s.setReg .r7 (s.sp + 2)) := by
  have : s.phys .stack s.sp % 2 = 0 := by rw [phys_mod]; exact h
  simp only [State.pop16, load_word this]
  rfl

theorem pop16_odd {s : State} (h : ¬s.spEven) : s.pop16 = .error (.raised .addressError s) := by
  have : s.phys .stack s.sp % 2 ≠ 0 := by rw [phys_mod]; exact h
  simp only [State.pop16, load_odd this]
  rfl

theorem popPC_ok {s : State} (h : s.spEven) :
    s.popPC = .ok ((s.setReg .r7 (s.sp + 2)).jump (s.mem.word (s.phys .stack s.sp))) := by
  simp only [State.popPC, pop16_ok h]
  rfl

theorem popCP_ok {s : State} (h : s.spEven) :
    s.popCP = .ok { s.setReg .r7 (s.sp + 2) with cp := loByte (s.mem.word (s.phys .stack s.sp)) } := by
  simp only [State.popCP, pop16_ok h]
  rfl

theorem pushCP_ok {s : State} (h : s.spEven) (hw : s.storable s.pc (s.stackBytes (-2))) :
    s.pushCP = .ok (s.draw.2.pushed (loByte s.draw.1 ++ s.cp)) := push16_ok (s := s.draw.2) h hw _

theorem pushSR_ok {s : State} (h : s.spEven) (hw : s.storable s.pc (s.stackBytes (-2))) :
    s.pushSR = .ok (s.draw.2.pushed (srSeen s.sr s.draw.1)) := push16_ok (s := s.draw.2) h hw _

theorem pushCP_blocked {s : State} (h : s.spEven) (hw : ¬s.storable s.pc (s.stackBytes (-2))) :
    s.pushCP = .error (.refuse .storeInPrefetchWindow) := push16_blocked (s := s.draw.2) h hw _

theorem pushSR_blocked {s : State} (h : s.spEven) (hw : ¬s.storable s.pc (s.stackBytes (-2))) :
    s.pushSR = .error (.refuse .storeInPrefetchWindow) := push16_blocked (s := s.draw.2) h hw _

theorem sub_sub_word (a b c : Word) : a - b - c = a - (b + c) := by
  rw [BitVec.sub_eq_add_neg, BitVec.sub_eq_add_neg, BitVec.sub_eq_add_neg, BitVec.neg_add,
    BitVec.sub_eq_add_neg, BitVec.add_assoc]

/-- The bytes of the push behind a push. -/
theorem stackBytes_pushed (s : State) (v n : Word) : (s.pushed v).stackBytes (-n) = s.stackBytes (-(2 + n)) := by
  simp only [stackBytes_eq, pushed_sp, phys_pushed, sub_sub_word]

/-! ## Taking an exception -/

/-- The state after the words of an entry are stacked. -/
def State.framed (s : State) (savedPC : Word) : State :=
  let t := s.pushed savedPC
  let u := if s.params.maxMode then t.draw.2.pushed (loByte t.draw.1 ++ t.cp) else t
  u.draw.2.pushed (srSeen u.sr u.draw.1)

theorem pushFrame_ok {s : State} (h : s.spEven) (hw : s.storable s.pc s.frameBytes) (savedPC : Word) :
    s.pushFrame savedPC = .ok (s.framed savedPC) := by
  have h1 : (s.pushed savedPC).spEven := by
    simp only [State.spEven, pushed_sp, toNat_sub_two_mod]; exact h
  have w0 : s.storable s.pc (s.stackBytes (-2)) := hw.mono (by simp [State.frameBytes])
  have w1 : (s.pushed savedPC).storable (s.pushed savedPC).pc ((s.pushed savedPC).stackBytes (-2)) := by
    rw [stackBytes_pushed]
    exact storable_congr rfl rfl (hw.mono (by simp [State.frameBytes]))
  simp only [State.pushFrame, State.framed, push16_ok h w0, bind, Except.bind, pushed_params]
  by_cases hm : s.params.maxMode = true
  · have h2 : ((s.pushed savedPC).draw.2.pushed (loByte (s.pushed savedPC).draw.1 ++ (s.pushed savedPC).cp)).spEven := by
      simp only [State.spEven, pushed_sp, toNat_sub_two_mod]; exact h1
    have w2 : ((s.pushed savedPC).draw.2.pushed (loByte (s.pushed savedPC).draw.1 ++ (s.pushed savedPC).cp)).storable
        s.pc (((s.pushed savedPC).draw.2.pushed
          (loByte (s.pushed savedPC).draw.1 ++ (s.pushed savedPC).cp)).stackBytes (-2)) := by
      rw [stackBytes_pushed]
      have e : (s.pushed savedPC).draw.2.stackBytes (-(2 + 2)) = s.stackBytes (-(2 + (2 + 2))) :=
        stackBytes_pushed s savedPC (2 + 2)
      rw [e]
      exact storable_congr rfl rfl (hw.mono (by simp [State.frameBytes, hm]))
    simp only [hm, if_true, pushCP_ok h1 w1, pushSR_ok h2 w2]
  · simp only [hm, Bool.false_eq_true, if_false, pure, Except.pure, pushSR_ok h1 w1]

/-- Bytes of two lists can be stored to where those of each can. -/
theorem storable_append {s : State} {npc : Word} {l m : List Nat} (hl : s.storable npc l)
    (hm : s.storable npc m) : s.storable npc (l ++ m) := by
  rcases hl with h | hl
  · exact .inl h
  · rcases hm with h | hm
    · exact .inl h
    · exact .inr fun a ha => (List.mem_append.mp ha).elim (hl a) (hm a)

/-- A frame with a byte in the window is refused, whichever of its words it lies in (R70; log entry 29). -/
theorem pushFrame_blocked {s : State} (h : s.spEven) (hw : ¬s.storable s.pc s.frameBytes) (savedPC : Word) :
    s.pushFrame savedPC = .error (.refuse .storeInPrefetchWindow) := by
  have h1 : (s.pushed savedPC).spEven := by
    simp only [State.spEven, pushed_sp, toNat_sub_two_mod]; exact h
  by_cases w0 : s.storable s.pc (s.stackBytes (-2))
  · have e1 : (s.pushed savedPC).stackBytes (-2) = s.stackBytes (-4) := stackBytes_pushed s savedPC 2
    simp only [State.pushFrame, push16_ok h w0, bind, Except.bind, pushed_params]
    by_cases w1 : s.storable s.pc (s.stackBytes (-4))
    · by_cases hm : s.params.maxMode = true
      · have k1 : (s.pushed savedPC).storable (s.pushed savedPC).pc ((s.pushed savedPC).stackBytes (-2)) := by
          rw [e1]; exact storable_congr rfl rfl w1
        simp only [hm, if_true, pushCP_ok h1 k1]
        refine pushSR_blocked (by simp only [State.spEven, pushed_sp, toNat_sub_two_mod]; exact h1) fun k2 => hw ?_
        rw [stackBytes_pushed] at k2
        have e2 : (s.pushed savedPC).draw.2.stackBytes (-(2 + 2)) = s.stackBytes (-(2 + (2 + 2))) :=
          stackBytes_pushed s savedPC (2 + 2)
        rw [e2] at k2
        simp only [State.frameBytes, hm, if_true]
        exact storable_append (storable_append w0 w1) (storable_congr rfl rfl k2)
      · refine absurd ?_ hw
        simp only [State.frameBytes, hm, Bool.false_eq_true, if_false, List.append_nil]
        exact storable_append w0 w1
    · have k1 : ¬(s.pushed savedPC).storable (s.pushed savedPC).pc ((s.pushed savedPC).stackBytes (-2)) := by
        rw [e1]; exact fun k => w1 (storable_congr rfl rfl k)
      by_cases hm : s.params.maxMode = true
      · simp only [hm, if_true, pushCP_blocked h1 k1]
      · simp only [hm, Bool.false_eq_true, if_false, pure, Except.pure, pushSR_blocked h1 k1]
  · simp only [State.pushFrame, push16_blocked h w0, bind, Except.bind]

theorem pushFrame_odd {s : State} (h : ¬s.spEven) (savedPC : Word) :
    s.pushFrame savedPC = .error (.raised .addressError (s.setReg .r7 (s.sp - 2))) := by
  simp only [State.pushFrame, push16_odd h, bind, Except.bind]

theorem enter_ok {s : State} (h : s.spEven) (hw : s.storable s.pc s.frameBytes) (entry : Byte) (savedPC : Word) :
    s.enter entry savedPC = .next ((s.framed savedPC).enterVector entry) := by
  simp only [State.enter, pushFrame_ok h hw]

theorem enter_blocked {s : State} (h : s.spEven) (hw : ¬s.storable s.pc s.frameBytes) (entry : Byte)
    (savedPC : Word) : s.enter entry savedPC = .refused .storeInPrefetchWindow := by
  simp only [State.enter, pushFrame_blocked h hw, entryStopped]

/-- An odd SP makes every entry a double fault (R326). -/
theorem enter_odd {s : State} (h : ¬s.spEven) (entry : Byte) (savedPC : Word) :
    s.enter entry savedPC = .fault .doubleFault := by
  simp only [State.enter, pushFrame_odd h, entryStopped]

end Sys2Proof.Machine
end

