-- ==== Sys2Proof/Laws/Exceptions.lean ====
section
/-! SUPPORT. What taking an exception does, said once: the frame, the vector, and nothing else. -/

namespace Sys2Proof.Machine

theorem phys_vector (s : State) {n : Nat} (h : n < 65536) : s.phys .zero (BitVec.ofNat 16 n) = n := by
  have e : n % 2 ^ 16 = n := Nat.mod_eq_of_lt h
  unfold State.phys
  split
  · show (0 : Byte).toNat * 65536 + (BitVec.ofNat 16 n).toNat = n
    rw [BitVec.toNat_ofNat, e]
    simp
  · rw [BitVec.toNat_ofNat, e]

/-- Where an entry goes (R312, R320). -/
theorem vectorTo_max {s : State} (h : s.params.maxMode = true) (e : Byte) :
    s.vectorTo e = { s with cp := s.mem.read (4 * e.toNat + 1) }.jump (s.mem.word (4 * e.toNat + 2)) := by
  have := e.isLt
  simp only [State.vectorTo, h, if_true, phys_vector s (show 4 * e.toNat < 65536 by omega)]

theorem vectorTo_min {s : State} (h : s.params.maxMode = false) (e : Byte) :
    s.vectorTo e = s.jump (s.mem.word (2 * e.toNat)) := by
  have := e.isLt
  simp only [State.vectorTo, h, Bool.false_eq_true, if_false,
    phys_vector s (show 2 * e.toNat < 65536 by omega)]

/-- The reserved bits apart, SR as an instruction reads it is SR. -/
theorem srSeen_defined (sr free : Word) : srSeen sr free &&& ~~~srReserved = sr &&& ~~~srReserved := by
  unfold srSeen
  ext k hk
  simp only [BitVec.getElem_and, BitVec.getElem_or, BitVec.getElem_not]
  cases sr[k] <;> cases free[k] <;> cases srReserved[k] <;> rfl

theorem srClearT_bit (sr : Word) (k : Nat) : (srClearT sr).getLsbD k = (decide (k < 15) && sr.getLsbD k) := by
  simp only [srClearT, BitVec.getLsbD_append, BitVec.getLsbD_extractLsb', Nat.zero_add]
  by_cases h : k < 15
  · simp [h]
  · have : (0 : BitVec 1).getLsbD (k - 15) = false := BitVec.getLsbD_zero
    simp [h]

/-- The frame of minimum mode: the PC, then SR on top (R322). -/
theorem framed_min {s : State} (hm : s.params.maxMode = false) (pc : Word) :
    s.framed pc = (s.pushed pc).draw.2.pushed (srSeen s.sr (s.pushed pc).draw.1) := by
  simp only [State.framed, hm, Bool.false_eq_true, if_false, pushed_sr]

/-- The frame of maximum mode: the PC, then CP, then SR on top (R322). -/
theorem framed_max {s : State} (hm : s.params.maxMode = true) (pc : Word) :
    let t := (s.pushed pc).draw.2.pushed (loByte (s.pushed pc).draw.1 ++ s.cp)
    s.framed pc = t.draw.2.pushed (srSeen s.sr t.draw.1) := by
  simp only [State.framed, hm, if_true, pushed_cp, pushed_sr, draw_sr]

/-- What the words of an entry leave: everything that the stacking does (R320, R322). -/
structure Framed (s t : State) (pc : Word) : Prop where
  sp : t.sp = s.sp - s.frameSize
  regs : regsKeptBut s t [.r7]
  mem : memKeptBut s t s.frameBytes
  wf : s.mem.wf = true → t.mem.wf = true
  pc_pushed : s.mem.wf = true → t.mem.word (s.phys .stack (s.sp - 2)) = pc
  cp_pushed : s.mem.wf = true → s.params.maxMode = true →
    loByte (t.mem.word (s.phys .stack (s.sp - 4))) = s.cp
  sr_pushed : s.mem.wf = true →
    t.mem.word (s.phys .stack (s.sp - s.frameSize)) &&& ~~~srReserved = s.sr &&& ~~~srReserved
  rest : t.pc = s.pc ∧ t.sr = s.sr ∧ t.br = s.br ∧ t.ep = s.ep ∧ t.dp = s.dp ∧ t.tp = s.tp ∧
    t.cp = s.cp ∧ t.asleep = s.asleep ∧ t.params = s.params ∧ t.irq = s.irq

theorem sp_draw (s : State) : s.draw.2.sp = s.sp := rfl

theorem word_ne {a b c : Word} (h : b ≠ c) : a - b ≠ a - c := by
  rw [BitVec.sub_eq_add_neg, BitVec.sub_eq_add_neg]
  intro e
  have := (BitVec.add_right_inj a).mp e
  exact h (by rw [← BitVec.neg_neg (x := b), this, BitVec.neg_neg])

theorem framed_spec {s : State} (h : s.spEven) (pc : Word) : Framed s (s.framed pc) pc := by
  have e2 : (s.sp - 2).toNat % 2 = 0 := by rw [toNat_sub_two_mod]; exact h
  have s4 : s.sp - 2 - 2 = s.sp - 4 := by rw [sub_sub_word]; rfl
  have s6 : s.sp - 4 - 2 = s.sp - 6 := by rw [sub_sub_word]; rfl
  have e4 : (s.sp - 4).toNat % 2 = 0 := by rw [← s4, toNat_sub_two_mod]; exact e2
  have h1 : (s.pushed pc).draw.2.spEven := by
    simp only [State.spEven, sp_draw, pushed_sp]; exact e2
  cases hm : s.params.maxMode
  · rw [framed_min hm]
    have fs : s.frameSize = 4 := by simp [State.frameSize, hm]
    refine ⟨?_, ?_, ?_, ?_, ?_, ?_, ?_, ?_⟩
    · simp only [pushed_sp, sp_draw, s4, fs]
    · intro i hi
      simp only [List.mem_singleton] at hi
      simp [hi]
    · intro a ha
      simp only [State.frameBytes, hm, stackBytes_eq, Bool.false_eq_true, if_false, List.append_nil,
        List.cons_append, List.nil_append, List.mem_cons, List.not_mem_nil, or_false, not_or] at ha
      rw [read_pushed, draw_mem, read_pushed _ _ ha.1 ha.2.1]
      · simp only [sp_draw, pushed_sp, phys_draw, phys_pushed, s4]; exact ha.2.2.1
      · simp only [sp_draw, pushed_sp, phys_draw, phys_pushed, s4]; exact ha.2.2.2
    · intro hw
      exact pushed_wf (s := (s.pushed pc).draw.2) (pushed_wf hw h pc) h1 _
    · intro hw
      have := word_pushed (s := (s.pushed pc).draw.2) h1 (srSeen s.sr (s.pushed pc).draw.1) (off := s.sp - 2) e2
        (by simp only [sp_draw, pushed_sp, s4]; exact word_ne (by decide))
      simp only [phys_draw, phys_pushed, draw_mem] at this
      rw [this, pushed_word hw]
    · intro _ hx
      rw [hm] at hx; cases hx
    · intro hw
      have := pushed_word (s := (s.pushed pc).draw.2) (pushed_wf hw h pc) (srSeen s.sr (s.pushed pc).draw.1)
      simp only [phys_draw, phys_pushed, sp_draw, pushed_sp, s4] at this
      rw [fs, this, srSeen_defined]
    · simp
  · rw [framed_max hm]
    have fs : s.frameSize = 6 := by simp [State.frameSize, hm]
    generalize hc : loByte (s.pushed pc).draw.1 ++ s.cp = cw
    have h2 : ((s.pushed pc).draw.2.pushed cw).draw.2.spEven := by
      simp only [State.spEven, sp_draw, pushed_sp, s4]; exact e4
    have w1 : s.mem.wf = true → ((s.pushed pc).draw.2.pushed cw).draw.2.mem.wf = true := fun hw =>
      pushed_wf (s := (s.pushed pc).draw.2) (pushed_wf hw h pc) h1 _
    refine ⟨?_, ?_, ?_, ?_, ?_, ?_, ?_, ?_⟩
    · simp only [pushed_sp, sp_draw, s4, s6, fs]
    · intro i hi
      simp only [List.mem_singleton] at hi
      simp [hi]
    · intro a ha
      simp only [State.frameBytes, hm, stackBytes_eq, if_true,
        List.cons_append, List.nil_append, List.mem_cons, List.not_mem_nil, or_false, not_or] at ha
      rw [read_pushed, draw_mem, read_pushed, draw_mem, read_pushed _ _ ha.1 ha.2.1]
      · simp only [sp_draw, pushed_sp, phys_draw, phys_pushed, s4]; exact ha.2.2.1
      · simp only [sp_draw, pushed_sp, phys_draw, phys_pushed, s4]; exact ha.2.2.2.1
      · simp only [sp_draw, pushed_sp, phys_draw, phys_pushed, s4, s6]; exact ha.2.2.2.2.1
      · simp only [sp_draw, pushed_sp, phys_draw, phys_pushed, s4, s6]; exact ha.2.2.2.2.2
    · intro hw
      exact pushed_wf (w1 hw) h2 _
    · intro hw
      have a1 := word_pushed h2 (srSeen s.sr ((s.pushed pc).draw.2.pushed cw).draw.1) (off := s.sp - 2) e2
        (by simp only [sp_draw, pushed_sp, s4, s6]; exact word_ne (by decide))
      have a2 := word_pushed h1 cw (off := s.sp - 2) e2
        (by simp only [sp_draw, pushed_sp, s4]; exact word_ne (by decide))
      simp only [phys_draw, phys_pushed, draw_mem] at a1 a2
      rw [a1, a2, pushed_word hw]
    · intro hw _
      have a1 := word_pushed h2 (srSeen s.sr ((s.pushed pc).draw.2.pushed cw).draw.1) (off := s.sp - 4) e4
        (by simp only [sp_draw, pushed_sp, s4, s6]; exact word_ne (by decide))
      have a2 := pushed_word (s := (s.pushed pc).draw.2) (pushed_wf hw h pc) cw
      simp only [phys_draw, phys_pushed, draw_mem, sp_draw, pushed_sp, s4] at a1 a2
      rw [a1, a2, ← hc, loByte_append]
    · intro hw
      have := pushed_word (w1 hw) (srSeen s.sr ((s.pushed pc).draw.2.pushed cw).draw.1)
      simp only [phys_draw, phys_pushed, sp_draw, pushed_sp, s4, s6] at this
      rw [fs, this, srSeen_defined]
    · simp

/-- The vector part of an entry, from the state `u` that holds the frame. -/
theorem enterVector_spec {s u : State} {pc : Word} (h : Framed s u pc) (entry : Byte) :
    Entered s (u.enterVector entry) entry pc ∧ (u.enterVector entry).sr = srClearT u.sr ∧
      (u.enterVector entry).asleep = u.asleep ∧ (u.enterVector entry).irq = u.irq ∧
      (u.enterVector entry).mem = u.mem := by
  obtain ⟨hsp, hregs, hmem, -, hpc, hcp, hsr, -, -, rbr, rep, rdp, rtp, rcp, -, rparams, -⟩ := h
  cases hm : s.params.maxMode
  · have hu : u.params.maxMode = false := by rw [rparams, hm]
    have e : u.enterVector entry =
        ({ u with sr := srClearT u.sr } : State).jump (u.mem.word (2 * entry.toNat)) :=
      vectorTo_min (s := { u with sr := srClearT u.sr }) hu entry
    rw [e]
    refine ⟨⟨hsp, hpc, hcp, hsr, ?_, ?_, fun _ => rfl, fun _ => rcp, hregs, hmem,
      ⟨rbr, rep, rdp, rtp, rparams⟩, rfl⟩,
      rfl, rfl, rfl, rfl⟩
    · intro hx; rw [hm] at hx; cases hx
    · intro hx; rw [hm] at hx; cases hx
  · have hu : u.params.maxMode = true := by rw [rparams, hm]
    have e : u.enterVector entry =
        ({ u with sr := srClearT u.sr, cp := u.mem.read (4 * entry.toNat + 1) } : State).jump
          (u.mem.word (4 * entry.toNat + 2)) :=
      vectorTo_max (s := { u with sr := srClearT u.sr }) hu entry
    rw [e]
    refine ⟨⟨hsp, hpc, hcp, hsr, fun _ => rfl, fun _ => rfl, ?_, ?_, hregs, hmem,
      ⟨rbr, rep, rdp, rtp, rparams⟩, rfl⟩,
      rfl, rfl, rfl, rfl⟩
    · intro hx; rw [hm] at hx; cases hx
    · intro hx; rw [hm] at hx; cases hx

/-- Everything that the entry of a synchronous exception does (R320). -/
theorem enter_spec {s : State} (h : s.spEven) (hw : s.storable s.pc s.frameBytes) (entry : Byte) (pc : Word) :
    ∃ t, s.enter entry pc = .next t ∧ Entered s t entry pc ∧ t.sr = srClearT s.sr ∧
      t.asleep = s.asleep ∧ t.irq = s.irq := by
  have hf := framed_spec h pc
  obtain ⟨h1, h2, h3, h4, -⟩ := enterVector_spec hf entry
  obtain ⟨-, rsr, -, -, -, -, -, rasleep, -, rirq⟩ := hf.rest
  exact ⟨_, enter_ok h hw entry pc, h1, by rw [h2, rsr], by rw [h3, rasleep], by rw [h4, rirq]⟩

theorem traceCleared_of {s t : State} (h : t.sr = srClearT s.sr) : traceCleared s t := by
  refine ⟨?_, fun k hk => ?_⟩
  · rw [State.flagT, h, srClearT_bit]; rfl
  · rw [h, srClearT_bit, decide_eq_true hk, Bool.true_and]

end Sys2Proof.Machine
end

