-- ==== Sys2Proof/Laws/Flags.lean ====
section
/-! SUPPORT. What the flag computations mean: V is signed overflow, C is the exact carry or borrow, a zero
difference is equality; the results of NEG and ADD:Q. -/

namespace Sys2Proof.Machine

/-! ## Overflow -/

theorem mod_twice {x m : Nat} (h : x < 4 * m) : x % (2 * m) = if x < 2 * m then x else x - 2 * m := by
  split
  · exact Nat.mod_eq_of_lt ‹_›
  · rw [Nat.mod_eq_sub_mod (by omega), Nat.mod_eq_of_lt (by omega)]

theorem toNat_carry {m : Nat} (c : Bool) : (BitVec.ofNat (m + 1) c.toNat).toNat = c.toNat := by
  rw [BitVec.toNat_ofNat]
  apply Nat.mod_eq_of_lt
  have := Nat.one_lt_two_pow (n := m + 1) (by omega)
  cases c <;> simp

/-- The sum with carry, exactly. -/
theorem toNat_add_carry {m : Nat} (a b : BitVec (m + 1)) (c : Bool) :
    (a + b + BitVec.ofNat (m + 1) c.toNat).toNat =
      if a.toNat + b.toNat + c.toNat < 2 * 2 ^ m then a.toNat + b.toNat + c.toNat
      else a.toNat + b.toNat + c.toNat - 2 * 2 ^ m := by
  have ha := a.isLt
  have hb := b.isLt
  have hc : c.toNat ≤ 1 := by cases c <;> simp
  rw [BitVec.toNat_add, BitVec.toNat_add, Nat.mod_add_mod, toNat_carry]
  rw [Nat.pow_succ, Nat.mul_comm] at ha hb ⊢
  exact mod_twice (by omega)

/-- The difference with borrow, exactly. -/
theorem toNat_sub_borrow {m : Nat} (a b : BitVec (m + 1)) (c : Bool) :
    (a - b - BitVec.ofNat (m + 1) c.toNat).toNat =
      if b.toNat + c.toNat ≤ a.toNat then a.toNat - (b.toNat + c.toNat)
      else a.toNat + 2 * 2 ^ m - (b.toNat + c.toNat) := by
  have ha := a.isLt
  have hb := b.isLt
  have hc : c.toNat ≤ 1 := by cases c <;> simp
  rw [BitVec.toNat_sub, toNat_carry, BitVec.toNat_sub, Nat.add_mod_mod]
  rw [Nat.pow_succ, Nat.mul_comm] at ha hb ⊢
  generalize 2 ^ m = M at *
  have e : 2 * M - c.toNat + (2 * M - b.toNat + a.toNat) = a.toNat + 4 * M - (b.toNat + c.toNat) := by omega
  rw [e]
  split
  · have e2 : a.toNat + 4 * M - (b.toNat + c.toNat) = a.toNat - (b.toNat + c.toNat) + 2 * (2 * M) := by omega
    rw [e2, Nat.add_mul_mod_self_right, Nat.mod_eq_of_lt (by omega)]
  · have e2 : a.toNat + 4 * M - (b.toNat + c.toNat) = a.toNat + 2 * M - (b.toNat + c.toNat) + 2 * M := by omega
    rw [e2, Nat.add_mod_right]
    exact Nat.mod_eq_of_lt (by omega)

theorem msb_iff {m : Nat} (a : BitVec (m + 1)) : a.msb = decide (2 ^ m ≤ a.toNat) := by
  rw [BitVec.msb_eq_decide]
  rfl

theorem toInt_cases {m : Nat} (a : BitVec (m + 1)) :
    a.toInt = if a.toNat < 2 ^ m then (a.toNat : Int) else (a.toNat : Int) - 2 * (2 ^ m : Nat) := by
  have e : (2 : Nat) ^ (m + 1) = 2 * 2 ^ m := by rw [Nat.pow_succ, Nat.mul_comm]
  rw [BitVec.toInt_eq_toNat_cond, e]
  split <;> split <;> omega

/-- V of an addition is signed overflow (R12). -/
theorem add_overflows {w : Nat} (hw : 0 < w) (a b : BitVec w) (c : Bool) :
    (a.msb == b.msb && (a + b + BitVec.ofNat w c.toNat).msb != a.msb) = addOverflows a b c := by
  obtain ⟨m, rfl⟩ : ∃ m, w = m + 1 := ⟨w - 1, by omega⟩
  have ha := a.isLt
  have hb := b.isLt
  have hc : c.toNat ≤ 1 := by cases c <;> simp
  have hr := toNat_add_carry a b c
  have e : (2 : Nat) ^ (m + 1) = 2 * 2 ^ m := by rw [Nat.pow_succ, Nat.mul_comm]
  have ei : (2 : Int) ^ (m + 1 - 1) = ((2 ^ m : Nat) : Int) := by norm_cast
  rw [e] at ha hb
  rw [Bool.eq_iff_iff]
  simp only [addOverflows, msb_iff, toInt_cases, hr, ei, Bool.and_eq_true, beq_iff_eq, bne_iff_ne, ne_eq,
    decide_eq_decide, Bool.not_eq_true', decide_eq_false_iff_not]
  generalize 2 ^ m = M at *
  generalize a.toNat = A at *
  generalize b.toNat = B at *
  generalize c.toNat = C at *
  split <;> split <;> split <;> omega

/-- V of a subtraction is signed overflow (R12). -/
theorem sub_overflows {w : Nat} (hw : 0 < w) (a b : BitVec w) (c : Bool) :
    (a.msb != b.msb && (a - b - BitVec.ofNat w c.toNat).msb != a.msb) = subOverflows a b c := by
  obtain ⟨m, rfl⟩ : ∃ m, w = m + 1 := ⟨w - 1, by omega⟩
  have ha := a.isLt
  have hb := b.isLt
  have hc : c.toNat ≤ 1 := by cases c <;> simp
  have hr := toNat_sub_borrow a b c
  have e : (2 : Nat) ^ (m + 1) = 2 * 2 ^ m := by rw [Nat.pow_succ, Nat.mul_comm]
  have ei : (2 : Int) ^ (m + 1 - 1) = ((2 ^ m : Nat) : Int) := by norm_cast
  rw [e] at ha hb
  rw [Bool.eq_iff_iff]
  simp only [subOverflows, msb_iff, toInt_cases, hr, ei, Bool.and_eq_true, bne_iff_ne, ne_eq,
    decide_eq_decide, Bool.not_eq_true', decide_eq_false_iff_not]
  generalize 2 ^ m = M at *
  generalize a.toNat = A at *
  generalize b.toNat = B at *
  generalize c.toNat = C at *
  split <;> split <;> split <;> omega

/-! ## Sums and differences with their flags -/

theorem addFlags_eq {w : Nat} (hw : 0 < w) (a b : BitVec w) (c : Bool) :
    addFlags a b c = ⟨a + b + BitVec.ofNat w c.toNat, (a + b + BitVec.ofNat w c.toNat).msb,
      a + b + BitVec.ofNat w c.toNat == 0, addOverflows a b c,
      decide (2 ^ w ≤ a.toNat + b.toNat + c.toNat)⟩ := by
  simp only [addFlags, nzFlags, add_overflows hw]
  rfl

theorem subFlags_eq {w : Nat} (hw : 0 < w) (a b : BitVec w) (c : Bool) :
    subFlags a b c = ⟨a - b - BitVec.ofNat w c.toNat, (a - b - BitVec.ofNat w c.toNat).msb,
      a - b - BitVec.ofNat w c.toNat == 0, subOverflows a b c,
      decide (a.toNat < b.toNat + c.toNat)⟩ := by
  simp only [subFlags, nzFlags, sub_overflows hw]
  rfl

theorem addFlags_no_carry {w : Nat} (hw : 0 < w) (a b : BitVec w) :
    addFlags a b false = ⟨a + b, (a + b).msb, a + b == 0, addOverflows a b false,
      decide (2 ^ w ≤ a.toNat + b.toNat)⟩ := by
  rw [addFlags_eq hw]
  simp

theorem sub_beq_zero {w : Nat} (a b : BitVec w) : (a - b == 0) = (a == b) := by
  rw [Bool.eq_iff_iff, beq_iff_eq, beq_iff_eq]
  constructor
  · intro h
    have := congrArg (· + b) h
    simpa [BitVec.sub_add_cancel] using this
  · rintro rfl
    exact BitVec.sub_self _

theorem subFlags_no_borrow {w : Nat} (hw : 0 < w) (a b : BitVec w) :
    subFlags a b false = ⟨a - b, (a - b).msb, a == b, subOverflows a b false,
      decide (a.toNat < b.toNat)⟩ := by
  have e : a - b - BitVec.ofNat w false.toNat = a - b := BitVec.sub_zero _
  rw [subFlags_eq hw, e, sub_beq_zero]
  rfl

theorem bits_pos (sz : Size) : 0 < sz.bits := by cases sz <;> decide

/-! ## Results of single instructions -/

/-- Z of the extended forms by `Z_EXTENDED` (R166). -/
theorem extendedZ_eq (s : State) (b : Bool) : extendedZ s.params.zExtended s.flagZ b = s.zAfter b := by
  unfold extendedZ State.zAfter
  cases s.params.zExtended <;> simp

/-- A byte source of ADDS and SUBS is sign-extended (R164). -/
theorem wordOf_eq (sz : Size) (v : BitVec sz.bits) : wordOf sz v = BitVec.ofInt 16 v.toInt := by
  cases sz
  · rfl
  · exact (BitVec.ofInt_toInt).symm

/-- NEG (R188). -/
theorem negFlags_eq (sz : Size) (a : BitVec sz.bits) (rule : Config.NegV) :
    negFlags rule a = ⟨-a, (-a).msb, a == 0,
      decide (rule = .overflow) && decide (a.toInt = -2 ^ (sz.bits - 1)), a != 0⟩ := by
  have h : subFlags 0 a false =
      ⟨-a, (-a).msb, a == 0, decide (a.toInt = -2 ^ (sz.bits - 1)), a != 0⟩ := by
    rw [subFlags_no_borrow (bits_pos sz)]
    have h0 : (0 : BitVec sz.bits) - a = -a := by simp
    rw [h0]; congr 1
    · rw [Bool.eq_iff_iff, beq_iff_eq, beq_iff_eq]; exact eq_comm
    · simp only [subOverflows]
      have := BitVec.le_toInt a; have := BitVec.toInt_lt (x := a)
      cases sz <;> simp at * <;> rw [Bool.eq_iff_iff] <;> simp <;> omega
    · rw [Bool.eq_iff_iff]; simp [Nat.pos_iff_ne_zero]
      rw [← BitVec.toNat_inj]; simp
  unfold negFlags
  rw [h]; cases rule <;> simp

theorem quick_amount (sz : Size) (q : QuickImm) :
    (quickAmount q : BitVec sz.bits).toInt = (quickValue q).natAbs ∧
    (quickAmount q : BitVec sz.bits).toNat = (quickValue q).natAbs ∧
    BitVec.ofInt sz.bits (quickValue q) = if quickNegative q then - quickAmount q else quickAmount q := by
  cases q <;> cases sz <;> decide

/-- ADD:Q (R162). -/
theorem quickFlags_spec (sz : Size) (rule : Config.AddqNegC) (free : Bool) (q : QuickImm) (a : BitVec sz.bits) :
    let r := a + BitVec.ofInt sz.bits (quickValue q)
    ∃ c, quickFlags rule free q a = ⟨r, r.msb, r == 0, !decide (-2 ^ (sz.bits - 1) ≤ a.toInt + quickValue q ∧
        a.toInt + quickValue q < 2 ^ (sz.bits - 1)), c⟩ ∧
      (0 < quickValue q → c = decide ((2 : Int) ^ sz.bits ≤ a.toNat + quickValue q)) ∧
      (quickValue q < 0 → rule = .borrow → c = decide ((a.toNat : Int) + quickValue q < 0)) ∧
      (quickValue q < 0 → rule = .add → c = decide (0 ≤ (a.toNat : Int) + quickValue q)) := by
  intro r
  obtain ⟨h1, h2, h3⟩ := quick_amount sz q
  cases hq : quickNegative q
  · have hv : 0 < quickValue q := by cases q <;> simp_all [quickNegative, quickValue]
    have hr : a + quickAmount q = r := by simp only [r, h3, hq]; rfl
    simp only [quickFlags, hq, Bool.false_eq_true, if_false, addFlags_no_carry (bits_pos sz), hr]
    refine ⟨decide ((2 : Int) ^ sz.bits ≤ a.toNat + quickValue q), ?_, fun _ => rfl, fun h => by omega,
      fun h => by omega⟩
    congr 1
    · simp only [addOverflows, h1]
      rw [Int.natAbs_of_nonneg (by omega)]; simp
    · rw [h2, decide_eq_decide]
      have : ((quickValue q).natAbs : Int) = quickValue q := Int.natAbs_of_nonneg (by omega)
      rw [← this]; norm_cast
  · have hv : quickValue q < 0 := by cases q <;> simp_all [quickNegative, quickValue]
    have hr : a - quickAmount q = r := by simp only [r, h3, hq]; exact BitVec.sub_eq_add_neg ..
    have h4 : ((quickValue q).natAbs : Int) = - quickValue q := by omega
    have hc : decide (a.toNat < (quickAmount q : BitVec sz.bits).toNat) =
        decide ((a.toNat : Int) + quickValue q < 0) := by
      rw [h2, decide_eq_decide]; omega
    have e : subFlags a (quickAmount q) false = ⟨r, r.msb, r == 0,
        !decide (-2 ^ (sz.bits - 1) ≤ a.toInt + quickValue q ∧ a.toInt + quickValue q < 2 ^ (sz.bits - 1)),
        decide ((a.toNat : Int) + quickValue q < 0)⟩ := by
      rw [subFlags_no_borrow (bits_pos sz), hr, hc, ← sub_beq_zero, hr]
      congr 1
      simp only [subOverflows, h1, h4]; simp
    simp only [quickFlags, hq, if_true, e]
    cases rule <;> refine ⟨_, rfl, fun h => by omega, fun _ h => ?_, fun _ h => ?_⟩ <;> first | (cases h; done) | rfl | skip
    rw [← decide_not, decide_eq_decide]; omega

end Sys2Proof.Machine
end

