-- ==== Sys2Proof/Laws/Operands.lean ====
section
/-! SUPPORT. What resolving, reading and writing an operand do, and what each shape of instruction
answers: an equation where the operand can be accessed, the exception where it cannot. -/

namespace Sys2Proof.Machine

/-! ## Resolving an EA field -/

@[simp] theorem resolve_pc (sz : Size) (ea : EA) (s : State) : (resolve sz ea s).2.pc = s.pc := by cases ea <;> rfl
@[simp] theorem resolve_sr (sz : Size) (ea : EA) (s : State) : (resolve sz ea s).2.sr = s.sr := by cases ea <;> rfl
@[simp] theorem resolve_br (sz : Size) (ea : EA) (s : State) : (resolve sz ea s).2.br = s.br := by cases ea <;> rfl
@[simp] theorem resolve_ep (sz : Size) (ea : EA) (s : State) : (resolve sz ea s).2.ep = s.ep := by cases ea <;> rfl
@[simp] theorem resolve_dp (sz : Size) (ea : EA) (s : State) : (resolve sz ea s).2.dp = s.dp := by cases ea <;> rfl
@[simp] theorem resolve_tp (sz : Size) (ea : EA) (s : State) : (resolve sz ea s).2.tp = s.tp := by cases ea <;> rfl
@[simp] theorem resolve_cp (sz : Size) (ea : EA) (s : State) : (resolve sz ea s).2.cp = s.cp := by cases ea <;> rfl
@[simp] theorem resolve_asleep (sz : Size) (ea : EA) (s : State) : (resolve sz ea s).2.asleep = s.asleep := by cases ea <;> rfl
@[simp] theorem resolve_mem (sz : Size) (ea : EA) (s : State) : (resolve sz ea s).2.mem = s.mem := by cases ea <;> rfl
@[simp] theorem resolve_params (sz : Size) (ea : EA) (s : State) : (resolve sz ea s).2.params = s.params := by cases ea <;> rfl
@[simp] theorem resolve_irq (sz : Size) (ea : EA) (s : State) : (resolve sz ea s).2.irq = s.irq := by cases ea <;> rfl
@[simp] theorem resolve_stale (sz : Size) (ea : EA) (s : State) : (resolve sz ea s).2.stale = s.stale := by cases ea <;> rfl
@[simp] theorem resolve_freeIdx (sz : Size) (ea : EA) (s : State) : (resolve sz ea s).2.freeIdx = s.freeIdx := by cases ea <;> rfl
@[simp] theorem resolve_flagN (sz : Size) (ea : EA) (s : State) : (resolve sz ea s).2.flagN = s.flagN := by cases ea <;> rfl
@[simp] theorem resolve_flagZ (sz : Size) (ea : EA) (s : State) : (resolve sz ea s).2.flagZ = s.flagZ := by cases ea <;> rfl
@[simp] theorem resolve_flagV (sz : Size) (ea : EA) (s : State) : (resolve sz ea s).2.flagV = s.flagV := by cases ea <;> rfl
@[simp] theorem resolve_flagC (sz : Size) (ea : EA) (s : State) : (resolve sz ea s).2.flagC = s.flagC := by cases ea <;> rfl
@[simp] theorem phys_resolve (sz : Size) (ea : EA) (s : State) (k : Kind) (off : Word) :
    (resolve sz ea s).2.phys k off = s.phys k off :=
  phys_congr (by simp) k (by cases k <;> simp [State.page]) off

theorem stride_eq (s : State) (sz : Size) (i : Reg) :
    s.stride sz i = match sz with | .w => 2 | .b => if i = .r7 then s.params.r7ByteStep else 1 := by
  cases sz <;> cases i <;> rfl

/-- The addressing mode's own update and no other (R90, R93). -/
@[simp] theorem resolve_reg (sz : Size) (ea : EA) (s : State) (i : Reg) :
    (resolve sz ea s).2.reg i = s.afterMode sz ea i := by
  cases ea <;> simp only [resolve, reg_setReg, State.afterMode, stride_eq]
  · split
    · subst i; rfl
    · rfl
  · split
    · subst i; rfl
    · rfl

@[simp] theorem afterMode_advance (s : State) (n : Nat) (sz : Size) (ea : EA) (i : Reg) :
    (s.advance n).afterMode sz ea i = s.afterMode sz ea i := by cases ea <;> cases sz <;> rfl

@[simp] theorem afterMode_draw (s : State) (sz : Size) (ea : EA) (i : Reg) :
    s.draw.2.afterMode sz ea i = s.afterMode sz ea i := by cases ea <;> cases sz <;> rfl

/-- A register that the addressing mode does not update. -/
theorem afterMode_of_not_overlaps {ea : EA} {l : List Reg} (h : overlaps ea l = false) {i : Reg}
    (hi : i ∈ l) (s : State) (sz : Size) : s.afterMode sz ea i = s.reg i := by
  cases ea
  case preDec rn | postInc rn =>
    have : i ≠ rn := fun e => by subst e; simp [overlaps, updatedReg, hi] at h
    simp [State.afterMode, this]
  all_goals rfl

/-- A source or a destination field names no immediate, or an immediate of the operand's size. -/
theorem resolve_not_imm {ea : EA} (h : ea.isDest = true) (sz : Size) (s : State) (v : Word) :
    (resolve sz ea s).1 ≠ .imm v := by
  cases ea <;> simp_all [resolve, EA.isDest, EA.isImm, State.abs8, State.disp8]

theorem isDest_of_isMem {ea : EA} (h : ea.isMem = true) : ea.isDest = true := by
  cases ea <;> simp_all [EA.isMem, EA.isDest, EA.isImm, EA.isReg]

/-- A register location is a register operand, which updates nothing. -/
theorem resolve_reg_iff {sz : Size} {ea : EA} {s : State} {i : Reg} :
    (resolve sz ea s).1 = .reg i ↔ ea = .reg i := by
  cases ea <;> simp [resolve, State.abs8, State.disp8]

@[simp] theorem resolve_draw (sz : Size) (ea : EA) (s : State) :
    (resolve sz ea s.draw.2).1 = (resolve sz ea s).1 := by cases ea <;> rfl

/-- The location of an EA field does not depend on the program counter. -/
@[simp] theorem resolve_advance (sz : Size) (ea : EA) (s : State) (n : Nat) :
    (resolve sz ea (s.advance n)).1 = (resolve sz ea s).1 := by cases ea <;> rfl

/-! ## Reading and writing a location -/

theorem loByte_setWidth (v : Word) : loByte v = v.setWidth 8 := by
  apply BitVec.eq_of_getLsbD_eq
  intro i hi
  simp [loByte, hi]

theorem rd_eq (s : State) (i : Reg) (sz : Size) : s.rd i sz = s.valueAt (.reg i) sz := by
  cases sz
  · exact (loByte_setWidth _).symm
  · exact BitVec.setWidth_eq _

theorem ld_ok {s : State} {l : Loc} {sz : Size} (h : s.canAccess l sz = true) :
    s.ld l sz = .ok (s.valueAt l sz) := by
  cases l with
  | reg i => simp only [State.ld, rd_eq]
  | mem k off =>
    cases sz
    · rfl
    · exact load_word (of_decide_eq_true h)
  | imm v =>
    cases sz
    · simp only [State.ld, State.valueAt, loByte_setWidth]
    · simp only [State.ld, State.valueAt, Size.bits, BitVec.setWidth_eq]

theorem ld_odd {s : State} {l : Loc} {sz : Size} (h : s.canAccess l sz = false) :
    s.ld l sz = .error (.raised .addressError s) := by
  cases l with
  | reg i => cases sz <;> simp [State.canAccess] at h
  | mem k off =>
    cases sz
    · simp [State.canAccess] at h
    · exact load_odd (of_decide_eq_false h)
  | imm v => cases sz <;> simp [State.canAccess] at h

/-- The state after a write to a location. -/
def State.put (s : State) (l : Loc) (sz : Size) (v : BitVec sz.bits) : State :=
  match l with
  | .reg i => s.wr i sz v
  | .mem k off => s.stored (s.phys k off) sz v
  | .imm _ => s

theorem st_ok {s : State} {l : Loc} {sz : Size} (h : s.canAccess l sz = true)
    (hw : s.storable s.pc (s.bytesAt l sz)) (hi : ∀ v, l ≠ .imm v) (v : BitVec sz.bits) :
    s.st l sz v = .ok (s.put l sz v) := by
  cases l with
  | reg i => rfl
  | mem k off =>
    cases sz
    · exact store_byte (blocked_of_storable hw (by simp [State.bytesAt])) v
    · exact store_word (of_decide_eq_true h) (blocked_of_storable hw (by simp [State.bytesAt]))
        (blocked_of_storable hw (by simp [State.bytesAt])) v
  | imm w => exact absurd rfl (hi w)

/-- A write to a location with a byte in the window is refused (R70, U17). -/
theorem st_blocked {s : State} {l : Loc} {sz : Size} (h : s.canAccess l sz = true)
    (hw : ¬s.storable s.pc (s.bytesAt l sz)) (v : BitVec sz.bits) :
    s.st l sz v = .error (.refuse .storeInPrefetchWindow) := by
  obtain ⟨hr, a, ha, hm⟩ := (not_storable_iff ..).mp hw
  have hb := blocked_of_refuse hr hm
  cases l with
  | reg i => cases sz <;> simp [State.bytesAt] at ha
  | imm w => cases sz <;> simp [State.bytesAt] at ha
  | mem k off =>
    cases sz
    · simp only [State.bytesAt, List.mem_singleton] at ha
      exact store_blocked_byte (ha ▸ hb) v
    · simp only [State.bytesAt, List.mem_cons, List.not_mem_nil, or_false] at ha
      exact store_blocked_word (of_decide_eq_true h) (ha.imp (· ▸ hb) (· ▸ hb)) v

theorem st_odd {s : State} {l : Loc} {sz : Size} (h : s.canAccess l sz = false) (v : BitVec sz.bits) :
    s.st l sz v = .error (.raised .addressError s) := by
  cases l with
  | reg i => cases sz <;> simp [State.canAccess] at h
  | mem k off =>
    cases sz
    · simp [State.canAccess] at h
    · exact store_odd (of_decide_eq_false h) v
  | imm w => cases sz <;> simp [State.canAccess] at h

@[simp] theorem put_pc (s : State) (l : Loc) (sz : Size) (v : BitVec sz.bits) : (s.put l sz v).pc = s.pc := by cases l <;> simp [State.put]
@[simp] theorem put_sr (s : State) (l : Loc) (sz : Size) (v : BitVec sz.bits) : (s.put l sz v).sr = s.sr := by cases l <;> simp [State.put]
@[simp] theorem put_br (s : State) (l : Loc) (sz : Size) (v : BitVec sz.bits) : (s.put l sz v).br = s.br := by cases l <;> simp [State.put]
@[simp] theorem put_ep (s : State) (l : Loc) (sz : Size) (v : BitVec sz.bits) : (s.put l sz v).ep = s.ep := by cases l <;> simp [State.put]
@[simp] theorem put_dp (s : State) (l : Loc) (sz : Size) (v : BitVec sz.bits) : (s.put l sz v).dp = s.dp := by cases l <;> simp [State.put]
@[simp] theorem put_tp (s : State) (l : Loc) (sz : Size) (v : BitVec sz.bits) : (s.put l sz v).tp = s.tp := by cases l <;> simp [State.put]
@[simp] theorem put_cp (s : State) (l : Loc) (sz : Size) (v : BitVec sz.bits) : (s.put l sz v).cp = s.cp := by cases l <;> simp [State.put]
@[simp] theorem put_asleep (s : State) (l : Loc) (sz : Size) (v : BitVec sz.bits) : (s.put l sz v).asleep = s.asleep := by cases l <;> simp [State.put]
@[simp] theorem put_params (s : State) (l : Loc) (sz : Size) (v : BitVec sz.bits) : (s.put l sz v).params = s.params := by cases l <;> simp [State.put]
@[simp] theorem put_irq (s : State) (l : Loc) (sz : Size) (v : BitVec sz.bits) : (s.put l sz v).irq = s.irq := by cases l <;> simp [State.put]
@[simp] theorem put_freeIdx (s : State) (l : Loc) (sz : Size) (v : BitVec sz.bits) : (s.put l sz v).freeIdx = s.freeIdx := by cases l <;> simp [State.put]
@[simp] theorem phys_put (s : State) (l : Loc) (sz : Size) (v : BitVec sz.bits) (k : Kind) (off : Word) :
    (s.put l sz v).phys k off = s.phys k off :=
  phys_congr (by simp) k (by cases k <;> simp [State.page]) off

/-- What is written is what is read back at the location. -/
theorem put_valueAt {s : State} (hs : s.mem.wf = true) {l : Loc} (hi : ∀ v, l ≠ .imm v) (sz : Size)
    (v : BitVec sz.bits) : (s.put l sz v).valueAt l sz = v := by
  cases l with
  | reg i => rw [State.put, ← rd_eq, rd_wr]
  | mem k off =>
    cases sz
    · simp only [State.put, State.valueAt, phys_stored, stored_mem_byte]
      exact read_write_same hs _ _
    · simp only [State.put, State.valueAt, phys_stored, stored_mem_word]
      exact word_write hs (phys_lt _ _ _) v
  | imm w => exact absurd rfl (hi w)

/-- A byte written to a register keeps the upper byte (R22). -/
theorem put_hiByte (s : State) (i : Reg) (v : Byte) :
    hiByte ((s.put (.reg i) .b v).reg i) = hiByte (s.reg i) := by
  simp [State.put]

/-- The other registers are kept. -/
theorem put_reg_of_ne {s : State} {l : Loc} {i : Reg} (h : l ≠ .reg i) (sz : Size) (v : BitVec sz.bits) :
    (s.put l sz v).reg i = s.reg i := by
  cases l with
  | reg j => exact reg_wr_of_ne (fun e => h (by rw [e])) s sz v
  | mem k off => simp [State.put]
  | imm w => rfl

/-- The other bytes of memory are kept. -/
theorem put_read_of_not_mem {s : State} {l : Loc} {sz : Size} {a : Nat} (h : a ∉ s.bytesAt l sz)
    (v : BitVec sz.bits) : (s.put l sz v).mem.read a = s.mem.read a := by
  cases l with
  | reg i => simp [State.put]
  | mem k off =>
    cases sz
    · simp only [State.bytesAt, List.mem_singleton] at h
      exact read_write_other _ _ h
    · simp only [State.bytesAt, List.mem_cons, List.not_mem_nil, or_false, not_or] at h
      exact read_stored_word s v h.1 h.2
  | imm w => rfl

theorem put_wf {s : State} (hs : s.mem.wf = true) {l : Loc} {sz : Size} (h : s.canAccess l sz = true)
    (v : BitVec sz.bits) : (s.put l sz v).mem.wf = true := by
  cases l with
  | reg i => simpa [State.put] using hs
  | mem k off =>
    refine wf_stored hs k off sz v fun e => ?_
    subst e
    exact of_decide_eq_true h
  | imm w => exact hs

/-! ## Shapes of instruction -/

@[simp] theorem refuseIf_false {α : Type} (r : Refusal) (k : Body α) : refuseIf false r k = k := rfl
@[simp] theorem refuseIf_true {α : Type} (r : Refusal) (k : Body α) : refuseIf true r k = .error (.refuse r) := rfl

@[simp] theorem finish_ok (s : State) : finish (.ok s) = .next s := rfl
@[simp] theorem finish_raised (e : Exn) (s : State) : finish (.error (.raised e s)) = s.raise e := rfl
@[simp] theorem finish_refuse (r : Refusal) : finish (.error (.refuse r)) = .refused r := rfl

theorem source_ok {sz : Size} {ea : EA} {s : State}
    (h : (resolve sz ea s).2.canAccess (resolve sz ea s).1 sz = true) :
    source sz ea s = .ok ((resolve sz ea s).2.valueAt (resolve sz ea s).1 sz, (resolve sz ea s).2) := by
  simp only [source, ld_ok h]
  rfl

theorem source_odd {sz : Size} {ea : EA} {s : State}
    (h : (resolve sz ea s).2.canAccess (resolve sz ea s).1 sz = false) :
    source sz ea s = .error (.raised .addressError (resolve sz ea s).2) := by
  simp only [source, ld_odd h]
  rfl

variable {sz : Size} {ea : EA} {rd : Reg} {s : State}

theorem intoReg_ok {op : State → BitVec sz.bits → BitVec sz.bits → Alu sz.bits}
    (ho : overlaps ea [rd] = false) {p : Loc × State} (hp : p = resolve sz ea (s.advance (eaLen ea + 1)))
    (h : p.2.canAccess p.1 sz = true) :
    intoReg sz ea rd s op =
      let r := op p.2 (s.valueAt (.reg rd) sz) (p.2.valueAt p.1 sz)
      .ok ((p.2.wr rd sz r.res).setAlu r) := by
  subst hp
  have e : (resolve sz ea (s.advance (eaLen ea + 1))).2.rd rd sz = s.valueAt (.reg rd) sz := by
    rw [rd_eq]
    cases sz <;> simp only [State.valueAt, resolve_reg, reg_advance,
      afterMode_of_not_overlaps ho (List.mem_singleton_self rd)]
  simp only [intoReg, ho, refuseIf_false, source_ok h, bind, Except.bind, pure, Except.pure, e]

theorem intoReg_odd {op : State → BitVec sz.bits → BitVec sz.bits → Alu sz.bits}
    (ho : overlaps ea [rd] = false) {p : Loc × State} (hp : p = resolve sz ea (s.advance (eaLen ea + 1)))
    (h : p.2.canAccess p.1 sz = false) :
    intoReg sz ea rd s op = .error (.raised .addressError p.2) := by
  subst hp
  simp only [intoReg, ho, refuseIf_false, source_odd h, bind, Except.bind]

theorem intoRegWord_ok {op : Word → Word → Word}
    (ho : overlaps ea [rd] = false) {p : Loc × State} (hp : p = resolve sz ea (s.advance (eaLen ea + 1)))
    (h : p.2.canAccess p.1 sz = true) :
    intoRegWord sz ea rd s op =
      .ok (p.2.setReg rd (op (s.reg rd) (wordOf sz (p.2.valueAt p.1 sz)))) := by
  subst hp
  simp only [intoRegWord, ho, refuseIf_false, source_ok h, bind, Except.bind, pure, Except.pure,
    resolve_reg, reg_advance, afterMode_of_not_overlaps ho (List.mem_singleton_self rd)]

theorem modify_ok {op : State → BitVec sz.bits → Alu sz.bits} (hd : ea.isDest = true)
    {p : Loc × State} (hp : p = resolve sz ea (s.advance (eaLen ea + 1)))
    (h : p.2.canAccess p.1 sz = true) (hw : p.2.storable p.2.pc (p.2.bytesAt p.1 sz)) :
    modify sz ea s op =
      let r := op p.2 (p.2.valueAt p.1 sz)
      .ok ((p.2.put p.1 sz r.res).setAlu r) := by
  subst hp
  simp only [modify, ld_ok h, st_ok h hw (resolve_not_imm hd _ _), bind, Except.bind, pure, Except.pure]

theorem modify_odd {op : State → BitVec sz.bits → Alu sz.bits}
    {p : Loc × State} (hp : p = resolve sz ea (s.advance (eaLen ea + 1)))
    (h : p.2.canAccess p.1 sz = false) :
    modify sz ea s op = .error (.raised .addressError p.2) := by
  subst hp
  simp only [modify, ld_odd h, bind, Except.bind]

theorem examine_ok {n : Nat} {op : State → BitVec sz.bits → Alu sz.bits}
    {p : Loc × State} (hp : p = resolve sz ea (s.advance (eaLen ea + n)))
    (h : p.2.canAccess p.1 sz = true) :
    examine sz ea n s op = .ok (p.2.setAlu (op p.2 (p.2.valueAt p.1 sz))) := by
  subst hp
  simp only [examine, source_ok h, bind, Except.bind, pure, Except.pure]

theorem examine_odd {n : Nat} {op : State → BitVec sz.bits → Alu sz.bits}
    {p : Loc × State} (hp : p = resolve sz ea (s.advance (eaLen ea + n)))
    (h : p.2.canAccess p.1 sz = false) :
    examine sz ea n s op = .error (.raised .addressError p.2) := by
  subst hp
  simp only [examine, source_odd h, bind, Except.bind]

theorem moveOut_ok {n : Nat} {v : State → BitVec sz.bits} (hd : ea.isDest = true)
    {p : Loc × State} (hp : p = resolve sz ea (s.advance (eaLen ea + n)))
    (h : p.2.canAccess p.1 sz = true) (hw : p.2.storable p.2.pc (p.2.bytesAt p.1 sz)) :
    moveOut sz ea n s v = .ok ((p.2.put p.1 sz (v p.2)).setAlu (nzFlags (v p.2) false s.flagC)) := by
  subst hp
  have e : (p : State) → p.sr = s.sr → p.flagC = s.flagC := fun p h => by simp only [State.flagC, h]
  simp only [moveOut, st_ok h hw (resolve_not_imm hd _ _), bind, Except.bind, pure, Except.pure]
  rw [e _ (by simp)]

/-- The shapes that store refuse a store into the window (R70, U17). -/
theorem modify_blocked {op : State → BitVec sz.bits → Alu sz.bits}
    {p : Loc × State} (hp : p = resolve sz ea (s.advance (eaLen ea + 1)))
    (h : p.2.canAccess p.1 sz = true) (hw : ¬p.2.storable p.2.pc (p.2.bytesAt p.1 sz)) :
    modify sz ea s op = .error (.refuse .storeInPrefetchWindow) := by
  subst hp
  simp only [modify, ld_ok h, st_blocked h hw, bind, Except.bind]

theorem moveOut_blocked {n : Nat} {v : State → BitVec sz.bits}
    {p : Loc × State} (hp : p = resolve sz ea (s.advance (eaLen ea + n)))
    (h : p.2.canAccess p.1 sz = true) (hw : ¬p.2.storable p.2.pc (p.2.bytesAt p.1 sz)) :
    moveOut sz ea n s v = .error (.refuse .storeInPrefetchWindow) := by
  subst hp
  simp only [moveOut, st_blocked h hw, bind, Except.bind]

theorem moveOut_odd {n : Nat} {v : State → BitVec sz.bits}
    {p : Loc × State} (hp : p = resolve sz ea (s.advance (eaLen ea + n)))
    (h : p.2.canAccess p.1 sz = false) :
    moveOut sz ea n s v = .error (.raised .addressError p.2) := by
  subst hp
  simp only [moveOut, st_odd h, bind, Except.bind]

end Sys2Proof.Machine
end

