-- ==== Sys2Proof/Laws/PerInstr.lean ====
section
/-! SUPPORT. The length of every instruction, one lemma per constructor. -/

namespace Sys2Proof.Laws.EncodedLength

open Sys2Proof.Machine

/-- K + J of the general format, the table's length of the special formats (R84, R86, R95, R99, R102, R103,
R104). -/
def lengthOf : Instr → Nat
  | .movGLoad _ src _ => eaLen src + 1
  | .movGStore _ _ dst => eaLen dst + 1
  | .movGImm8 _ _ dst => eaLen dst + 2
  | .movGImm16 _ dst => eaLen dst + 3
  | .movE _ _ => 2
  | .movI _ _ => 3
  | .movL _ _ _ => 2
  | .movS _ _ _ => 2
  | .movFLoad _ _ _ => 2
  | .movFStore _ _ _ => 2
  | .ldm _ => 2
  | .stm _ => 2
  | .xch _ _ => 2
  | .swap _ => 2
  | .movtpe _ dst => eaLen dst + 2
  | .movfpe src _ => eaLen src + 2
  | .addG _ src _ => eaLen src + 1
  | .addQ _ _ dst => eaLen dst + 1
  | .adds _ src _ => eaLen src + 1
  | .addx _ src _ => eaLen src + 1
  | .dadd _ _ => 3
  | .sub _ src _ => eaLen src + 1
  | .subs _ src _ => eaLen src + 1
  | .subx _ src _ => eaLen src + 1
  | .dsub _ _ => 3
  | .mulxu _ src _ => eaLen src + 1
  | .divxu _ src _ => eaLen src + 1
  | .cmpG _ src _ => eaLen src + 1
  | .cmpGImm imm dst => eaLen dst + 1 + immLen imm
  | .cmpE _ _ => 2
  | .cmpI _ _ => 3
  | .exts _ => 2
  | .extu _ => 2
  | .tst _ dst => eaLen dst + 1
  | .neg _ dst => eaLen dst + 1
  | .clr _ dst => eaLen dst + 1
  | .tas dst => eaLen dst + 1
  | .shal _ dst => eaLen dst + 1
  | .shar _ dst => eaLen dst + 1
  | .shll _ dst => eaLen dst + 1
  | .shlr _ dst => eaLen dst + 1
  | .rotl _ dst => eaLen dst + 1
  | .rotr _ dst => eaLen dst + 1
  | .rotxl _ dst => eaLen dst + 1
  | .rotxr _ dst => eaLen dst + 1
  | .and _ src _ => eaLen src + 1
  | .or _ src _ => eaLen src + 1
  | .xor _ src _ => eaLen src + 1
  | .not _ dst => eaLen dst + 1
  | .bsetImm _ _ dst => eaLen dst + 1
  | .bsetReg _ _ dst => eaLen dst + 1
  | .bclrImm _ _ dst => eaLen dst + 1
  | .bclrReg _ _ dst => eaLen dst + 1
  | .btstImm _ _ dst => eaLen dst + 1
  | .btstReg _ _ dst => eaLen dst + 1
  | .bnotImm _ _ dst => eaLen dst + 1
  | .bnotReg _ _ dst => eaLen dst + 1
  | .bcc _ disp => 1 + dispLen disp
  | .jmp target => jumpLen target
  | .pjmp target => pageLen target
  | .bsr disp => 1 + dispLen disp
  | .jsr target => jumpLen target
  | .pjsr target => pageLen target
  | .rts => 1
  | .prts => 2
  | .rtd k => 1 + immLen k
  | .prtd k => 2 + immLen k
  | .scb _ _ _ => 3
  | .trapa _ => 2
  | .trapvs => 1
  | .rte => 1
  | .link k => 1 + immLen k
  | .unlk => 1
  | .sleep => 1
  | .ldc _ src _ => eaLen src + 1
  | .stc _ _ dst => eaLen dst + 1
  | .andc imm _ => 2 + immLen imm
  | .orc imm _ => 2 + immLen imm
  | .xorc imm _ => 2 + immLen imm
  | .nop => 1

/-- The encoding has the length that the spec's tables give. -/
def Statement (i : Instr) : Prop := i.length = lengthOf i

/-- An EA field has K bytes (R86). -/
@[simp] theorem encodeEA_length (sz : Size) (ea : EA) : (encodeEA sz ea).length = eaLen ea := by
  cases ea <;> rfl

/-- An EA field and what follows it. -/
theorem length_ea (sz : Size) (ea : EA) (l : List Byte) :
    (encodeEA sz ea ++ l).length = eaLen ea + l.length := by
  rw [List.length_append, encodeEA_length]

theorem encodeImmEA_length (imm : Imm) : (encodeImmEA imm).length = 1 + immLen imm := by
  cases imm <;> rfl

theorem movGLoad (sz : Size) (src : EA) (rd : Reg) : Statement (.movGLoad sz src rd) := length_ea sz src _
theorem movGStore (sz : Size) (rs : Reg) (dst : EA) : Statement (.movGStore sz rs dst) := length_ea sz dst _
theorem movGImm8 (sz : Size) (v : Byte) (dst : EA) : Statement (.movGImm8 sz v dst) := length_ea sz dst _
theorem movGImm16 (v : Word) (dst : EA) : Statement (.movGImm16 v dst) := length_ea .w dst _
theorem movE (v : Byte) (rd : Reg) : Statement (.movE v rd) := rfl
theorem movI (v : Word) (rd : Reg) : Statement (.movI v rd) := rfl
theorem movL (sz : Size) (aa : Byte) (rd : Reg) : Statement (.movL sz aa rd) := rfl
theorem movS (sz : Size) (rs : Reg) (aa : Byte) : Statement (.movS sz rs aa) := rfl
theorem movFLoad (sz : Size) (d : Byte) (rd : Reg) : Statement (.movFLoad sz d rd) := rfl
theorem movFStore (sz : Size) (rs : Reg) (d : Byte) : Statement (.movFStore sz rs d) := rfl
theorem ldm (list : Byte) : Statement (.ldm list) := rfl
theorem stm (list : Byte) : Statement (.stm list) := rfl
theorem xch (rs : Reg) (rd : Reg) : Statement (.xch rs rd) := rfl
theorem swap (rd : Reg) : Statement (.swap rd) := rfl
theorem movtpe (rs : Reg) (dst : EA) : Statement (.movtpe rs dst) := length_ea .b dst _
theorem movfpe (src : EA) (rd : Reg) : Statement (.movfpe src rd) := length_ea .b src _
theorem addG (sz : Size) (src : EA) (rd : Reg) : Statement (.addG sz src rd) := length_ea sz src _
theorem addQ (sz : Size) (k : QuickImm) (dst : EA) : Statement (.addQ sz k dst) := length_ea sz dst _
theorem adds (sz : Size) (src : EA) (rd : Reg) : Statement (.adds sz src rd) := length_ea sz src _
theorem addx (sz : Size) (src : EA) (rd : Reg) : Statement (.addx sz src rd) := length_ea sz src _
theorem dadd (rs : Reg) (rd : Reg) : Statement (.dadd rs rd) := rfl
theorem sub (sz : Size) (src : EA) (rd : Reg) : Statement (.sub sz src rd) := length_ea sz src _
theorem subs (sz : Size) (src : EA) (rd : Reg) : Statement (.subs sz src rd) := length_ea sz src _
theorem subx (sz : Size) (src : EA) (rd : Reg) : Statement (.subx sz src rd) := length_ea sz src _
theorem dsub (rs : Reg) (rd : Reg) : Statement (.dsub rs rd) := rfl
theorem mulxu (sz : Size) (src : EA) (rd : Reg) : Statement (.mulxu sz src rd) := length_ea sz src _
theorem divxu (sz : Size) (src : EA) (rd : Reg) : Statement (.divxu sz src rd) := length_ea sz src _
theorem cmpG (sz : Size) (src : EA) (rd : Reg) : Statement (.cmpG sz src rd) := length_ea sz src _
theorem cmpGImm (imm : Imm) (dst : EA) : Statement (.cmpGImm imm dst) := by
  cases imm
  · exact length_ea .b dst _
  · exact length_ea .w dst _
theorem cmpE (v : Byte) (rd : Reg) : Statement (.cmpE v rd) := rfl
theorem cmpI (v : Word) (rd : Reg) : Statement (.cmpI v rd) := rfl
theorem exts (rd : Reg) : Statement (.exts rd) := rfl
theorem extu (rd : Reg) : Statement (.extu rd) := rfl
theorem tst (sz : Size) (dst : EA) : Statement (.tst sz dst) := length_ea sz dst _
theorem neg (sz : Size) (dst : EA) : Statement (.neg sz dst) := length_ea sz dst _
theorem clr (sz : Size) (dst : EA) : Statement (.clr sz dst) := length_ea sz dst _
theorem tas (dst : EA) : Statement (.tas dst) := length_ea .b dst _
theorem shal (sz : Size) (dst : EA) : Statement (.shal sz dst) := length_ea sz dst _
theorem shar (sz : Size) (dst : EA) : Statement (.shar sz dst) := length_ea sz dst _
theorem shll (sz : Size) (dst : EA) : Statement (.shll sz dst) := length_ea sz dst _
theorem shlr (sz : Size) (dst : EA) : Statement (.shlr sz dst) := length_ea sz dst _
theorem rotl (sz : Size) (dst : EA) : Statement (.rotl sz dst) := length_ea sz dst _
theorem rotr (sz : Size) (dst : EA) : Statement (.rotr sz dst) := length_ea sz dst _
theorem rotxl (sz : Size) (dst : EA) : Statement (.rotxl sz dst) := length_ea sz dst _
theorem rotxr (sz : Size) (dst : EA) : Statement (.rotxr sz dst) := length_ea sz dst _
theorem and (sz : Size) (src : EA) (rd : Reg) : Statement (.and sz src rd) := length_ea sz src _
theorem or (sz : Size) (src : EA) (rd : Reg) : Statement (.or sz src rd) := length_ea sz src _
theorem xor (sz : Size) (src : EA) (rd : Reg) : Statement (.xor sz src rd) := length_ea sz src _
theorem not (sz : Size) (dst : EA) : Statement (.not sz dst) := length_ea sz dst _
theorem bsetImm (sz : Size) (k : BitVec 4) (dst : EA) : Statement (.bsetImm sz k dst) := length_ea sz dst _
theorem bsetReg (sz : Size) (rs : Reg) (dst : EA) : Statement (.bsetReg sz rs dst) := length_ea sz dst _
theorem bclrImm (sz : Size) (k : BitVec 4) (dst : EA) : Statement (.bclrImm sz k dst) := length_ea sz dst _
theorem bclrReg (sz : Size) (rs : Reg) (dst : EA) : Statement (.bclrReg sz rs dst) := length_ea sz dst _
theorem btstImm (sz : Size) (k : BitVec 4) (dst : EA) : Statement (.btstImm sz k dst) := length_ea sz dst _
theorem btstReg (sz : Size) (rs : Reg) (dst : EA) : Statement (.btstReg sz rs dst) := length_ea sz dst _
theorem bnotImm (sz : Size) (k : BitVec 4) (dst : EA) : Statement (.bnotImm sz k dst) := length_ea sz dst _
theorem bnotReg (sz : Size) (rs : Reg) (dst : EA) : Statement (.bnotReg sz rs dst) := length_ea sz dst _
theorem bcc (cond : Cond) (disp : Disp) : Statement (.bcc cond disp) := by
  cases disp <;> rfl
theorem jmp (target : JumpEA) : Statement (.jmp target) := by
  cases target <;> rfl
theorem pjmp (target : PageEA) : Statement (.pjmp target) := by
  cases target <;> rfl
theorem bsr (disp : Disp) : Statement (.bsr disp) := by
  cases disp <;> rfl
theorem jsr (target : JumpEA) : Statement (.jsr target) := by
  cases target <;> rfl
theorem pjsr (target : PageEA) : Statement (.pjsr target) := by
  cases target <;> rfl
theorem rts : Statement .rts := rfl
theorem prts : Statement .prts := rfl
theorem rtd (k : Imm) : Statement (.rtd k) := by
  cases k <;> rfl
theorem prtd (k : Imm) : Statement (.prtd k) := by
  cases k <;> rfl
theorem scb (cond : ScbCond) (rn : Reg) (d : Byte) : Statement (.scb cond rn d) := rfl
theorem trapa (v : BitVec 4) : Statement (.trapa v) := rfl
theorem trapvs : Statement .trapvs := rfl
theorem rte : Statement .rte := rfl
theorem link (k : Imm) : Statement (.link k) := by
  cases k <;> rfl
theorem unlk : Statement .unlk := rfl
theorem sleep : Statement .sleep := rfl
theorem ldc (sz : Size) (src : EA) (cr : CtrlReg) : Statement (.ldc sz src cr) := length_ea sz src _
theorem stc (sz : Size) (cr : CtrlReg) (dst : EA) : Statement (.stc sz cr dst) := length_ea sz dst _
theorem andc (imm : Imm) (cr : CtrlReg) : Statement (.andc imm cr) := by
  cases imm <;> rfl
theorem orc (imm : Imm) (cr : CtrlReg) : Statement (.orc imm cr) := by
  cases imm <;> rfl
theorem xorc (imm : Imm) (cr : CtrlReg) : Statement (.xorc imm cr) := by
  cases imm <;> rfl
theorem nop : Statement .nop := rfl

end Sys2Proof.Laws.EncodedLength
end

