-- ==== Sys2Proof/Laws/Shapes.lean ====
section
/-! SUPPORT. Everything that an instruction of each shared shape does, said once: the next state, where its
result goes, its flags, and what it leaves alone. -/

namespace Sys2Proof.Machine

open Sys2Proof.Laws (EncodedLength.lengthOf EncodedLength.Statement)

/-! ## What an update leaves -/

theorem npc_of_length {i : Instr} {n : Nat} (h : i.length = n) (s : State) :
    s.npc i = s.pc + BitVec.ofNat 16 n := by rw [State.npc, h]

theorem sequential_of {i : Instr} {s t : State} {n : Nat} (hl : i.length = n)
    (hp : t.pc = s.pc + BitVec.ofNat 16 n) (hk : controlsKept s t) : sequential i s t :=
  ⟨by rw [npc_of_length hl, hp], hk⟩

/-- A push keeps every byte of memory outside the word pushed. -/
theorem memKeptBut_pushed (s : State) (v : Word) : memKeptBut s (s.pushed v) (s.stackBytes (-2)) := by
  intro a ha
  have e : s.sp - 2 = s.sp + -2 := by bv_omega
  simp only [State.stackBytes, List.mem_cons, List.not_mem_nil, or_false, not_or] at ha
  rw [read_pushed] <;> rw [e]
  · exact ha.1
  · exact ha.2

/-- The flags of a result set on a state whose SR is `s`'s. -/
theorem flagsSet_setNZVC {s u : State} (hu : u.sr = s.sr) (n z v c : Bool) :
    flagsSet s (u.setNZVC n z v c) n z v c := by
  refine ⟨flagN_setNZVC .., flagZ_setNZVC .., flagV_setNZVC .., flagC_setNZVC .., ?_⟩
  apply BitVec.eq_of_getLsbD_eq
  intro k hk
  simp only [setNZVC_sr, BitVec.getLsbD_extractLsb', hk, decide_true, Bool.true_and]
  rw [srWithFlags_high _ _ _ _ _ _ (by omega), hu]

theorem flagsSet_setAlu {w : Nat} {s u : State} (hu : u.sr = s.sr) (r : Alu w) :
    flagsSet s (u.setAlu r) r.n r.z r.v r.c := flagsSet_setNZVC hu _ _ _ _

theorem flagC_of_sr {s t : State} (h : t.sr = s.sr) : t.flagC = s.flagC := by rw [State.flagC, h]; rfl
theorem flagV_of_sr {s t : State} (h : t.sr = s.sr) : t.flagV = s.flagV := by rw [State.flagV, h]; rfl
theorem flagZ_of_sr {s t : State} (h : t.sr = s.sr) : t.flagZ = s.flagZ := by rw [State.flagZ, h]; rfl
theorem flagN_of_sr {s t : State} (h : t.sr = s.sr) : t.flagN = s.flagN := by rw [State.flagN, h]; rfl

/-- The operand at a location depends on the registers, the memory and the addresses. -/
theorem valueAt_congr {s t : State} (hr : ∀ i, t.reg i = s.reg i) (hm : t.mem = s.mem)
    (hp : ∀ k off, t.phys k off = s.phys k off) (l : Loc) (sz : Size) : t.valueAt l sz = s.valueAt l sz := by
  cases sz <;> cases l <;> simp only [State.valueAt, hr, hm, hp]

theorem valueAt_setAlu {w : Nat} (u : State) (r : Alu w) (l : Loc) (sz : Size) :
    (u.setAlu r).valueAt l sz = u.valueAt l sz := valueAt_congr (by simp) (by simp) (by simp) l sz

theorem valueAt_setNZVC (u : State) (n z v c : Bool) (l : Loc) (sz : Size) :
    (u.setNZVC n z v c).valueAt l sz = u.valueAt l sz := valueAt_congr (by simp) (by simp) (by simp) l sz

variable {sz : Size} {ea : EA} {rd : Reg} {s : State} {i : Instr} {n : Nat}

/-- Behind the addressing mode the PC is the next instruction's address. -/
theorem storable_npc (hl : i.length = eaLen ea + n) {p : Loc × State}
    (hp : p = resolve sz ea (s.advance (eaLen ea + n))) {l : List Nat} (hw : s.storable (s.npc i) l) :
    p.2.storable p.2.pc l := by
  have e : p.2.pc = s.npc i := by rw [npc_of_length hl, hp]; simp
  rw [e]
  exact storable_congr (by simp [hp]) (by simp [hp]) hw

/-- A register operand that the source's addressing mode does not update reads as before. -/
theorem valueAt_reg_resolve (ho : overlaps ea [rd] = false) :
    (resolve sz ea (s.advance n)).2.valueAt (.reg rd) sz = s.valueAt (.reg rd) sz := by
  cases sz <;> simp only [State.valueAt, resolve_reg, reg_advance,
    afterMode_of_not_overlaps ho (List.mem_singleton_self rd)]

theorem controlsKept_resolve : controlsKept s (resolve sz ea (s.advance n)).2 := by
  simp [controlsKept]

/-- A result written to Rd. -/
theorem intoRegister_wr (ho : overlaps ea [rd] = false) (v : BitVec sz.bits) {t : State}
    (hr : ∀ i, t.reg i = ((resolve sz ea (s.advance n)).2.wr rd sz v).reg i) (hm : t.mem = s.mem) :
    intoRegister s t sz ea rd v := by
  refine ⟨?_, ?_, ?_, fun a => by rw [hm]⟩
  · rw [← rd_wr (resolve sz ea (s.advance n)).2 rd sz v, rd_eq]
    cases sz <;> simp only [State.valueAt, hr]
  · rintro rfl
    rw [hr]
    simp [afterMode_of_not_overlaps ho]
  · intro i hi
    rw [hr, reg_wr_of_ne hi, resolve_reg, afterMode_advance]

/-- A result written to an operand's location. -/
theorem intoOperand_put (hs : s.wf = true) (hd : ea.isDest = true) (v : BitVec sz.bits) {t : State} {u : State}
    (hu : u = (resolve sz ea (s.advance n)).2)
    (hr : ∀ i, t.reg i = (u.put (resolve sz ea (s.advance n)).1 sz v).reg i)
    (hm : t.mem = (u.put (resolve sz ea (s.advance n)).1 sz v).mem)
    (hp : ∀ k off, t.phys k off = s.phys k off) :
    intoOperand s t sz ea u (resolve sz ea (s.advance n)).1 v := by
  subst hu
  have hw : (resolve sz ea (s.advance n)).2.mem.wf = true := by
    rw [resolve_mem]; exact (Bool.and_eq_true_iff.mp hs).1
  refine ⟨?_, ?_, ?_, ?_⟩
  · rw [← put_valueAt hw (resolve_not_imm hd sz (s.advance n)) sz v]
    exact valueAt_congr hr hm (by simp [hp]) _ _
  · rintro i hi rfl
    rw [hr, hi]
    have hea : ea = .reg i := resolve_reg_iff.mp hi
    rw [put_hiByte, resolve_reg, afterMode_advance, hea]
    rfl
  · intro i hi
    rw [hr, put_reg_of_ne hi, resolve_reg, afterMode_advance]
  · intro a ha
    rw [hm, put_read_of_not_mem ha, resolve_mem]
    rfl

/-! ## The shapes -/

/-- Everything that `op <EAs>,Rd` does. -/
theorem intoReg_completes {op : State → BitVec sz.bits → BitVec sz.bits → Alu sz.bits}
    (hx : exec i s = finish (intoReg sz ea rd s op)) (hl : i.length = eaLen ea + 1)
    (ho : overlaps ea [rd] = false) {p : Loc × State} (hp : p = resolve sz ea (s.advance (eaLen ea + 1)))
    (h : p.2.canAccess p.1 sz = true) {r : Alu sz.bits}
    (hr : r = op p.2 (s.valueAt (.reg rd) sz) (p.2.valueAt p.1 sz)) :
    ∃ t, exec i s = .next t ∧ intoRegister s t sz ea rd r.res ∧ flagsSet s t r.n r.z r.v r.c ∧
      sequential i s t := by
  subst hr
  refine ⟨_, by rw [hx, intoReg_ok ho hp h]; rfl, ?_, flagsSet_setAlu (by simp [hp]) _, ?_, ?_⟩
  · exact intoRegister_wr (n := eaLen ea + 1) ho _ (fun i => by rw [reg_setAlu, hp]) (by simp [hp])
  · rw [npc_of_length hl, hp]; simp
  · rw [hp]; simp [controlsKept]

/-- Everything that `op <EAs>,Rd` on the whole of Rd does. -/
theorem intoRegWord_completes {op : Word → Word → Word}
    (hx : exec i s = finish (intoRegWord sz ea rd s op)) (hl : i.length = eaLen ea + 1)
    (ho : overlaps ea [rd] = false) {p : Loc × State} (hp : p = resolve sz ea (s.advance (eaLen ea + 1)))
    (h : p.2.canAccess p.1 sz = true) :
    ∃ t, exec i s = .next t ∧ t.reg rd = op (s.reg rd) (wordOf sz (p.2.valueAt p.1 sz)) ∧
      (∀ i, i ≠ rd → t.reg i = s.afterMode sz ea i) ∧ memKept s t ∧ t.sr = s.sr ∧ sequential i s t := by
  refine ⟨_, by rw [hx, intoRegWord_ok ho hp h]; rfl, by simp, fun i hi => by simp [hp, hi],
    fun a => by simp [hp], by simp [hp], ?_, ?_⟩
  · rw [npc_of_length hl, hp]; simp
  · rw [hp]; simp [controlsKept]

/-- Everything that `op <EAd>` does. -/
theorem modify_completes {op : State → BitVec sz.bits → Alu sz.bits}
    (hx : exec i s = finish (modify sz ea s op)) (hl : i.length = eaLen ea + 1)
    (hs : s.wf = true) (hd : ea.isDest = true)
    {p : Loc × State} (hp : p = resolve sz ea (s.advance (eaLen ea + 1)))
    (h : p.2.canAccess p.1 sz = true) (hw : s.storable (s.npc i) (p.2.bytesAt p.1 sz))
    {r : Alu sz.bits} (hr : r = op p.2 (p.2.valueAt p.1 sz)) :
    ∃ t, exec i s = .next t ∧ intoOperand s t sz ea p.2 p.1 r.res ∧ flagsSet s t r.n r.z r.v r.c ∧
      sequential i s t := by
  subst hr
  refine ⟨_, by rw [hx, modify_ok hd hp h (storable_npc hl hp hw)]; rfl, ?_, flagsSet_setAlu (by simp [hp]) _, ?_, ?_⟩
  · subst hp
    exact intoOperand_put hs hd _ rfl (fun i => reg_setAlu ..) rfl (by simp)
  · rw [npc_of_length hl, hp]; simp
  · rw [hp]; simp [controlsKept]

/-- Everything that an instruction that only reads its operand does. -/
theorem examine_completes {op : State → BitVec sz.bits → Alu sz.bits}
    (hx : exec i s = finish (examine sz ea n s op)) (hl : i.length = eaLen ea + n)
    {p : Loc × State} (hp : p = resolve sz ea (s.advance (eaLen ea + n)))
    (h : p.2.canAccess p.1 sz = true) {r : Alu sz.bits} (hr : r = op p.2 (p.2.valueAt p.1 sz)) :
    ∃ t, exec i s = .next t ∧ onlyRead s t sz ea ∧ flagsSet s t r.n r.z r.v r.c ∧ sequential i s t := by
  subst hr
  refine ⟨_, by rw [hx, examine_ok hp h]; rfl, ⟨fun i => by simp [hp], fun a => by simp [hp]⟩,
    flagsSet_setAlu (by simp [hp]) _, ?_, ?_⟩
  · rw [npc_of_length hl, hp]; simp
  · rw [hp]; simp [controlsKept]

/-- Everything that a move to an operand does. -/
theorem moveOut_completes {v : State → BitVec sz.bits}
    (hx : exec i s = finish (moveOut sz ea n s v)) (hl : i.length = eaLen ea + n)
    (hs : s.wf = true) (hd : ea.isDest = true)
    {p : Loc × State} (hp : p = resolve sz ea (s.advance (eaLen ea + n)))
    (h : p.2.canAccess p.1 sz = true) (hw : s.storable (s.npc i) (p.2.bytesAt p.1 sz))
    {r : BitVec sz.bits} (hr : r = v p.2) :
    ∃ t, exec i s = .next t ∧ intoOperand s t sz ea p.2 p.1 r ∧ flagsSet s t r.msb (r == 0) false s.flagC ∧
      sequential i s t := by
  subst hr
  refine ⟨_, by rw [hx, moveOut_ok hd hp h (storable_npc hl hp hw)]; rfl, ?_,
    flagsSet_setAlu (by simp [hp]) (nzFlags (v p.2) false s.flagC), ?_, ?_⟩
  · subst hp
    exact intoOperand_put hs hd _ rfl (fun i => reg_setAlu ..) rfl (by simp)
  · rw [npc_of_length hl, hp]; simp
  · rw [hp]; simp [controlsKept]

end Sys2Proof.Machine
end

