-- ==== Sys2Proof/Laws/Shift.lean ====
section
/-! SUPPORT. What the shifts and rotates by one bit do to each bit. -/

namespace Sys2Proof.Machine

/-- A left shift with a bit put into bit 0. -/
theorem movedLeft_insert {w : Nat} (hw : 0 < w) (a : BitVec w) (c : Bool) : movedLeft (a <<< 1 ||| BitVec.ofNat w c.toNat) a c := by
  intro k hk
  simp only [BitVec.getLsbD_or, BitVec.getLsbD_shiftLeft, hk, BitVec.getLsbD_ofNat]
  cases c <;> by_cases h : k = 0 <;> simp [h, hw]
  · have : Nat.testBit 1 k = false := by exact Bool.eq_false_iff.mpr (fun e => h (Nat.testBit_one_eq_true_iff_self_eq_zero.mp e))
    simp [this]

theorem movedLeft_shift {w : Nat} (hw : 0 < w) (a : BitVec w) : movedLeft (a <<< 1) a false := by
  simpa using movedLeft_insert hw a false

theorem movedLeft_rotate {w : Nat} (hw : 1 < w) (a : BitVec w) : movedLeft (a.rotateLeft 1) a a.msb := by
  intro k hk
  rw [BitVec.getLsbD_rotateLeft]
  simp only [Nat.mod_eq_of_lt hw, hk]
  by_cases h : k = 0
  · subst h; simp [BitVec.msb_eq_getLsbD_last]
  · simp [h, show ¬ k < 1 by omega]

theorem movedRight_rotate {w : Nat} (hw : 1 < w) (a : BitVec w) : movedRight (a.rotateRight 1) a (a.getLsbD 0) := by
  intro k hk
  rw [BitVec.getLsbD_rotateRight]
  simp only [Nat.mod_eq_of_lt hw, hk]
  by_cases h : k = w - 1
  · subst h; simp
  · simp [h, show k < w - 1 by omega, Nat.add_comm]

/-- A right shift with a bit put into the most significant bit. -/
theorem movedRight_insert {w : Nat} (hw : 0 < w) (a : BitVec w) (c : Bool) : movedRight (a >>> 1 ||| BitVec.ofNat w c.toNat <<< (w - 1)) a c := by
  intro k hk
  simp only [BitVec.getLsbD_or, BitVec.getLsbD_shiftLeft, hk, BitVec.getLsbD_ofNat, BitVec.getLsbD_ushiftRight]
  by_cases h : k = w - 1
  · subst h
    have : a.getLsbD (1 + (w - 1)) = false := by apply BitVec.getLsbD_of_ge; omega
    cases c <;> simp [this, hw]
  · have : k < w - 1 := by omega
    cases c <;> simp [h, this, Nat.add_comm]

theorem movedRight_shift {w : Nat} (hw : 0 < w) (a : BitVec w) : movedRight (a >>> 1) a false := by
  simpa using movedRight_insert hw a false

theorem movedRight_arith {w : Nat} (hw : 0 < w) (a : BitVec w) : movedRight (a.sshiftRight 1) a a.msb := by
  intro k hk
  rw [BitVec.getLsbD_sshiftRight]
  by_cases h : k = w - 1
  · subst h
    simp [show ¬ 1 + (w - 1) < w by omega, show ¬ w ≤ w - 1 by omega]
  · simp [h, show k + 1 < w by omega, Nat.add_comm, show ¬ w ≤ k by omega]

/-- SHAL changes the sign where the doubled signed value does not fit (R201). -/
theorem shal_overflows (sz : Size) (a : BitVec sz.bits) : (a.getMsbD 0 != a.getMsbD 1) = addOverflows a a false := by
  rw [← add_overflows (bits_pos sz)]
  have h1 : a.getMsbD 0 = a.msb := rfl
  have : a + a + BitVec.ofNat sz.bits false.toNat = a <<< 1 := by
    simp; rw [BitVec.shiftLeft_eq_mul_twoPow];
    apply BitVec.eq_of_toNat_eq
    simp [Nat.shiftLeft_eq]; congr 1; omega
  rw [this, h1]
  have h2 : (a <<< 1).msb = a.getMsbD 1 := by simp [BitVec.msb_shiftLeft]
  rw [h2]; cases a.msb <;> cases a.getMsbD 1 <;> rfl

theorem one_lt_bits (sz : Size) : 1 < sz.bits := by cases sz <;> decide

end Sys2Proof.Machine
end

