-- ==== Sys2Proof/Laws/Sound.lean ====
section
/-! SUPPORT. What every operation leaves true whatever it does: a well-formed state stays well formed, the
parameters and the waiting interrupts stay, and in minimum mode CP and the bytes above H'FFFF stay. -/

namespace Sys2Proof.Machine

/-- What no operation of an instruction breaks on the way from `s` to `t`. -/
structure Sound (s t : State) : Prop where
  wf : s.wf = true → t.wf = true
  params : t.params = s.params
  irq : t.irq = s.irq
  cp : s.params.maxMode = false → t.cp = s.cp
  high : s.params.maxMode = false → ∀ a, 65536 ≤ a → t.mem.read a = s.mem.read a

theorem Sound.refl (s : State) : Sound s s := ⟨id, rfl, rfl, fun _ => rfl, fun _ _ _ => rfl⟩

theorem Sound.trans {s t u : State} (h : Sound s t) (k : Sound t u) : Sound s u where
  wf := k.wf ∘ h.wf
  params := k.params.trans h.params
  irq := k.irq.trans h.irq
  cp m := (k.cp (h.params ▸ m)).trans (h.cp m)
  high m a ha := (k.high (h.params ▸ m) a ha).trans (h.high m a ha)

/-- An update of other fields only. -/
theorem Sound.of_eq {s t : State} (hm : t.mem = s.mem) (hs : t.stale = s.stale) (hp : t.params = s.params)
    (hi : t.irq = s.irq) (hc : t.cp = s.cp) : Sound s t :=
  ⟨fun h => by simpa [State.wf, hm, hs] using h, hp, hi, fun _ => hc, fun _ _ _ => by rw [hm]⟩

theorem sound_setReg (s : State) (i : Reg) (v : Word) : Sound s (s.setReg i v) := .of_eq rfl rfl rfl rfl rfl
theorem sound_wr (s : State) (i : Reg) (sz : Size) (v : BitVec sz.bits) : Sound s (s.wr i sz v) := by
  cases sz <;> exact sound_setReg ..
theorem sound_setNZVC (s : State) (n z v c : Bool) : Sound s (s.setNZVC n z v c) := .of_eq rfl rfl rfl rfl rfl
theorem sound_setAlu {w : Nat} (s : State) (r : Alu w) : Sound s (s.setAlu r) := sound_setNZVC ..
theorem sound_draw (s : State) : Sound s s.draw.2 := .of_eq rfl rfl rfl rfl rfl
theorem sound_advance (s : State) (n : Nat) : Sound s (s.advance n) := .of_eq rfl rfl rfl rfl rfl

theorem sound_jump (s : State) (target : Word) : Sound s (s.jump target) :=
  ⟨fun h => by
    have := (Bool.and_eq_true_iff.mp h).1
    simp [State.wf, this], rfl, rfl, fun _ => rfl, fun _ _ _ => rfl⟩

theorem sound_setCtrl (s : State) (cr : CtrlReg) (v : Word) : Sound s (s.setCtrl cr v) := by
  cases cr <;> exact .of_eq rfl rfl rfl rfl rfl

theorem sound_readCtrl (s : State) (cr : CtrlReg) : Sound s (s.readCtrl cr).2 := by
  cases cr <;> exact .of_eq rfl rfl rfl rfl rfl

theorem sound_resolve (sz : Size) (ea : EA) (s : State) : Sound s (resolve sz ea s).2 := by
  cases ea <;> first | exact .refl s | exact sound_setReg ..

/-- A CP that only maximum mode writes. -/
theorem sound_setCP (s : State) (v : Byte) (h : s.params.maxMode = true) : Sound s { s with cp := v } :=
  ⟨id, rfl, rfl, fun m => by simp [h] at m, fun _ _ _ => rfl⟩

/-! ## Stores -/

theorem phys_min {s : State} (h : s.params.maxMode = false) (k : Kind) (off : Word) : s.phys k off < 65536 := by
  rw [State.phys, h]
  exact off.isLt

theorem sound_writeByte (s : State) {a : Nat} (h : a < addressLimit)
    (hl : s.params.maxMode = false → a < 65536) (v : Byte) : Sound s (s.writeByte a v) where
  wf hs := by
    obtain ⟨h1, h2⟩ := Bool.and_eq_true_iff.mp hs
    refine Bool.and_eq_true_iff.mpr ⟨wf_write h1 h v, ?_⟩
    simp only [State.writeByte]
    split
    · rw [List.all_cons, h2, Bool.and_true]
      exact decide_eq_true h
    · exact h2
  params := rfl
  irq := rfl
  cp _ := rfl
  high m b hb := read_write_other _ _ (by have := hl m; omega)

/-- What an instruction's body does up to its end is sound, however it ends. -/
def Body.sound (s : State) : Body State → Prop
  | .ok t => Sound s t
  | .error (.raised _ t) => Sound s t
  | .error (.refuse _) => True

theorem Body.sound.after {s t : State} {b : Body State} (hb : b.sound t) (h : Sound s t) : b.sound s := by
  match b with
  | .ok u => exact h.trans hb
  | .error (.raised _ u) => exact h.trans hb
  | .error (.refuse _) => trivial

theorem Body.sound.bind {s : State} {b : Body State} {f : State → Body State} (hb : b.sound s)
    (hf : ∀ t, (f t).sound t) : Body.sound s (b >>= f) := by
  match b with
  | .ok t => exact (hf t).after hb
  | .error (.raised _ t) => exact hb
  | .error (.refuse _) => trivial

/-- An operation that the spec may have the model refuse. -/
theorem sound_refuseIf {s : State} {b : Body State} (c : Bool) (r : Refusal) (h : b.sound s) :
    Body.sound s (refuseIf c r b) := by
  cases c
  · exact h
  · trivial

theorem sound_store (s : State) (k : Kind) (off : Word) (sz : Size) (v : BitVec sz.bits) :
    Body.sound s (s.store (s.phys k off) sz v) := by
  cases sz with
  | b => exact sound_refuseIf _ _ (sound_writeByte s (phys_lt _ _ _) (fun m => phys_min m k off) v)
  | w =>
    by_cases h : s.phys k off % 2 = 0
    · rw [store_even h]
      refine sound_refuseIf _ _ ((sound_writeByte s (phys_lt _ _ _) (fun m => phys_min m k off) _).trans
        (sound_writeByte _ (phys_succ_lt _ _ h) (fun m => ?_) _))
      have := phys_min (s := s) m k off
      omega
    · rw [store_odd h]
      exact .refl s

theorem sound_st (s : State) (l : Loc) (sz : Size) (v : BitVec sz.bits) : Body.sound s (s.st l sz v) := by
  cases l with
  | reg i => exact sound_wr ..
  | mem k off => exact sound_store ..
  | imm w => trivial

theorem sound_push16 (s : State) (v : Word) : Body.sound s (s.push16 v) := by
  rw [State.push16, sp_setReg]
  exact (sound_store (s.setReg .r7 (s.sp - 2)) .stack (s.sp - 2) .w v).after (sound_setReg ..)

/-! ## The shapes of instruction -/

/-- A load changes nothing, and an instruction that goes on with what it read goes on from the same state. -/
theorem sound_ld {s : State} {l : Loc} {sz : Size} {f : BitVec sz.bits → Body State}
    (h : ∀ v, (f v).sound s) : Body.sound s (s.ld l sz >>= f) := by
  cases ha : s.canAccess l sz
  · rw [ld_odd ha]; exact .refl s
  · rw [ld_ok ha]; exact h _

theorem sound_source {s : State} {sz : Size} {ea : EA} {f : BitVec sz.bits × State → Body State}
    (h : ∀ v, (f (v, (resolve sz ea s).2)).sound s) : Body.sound s (source sz ea s >>= f) := by
  cases ha : (resolve sz ea s).2.canAccess (resolve sz ea s).1 sz
  · rw [source_odd ha]; exact sound_resolve ..
  · rw [source_ok ha]; exact h _

theorem sound_intoReg (sz : Size) (ea : EA) (rd : Reg) (s : State)
    (op : State → BitVec sz.bits → BitVec sz.bits → Alu sz.bits) : Body.sound s (intoReg sz ea rd s op) :=
  sound_refuseIf _ _ <| Body.sound.after (sound_source fun _ =>
    ((sound_resolve ..).trans (sound_wr ..)).trans (sound_setAlu ..)) (sound_advance ..)

theorem sound_intoRegWord (sz : Size) (ea : EA) (rd : Reg) (s : State) (op : Word → Word → Word) :
    Body.sound s (intoRegWord sz ea rd s op) :=
  sound_refuseIf _ _ <| Body.sound.after (sound_source fun _ => (sound_resolve ..).trans (sound_setReg ..))
    (sound_advance ..)

theorem sound_modify (sz : Size) (ea : EA) (s : State) (op : State → BitVec sz.bits → Alu sz.bits) :
    Body.sound s (modify sz ea s op) :=
  Body.sound.after (sound_ld fun _ => (sound_st ..).bind fun t => sound_setAlu t _)
    ((sound_advance s _).trans (sound_resolve ..))

theorem sound_examine (sz : Size) (ea : EA) (n : Nat) (s : State) (op : State → BitVec sz.bits → Alu sz.bits) :
    Body.sound s (examine sz ea n s op) :=
  Body.sound.after (sound_source fun _ => (sound_resolve ..).trans (sound_setAlu ..)) (sound_advance ..)

theorem sound_moveOut (sz : Size) (ea : EA) (n : Nat) (s : State) (v : State → BitVec sz.bits) :
    Body.sound s (moveOut sz ea n s v) :=
  Body.sound.after ((sound_st ..).bind fun t => sound_setAlu t _) ((sound_advance s _).trans (sound_resolve ..))

/-- A pop moves SP only. -/
theorem sound_pop16 {s : State} {f : Word × State → Body State}
    (h : ∀ v, (f (v, s.setReg .r7 (s.sp + 2))).sound (s.setReg .r7 (s.sp + 2))) :
    Body.sound s (s.pop16 >>= f) := by
  by_cases he : s.spEven
  · rw [pop16_ok he]; exact (h _).after (sound_setReg ..)
  · rw [pop16_odd he]; exact .refl s

/-! ## An entry -/

theorem sound_vectorTo (s : State) (entry : Byte) : Sound s (s.vectorTo entry) := by
  rw [State.vectorTo]
  split
  · exact (sound_setCP s _ ‹_›).trans (sound_jump _ _)
  · exact sound_jump _ _

theorem sound_pushCP (s : State) : Body.sound s s.pushCP := (sound_push16 s.draw.2 _).after (sound_draw s)

theorem sound_pushSR (s : State) : Body.sound s s.pushSR := (sound_push16 s.draw.2 _).after (sound_draw s)

theorem sound_pushFrame (s : State) (pc : Word) : Body.sound s (s.pushFrame pc) := by
  refine (sound_push16 s pc).bind fun t => ?_
  by_cases h : t.params.maxMode = true
  · simp only [h, if_true]
    exact (sound_pushCP t).bind sound_pushSR
  · simp only [h, Bool.false_eq_true, if_false]
    exact sound_pushSR t

theorem sound_enterVector (s : State) (entry : Byte) : Sound s (s.enterVector entry) := by
  have h : Sound s { s with sr := srClearT s.sr } := .of_eq rfl rfl rfl rfl rfl
  exact h.trans (sound_vectorTo _ entry)

theorem sound_enter {s t : State} {entry : Byte} {pc : Word} (h : s.enter entry pc = .next t) : Sound s t := by
  rw [State.enter] at h
  have hb := sound_pushFrame s pc
  cases hf : s.pushFrame pc with
  | error e => cases e <;> simp [hf, entryStopped] at h
  | ok u =>
    simp only [hf, Host.Outcome.next.injEq] at h hb
    subst h
    exact Sound.trans hb (sound_enterVector u entry)

theorem sound_raise {s t : State} {e : Exn} (h : s.raise e = .next t) : Sound s t := by
  rw [State.raise] at h
  cases hv : s.vectorOf e with
  | none => simp [hv] at h
  | some entry =>
    simp only [hv] at h
    refine Sound.trans ?_ (sound_enter h)
    cases e <;> first | exact .refl s | exact sound_draw s

/-- What a meaning answers is sound where its body is. -/
theorem sound_finish {s t : State} {b : Body State} (hb : b.sound s) (h : finish b = .next t) : Sound s t := by
  match b with
  | .ok u => cases h; exact hb
  | .error (.raised _ u) => exact Sound.trans hb (sound_raise h)
  | .error (.refuse _) => cases h

end Sys2Proof.Machine
end

