-- ==== Sys2Proof/Laws/Stale.lean ====
section
/-! SUPPORT. What an instruction that does not transfer control does to the prefetch window behind it: where
stores into the window are refused it changes no byte of it, where they are tracked it keeps the list of stale
bytes and adds to it every byte of the window that it changes
(spec/20_memory.md R70; spec/70_reset_and_hazards.md R361). -/

namespace Sys2Proof.Machine

/-- From `s`, its PC past the instruction, to `t`: the list of stale bytes follows memory, and no byte changes
that a store to is refused. -/
structure Recorded (s t : State) : Prop where
  pc : t.pc = s.pc
  cp : t.cp = s.cp
  params : t.params = s.params
  keeps : ∀ a ∈ s.stale, a ∈ t.stale
  records : ∀ a, t.mem.read a ≠ s.mem.read a → s.inWindow a = true → a ∈ t.stale
  only : ∀ a ∈ t.stale, a ∈ s.stale ∨ s.inWindow a = true
  guards : ∀ a, s.blocked a = true → t.mem.read a = s.mem.read a
  clean : s.params.windowStore = .refuse → ∀ a ∈ t.stale, a ∈ s.stale

theorem inWindow_congr {s t : State} (h : t.pc = s.pc) (hc : t.cp = s.cp) (hp : t.params = s.params) (a : Nat) :
    t.inWindow a = s.inWindow a := by
  simp only [State.inWindow, hp, h, phys_congr hp .code hc]

theorem Recorded.trans {s t u : State} (h : Recorded s t) (k : Recorded t u) : Recorded s u where
  pc := k.pc.trans h.pc
  cp := k.cp.trans h.cp
  params := k.params.trans h.params
  keeps a ha := k.keeps a (h.keeps a ha)
  records a hr hw := by
    by_cases e : t.mem.read a = s.mem.read a
    · exact k.records a (e ▸ hr) (inWindow_congr h.pc h.cp h.params a ▸ hw)
    · exact k.keeps a (h.records a e hw)
  only a ha := (k.only a ha).elim (h.only a) fun hw => .inr (inWindow_congr h.pc h.cp h.params a ▸ hw)
  guards a hb := (k.guards a (blocked_congr h.params h.cp h.pc a ▸ hb)).trans (h.guards a hb)
  clean hr a ha := h.clean hr a (k.clean (h.params ▸ hr) a ha)

/-- An update of other fields only. -/
theorem Recorded.of_eq {s t : State} (hpc : t.pc = s.pc) (hc : t.cp = s.cp) (hp : t.params = s.params)
    (hm : t.mem = s.mem) (hs : t.stale = s.stale) : Recorded s t :=
  ⟨hpc, hc, hp, fun _ h => hs ▸ h, fun _ h => absurd (by rw [hm]) h, fun _ h => .inl (hs ▸ h), fun _ _ => by rw [hm],
    fun _ _ h => hs ▸ h⟩

theorem Recorded.refl (s : State) : Recorded s s := .of_eq rfl rfl rfl rfl rfl

theorem recorded_setReg (s : State) (i : Reg) (v : Word) : Recorded s (s.setReg i v) := .of_eq rfl rfl rfl rfl rfl
theorem recorded_wr (s : State) (i : Reg) (sz : Size) (v : BitVec sz.bits) : Recorded s (s.wr i sz v) := by
  cases sz <;> exact recorded_setReg ..
theorem recorded_setNZVC (s : State) (n z v c : Bool) : Recorded s (s.setNZVC n z v c) := .of_eq rfl rfl rfl rfl rfl
theorem recorded_setAlu {w : Nat} (s : State) (r : Alu w) : Recorded s (s.setAlu r) := recorded_setNZVC ..
theorem recorded_draw (s : State) : Recorded s s.draw.2 := .of_eq rfl rfl rfl rfl rfl
theorem recorded_setCtrl (s : State) (cr : CtrlReg) (v : Word) : Recorded s (s.setCtrl cr v) := by
  cases cr <;> exact .of_eq rfl rfl rfl rfl rfl
theorem recorded_readCtrl (s : State) (cr : CtrlReg) : Recorded s (s.readCtrl cr).2 := by
  cases cr <;> exact .of_eq rfl rfl rfl rfl rfl
theorem recorded_resolve (sz : Size) (ea : EA) (s : State) : Recorded s (resolve sz ea s).2 :=
  .of_eq (by simp) (by simp) (by simp) (by simp) (by simp)

theorem recorded_writeByte {s : State} {a : Nat} (h : s.blocked a = false) (v : Byte) :
    Recorded s (s.writeByte a v) where
  pc := rfl
  cp := rfl
  params := rfl
  keeps b hb := by
    rw [writeByte_stale]
    split
    · exact .tail _ hb
    · exact hb
  records b hr hw := by
    by_cases e : b = a
    · subst e
      rw [writeByte_stale, if_pos hw]
      exact .head _
    · exact absurd (read_write_other _ _ e) hr
  only b hb := by
    rw [writeByte_stale] at hb
    split at hb
    · rcases List.mem_cons.mp hb with rfl | hb
      · exact .inr ‹_›
      · exact .inl hb
    · exact .inl hb
  guards b hb := read_write_other _ _ fun e => by simp [e, h] at hb
  clean hr b hb := by
    have : s.inWindow a = false := by simpa [State.blocked, hr] using h
    simpa [writeByte_stale, this] using hb

/-! ## Bodies -/

/-- What an instruction's body does up to its end is recorded, also where it raises an exception. -/
def Body.recorded (s : State) : Body State → Prop
  | .ok t => Recorded s t
  | .error (.raised e t) => Recorded s t ∧ e ≠ .invalidInstruction
  | .error (.refuse _) => True

theorem Body.recorded.after {s t : State} {b : Body State} (hb : b.recorded t) (h : Recorded s t) :
    b.recorded s := by
  match b with
  | .ok u => exact h.trans hb
  | .error (.raised e u) => exact ⟨h.trans hb.1, hb.2⟩
  | .error (.refuse _) => trivial

theorem Body.recorded.bind {s : State} {b : Body State} {f : State → Body State} (hb : b.recorded s)
    (hf : ∀ t, (f t).recorded t) : Body.recorded s (b >>= f) := by
  match b with
  | .ok t => exact (hf t).after hb
  | .error (.raised _ t) => exact hb
  | .error (.refuse _) => trivial

theorem recorded_store (s : State) (a : Nat) (sz : Size) (v : BitVec sz.bits) :
    Body.recorded s (s.store a sz v) := by
  cases sz with
  | b =>
    cases h : s.blocked a
    · rw [store_byte h]
      exact recorded_writeByte h v
    · rw [store_blocked_byte h]
      trivial
  | w =>
    by_cases he : a % 2 = 0
    · cases h : s.blocked a || s.blocked (a + 1)
      · obtain ⟨h1, h2⟩ := Bool.or_eq_false_iff.mp h
        rw [store_word he h1 h2]
        exact (recorded_writeByte h1 _).trans (recorded_writeByte (by rw [← h2]; exact blocked_congr rfl rfl rfl _) _)
      · rw [store_blocked_word he (Bool.or_eq_true_iff.mp h)]
        trivial
    · rw [store_odd he]
      exact ⟨.refl s, by decide⟩

theorem recorded_st (s : State) (l : Loc) (sz : Size) (v : BitVec sz.bits) : Body.recorded s (s.st l sz v) := by
  cases l with
  | reg i => exact recorded_wr ..
  | mem k off => exact recorded_store ..
  | imm w => trivial

theorem recorded_push16 (s : State) (v : Word) : Body.recorded s (s.push16 v) :=
  (recorded_store (s.setReg .r7 (s.sp - 2)) _ .w v).after (recorded_setReg ..)

theorem recorded_refuseIf {s : State} {b : Body State} (c : Bool) (r : Refusal) (h : b.recorded s) :
    Body.recorded s (refuseIf c r b) := by
  cases c
  · exact h
  · trivial

theorem recorded_ld {s : State} {l : Loc} {sz : Size} {f : BitVec sz.bits → Body State}
    (h : ∀ v, (f v).recorded s) : Body.recorded s (s.ld l sz >>= f) := by
  cases ha : s.canAccess l sz
  · rw [ld_odd ha]; exact ⟨.refl s, by decide⟩
  · rw [ld_ok ha]; exact h _

theorem recorded_pop16 {s : State} {f : Word × State → Body State}
    (h : ∀ v, (f (v, s.setReg .r7 (s.sp + 2))).recorded (s.setReg .r7 (s.sp + 2))) :
    Body.recorded s (s.pop16 >>= f) := by
  by_cases he : s.spEven
  · rw [pop16_ok he]; exact (h _).after (recorded_setReg ..)
  · rw [pop16_odd he]; exact ⟨.refl s, by decide⟩

theorem recorded_source {s : State} {sz : Size} {ea : EA} {f : BitVec sz.bits × State → Body State}
    (h : ∀ v, (f (v, (resolve sz ea s).2)).recorded (resolve sz ea s).2) :
    Body.recorded s (source sz ea s >>= f) := by
  cases ha : (resolve sz ea s).2.canAccess (resolve sz ea s).1 sz
  · rw [source_odd ha]; exact ⟨recorded_resolve .., by decide⟩
  · rw [source_ok ha]; exact (h _).after (recorded_resolve ..)

/-! ## The shapes of instruction -/

theorem recorded_intoReg (sz : Size) (ea : EA) (rd : Reg) (s : State)
    (op : State → BitVec sz.bits → BitVec sz.bits → Alu sz.bits) :
    Body.recorded (s.advance (eaLen ea + 1)) (intoReg sz ea rd s op) :=
  recorded_refuseIf _ _ <| recorded_source fun _ => (recorded_wr ..).trans (recorded_setAlu ..)

theorem recorded_intoRegWord (sz : Size) (ea : EA) (rd : Reg) (s : State) (op : Word → Word → Word) :
    Body.recorded (s.advance (eaLen ea + 1)) (intoRegWord sz ea rd s op) :=
  recorded_refuseIf _ _ <| recorded_source fun _ => recorded_setReg ..

theorem recorded_modify (sz : Size) (ea : EA) (s : State) (op : State → BitVec sz.bits → Alu sz.bits) :
    Body.recorded (s.advance (eaLen ea + 1)) (modify sz ea s op) :=
  Body.recorded.after (recorded_ld fun _ => (recorded_st ..).bind fun t => recorded_setAlu t _)
    (recorded_resolve ..)

theorem recorded_examine (sz : Size) (ea : EA) (n : Nat) (s : State) (op : State → BitVec sz.bits → Alu sz.bits) :
    Body.recorded (s.advance (eaLen ea + n)) (examine sz ea n s op) :=
  recorded_source fun _ => recorded_setAlu ..

theorem recorded_moveOut (sz : Size) (ea : EA) (n : Nat) (s : State) (v : State → BitVec sz.bits) :
    Body.recorded (s.advance (eaLen ea + n)) (moveOut sz ea n s v) :=
  Body.recorded.after ((recorded_st ..).bind fun t => recorded_setAlu t _) (recorded_resolve ..)

/-! ## An entry -/

theorem recorded_pushFrame (s : State) (pc : Word) : Body.recorded s (s.pushFrame pc) := by
  have hd (t : State) (w : Word) : Body.recorded t (t.draw.2.push16 w) :=
    (recorded_push16 t.draw.2 w).after (recorded_draw t)
  refine (recorded_push16 s pc).bind fun t => ?_
  by_cases h : t.params.maxMode = true
  · simp only [h, if_true]
    exact (hd t _).bind fun u => hd u _
  · simp only [h, Bool.false_eq_true, if_false]
    exact hd t _

/-- Reading the vector changes no memory. -/
@[simp] theorem enterVector_mem (s : State) (entry : Byte) : (s.enterVector entry).mem = s.mem := by
  simp only [State.enterVector, State.vectorTo]
  split <;> rfl

/-- An entry changes no byte that a store to is refused. -/
theorem enter_guards {s t : State} {entry : Byte} {pc : Word} (h : s.enter entry pc = .next t) {a : Nat}
    (hb : s.blocked a = true) : t.mem.read a = s.mem.read a := by
  have hr := recorded_pushFrame s pc
  rw [State.enter] at h
  cases hf : s.pushFrame pc with
  | error e => cases e <;> simp [hf, entryStopped] at h
  | ok u =>
    simp only [hf, Host.Outcome.next.injEq] at h hr
    rw [← h, enterVector_mem]
    exact Recorded.guards hr a hb

theorem raise_guards {s t : State} {e : Exn} (h : s.raise e = .next t) {a : Nat} (hb : s.blocked a = true) :
    t.mem.read a = s.mem.read a := by
  rw [State.raise] at h
  cases hv : s.vectorOf e with
  | none => simp [hv] at h
  | some entry =>
    simp only [hv] at h
    have hq : Recorded s (s.savedPC e).2 := by cases e <;> first | exact .refl s | exact recorded_draw s
    rw [enter_guards h (blocked_congr hq.params hq.cp hq.pc a ▸ hb), hq.guards a hb]

/-- What a meaning answers for a recorded body changes no byte that a store to is refused. -/
theorem finish_guards {s t : State} {b : Body State} (hb : b.recorded s) (h : finish b = .next t) {a : Nat}
    (ha : s.blocked a = true) : t.mem.read a = s.mem.read a := by
  match b with
  | .ok u => cases h; exact Recorded.guards hb a ha
  | .error (.refuse _) => cases h
  | .error (.raised _ u) =>
    obtain ⟨hr, -⟩ := hb
    exact (raise_guards h (blocked_congr hr.params hr.cp hr.pc a ▸ ha)).trans (hr.guards a ha)

/-- Where no exception has a vector, what a meaning answers is recorded where its body is. -/
theorem recorded_finish {s t : State} {b : Body State} (hz : s.params.vecZeroDiv = none)
    (hv : s.params.vecTrapVS = none) (ha : s.params.vecAddrErr = none) (hb : b.recorded s)
    (h : finish b = .next t) : Recorded s t := by
  match b with
  | .ok u => cases h; exact hb
  | .error (.refuse _) => cases h
  | .error (.raised e u) =>
    obtain ⟨hp, hi⟩ := hb
    have hn : u.vectorOf e = none := by cases e <;> simp_all [State.vectorOf, hp.params]
    rw [finish_raised, State.raise, hn] at h
    cases h

end Sys2Proof.Machine
end

