-- ==== Sys2Proof/Tests/Slice0.lean ====
section
/-! SUPPORT. Tests: ill-formed terms, decoded words, single steps and the witnesses of the statements. The words
and the expected results are those of spec/95_test_vectors.md by their numbers V<n>, of the examples of
spec/30_encoding.md to spec/46_system.md, or worked out by hand from the rule a comment names. -/

namespace Sys2Proof.Tests

open Sys2Proof Sys2Proof.Machine

/-! ## Helpers -/

/-- The parameters that spec/95_test_vectors.md takes where a vector names none. -/
def plainParams : Config.Params :=
  { Config.Params.atReset with
    maxMode := false, ldmR7 := .refuse, vecInvalid := none, vecZeroDiv := none, vecTrapVS := none,
    vecAddrErr := none }

/-- A CPU at H'0100 with these registers, this SR and these bytes of memory, everything else 0. -/
def cpu (regs : List (Reg × Word)) (sr : Word) (mem : List (Nat × Byte)) : State :=
  let s : State :=
    { State.reset with
      pc := 0x0100, sr := sr, params := plainParams,
      mem := mem.foldl (fun m c => Memory.write m c.1 c.2) [] }
  regs.foldl (fun s r => s.setReg r.1 r.2) s

/-- N, Z, V, C. -/
def nzvc (t : State) : BitVec 4 := t.sr.setWidth 4

/-- What one step from `s` with these bytes at the PC shows, where it answers a next state. -/
def after {α : Type} (bytes : List Byte) (s : State) (show? : State → α) : Option α :=
  match step (s.placeInstruction bytes) with
  | .next t => some (show? t)
  | _ => none

/-- Whether a result is a next state. -/
def answers : Result → Bool
  | .next _ => true
  | _ => false

/-! ## Ill-formed terms -/

/-- R9 of R95: an immediate whose width is not the operand's. -/
theorem test_ill_formed_source :
    ∀ i ∈ [Instr.movGLoad .b (.imm16 1) .r0, .addG .w (.imm8 1) .r0, .adds .b (.imm16 1) .r0,
      .addx .w (.imm8 1) .r0, .sub .b (.imm16 1) .r0, .subs .w (.imm8 1) .r0, .subx .b (.imm16 1) .r0,
      .mulxu .w (.imm8 1) .r0, .divxu .b (.imm16 1) .r0, .cmpG .w (.imm8 1) .r0, .and .b (.imm16 1) .r0,
      .or .w (.imm8 1) .r0, .xor .b (.imm16 1) .r0, .ldc .w (.imm8 1) .sr], i.wellFormed = false := by
  decide

/-- R8 of R95: an immediate destination. -/
theorem test_ill_formed_destination :
    ∀ i ∈ [Instr.addQ .b .plus1 (.imm8 1), .tst .w (.imm16 1), .neg .b (.imm8 1), .clr .w (.imm16 1),
      .tas (.imm8 1), .shal .b (.imm8 1), .shar .b (.imm8 1), .shll .b (.imm8 1), .shlr .b (.imm8 1),
      .rotl .b (.imm8 1), .rotr .b (.imm8 1), .rotxl .b (.imm8 1), .rotxr .b (.imm8 1), .not .b (.imm8 1),
      .bsetImm .b 0 (.imm8 1), .bsetReg .b .r0 (.imm8 1), .bclrImm .b 0 (.imm8 1), .bclrReg .b .r0 (.imm8 1),
      .btstImm .b 0 (.imm8 1), .btstReg .b .r0 (.imm8 1), .bnotImm .b 0 (.imm8 1), .bnotReg .b .r0 (.imm8 1),
      .stc .b .ccr (.imm8 1)], i.wellFormed = false := by
  decide

/-- M7 of R95: a register or an immediate where only memory stands. -/
theorem test_ill_formed_memory :
    ∀ i ∈ [Instr.movGStore .b .r0 (.reg .r1), .movGStore .w .r0 (.imm16 1), .movGImm8 .b 1 (.reg .r1),
      .movGImm16 1 (.imm16 1), .cmpGImm (.i8 1) (.reg .r1), .cmpGImm (.i16 1) (.imm16 1), .movtpe .r0 (.reg .r1),
      .movfpe (.imm8 1) .r0, .movfpe (.reg .r1) .r0], i.wellFormed = false := by
  decide

/-! ## Decoding -/

theorem test_decode_data_transfer_1 :
    decode [0xD0, 0x81] = .ok (.movGLoad .b (.ind .r0) .r1, []) ∧
    decode [0xBF, 0x90] = .ok (.movGStore .w .r0 (.preDec .r7), []) ∧
    decode [0xD4, 0x06, 0x80] = .ok (.movGImm8 .b 0x80 (.ind .r4), []) ∧
    decode [0xBF, 0x07, 0x12, 0x34] = .ok (.movGImm16 0x1234 (.preDec .r7), []) ∧
    decode [0x52, 0x00] = .ok (.movE 0x00 .r2, []) ∧
    decode [0x59, 0x80, 0x00] = .ok (.movI 0x8000 .r1, []) := by
  refine ⟨?_, ?_, ?_, ?_, ?_, ?_⟩ <;> rfl

theorem test_decode_data_transfer_2 :
    decode [0x68, 0x11] = .ok (.movL .w 0x11 .r0, []) ∧
    decode [0x71, 0xFF] = .ok (.movS .b .r1 0xFF, []) ∧
    decode [0x80, 0x80] = .ok (.movFLoad .b 0x80 .r0, []) ∧
    decode [0x9F, 0x00] = .ok (.movFStore .w .r7 0x00, []) ∧
    decode [0x02, 0x45] = .ok (.ldm 0x45, []) ∧
    decode [0x12, 0x45] = .ok (.stm 0x45, []) := by
  refine ⟨?_, ?_, ?_, ?_, ?_, ?_⟩ <;> rfl

theorem test_decode_data_transfer_3 :
    decode [0xAB, 0x93] = .ok (.xch .r3 .r3, []) ∧
    decode [0xA0, 0x10] = .ok (.swap .r0, []) ∧
    decode [0x15, 0xF0, 0x00, 0x00, 0x90] = .ok (.movtpe .r0 (.abs16 0xF000), []) ∧
    decode [0xC1, 0x00, 0x80] = .ok (.movfpe (.postInc .r1) .r0, []) := by
  refine ⟨?_, ?_, ?_, ?_⟩ <;> rfl

theorem test_decode_arithmetic_1 :
    decode [0xA1, 0x20] = .ok (.addG .b (.reg .r1) .r0, []) ∧
    decode [0xA8, 0x08] = .ok (.addQ .w .plus1 (.reg .r0), []) ∧
    decode [0x04, 0x7F, 0x28] = .ok (.adds .b (.imm8 0x7F) .r0, []) ∧
    decode [0xA9, 0xA0] = .ok (.addx .w (.reg .r1) .r0, []) ∧
    decode [0xA1, 0x00, 0xA0] = .ok (.dadd .r1 .r0, []) ∧
    decode [0x04, 0x01, 0x30] = .ok (.sub .b (.imm8 0x01) .r0, []) := by
  refine ⟨?_, ?_, ?_, ?_, ?_, ?_⟩ <;> rfl

theorem test_decode_arithmetic_2 :
    decode [0xA1, 0x38] = .ok (.subs .b (.reg .r1) .r0, []) ∧
    decode [0xA9, 0xB0] = .ok (.subx .w (.reg .r1) .r0, []) ∧
    decode [0xA1, 0x00, 0xB0] = .ok (.dsub .r1 .r0, []) ∧
    decode [0xD2, 0xA8] = .ok (.mulxu .b (.ind .r2) .r0, []) ∧
    decode [0xA1, 0xB8] = .ok (.divxu .b (.reg .r1) .r0, []) ∧
    decode [0xA1, 0x70] = .ok (.cmpG .b (.reg .r1) .r0, []) := by
  refine ⟨?_, ?_, ?_, ?_, ?_, ?_⟩ <;> rfl

theorem test_decode_arithmetic_3 :
    decode [0xD8, 0x05, 0x80, 0x00] = .ok (.cmpGImm (.i16 0x8000) (.ind .r0), []) ∧
    decode [0x40, 0xFF] = .ok (.cmpE 0xFF .r0, []) ∧
    decode [0x48, 0x80, 0x00] = .ok (.cmpI 0x8000 .r0, []) ∧
    decode [0xA1, 0x11] = .ok (.exts .r1, []) ∧
    decode [0xA1, 0x12] = .ok (.extu .r1, []) ∧
    decode [0xA0, 0x16] = .ok (.tst .b (.reg .r0), []) := by
  refine ⟨?_, ?_, ?_, ?_, ?_, ?_⟩ <;> rfl

theorem test_decode_arithmetic_4 :
    decode [0xA0, 0x14] = .ok (.neg .b (.reg .r0), []) ∧
    decode [0xC1, 0x13] = .ok (.clr .b (.postInc .r1), []) ∧
    decode [0xA0, 0x17] = .ok (.tas (.reg .r0), []) := by
  refine ⟨?_, ?_, ?_⟩ <;> rfl

theorem test_decode_shift_1 :
    decode [0xA0, 0x18] = .ok (.shal .b (.reg .r0), []) ∧
    decode [0xA0, 0x19] = .ok (.shar .b (.reg .r0), []) ∧
    decode [0xA0, 0x1A] = .ok (.shll .b (.reg .r0), []) ∧
    decode [0xA0, 0x1B] = .ok (.shlr .b (.reg .r0), []) ∧
    decode [0xA0, 0x1C] = .ok (.rotl .b (.reg .r0), []) ∧
    decode [0xA0, 0x1D] = .ok (.rotr .b (.reg .r0), []) := by
  refine ⟨?_, ?_, ?_, ?_, ?_, ?_⟩ <;> rfl

theorem test_decode_shift_2 :
    decode [0xA0, 0x1E] = .ok (.rotxl .b (.reg .r0), []) ∧
    decode [0xA0, 0x1F] = .ok (.rotxr .b (.reg .r0), []) := by
  refine ⟨?_, ?_⟩ <;> rfl

theorem test_decode_logic_bit_1 :
    decode [0xD9, 0x50] = .ok (.and .w (.ind .r1) .r0, []) ∧
    decode [0x04, 0x80, 0x40] = .ok (.or .b (.imm8 0x80) .r0, []) ∧
    decode [0xA0, 0x60] = .ok (.xor .b (.reg .r0) .r0, []) ∧
    decode [0xA8, 0x15] = .ok (.not .w (.reg .r0), []) ∧
    decode [0xA0, 0xC7] = .ok (.bsetImm .b 0x7 (.reg .r0), []) ∧
    decode [0xA8, 0x4A] = .ok (.bsetReg .w .r2 (.reg .r0), []) := by
  refine ⟨?_, ?_, ?_, ?_, ?_, ?_⟩ <;> rfl

theorem test_decode_logic_bit_2 :
    decode [0xA8, 0xDF] = .ok (.bclrImm .w 0xF (.reg .r0), []) ∧
    decode [0xD2, 0x59] = .ok (.bclrReg .b .r1 (.ind .r2), []) ∧
    decode [0xD0, 0xF0] = .ok (.btstImm .b 0x0 (.ind .r0), []) ∧
    decode [0xA8, 0x79] = .ok (.btstReg .w .r1 (.reg .r0), []) ∧
    decode [0xA8, 0xE0] = .ok (.bnotImm .w 0x0 (.reg .r0), []) ∧
    decode [0xA0, 0x69] = .ok (.bnotReg .b .r1 (.reg .r0), []) := by
  refine ⟨?_, ?_, ?_, ?_, ?_, ?_⟩ <;> rfl

theorem test_decode_branch_1 :
    decode [0x20, 0xFE] = .ok (.bcc .bra (.d8 0xFE), []) ∧
    decode [0x11, 0xE1, 0xFE] = .ok (.jmp (.disp8 0xFE .r1), []) ∧
    decode [0x13, 0x02, 0x10, 0x00] = .ok (.pjmp (.abs24 0x02 0x1000), []) ∧
    decode [0x1E, 0xFF, 0xFD] = .ok (.bsr (.d16 0xFFFD), []) ∧
    decode [0x18, 0x40, 0x00] = .ok (.jsr (.abs16 0x4000), []) ∧
    decode [0x11, 0xCA] = .ok (.pjsr (.ind .r2), []) := by
  refine ⟨?_, ?_, ?_, ?_, ?_, ?_⟩ <;> rfl

theorem test_decode_branch_2 :
    decode [0x19] = .ok (.rts, []) ∧
    decode [0x11, 0x19] = .ok (.prts, []) ∧
    decode [0x14, 0xFE] = .ok (.rtd (.i8 0xFE), []) ∧
    decode [0x11, 0x1C, 0x00, 0x04] = .ok (.prtd (.i16 0x0004), []) ∧
    decode [0x01, 0xB9, 0xFD] = .ok (.scb .f .r1 0xFD, []) := by
  refine ⟨?_, ?_, ?_, ?_, ?_⟩ <;> rfl

theorem test_decode_system_1 :
    decode [0x08, 0x10] = .ok (.trapa 0x0, []) ∧
    decode [0x09] = .ok (.trapvs, []) ∧
    decode [0x0A] = .ok (.rte, []) ∧
    decode [0x1F, 0xFF, 0x00] = .ok (.link (.i16 0xFF00), []) ∧
    decode [0x0F] = .ok (.unlk, []) ∧
    decode [0x1A] = .ok (.sleep, []) := by
  refine ⟨?_, ?_, ?_, ?_, ?_, ?_⟩ <;> rfl

theorem test_decode_system_2 :
    decode [0xD8, 0x88] = .ok (.ldc .w (.ind .r0) .sr, []) ∧
    decode [0xBF, 0x98] = .ok (.stc .w .sr (.preDec .r7), []) ∧
    decode [0x04, 0x00, 0x5B] = .ok (.andc (.i8 0x00) .br, []) ∧
    decode [0x04, 0x02, 0x49] = .ok (.orc (.i8 0x02) .ccr, []) ∧
    decode [0x0C, 0xFF, 0xFF, 0x68] = .ok (.xorc (.i16 0xFFFF) .sr, []) ∧
    decode [0x00] = .ok (.nop, []) := by
  refine ⟨?_, ?_, ?_, ?_, ?_, ?_⟩ <;> rfl

/-- Encodings that the spec calls unassigned (R112, R113, R114). -/
theorem test_decode_unassigned :
    decode [0xA1, 0x92] = .error .unassigned ∧
    decode [0xD9, 0x00, 0x80] = .error .unassigned ∧
    decode [0xA0, 0x04, 0x01] = .error .unassigned ∧
    decode [0xA8, 0x17] = .error .unassigned ∧
    decode [0xA8, 0x00] = .error .unassigned ∧
    decode [0xD8, 0x00] = .error .unassigned ∧
    decode [0xA0, 0x00] = .error .truncated ∧
    decode [0x04, 0x00, 0x15] = .error .unassigned ∧
    decode [0x01, 0xA9, 0xFD] = .error .unassigned ∧
    decode [0x08, 0x03] = .error .unassigned ∧
    decode [0x04, 0x00, 0x99] = .error .unassigned := by
  refine ⟨?_, ?_, ?_, ?_, ?_, ?_, ?_, ?_, ?_, ?_, ?_⟩ <;> rfl

/-! ## Single steps

Where an entry or PJSR stacks a free value, memory behind it is no numeral and the tests look at the
registers only. -/

theorem test_movGLoad_V1 : after [0xD0, 0x81]
    (cpu [(.r0, 0x2000), (.r1, 0xFFFF)] 0x000B [])
    (fun t => (t.reg .r1, nzvc t, t.pc)) =
    some (0xFF00, 0b0101, 0x0102) := by decide

theorem test_movGStore_V5 : after [0xB7, 0x90]
    (cpu [(.r0, 0x00AB), (.r7, 0xFE00)] 0x0000 [])
    (fun t => (t.reg .r7, t.mem.read 0xFDFE, nzvc t, t.pc)) =
    some (0xFDFE, 0xAB, 0b1000, 0x0102) := by decide

theorem test_movGStore_V6 : after [0xB3, 0x90]
    (cpu [(.r0, 0x00AB), (.r3, 0x3000)] 0x0000 [])
    (fun t => (t.reg .r3, t.mem.read 0x2FFF, nzvc t, t.pc)) =
    some (0x2FFF, 0xAB, 0b1000, 0x0102) := by decide

theorem test_movGLoad_V8 : after [0xFB, 0x12, 0x34, 0x80]
    (cpu [(.r3, 0xF000)] 0x0000 [(0x0235, 0x42)])
    (fun t => (t.reg .r0, nzvc t, t.pc)) =
    some (0x0042, 0b0000, 0x0104) := by decide

theorem test_movGImm8_V12 : after [0xD4, 0x06, 0x80]
    (cpu [(.r4, 0x4000)] 0x0001 [])
    (fun t => (t.mem.read 0x4000, nzvc t, t.pc)) =
    some (0x80, 0b1001, 0x0103) := by decide

theorem test_movGImm16_V13 : after [0xBF, 0x07, 0x12, 0x34]
    (cpu [(.r7, 0xFE00)] 0x0000 [])
    (fun t => (t.reg .r7, t.mem.word 0xFDFE, nzvc t, t.pc)) =
    some (0xFDFE, 0x1234, 0b0000, 0x0104) := by decide

theorem test_movGImm8_V14 : after [0xDC, 0x06, 0x7F]
    (cpu [(.r4, 0x4000)] 0x0000 [])
    (fun t => (t.mem.word 0x4000, nzvc t, t.pc)) =
    some (0x007F, 0b0000, 0x0103) := by decide

theorem test_movE_V16 : after [0x52, 0x00]
    (cpu [(.r2, 0xAB12)] 0x000B [])
    (fun t => (t.reg .r2, nzvc t, t.pc)) =
    some (0xAB00, 0b0101, 0x0102) := by decide

theorem test_movI_V17 : after [0x59, 0x80, 0x00]
    (cpu [] 0x0007 [])
    (fun t => (t.reg .r1, nzvc t, t.pc)) =
    some (0x8000, 0b1001, 0x0103) := by decide

theorem test_movS_V20 : after [0x71, 0xFF]
    { cpu [(.r1, 0x0180)] 0x0000 [] with br := 0x12 }
    (fun t => (t.mem.read 0x12FF, nzvc t, t.pc)) =
    some (0x80, 0b1000, 0x0102) := by decide

theorem test_movFLoad_V21 : after [0x80, 0x80]
    (cpu [(.r0, 0x1100), (.r6, 0x0040)] 0x0000 [(0xFFC0, 0x01)])
    (fun t => (t.reg .r0, nzvc t, t.pc)) =
    some (0x1101, 0b0000, 0x0102) := by decide

theorem test_movFStore_V22 : after [0x9F, 0x00]
    (cpu [(.r6, 0xF000), (.r7, 0xFE00)] 0x0000 [])
    (fun t => (t.mem.word 0xF000, nzvc t, t.pc)) =
    some (0xFE00, 0b1000, 0x0102) := by decide

theorem test_ldm_V23 : after [0x02, 0x45]
    (cpu [(.r7, 0xFE00)] 0x000F [(0xFE00, 0xAA), (0xFE01, 0xAA), (0xFE02, 0xBB), (0xFE03, 0xBB), (0xFE04, 0xCC), (0xFE05, 0xCC)])
    (fun t => (t.reg .r0, t.reg .r2, t.reg .r6, t.reg .r7, nzvc t, t.pc)) =
    some (0xAAAA, 0xBBBB, 0xCCCC, 0xFE06, 0b1111, 0x0102) := by decide

theorem test_stm_V24 : after [0x12, 0x45]
    (cpu [(.r0, 0xAAAA), (.r2, 0xBBBB), (.r6, 0xCCCC), (.r7, 0xFE06)] 0x0000 [])
    (fun t => (t.reg .r7, t.mem.word 0xFE00, t.mem.word 0xFE02, t.mem.word 0xFE04, nzvc t, t.pc)) =
    some (0xFE00, 0xAAAA, 0xBBBB, 0xCCCC, 0b0000, 0x0102) := by decide

theorem test_ldm_V27 : after [0x02, 0x81]
    { cpu [(.r7, 0xFE00)] 0x0000 [(0xFE00, 0x11), (0xFE01, 0x11), (0xFE02, 0x99), (0xFE03, 0x99)] with params := { plainParams with ldmR7 := .discard } }
    (fun t => (t.reg .r0, t.reg .r7, nzvc t, t.pc)) =
    some (0x1111, 0xFE04, 0b0000, 0x0102) := by decide

theorem test_xch_V30 : after [0xAB, 0x93]
    (cpu [(.r3, 0x1234)] 0x000F [])
    (fun t => (nzvc t, t.pc)) =
    some (0b1111, 0x0102) := by decide

theorem test_swap_V32 : after [0xA0, 0x10]
    (cpu [(.r0, 0x00FF)] 0x0001 [])
    (fun t => (t.reg .r0, nzvc t, t.pc)) =
    some (0xFF00, 0b0101, 0x0102) := by decide

theorem test_swap_V33 : after [0xA0, 0x10]
    { cpu [(.r0, 0x00FF)] 0x0001 [] with params := { plainParams with swapScope := .word } }
    (fun t => (t.reg .r0, nzvc t, t.pc)) =
    some (0xFF00, 0b1001, 0x0102) := by decide

theorem test_movtpe_V34 : after [0x15, 0xF0, 0x00, 0x00, 0x90]
    (cpu [(.r0, 0x0180)] 0x0005 [])
    (fun t => (t.mem.read 0xF000, nzvc t, t.pc)) =
    some (0x80, 0b0101, 0x0105) := by decide

theorem test_movfpe_V35 : after [0xC1, 0x00, 0x80]
    (cpu [(.r0, 0xFF00), (.r1, 0x8000)] 0x0008 [])
    (fun t => (t.reg .r1, nzvc t, t.pc)) =
    some (0x8001, 0b1000, 0x0103) := by decide

theorem test_addG_V38 : after [0xA1, 0x20]
    (cpu [(.r0, 0x0080), (.r1, 0x0080)] 0x0000 [])
    (fun t => (t.reg .r0, nzvc t, t.pc)) =
    some (0x0000, 0b0111, 0x0102) := by decide

theorem test_addG_V40 : after [0xA9, 0x20]
    (cpu [(.r0, 0x7FFF), (.r1, 0x7FFF)] 0x0000 [])
    (fun t => (t.reg .r0, nzvc t, t.pc)) =
    some (0xFFFE, 0b1010, 0x0102) := by decide

theorem test_addQ_V47 : after [0xA0, 0x0C]
    { cpu [(.r0, 0x1200)] 0x0000 [] with params := { plainParams with addqNegC := .borrow } }
    (fun t => (t.reg .r0, nzvc t, t.pc)) =
    some (0x12FF, 0b1001, 0x0102) := by decide

theorem test_addQ_V49 : after [0xD9, 0x0D]
    { cpu [(.r1, 0x3000)] 0x0000 [(0x3000, 0x80), (0x3001, 0x01)] with params := { plainParams with addqNegC := .borrow } }
    (fun t => (t.mem.word 0x3000, nzvc t, t.pc)) =
    some (0x7FFF, 0b0010, 0x0102) := by decide

theorem test_adds_V51 : after [0x04, 0x7F, 0x28]
    (cpu [(.r0, 0xFFFF)] 0x000A [])
    (fun t => (t.reg .r0, nzvc t, t.pc)) =
    some (0x007E, 0b1010, 0x0103) := by decide

theorem test_adds_V52 : after [0xA1, 0x28]
    (cpu [(.r0, 0x0100), (.r1, 0x1280)] 0x0000 [])
    (fun t => (t.reg .r0, nzvc t, t.pc)) =
    some (0x0080, 0b0000, 0x0102) := by decide

theorem test_addx_V54 : after [0xA9, 0xA0]
    (cpu [(.r0, 0xFFFF), (.r1, 0x0000)] 0x0001 [])
    (fun t => (t.reg .r0, nzvc t, t.pc)) =
    some (0x0000, 0b0001, 0x0102) := by decide

theorem test_addx_V56 : after [0xA1, 0xA0]
    (cpu [(.r0, 0x007F), (.r1, 0x0000)] 0x0005 [])
    (fun t => (t.reg .r0, nzvc t, t.pc)) =
    some (0x0080, 0b1010, 0x0102) := by decide

theorem test_dadd_V57 : after [0xA1, 0x00, 0xA0]
    (cpu [(.r0, 0x0099), (.r1, 0x0001)] 0x000E [])
    (fun t => (t.reg .r0, nzvc t, t.pc)) =
    some (0x0000, 0b1111, 0x0103) := by decide

theorem test_dadd_V58 : after [0xA1, 0x00, 0xA0]
    (cpu [(.r0, 0xAB19), (.r1, 0x0028)] 0x0001 [])
    (fun t => (t.reg .r0, nzvc t, t.pc)) =
    some (0xAB48, 0b0000, 0x0103) := by decide

theorem test_sub_V60 : after [0x04, 0x01, 0x30]
    (cpu [(.r0, 0x0080)] 0x0000 [])
    (fun t => (t.reg .r0, nzvc t, t.pc)) =
    some (0x007F, 0b0010, 0x0103) := by decide

theorem test_sub_V61 : after [0xA9, 0x30]
    (cpu [(.r0, 0x8000), (.r1, 0x0001)] 0x0000 [])
    (fun t => (t.reg .r0, nzvc t, t.pc)) =
    some (0x7FFF, 0b0010, 0x0102) := by decide

theorem test_subs_V63 : after [0xA1, 0x38]
    (cpu [(.r0, 0x0000), (.r1, 0x00FF)] 0x0004 [])
    (fun t => (t.reg .r0, nzvc t, t.pc)) =
    some (0x0001, 0b0100, 0x0102) := by decide

theorem test_subx_V64 : after [0xA9, 0xB0]
    (cpu [(.r0, 0x0001), (.r1, 0x0000)] 0x0005 [])
    (fun t => (t.reg .r0, nzvc t, t.pc)) =
    some (0x0000, 0b0100, 0x0102) := by decide

theorem test_subx_V65 : after [0xA9, 0xB0]
    (cpu [(.r0, 0x8000), (.r1, 0x0000)] 0x0001 [])
    (fun t => (t.reg .r0, nzvc t, t.pc)) =
    some (0x7FFF, 0b0010, 0x0102) := by decide

theorem test_dsub_V66 : after [0xA1, 0x00, 0xB0]
    (cpu [(.r0, 0x0000), (.r1, 0x0001)] 0x0004 [])
    (fun t => (t.reg .r0, nzvc t, t.pc)) =
    some (0x0099, 0b0001, 0x0103) := by decide

theorem test_dsub_V67 : after [0xA1, 0x00, 0xB0]
    (cpu [(.r0, 0x0050), (.r1, 0x0025)] 0x0005 [])
    (fun t => (t.reg .r0, nzvc t, t.pc)) =
    some (0x0024, 0b0000, 0x0103) := by decide

theorem test_mulxu_V68 : after [0xD2, 0xA8]
    (cpu [(.r0, 0xFF10), (.r2, 0x2000)] 0x0003 [(0x2000, 0x10)])
    (fun t => (t.reg .r0, nzvc t, t.pc)) =
    some (0x0100, 0b0000, 0x0102) := by decide

theorem test_mulxu_V70 : after [0x0C, 0x01, 0x00, 0xAA]
    (cpu [(.r2, 0xDEAD), (.r3, 0x1234)] 0x0000 [])
    (fun t => (t.reg .r2, t.reg .r3, nzvc t, t.pc)) =
    some (0x0012, 0x3400, 0b0000, 0x0104) := by decide

theorem test_divxu_V73 : after [0xA1, 0xB8]
    (cpu [(.r0, 0x0005), (.r1, 0x000A)] 0x0003 [])
    (fun t => (t.reg .r0, nzvc t, t.pc)) =
    some (0x0500, 0b0100, 0x0102) := by decide

theorem test_divxu_V78 : after [0x0C, 0x80, 0x00, 0xB8]
    (cpu [(.r0, 0x7FFF), (.r1, 0xFFFF)] 0x0000 [])
    (fun t => (nzvc t, t.pc)) =
    some (0b1000, 0x0104) := by decide

theorem test_cmpG_V81 : after [0xA1, 0x70]
    (cpu [(.r0, 0x0000), (.r1, 0x0080)] 0x0000 [])
    (fun t => (nzvc t, t.pc)) =
    some (0b1011, 0x0102) := by decide

theorem test_cmpG_V82 : after [0xC9, 0x70]
    (cpu [(.r0, 0x0010), (.r1, 0x2000)] 0x0000 [(0x2001, 0x10)])
    (fun t => (t.reg .r1, nzvc t, t.pc)) =
    some (0x2002, 0b0100, 0x0102) := by decide

theorem test_cmpGImm_V83 : after [0xD8, 0x05, 0x80, 0x00]
    (cpu [(.r0, 0x2000)] 0x0000 [(0x2000, 0x7F), (0x2001, 0xFF)])
    (fun t => (nzvc t, t.pc)) =
    some (0b1011, 0x0104) := by decide

theorem test_cmpE_V85 : after [0x40, 0xFF]
    (cpu [(.r0, 0x00FF)] 0x0000 [])
    (fun t => (nzvc t, t.pc)) =
    some (0b0100, 0x0102) := by decide

theorem test_cmpI_V86 : after [0x48, 0x80, 0x00]
    (cpu [(.r0, 0x7FFF)] 0x0000 [])
    (fun t => (nzvc t, t.pc)) =
    some (0b1011, 0x0103) := by decide

theorem test_exts_V87 : after [0xA1, 0x11]
    (cpu [(.r1, 0xFF7F)] 0x000F [])
    (fun t => (t.reg .r1, nzvc t, t.pc)) =
    some (0x007F, 0b0000, 0x0102) := by decide

theorem test_exts_V88 : after [0xA1, 0x11]
    (cpu [(.r1, 0xFF00)] 0x0000 [])
    (fun t => (t.reg .r1, nzvc t, t.pc)) =
    some (0x0000, 0b0100, 0x0102) := by decide

theorem test_extu_V89 : after [0xA1, 0x12]
    (cpu [(.r1, 0xFF00)] 0x000B [])
    (fun t => (t.reg .r1, nzvc t, t.pc)) =
    some (0x0000, 0b0100, 0x0102) := by decide

theorem test_tst_V90 : after [0xA0, 0x16]
    (cpu [(.r0, 0x0080)] 0x0007 [])
    (fun t => (nzvc t, t.pc)) =
    some (0b1000, 0x0102) := by decide

theorem test_neg_V92 : after [0xA0, 0x14]
    { cpu [(.r0, 0x0080)] 0x0000 [] with params := { plainParams with negV := .overflow } }
    (fun t => (nzvc t, t.pc)) =
    some (0b1011, 0x0102) := by decide

theorem test_neg_V94 : after [0xD9, 0x14]
    (cpu [(.r1, 0x2000)] 0x0000 [(0x2001, 0x01)])
    (fun t => (t.mem.word 0x2000, nzvc t, t.pc)) =
    some (0xFFFF, 0b1001, 0x0102) := by decide

theorem test_clr_V95 : after [0xC1, 0x13]
    (cpu [(.r1, 0x2000)] 0x000B [(0x2000, 0xFF)])
    (fun t => (t.reg .r1, t.mem.read 0x2000, nzvc t, t.pc)) =
    some (0x2001, 0x00, 0b0100, 0x0102) := by decide

theorem test_tas_V96 : after [0xA0, 0x17]
    (cpu [(.r0, 0x1280)] 0x0003 [])
    (fun t => (nzvc t, t.pc)) =
    some (0b1000, 0x0102) := by decide

theorem test_shal_V98 : after [0xA0, 0x18]
    (cpu [(.r0, 0x5581)] 0x0000 [])
    (fun t => (t.reg .r0, nzvc t, t.pc)) =
    some (0x5502, 0b0011, 0x0102) := by decide

theorem test_shal_V100 : after [0xA8, 0x18]
    (cpu [(.r0, 0xC000)] 0x0003 [])
    (fun t => (t.reg .r0, nzvc t, t.pc)) =
    some (0x8000, 0b1001, 0x0102) := by decide

theorem test_shar_V102 : after [0xA0, 0x19]
    (cpu [(.r0, 0x5581)] 0x0000 [])
    (fun t => (t.reg .r0, nzvc t, t.pc)) =
    some (0x55C0, 0b1001, 0x0102) := by decide

theorem test_shar_V105 : after [0xD9, 0x19]
    (cpu [(.r1, 0x2000)] 0x0001 [(0x2001, 0x01)])
    (fun t => (t.mem.word 0x2000, nzvc t, t.pc)) =
    some (0x0000, 0b0101, 0x0102) := by decide

theorem test_shll_V106 : after [0xA0, 0x1A]
    (cpu [(.r0, 0x5581)] 0x0000 [])
    (fun t => (t.reg .r0, nzvc t, t.pc)) =
    some (0x5502, 0b0001, 0x0102) := by decide

theorem test_shll_V108 : after [0xA8, 0x1A]
    (cpu [(.r0, 0xC000)] 0x0003 [])
    (fun t => (t.reg .r0, nzvc t, t.pc)) =
    some (0x8000, 0b1001, 0x0102) := by decide

theorem test_shlr_V110 : after [0xA0, 0x1B]
    (cpu [(.r0, 0x5581)] 0x0000 [])
    (fun t => (t.reg .r0, nzvc t, t.pc)) =
    some (0x5540, 0b0001, 0x0102) := by decide

theorem test_shlr_V112 : after [0xA8, 0x1B]
    (cpu [(.r0, 0xC000)] 0x0003 [])
    (fun t => (t.reg .r0, nzvc t, t.pc)) =
    some (0x6000, 0b0000, 0x0102) := by decide

theorem test_rotl_V114 : after [0xA0, 0x1C]
    (cpu [(.r0, 0x5581)] 0x0000 [])
    (fun t => (t.reg .r0, nzvc t, t.pc)) =
    some (0x5503, 0b0001, 0x0102) := by decide

theorem test_rotl_V116 : after [0xA8, 0x1C]
    (cpu [(.r0, 0xC000)] 0x0003 [])
    (fun t => (t.reg .r0, nzvc t, t.pc)) =
    some (0x8001, 0b1001, 0x0102) := by decide

theorem test_rotr_V118 : after [0xA0, 0x1D]
    (cpu [(.r0, 0x5581)] 0x0000 [])
    (fun t => (t.reg .r0, nzvc t, t.pc)) =
    some (0x55C0, 0b1001, 0x0102) := by decide

theorem test_rotr_V120 : after [0xA8, 0x1D]
    (cpu [(.r0, 0xC000)] 0x0003 [])
    (fun t => (t.reg .r0, nzvc t, t.pc)) =
    some (0x6000, 0b0000, 0x0102) := by decide

theorem test_rotxl_V122 : after [0xA0, 0x1E]
    (cpu [(.r0, 0x5581)] 0x0000 [])
    (fun t => (t.reg .r0, nzvc t, t.pc)) =
    some (0x5502, 0b0001, 0x0102) := by decide

theorem test_rotxl_V125 : after [0xD9, 0x1E]
    (cpu [(.r1, 0x2000)] 0x0001 [(0x2001, 0x01)])
    (fun t => (t.mem.word 0x2000, nzvc t, t.pc)) =
    some (0x0003, 0b0000, 0x0102) := by decide

theorem test_rotxr_V126 : after [0xA0, 0x1F]
    (cpu [(.r0, 0x5581)] 0x0000 [])
    (fun t => (t.reg .r0, nzvc t, t.pc)) =
    some (0x5540, 0b0001, 0x0102) := by decide

theorem test_rotxr_V127 : after [0xA0, 0x1F]
    (cpu [(.r0, 0x0081)] 0x0001 [])
    (fun t => (t.reg .r0, nzvc t, t.pc)) =
    some (0x00C0, 0b1001, 0x0102) := by decide

theorem test_and_V130 : after [0xD9, 0x50]
    (cpu [(.r0, 0xFF00), (.r1, 0x2000)] 0x0003 [(0x2000, 0x8F), (0x2001, 0x0F)])
    (fun t => (t.reg .r0, nzvc t, t.pc)) =
    some (0x8F00, 0b1001, 0x0102) := by decide

theorem test_and_V131 : after [0xA1, 0x50]
    (cpu [(.r0, 0xAB0F), (.r1, 0x00F0)] 0x0009 [])
    (fun t => (t.reg .r0, nzvc t, t.pc)) =
    some (0xAB00, 0b0101, 0x0102) := by decide

theorem test_or_V132 : after [0x04, 0x80, 0x40]
    (cpu [(.r0, 0x1201)] 0x0003 [])
    (fun t => (t.reg .r0, nzvc t, t.pc)) =
    some (0x1281, 0b1001, 0x0103) := by decide

theorem test_xor_V134 : after [0xA0, 0x60]
    (cpu [(.r0, 0x12FF)] 0x000A [])
    (fun t => (t.reg .r0, nzvc t, t.pc)) =
    some (0x1200, 0b0100, 0x0102) := by decide

theorem test_xor_V135 : after [0x0C, 0xFF, 0xFF, 0x60]
    (cpu [(.r0, 0x7FFF)] 0x0001 [])
    (fun t => (t.reg .r0, nzvc t, t.pc)) =
    some (0x8000, 0b1001, 0x0104) := by decide

theorem test_not_V136 : after [0xA8, 0x15]
    (cpu [(.r0, 0x0000)] 0x0003 [])
    (fun t => (t.reg .r0, nzvc t, t.pc)) =
    some (0xFFFF, 0b1001, 0x0102) := by decide

theorem test_not_V137 : after [0xD1, 0x15]
    (cpu [(.r1, 0x2000)] 0x0000 [(0x2000, 0x0F)])
    (fun t => (t.mem.read 0x2000, nzvc t, t.pc)) =
    some (0xF0, 0b1000, 0x0102) := by decide

theorem test_bsetImm_V139 : after [0xA0, 0xC7]
    (cpu [(.r0, 0x0000)] 0x000B [])
    (fun t => (t.reg .r0, nzvc t, t.pc)) =
    some (0x0080, 0b1111, 0x0102) := by decide

theorem test_bsetImm_V141 : after [0xD9, 0xC8]
    (cpu [(.r1, 0x2000)] 0x0000 [])
    (fun t => (t.mem.word 0x2000, nzvc t, t.pc)) =
    some (0x0100, 0b0100, 0x0102) := by decide

theorem test_bsetReg_V143 : after [0xA8, 0x4A]
    (cpu [(.r0, 0x0000), (.r2, 0xFFF4)] 0x0000 [])
    (fun t => (t.reg .r0, nzvc t, t.pc)) =
    some (0x0010, 0b0100, 0x0102) := by decide

theorem test_bclrImm_V144 : after [0xA8, 0xDF]
    (cpu [(.r0, 0xFFFF)] 0x0000 [])
    (fun t => (t.reg .r0, nzvc t, t.pc)) =
    some (0x7FFF, 0b0000, 0x0102) := by decide

theorem test_bclrReg_V145 : after [0xD2, 0x59]
    (cpu [(.r1, 0x0000), (.r2, 0x2000)] 0x0000 [(0x2000, 0xFE)])
    (fun t => (t.mem.read 0x2000, nzvc t, t.pc)) =
    some (0xFE, 0b0100, 0x0102) := by decide

theorem test_btstImm_V146 : after [0xD0, 0xF0]
    (cpu [(.r0, 0x2000)] 0x0004 [(0x2000, 0x01)])
    (fun t => (nzvc t, t.pc)) =
    some (0b0000, 0x0102) := by decide

theorem test_btstReg_V147 : after [0xA8, 0x79]
    (cpu [(.r0, 0x7FFF), (.r1, 0x000F)] 0x0000 [])
    (fun t => (nzvc t, t.pc)) =
    some (0b0100, 0x0102) := by decide

theorem test_bnotImm_V148 : after [0xA8, 0xE0]
    (cpu [(.r0, 0xFFFE)] 0x000B [])
    (fun t => (t.reg .r0, nzvc t, t.pc)) =
    some (0xFFFF, 0b1111, 0x0102) := by decide

theorem test_bnotReg_V149 : after [0xA0, 0x69]
    (cpu [(.r0, 0x00FF), (.r1, 0x0007)] 0x0000 [])
    (fun t => (t.reg .r0, nzvc t, t.pc)) =
    some (0x007F, 0b0000, 0x0102) := by decide

theorem test_bcc_V155 : after [0x23, 0x10]
    (cpu [] 0x0000 [])
    (fun t => (nzvc t, t.pc)) =
    some (0b0000, 0x0102) := by decide

theorem test_bcc_V156 : after [0x3C, 0xFF, 0x00]
    { cpu [] 0x000A [] with pc := 0x0080 }
    (fun t => (nzvc t, t.pc)) =
    some (0b1010, 0xFF83) := by decide

theorem test_jmp_V161 : after [0x11, 0xE1, 0xFE]
    (cpu [(.r1, 0x4000)] 0x0000 [])
    (fun t => (nzvc t, t.pc)) =
    some (0b0000, 0x3FFE) := by decide

theorem test_jmp_V162 : after [0x11, 0xF1, 0x80, 0x00]
    (cpu [(.r1, 0x9000)] 0x0000 [])
    (fun t => (nzvc t, t.pc)) =
    some (0b0000, 0x1000) := by decide

theorem test_pjmp_V165 : after [0x11, 0xC2]
    { cpu [(.r2, 0xAB05), (.r3, 0x8000)] 0x0000 [] with cp := 0x01, params := { plainParams with maxMode := true } }
    (fun t => (t.cp, nzvc t, t.pc)) =
    some (0x05, 0b0000, 0x8000) := by decide

theorem test_bsr_V167 : after [0x1E, 0xFF, 0xFD]
    (cpu [(.r7, 0xFE00)] 0x0000 [])
    (fun t => (t.reg .r7, t.mem.word 0xFDFE, nzvc t, t.pc)) =
    some (0xFDFE, 0x0103, 0b0000, 0x0100) := by decide

theorem test_jsr_V169 : after [0x18, 0x40, 0x00]
    (cpu [(.r7, 0xFE00)] 0x0000 [])
    (fun t => (t.reg .r7, t.mem.word 0xFDFE, nzvc t, t.pc)) =
    some (0xFDFE, 0x0103, 0b0000, 0x4000) := by decide

theorem test_jsr_V172 : after [0x11, 0xDF]
    (cpu [(.r7, 0xFE00)] 0x0000 [])
    (fun t => (t.reg .r7, t.mem.word 0xFDFE, nzvc t, t.pc)) =
    some (0xFDFE, 0x0102, 0b0000, 0xFE00) := by decide

theorem test_pjsr_V173 : after [0x11, 0xCA]
    { cpu [(.r2, 0x0002), (.r3, 0x1000), (.r7, 0xFE00)] 0x0000 [] with cp := 0x01, tp := 0x0F, params := { plainParams with maxMode := true } }
    (fun t => (t.reg .r7, t.cp, nzvc t, t.pc)) =
    some (0xFDFC, 0x02, 0b0000, 0x1000) := by decide

theorem test_rts_V174 : after [0x19]
    (cpu [(.r7, 0xFFFE)] 0x0000 [(0xFFFE, 0x12), (0xFFFF, 0x34)])
    (fun t => (t.reg .r7, nzvc t, t.pc)) =
    some (0x0000, 0b0000, 0x1234) := by decide

theorem test_rtd_V175 : after [0x14, 0xFE]
    (cpu [(.r7, 0xFDFE)] 0x0000 [(0xFDFE, 0x02)])
    (fun t => (nzvc t, t.pc)) =
    some (0b0000, 0x0200) := by decide

theorem test_rtd_V176 : after [0x1C, 0x01, 0x00]
    (cpu [(.r7, 0xFDFE)] 0x0000 [(0xFDFE, 0x02)])
    (fun t => (t.reg .r7, nzvc t, t.pc)) =
    some (0xFF00, 0b0000, 0x0200) := by decide

theorem test_prtd_V177 : after [0x11, 0x1C, 0x00, 0x04]
    { cpu [(.r7, 0xFDFC)] 0x0000 [(0xFDFC, 0xFF), (0xFDFD, 0x01), (0xFDFE, 0x01), (0xFDFF, 0x04)] with cp := 0x02, params := { plainParams with maxMode := true } }
    (fun t => (t.reg .r7, t.cp, nzvc t, t.pc)) =
    some (0xFE04, 0x01, 0b0000, 0x0104) := by decide

theorem test_scb_V179 : after [0x01, 0xB9, 0xFD]
    (cpu [(.r1, 0x0000)] 0x0000 [])
    (fun t => (t.reg .r1, nzvc t, t.pc)) =
    some (0xFFFF, 0b0000, 0x0103) := by decide

theorem test_scb_V184 : after [0x07, 0xBA, 0xF0]
    (cpu [(.r2, 0xFFFF)] 0x0000 [])
    (fun t => (t.reg .r2, nzvc t, t.pc)) =
    some (0xFFFE, 0b0000, 0x00F3) := by decide

theorem test_trapa_V186 : after [0x08, 0x10]
    (cpu [(.r7, 0xFE00)] 0x870A [(0x0020, 0x50)])
    (fun t => (t.reg .r7, t.sr)) =
    some (0xFDFC, 0x070A) := by decide

theorem test_trapa_V187 : after [0x08, 0x1F]
    { cpu [(.r7, 0xFE00)] 0x0001 [(0x007D, 0x05), (0x007E, 0x60)] with cp := 0x03, tp := 0x01, params := { plainParams with maxMode := true } }
    (fun t => (t.reg .r7, t.sr)) =
    some (0xFDFA, 0x0001) := by decide

theorem test_trapvs_V189 : after [0x09]
    (cpu [] 0x000D [])
    (fun t => (nzvc t, t.pc)) =
    some (0b1101, 0x0101) := by decide

theorem test_trapvs_V191 : after [0x09]
    { cpu [(.r7, 0xFE00)] 0x0002 [(0x0008, 0x70)] with params := { plainParams with vecTrapVS := some 4 } }
    (fun t => (t.reg .r7, t.sr)) =
    some (0xFDFC, 0x0002) := by decide

theorem test_rte_V192 : after [0x0A]
    (cpu [(.r7, 0xFDFC)] 0x0000 [(0xFDFC, 0x87), (0xFDFD, 0x0F), (0xFDFE, 0x02)])
    (fun t => (t.reg .r7, t.sr, t.pc)) =
    some (0xFE00, 0x870F, 0x0200) := by decide

theorem test_rte_V193 : after [0x0A]
    { cpu [(.r7, 0xFDFA)] 0x0000 [(0xFDFB, 0x04), (0xFDFC, 0xAA), (0xFDFD, 0x02), (0xFDFE, 0x02)] with cp := 0x09, params := { plainParams with maxMode := true } }
    (fun t => (t.reg .r7, t.cp, t.sr, t.pc)) =
    some (0xFE00, 0x02, 0x0004, 0x0200) := by decide

theorem test_link_V195 : after [0x1F, 0xFF, 0x00]
    (cpu [(.r6, 0xAAAA), (.r7, 0xFE00)] 0x0000 [])
    (fun t => (t.reg .r6, t.reg .r7, t.mem.word 0xFDFE, nzvc t, t.pc)) =
    some (0xFDFE, 0xFCFE, 0xAAAA, 0b0000, 0x0103) := by decide

theorem test_link_V197 : after [0x17, 0xFF]
    (cpu [(.r6, 0xAAAA), (.r7, 0xFE00)] 0x0000 [])
    (fun t => (t.reg .r6, t.reg .r7, t.mem.word 0xFDFE, nzvc t, t.pc)) =
    some (0xFDFE, 0xFDFD, 0xAAAA, 0b0000, 0x0102) := by decide

theorem test_unlk_V198 : after [0x0F]
    (cpu [(.r6, 0xFDFE), (.r7, 0xFD00)] 0x0000 [(0xFDFE, 0xAA), (0xFDFF, 0xAA)])
    (fun t => (t.reg .r6, t.reg .r7, nzvc t, t.pc)) =
    some (0xAAAA, 0xFE00, 0b0000, 0x0101) := by decide

theorem test_sleep_V200 : after [0x1A]
    (cpu [] 0x000F [])
    (fun t => (nzvc t, t.pc, t.asleep)) =
    some (0b1111, 0x0101, true) := by decide

theorem test_nop_V201 : after [0x00]
    (cpu [] 0x000F [])
    (fun t => (nzvc t, t.pc)) =
    some (0b1111, 0x0101) := by decide

theorem test_ldc_V203 : after [0xA1, 0x89]
    (cpu [(.r1, 0xFF05)] 0x0700 [])
    (fun t => (t.sr, t.pc)) =
    some (0x0705, 0x0102) := by decide

theorem test_ldc_V204 : after [0xC0, 0x8D]
    { cpu [(.r0, 0x2000)] 0x000A [(0x2000, 0x04)] with dp := 0x00, params := { plainParams with maxMode := true } }
    (fun t => (t.reg .r0, t.dp, nzvc t, t.pc)) =
    some (0x2001, 0x04, 0b1010, 0x0102) := by decide

theorem test_stc_V210 : after [0xBF, 0x98]
    (cpu [(.r7, 0xFE00)] 0x0705 [])
    (fun t => (t.reg .r7, t.sr, t.pc)) =
    some (0xFDFE, 0x0705, 0x0102) := by decide

theorem test_stc_V211 : after [0xA0, 0x9B]
    { cpu [(.r0, 0x1234)] 0x000F [] with br := 0xFE }
    (fun t => (t.reg .r0, nzvc t, t.pc)) =
    some (0x12FE, 0b1111, 0x0102) := by decide

theorem test_andc_V214 : after [0x04, 0x00, 0x5B]
    { cpu [] 0x000F [] with br := 0xFF }
    (fun t => (t.br, nzvc t, t.pc)) =
    some (0x00, 0b1111, 0x0103) := by decide

theorem test_andc_V215 : after [0x04, 0xF0, 0x59]
    (cpu [] 0x070F [])
    (fun t => (t.sr, t.pc)) =
    some (0x0700, 0x0103) := by decide

theorem test_orc_V216 : after [0x04, 0x02, 0x49]
    (cpu [] 0x0000 [])
    (fun t => (t.sr, t.pc)) =
    some (0x0002, 0x0103) := by decide

theorem test_orc_V217 : after [0x0C, 0x80, 0x00, 0x48]
    (cpu [] 0x0004 [])
    (fun t => (t.sr, t.pc)) =
    some (0x8004, 0x0104) := by decide

theorem test_xorc_V218 : after [0x0C, 0xFF, 0xFF, 0x68]
    (cpu [] 0x0705 [])
    (fun t => (t.sr, t.pc)) =
    some (0xF8FA, 0x0104) := by decide

theorem test_xorc_V219 : after [0x04, 0xFF, 0x6D]
    { cpu [] 0x0000 [] with dp := 0x0F }
    (fun t => (t.dp, nzvc t, t.pc)) =
    some (0xF0, 0b0000, 0x0103) := by decide

theorem test_movL_R138 : after [0x61, 0x10]
    { cpu [(.r1, 0x1200)] 0x0000 [(0xFF10, 0x7F)] with br := 0xFF }
    (fun t => (t.reg .r1, nzvc t, t.pc)) =
    some (0x127F, 0b0000, 0x0102) := by decide

theorem test_prts_R265 : after [0x11, 0x19]
    { cpu [(.r7, 0xFDFC)] 0x0000 [(0xFDFD, 0x01), (0xFDFE, 0x01), (0xFDFF, 0x04)] with
      cp := 0x02, params := { plainParams with maxMode := true } }
    (fun t => (t.cp, t.pc, t.reg .r7)) =
    some (0x01, 0x0104, 0xFE00) := by decide

/-- Whether a result is the refusal of a store into the prefetch window. -/
def storeRefused : Result → Bool
  | .refused .storeInPrefetchWindow => true
  | _ => false

/-- R70, U17: a store to the first and to the last byte of the window H'0102 to H'0107, a word that ends in it
and a pushed return address in it are refused. -/
theorem test_store_in_window_R70 :
    storeRefused (step (cpu [(.r0, 0x0102)] 0 [(0x0100, 0xD0), (0x0101, 0x93)])) = true ∧
    storeRefused (step (cpu [(.r0, 0x0107)] 0 [(0x0100, 0xD0), (0x0101, 0x93)])) = true ∧
    storeRefused (step (cpu [(.r0, 0x0106)] 0 [(0x0100, 0xD8), (0x0101, 0x93)])) = true ∧
    storeRefused (step (cpu [(.r7, 0x0104)] 0 [(0x0100, 0x0E), (0x0101, 0x10)])) = true := by
  refine ⟨?_, ?_, ?_, ?_⟩ <;> rfl

/-- R70: the bytes on either side of the window are stored to. -/
theorem test_store_beside_window_R70 :
    after [0xD0, 0x93] (cpu [(.r0, 0x0101), (.r3, 0x1212)] 0 []) (fun t => (t.mem.read 0x0101, t.pc)) =
      some (0x12, 0x0102) ∧
    after [0xD0, 0x93] (cpu [(.r0, 0x0108), (.r3, 0x1212)] 0 []) (fun t => (t.mem.read 0x0108, t.pc)) =
      some (0x12, 0x0102) := by
  refine ⟨?_, ?_⟩ <;> rfl

/-! ## Witnesses

For every statement with hypotheses a concrete state and operands that meet them, clause by clause, at the
boundary of a range where there is one. -/

/-- A CPU in minimum mode with an even SP, FP and R0, an odd R1, mask 3 and C set. -/
def plain : State :=
  cpu [(.r0, 0x2000), (.r1, 0x2001), (.r2, 0x00FF), (.r3, 0x1234), (.r4, 0x4000), (.r6, 0xFD00), (.r7, 0xFE00)]
    0x0301 [(0x2000, 0x80), (0x2001, 0x7F), (0xFE00, 0x12), (0xFE01, 0x34)]

/-- The same in maximum mode. -/
def paged : State := { plain with params := { plainParams with maxMode := true }, cp := 0x01, dp := 0x02 }

/-- The same with a vector for every exception. -/
def handled : State :=
  { plain with
    params := { plainParams with
      vecInvalid := some 2, vecZeroDiv := some 3, vecTrapVS := some 4, vecAddrErr := some 8 } }

/-- A state with its SP moved to an odd address. -/
def oddSP (s : State) : State := s.setReg .r7 0xFE01

/-- A state with its SP at an address. -/
def atSP (sp : Word) (s : State) : State := s.setReg .r7 sp

/-- Whether none of the bytes lies in the prefetch window. -/
def clear (s : State) (npc : Word) (l : List Nat) : Bool := l.all fun a => !{ s with pc := npc }.inWindow a

/-- `storable` in a form that evaluates. -/
theorem storable_iff (s : State) (npc : Word) (l : List Nat) :
    s.storable npc l ↔ s.params.windowStore = .track ∨ clear s npc l = true := by
  refine or_congr Iff.rfl ?_
  simp only [clear, List.all_eq_true, Bool.not_eq_true', ← Bool.not_eq_true, inWindow_iff]
  rfl

theorem not_storable {s : State} {npc : Word} {l : List Nat} (hr : s.params.windowStore = .refuse)
    (h : clear s npc l = false) : ¬s.storable npc l := by
  simp [storable_iff, hr, h]

/-- Whether the operand behind an instruction's EA field, `n` bytes before its end, can be accessed. -/
def readable (sz : Size) (ea : EA) (n : Nat) (s : State) : Bool :=
  let p := resolve sz ea (s.advance (eaLen ea + n))
  p.2.canAccess p.1 sz

/-- The addresses of its bytes. -/
def target (sz : Size) (ea : EA) (n : Nat) (s : State) : List Nat :=
  let p := resolve sz ea (s.advance (eaLen ea + n))
  p.2.bytesAt p.1 sz

/-- The value of that operand. -/
def operand (sz : Size) (ea : EA) (s : State) : BitVec sz.bits :=
  let p := resolve sz ea (s.advance (eaLen ea + 1))
  p.2.valueAt p.1 sz

/-- The shortest and the longest instruction. -/
theorem witness_DecodeOfEncode :
    Instr.nop.wellFormed = true ∧ (Instr.cmpGImm (.i16 0x8000) (.disp16 0x1234 .r5)).wellFormed = true ∧
      Instr.nop.length = 1 ∧ (Instr.cmpGImm (.i16 0x8000) (.disp16 0x1234 .r5)).length = 6 := by decide

theorem witness_DecodeOnlyEncodings :
    decode [0xD0, 0x21, 0xFF] = .ok (.addG .b (.ind .r0) .r1, [0xFF]) := rfl

theorem witness_UnassignedFirstBytes :
    ∀ b ∈ [(0x0B : Byte), 0x16, 0x1B], b = 0x0B ∨ b = 0x16 ∨ b = 0x1B := by decide

theorem witness_StepRunsDecoded :
    let s := plain.placeInstruction [0xD0, 0x21]
    s.asleep = false ∧ s.nextIrq = none ∧
      decode s.fetched = .ok (.addG .b (.ind .r0) .r1, [0x00, 0x00, 0x00, 0x00]) := ⟨rfl, rfl, rfl⟩

/-- The longest instruction in the last six bytes below H'10000. -/
theorem witness_StepRunsInstructionInMemory :
    let i := Instr.cmpGImm (.i16 0x8001) (.disp16 0x1234 .r5)
    let s := { plain with pc := 0xFFFA }.placeInstruction (encode i)
    i.wellFormed = true ∧ s.asleep = false ∧ s.nextIrq = none ∧ s.pc.toNat + i.length = 65536 ∧
      ∀ k (h : k < (encode i).length),
        s.mem.read (s.phys .code (s.pc + BitVec.ofNat 16 k)) = (encode i)[k] ∧
        s.phys .code (s.pc + BitVec.ofNat 16 k) ∉ s.stale := by decide

theorem witness_UnassignedBytesRaise :
    (∀ s ∈ [plain, handled, oddSP handled],
      let t := s.placeInstruction [0x0B]
      t.asleep = false ∧ t.nextIrq = none) ∧
    decode (plain.placeInstruction [0x0B]).fetched = .error .unassigned ∧
    decode (handled.placeInstruction [0x0B]).fetched = .error .unassigned ∧
    decode ((oddSP handled).placeInstruction [0x0B]).fetched = .error .unassigned ∧
    plain.params.vecInvalid = none ∧ handled.params.vecInvalid = some 2 ∧
    handled.sp.toNat % 2 = 0 ∧ (oddSP handled).sp.toNat % 2 = 1 :=
  ⟨by decide, rfl, rfl, rfl, rfl, rfl, rfl, rfl⟩

/-- The frame of the same entry beside the prefetch window and, by one word, in it. -/
theorem witness_UnassignedBytesRaise_frame :
    ((atSP 0x0100 handled).placeInstruction [0x0B]).storable 0x0100
      ((atSP 0x0100 handled).placeInstruction [0x0B]).frameBytes ∧
    ¬((atSP 0x0102 handled).placeInstruction [0x0B]).storable 0x0100
      ((atSP 0x0102 handled).placeInstruction [0x0B]).frameBytes ∧
    decode ((atSP 0x0100 handled).placeInstruction [0x0B]).fetched = .error .unassigned ∧
    decode ((atSP 0x0102 handled).placeInstruction [0x0B]).fetched = .error .unassigned :=
  ⟨(storable_iff ..).mpr (.inr rfl), not_storable rfl rfl, rfl, rfl⟩

/-- The first, and the last, byte of the longest instruction stale; a two-byte instruction at H'FFFF and the
longest one a byte too high; a store to the first and to the last byte of the window that is tracked; a jump, and
the branches both ways, with a stale byte. -/
theorem witness_FetchRefusals :
    (let i := Instr.cmpGImm (.i16 0x8001) (.disp16 0x1234 .r5)
     ∀ e ∈ [(0, 0x0100), (5, 0x0105)],
       let s := { plain.placeInstruction (encode i) with stale := [e.2] }
       i.wellFormed = true ∧ s.asleep = false ∧ s.nextIrq = none ∧ e.1 < i.length ∧ s.pc.toNat + e.1 < 65536 ∧
         (∀ k (h : k < (encode i).length), k < e.1 →
           s.mem.read (s.phys .code (s.pc + BitVec.ofNat 16 k)) = (encode i)[k] ∧
           s.phys .code (s.pc + BitVec.ofNat 16 k) ∉ s.stale) ∧
         s.phys .code (s.pc + BitVec.ofNat 16 e.1) ∈ s.stale) ∧
    (∀ e ∈ [((0xFFFF : Word), Instr.addG .b (.ind .r0) .r1), (0xFFFB, .cmpGImm (.i16 0x8001) (.disp16 0x1234 .r5))],
      let i := e.2
      let s := { plain with
        pc := e.1
        mem := placeBytes { plain with mem := [] } e.1.toNat ((encode i).take (65536 - e.1.toNat)) }
      i.wellFormed = true ∧ s.asleep = false ∧ s.nextIrq = none ∧ s.stale = [] ∧
        65536 < s.pc.toNat + i.length ∧
        ∀ k (h : k < (encode i).length), s.pc.toNat + k < 65536 →
          s.mem.read (s.phys .code (s.pc + BitVec.ofNat 16 k)) = (encode i)[k]) ∧
    (∀ e ∈ [(0, 0x0102), (5, 0x0107)],
      let i := Instr.movGStore .b .r3 (.ind .r0)
      let s := { plain with stale := [0x0100], params := { plainParams with windowStore := .track } }.setReg .r0 (BitVec.ofNat 16 e.2)
      mayTransfer i = false ∧ s.params.vecZeroDiv = none ∧ s.params.vecTrapVS = none ∧
        s.params.vecAddrErr = none ∧ answers (exec i s) = true ∧ s.mem.read e.2 = 0 ∧
        (s.valueAt (.reg .r3) .b : Byte) ≠ 0 ∧ e.1 < s.params.prefetchWindow ∧
        e.2 = s.phys .code (s.npc i + BitVec.ofNat 16 e.1)) ∧
    (let s := { plain with stale := [0x0105] }
     mayTransfer (.jmp (.ind .r0)) = true ∧ (∀ i ∈ [Instr.jmp (.ind .r0), .bcc .bra (.d8 2), .bcc .brn (.d8 2),
       .scb .f .r0 2, .scb .eq .r0 2], answers (exec i s) = true)) := by decide

/-- The same statement where stores into the window are refused: a store that completes, beside the window on
either side of it. -/
theorem witness_FetchRefusals_refuse :
    plain.params.windowStore = .refuse ∧
      answers (exec (.movGStore .b .r3 (.ind .r0)) (plain.setReg .r0 0x0101)) = true ∧
      answers (exec (.movGStore .b .r3 (.ind .r0)) (plain.setReg .r0 0x0108)) = true := ⟨rfl, rfl, rfl⟩

/-- Its clause about the general format: the first and the last byte and word of the window. -/
theorem witness_FetchRefusals_general :
    (∀ s ∈ [plain.setReg .r0 0x0102, plain.setReg .r0 0x0107],
      EA.isMem (.ind .r0) = true ∧ overlaps (.ind .r0) [.r3] = false ∧ (s.reg .r1).toNat % 16 < 8 ∧
        ctrlAllowed .br .b = true ∧ readable .b (.ind .r0) 1 s = true ∧
        ∀ i ∈ [Instr.movGStore .b .r3 (.ind .r0), .bsetReg .b .r1 (.ind .r0), .bnotImm .b 7 (.ind .r0),
            .stc .b .br (.ind .r0)], ¬s.storable (s.npc i) (target .b (.ind .r0) 1 s)) ∧
    ∀ s ∈ [plain.setReg .r0 0x0102, plain.setReg .r0 0x0106],
      readable .w (.ind .r0) 1 s = true ∧ ¬s.storable (s.npc (.not .w (.ind .r0))) (target .w (.ind .r0) 1 s) := by
  simp only [storable_iff]
  decide

/-- Its clause about MOV:S and MOV:F: the last word of the window. -/
theorem witness_FetchRefusals_short :
    ∀ s ∈ [{ plain with br := 0x01 }.setReg .r6 0x0106],
      s.canAccess (.mem .zero (s.br ++ (0x06 : Byte))) .w = true ∧
        ¬s.storable (s.npc (.movS .w .r3 6)) (s.bytesAt (.mem .zero (s.br ++ (0x06 : Byte))) .w) ∧
        s.canAccess (.mem .stack (s.reg .r6 + BitVec.ofInt 16 (0 : Byte).toInt)) .w = true ∧
        ¬s.storable (s.npc (.movFStore .w .r3 0))
          (s.bytesAt (.mem .stack (s.reg .r6 + BitVec.ofInt 16 (0 : Byte).toInt)) .w) := by
  simp only [storable_iff]
  decide

/-- Its clause about pushes: the first and the last word of the window; the second word of PJSR and the last one
of STM alone in it. -/
theorem witness_FetchRefusals_push :
    (∀ s ∈ [atSP 0x0104 plain, atSP 0x0108 plain],
      s.sp.toNat % 2 = 0 ∧ ¬s.storable (s.npc (.bsr (.d8 0))) (s.stackBytes (-2))) ∧
    (∀ s ∈ [{ atSP 0x010A paged with tp := 0x01 }],
      s.sp.toNat % 2 = 0 ∧ s.params.maxMode = true ∧ (s.pageTarget (.ind .r2)).isSome = true ∧
        s.storable (s.npc (.pjsr (.ind .r2))) (s.stackBytes (-2)) ∧
        ¬s.storable (s.npc (.pjsr (.ind .r2))) (s.stackBytes (-2) ++ s.stackBytes (-4))) ∧
    ∀ s ∈ [atSP 0x0114 plain],
      (0x7F : Byte).getLsbD 7 = false ∧ 6 < (listedRegs 0x7F).length ∧
        ¬s.storable (s.npc (.stm 0x7F)) (s.stackBytes (-BitVec.ofNat 16 (2 * 6 + 2))) := by
  simp only [storable_iff]
  decide

/-- The mask is 3: level 3 waits, level 4 and a request that cannot be masked are taken; the frame beside the
prefetch window and in it (`storable_iff`, `not_storable`). -/
theorem witness_InterruptEntry :
    (∀ q ∈ [(⟨32, 4, true⟩ : Irq), ⟨11, 0, false⟩],
      let before : List Irq := [⟨33, 3, true⟩]
      let s := { plain with irq := before ++ q :: [⟨34, 7, true⟩], asleep := true }
      (∀ r ∈ before, r.maskable = true ∧ r.level ≤ s.intMask) ∧
        (q.maskable = false ∨ s.intMask < q.level) ∧ s.sp.toNat % 2 = 0 ∧ clear s s.pc s.frameBytes = true ∧
        (atSP 0x0108 s).params.windowStore = .refuse ∧ clear (atSP 0x0108 s) s.pc (atSP 0x0108 s).frameBytes = false) ∧
    ∀ r ∈ [(⟨33, 3, true⟩ : Irq)], r.maskable = true ∧ r.level ≤ plain.intMask := by decide

theorem witness_MemoryLaws :
    Memory.wf [(0, 1)] = true ∧ addressLimit - 1 < addressLimit ∧
      (∀ a, Memory.read [(0, 1)] a = Memory.read (Memory.write [] 0 1) a) :=
  ⟨by decide, by decide, fun _ => rfl⟩

theorem witness_StepKeepsWellFormed :
    let s := plain.placeInstruction [0xD8, 0x13]
    s.wf = true ∧ answers (step s) = true := by decide

theorem witness_StepKeepsParams : answers (step (plain.placeInstruction [0x00])) = true := by decide

theorem witness_MinimumModeConfined :
    let s := plain.placeInstruction [0x19]
    s.params.maxMode = false ∧ answers (step s) = true := by decide

theorem witness_ControlStateWriters :
    answers (exec (.bsr (.d8 0x10)) plain) = true ∧ writesControl (.bsr (.d8 0x10)) = false ∧
      writesCP (.bsr (.d8 0x10)) = false ∧ (Instr.bsr (.d8 0x10)) ≠ .rte ∧ (Instr.bsr (.d8 0x10)) ≠ .sleep ∧
      plain.params.vecZeroDiv = none ∧ plain.params.vecTrapVS = none ∧ plain.params.vecAddrErr = none := by decide

theorem witness_FlagWriters :
    (answers (exec .nop plain) = true ∧ keepsFlags .nop = true) ∧
    (answers (exec (.bsetImm .b 7 (.reg .r0)) plain) = true ∧ writesOnlyZ (.bsetImm .b 7 (.reg .r0)) = true) ∧
    answers (exec (.dadd .r0 .r3) plain) = true ∧ writesOnlyZC (.dadd .r0 .r3) = true := by decide

theorem witness_TrapaEntry :
    (∀ s ∈ [plain, paged, handled, atSP 0x0102 plain, atSP 0x010C plain],
      s.sp.toNat % 2 = 0 ∧ s.storable (s.npc (.trapa 15)) s.frameBytes) ∧
    ∀ s ∈ [atSP 0x0104 plain, atSP 0x010A plain],
      s.sp.toNat % 2 = 0 ∧ ¬s.storable (s.npc (.trapa 15)) s.frameBytes := by
  simp only [storable_iff]
  decide

theorem witness_TrapVsBothWays :
    plain.flagV = false ∧
    (let s := { plain with sr := 0x0302 }
     s.flagV = true ∧ s.params.vecTrapVS = none) ∧
    let s := { handled with sr := 0x0302 }
    s.flagV = true ∧ s.params.vecTrapVS = some 4 ∧ s.sp.toNat % 2 = 0 ∧ (oddSP s).sp.toNat % 2 = 1 ∧
      s.storable (s.npc .trapvs) s.frameBytes ∧ ¬(atSP 0x0102 s).storable (s.npc .trapvs) (atSP 0x0102 s).frameBytes := by
  simp only [storable_iff]
  decide

theorem witness_RteResult :
    plain.sp.toNat % 2 = 0 ∧ plain.params.maxMode = false ∧
      paged.sp.toNat % 2 = 0 ∧ paged.params.maxMode = true := by decide

theorem witness_TrapaThenRte :
    ∀ s ∈ [plain, paged],
      s.wf = true ∧ s.sp.toNat % 2 = 0 ∧ s.storable (s.npc (.trapa 0)) s.frameBytes := by
  simp only [storable_iff]
  decide

/-- R5 is 0: the divisor of both sizes. -/
theorem witness_ZeroDivideEntry :
    (∀ s ∈ [plain, handled, oddSP handled],
      overlaps (.reg .r5) [.r0] = false ∧ pairLow? .r0 = some .r1 ∧ overlaps (.reg .r5) [.r0, .r1] = false ∧
        readable .b (.reg .r5) 1 s = true ∧ operand .b (.reg .r5) s = 0 ∧
        readable .w (.reg .r5) 1 s = true ∧ operand .w (.reg .r5) s = 0) ∧
    plain.params.vecZeroDiv = none ∧ handled.params.vecZeroDiv = some 3 ∧
    handled.sp.toNat % 2 = 0 ∧ (oddSP handled).sp.toNat % 2 = 1 ∧
    (∀ sz ∈ [Size.b, .w], handled.storable (handled.npc (.divxu sz (.reg .r5) .r0)) handled.frameBytes) ∧
    (∀ sz ∈ [Size.b, .w], let s := atSP 0x0108 handled
      ¬s.storable (s.npc (.divxu sz (.reg .r5) .r0)) s.frameBytes) := by
  simp only [storable_iff]
  decide

theorem witness_OddWordOperand :
    (∀ s ∈ [plain, handled, oddSP handled],
      let p := resolve .w (.ind .r1) s
      EA.isMem (.ind .r1) = true ∧ overlaps (.ind .r1) [.r0] = false ∧ pairLow? .r2 = some .r3 ∧
        overlaps (.ind .r1) [.r2, .r3] = false ∧ p.2.canAccess p.1 .w = false ∧
        s.canAccess (.mem .zero (s.br ++ (0x11 : Byte))) .w = false ∧
        s.canAccess (.mem .stack (s.reg .r6 + BitVec.ofInt 16 (0xFF : Byte).toInt)) .w = false) ∧
    plain.params.vecAddrErr = none ∧ handled.params.vecAddrErr = some 8 ∧
    handled.sp.toNat % 2 = 0 ∧ (oddSP handled).sp.toNat % 2 = 1 ∧
    (let i := Instr.addG .w (.ind .r1) .r0
     handled.storable (handled.npc i) handled.frameBytes ∧
       ¬(atSP 0x0108 handled).storable (handled.npc i) (atSP 0x0108 handled).frameBytes) := by
  simp only [storable_iff]
  decide

theorem witness_OddStackPointer :
    (∀ s ∈ [oddSP plain, oddSP paged, oddSP handled], s.sp.toNat % 2 = 1) ∧
    (oddSP paged).params.maxMode = true ∧ ((oddSP paged).pageTarget (.ind .r6)).isSome = true ∧
    (0x7F : Byte) ≠ 0 ∧ (0x7F : Byte).getLsbD 7 = false ∧
    { oddSP plain with irq := [⟨32, 4, true⟩] }.nextIrq ≠ none ∧
    ((plain.setReg .r6 0xFD01).reg .r6).toNat % 2 = 1 ∧ ((handled.setReg .r6 0xFD01).reg .r6).toNat % 2 = 1 := by
  decide

theorem witness_MovLoadResult :
    overlaps (.postInc .r0) [.r1] = false ∧ readable .w (.postInc .r0) 1 plain = true ∧
      readable .b (.ind .r1) 1 plain = true := by decide

theorem witness_MovStoreResult :
    plain.wf = true ∧ EA.isMem (.preDec .r0) = true ∧ overlaps (.preDec .r0) [.r1] = false ∧
      readable .w (.preDec .r0) 1 plain = true ∧ readable .b (.preDec .r0) 2 plain = true ∧
      readable .w (.preDec .r0) 3 plain = true ∧
      plain.storable (plain.npc (.movGStore .w .r1 (.preDec .r0))) (target .w (.preDec .r0) 1 plain) ∧
      plain.storable (plain.npc (.movGImm8 .b 0x80 (.preDec .r0))) (target .b (.preDec .r0) 2 plain) ∧
      plain.storable (plain.npc (.movGImm16 1 (.preDec .r0))) (target .w (.preDec .r0) 3 plain) := by
  simp only [storable_iff]
  decide

theorem witness_MovShortMemoryResult :
    plain.wf = true ∧ plain.canAccess (.mem .zero (plain.br ++ (0xFE : Byte))) .w = true ∧
      plain.canAccess (.mem .stack (plain.reg .r6 + BitVec.ofInt 16 (0x80 : Byte).toInt)) .w = true ∧
      plain.storable (plain.npc (.movS .w .r0 0xFE)) (plain.bytesAt (.mem .zero (plain.br ++ (0xFE : Byte))) .w) ∧
      plain.storable (plain.npc (.movFStore .w .r0 0x80))
        (plain.bytesAt (.mem .stack (plain.reg .r6 + BitVec.ofInt 16 (0x80 : Byte).toInt)) .w) := by
  simp only [storable_iff]
  decide

/-- The fullest list of each form. -/
theorem witness_LdmStmResult :
    plain.wf = true ∧ plain.sp.toNat % 2 = 0 ∧ (0x7F : Byte).getLsbD 7 = false ∧
      { plainParams with ldmR7 := .discard }.ldmR7 = .discard ∧ (listedRegs 0xFF).length = 8 ∧
      (listedRegs 0x7F).length = 7 ∧
      (∀ k, k < (listedRegs 0x7F).length →
        plain.storable (plain.npc (.stm 0x7F)) (plain.stackBytes (-BitVec.ofNat 16 (2 * k + 2)))) := by
  simp only [storable_iff]
  decide

theorem witness_StmThenLdm :
    plain.wf = true ∧ plain.sp.toNat % 2 = 0 ∧ (0x7F : Byte).getLsbD 7 = false ∧
      (∀ k, k < (listedRegs 0x7F).length →
        plain.storable (plain.npc (.stm 0x7F)) (plain.stackBytes (-BitVec.ofNat 16 (2 * k + 2)))) ∧
      ∃ g : Regs, g.get .r7 = 0xFDF2 :=
  have w := witness_LdmStmResult
  ⟨w.1, w.2.1, w.2.2.1, w.2.2.2.2.2.2, ⟨0, 0, 0, 0, 0, 0, 0, 0xFDF2⟩, rfl⟩

theorem witness_SwapResult :
    plain.params.swapScope = .byte ∧ { plainParams with swapScope := .word }.swapScope = .word := by decide

theorem witness_PeripheralMoveResult :
    plain.wf = true ∧ EA.isMem (.postInc .r1) = true ∧ overlaps (.postInc .r1) [.r0] = false ∧
      plain.storable (plain.npc (.movtpe .r0 (.postInc .r1))) (target .b (.postInc .r1) 2 plain) := by
  simp only [storable_iff]
  decide

theorem witness_AddSubtractResult :
    overlaps (.preDec .r0) [.r2] = false ∧ readable .w (.preDec .r0) 1 plain = true := by decide

theorem witness_AddsSubsResult :
    overlaps (.imm8 0x80) [.r2] = false ∧ readable .b (.imm8 0x80) 1 plain = true := by decide

theorem witness_AddQuickResult :
    plain.wf = true ∧ EA.isDest (.postInc .r0) = true ∧ readable .w (.postInc .r0) 1 plain = true ∧
      plain.storable (plain.npc (.addQ .w .plus2 (.postInc .r0))) (target .w (.postInc .r0) 1 plain) ∧
      0 < quickValue .plus2 ∧ quickValue .minus2 < 0 ∧
      { plainParams with addqNegC := .borrow }.addqNegC = .borrow ∧
      { plainParams with addqNegC := .add }.addqNegC = .add := by
  simp only [storable_iff]
  decide

/-- The largest and the smallest pair of decimal bytes. -/
theorem witness_DecimalResult :
    ∀ s ∈ [(plain.setReg .r0 0x1200).setReg .r3 0x1200, (plain.setReg .r0 0x1299).setReg .r3 0x1299],
      isDecimal (loByte (s.reg .r3)) = true ∧ isDecimal (loByte (s.reg .r0)) = true := by decide

theorem witness_MulxuResult :
    overlaps (.ind .r1) [.r2] = false ∧ pairLow? .r2 = some .r3 ∧
      overlaps (.postInc .r0) [.r2, .r3] = false ∧ readable .w (.postInc .r0) 1 plain = true := by decide

/-- Divisors H'80 and H'7F against upper halves H'7F and H'80, on both sides of the overflow. -/
theorem witness_DivxuResult :
    let lo := plain.setReg .r2 0x7F00
    let hi := plain.setReg .r2 0x80FF
    overlaps (.ind .r0) [.r2] = false ∧ operand .b (.ind .r0) lo ≠ 0 ∧
      hiByte (lo.reg .r2) < operand .b (.ind .r0) lo ∧ operand .b (.ind .r0) hi ≤ hiByte (hi.reg .r2) ∧
      pairLow? .r2 = some .r3 ∧ overlaps (.ind .r0) [.r2, .r3] = false ∧ readable .w (.ind .r0) 1 lo = true ∧
      operand .w (.ind .r0) lo ≠ 0 ∧ lo.reg .r2 < operand .w (.ind .r0) lo ∧
      operand .w (.ind .r0) hi ≤ hi.reg .r2 ∧
      { plainParams with divxuOvfDest := .unchanged }.divxuOvfDest = .unchanged := by decide

theorem witness_CompareResult :
    overlaps (.ind .r0) [.r2] = false ∧ readable .w (.ind .r0) 1 plain = true ∧ EA.isMem (.ind .r0) = true ∧
      readable .w (.ind .r0) 3 plain = true := by decide

theorem witness_TstNegClrTasResult :
    plain.wf = true ∧ EA.isDest (.preDec .r0) = true ∧ readable .w (.preDec .r0) 1 plain = true ∧
      (∀ i ∈ [Instr.neg .w (.preDec .r0), .clr .w (.preDec .r0)],
        plain.storable (plain.npc i) (target .w (.preDec .r0) 1 plain)) ∧
      plain.storable (plain.npc (.tas (.preDec .r0))) (target .b (.preDec .r0) 1 plain) := by
  simp only [storable_iff]
  decide

theorem witness_ShiftLeftResult :
    plain.wf = true ∧ EA.isDest (.ind .r0) = true ∧ readable .w (.ind .r0) 1 plain = true ∧
      ∀ i ∈ [Instr.shal .w (.ind .r0), .shll .w (.ind .r0), .rotl .w (.ind .r0), .rotxl .w (.ind .r0)],
        plain.storable (plain.npc i) (target .w (.ind .r0) 1 plain) := by
  simp only [storable_iff]
  decide

theorem witness_ShiftRightResult :
    plain.wf = true ∧ EA.isDest (.abs16 0x2001) = true ∧ readable .b (.abs16 0x2001) 1 plain = true ∧
      ∀ i ∈ [Instr.shar .b (.abs16 0x2001), .shlr .b (.abs16 0x2001), .rotr .b (.abs16 0x2001),
          .rotxr .b (.abs16 0x2001)],
        plain.storable (plain.npc i) (target .b (.abs16 0x2001) 1 plain) := by
  simp only [storable_iff]
  decide

theorem witness_LogicResult :
    overlaps (.postInc .r0) [.r2] = false ∧ readable .w (.postInc .r0) 1 plain = true ∧ plain.wf = true ∧
      EA.isDest (.postInc .r0) = true ∧
      plain.storable (plain.npc (.not .w (.postInc .r0))) (target .w (.postInc .r0) 1 plain) := by
  simp only [storable_iff]
  decide

/-- The highest bit of each size, in the register form the low 4 bits of R2 = H'00FF and R5 = 0. -/
theorem witness_BitResult :
    plain.wf = true ∧ EA.isDest (.ind .r0) = true ∧ readable .b (.ind .r0) 1 plain = true ∧
      readable .w (.ind .r0) 1 plain = true ∧ (7 : BitVec 4).toNat < Size.b.bits ∧
      (15 : BitVec 4).toNat < Size.w.bits ∧ overlaps (.ind .r0) [.r2] = false ∧
      (plain.reg .r2).toNat % 16 = (15 : BitVec 4).toNat ∧ overlaps (.ind .r0) [.r5] = false ∧
      (plain.reg .r5).toNat % 16 = (0 : BitVec 4).toNat ∧
      ∀ i ∈ [Instr.bsetImm .w 15 (.ind .r0), .bclrImm .w 15 (.ind .r0), .bnotImm .w 15 (.ind .r0),
          .bsetReg .w .r2 (.ind .r0), .bclrReg .w .r2 (.ind .r0), .bnotReg .w .r2 (.ind .r0)],
        plain.storable (plain.npc i) (target .w (.ind .r0) 1 plain) := by
  simp only [storable_iff]
  decide

theorem witness_ConditionsAfterCompare :
    overlaps (.ind .r0) [.r2] = false ∧ readable .w (.ind .r0) 1 plain = true := by decide

theorem witness_PageJumpResult :
    paged.wf = true ∧ paged.params.maxMode = true ∧ nextReg? .r6 = some .r7 ∧
      loByte (paged.reg .r6) = 0x00 ∧ paged.reg .r7 = 0xFE00 ∧ paged.sp.toNat % 2 = 0 ∧
      ∀ g ∈ [PageEA.ind .r6, .abs24 0x02 0x1000],
        paged.storable (paged.npc (.pjsr g)) (paged.stackBytes (-2) ++ paged.stackBytes (-4)) := by
  simp only [storable_iff]
  decide

theorem witness_CallResult :
    plain.wf = true ∧ plain.sp.toNat % 2 = 0 ∧
      ∀ i ∈ [Instr.bsr (.d8 0xFE), .bsr (.d16 2), .jsr (.abs16 0x4000), .jsr (.ind .r0), .jsr (.disp8 1 .r0),
          .jsr (.disp16 1 .r0)],
        plain.storable (plain.npc i) (plain.stackBytes (-2)) := by
  simp only [storable_iff]
  decide

theorem witness_ReturnResult :
    plain.sp.toNat % 2 = 0 ∧ paged.sp.toNat % 2 = 0 ∧ paged.params.maxMode = true := by decide

theorem witness_CallThenReturn :
    plain.wf = true ∧ plain.sp.toNat % 2 = 0 ∧ paged.wf = true ∧ paged.sp.toNat % 2 = 0 ∧
      paged.params.maxMode = true ∧ (paged.pageTarget (.ind .r6)).isSome = true ∧
      (∀ i ∈ [Instr.bsr (.d8 0xFE), .jsr (.ind .r0)], plain.storable (plain.npc i) (plain.stackBytes (-2))) ∧
      paged.storable (paged.npc (.pjsr (.ind .r6))) (paged.stackBytes (-2) ++ paged.stackBytes (-4)) := by
  simp only [storable_iff]
  decide

theorem witness_LinkUnlkResult :
    plain.wf = true ∧ plain.sp.toNat % 2 = 0 ∧ (plain.reg .r6).toNat % 2 = 0 ∧
      plain.storable (plain.npc (.link (.i16 0xFF00))) (plain.stackBytes (-2)) := by
  simp only [storable_iff]
  decide

theorem witness_SleepNopResult :
    let s := { plain with asleep := true, irq := [⟨32, 3, true⟩] }
    s.asleep = true ∧ s.nextIrq = none := by decide

theorem witness_ControlWriteResult :
    readable .w (.ind .r0) 1 plain = true ∧ readable .b (.imm8 0x01) 1 plain = true ∧
      CtrlReg.tp ∈ [CtrlReg.ccr, .br, .ep, .dp, .tp] ∧ (Imm.i16 0xF8FF).size = .w ∧ (Imm.i8 0xFE).size = .b := by
  decide

theorem witness_ControlReadResult :
    plain.wf = true ∧ EA.isDest (.preDec .r7) = true ∧ readable .w (.preDec .r7) 1 plain = true ∧
      readable .b (.preDec .r7) 1 plain = true ∧ CtrlReg.br ∈ [CtrlReg.ccr, .br, .ep, .dp, .tp] ∧
      plain.storable (plain.npc (.stc .w .sr (.preDec .r7))) (target .w (.preDec .r7) 1 plain) ∧
      plain.storable (plain.npc (.stc .b .br (.preDec .r7))) (target .b (.preDec .r7) 1 plain) := by
  simp only [storable_iff]
  decide

/-- Bit numbers 8 and 15, every disallowed pair, both overlapping registers of a pair. -/
theorem witness_SpecRefusals :
    (∀ e ∈ [(CtrlReg.sr, Size.b), (.ccr, .w), (.none2, .b), (.none2, .w), (.br, .w), (.none6, .b), (.tp, .w)],
      ctrlAllowed e.1 e.2 = false) ∧
    ctrlAllowed .sr (Imm.i8 0).size = false ∧ pairLow? .r2 = some .r3 ∧ 8 ≤ (8 : BitVec 4).toNat ∧
    8 ≤ (15 : BitVec 4).toNat ∧ 8 ≤ (plain.reg .r2).toNat % 16 ∧ overlaps (.ind .r0) [.r2] = false ∧
    (0x80 : Byte).getLsbD 7 = true ∧ plain.params.ldmR7 = .refuse ∧ plain.params.maxMode = false ∧
    paged.params.maxMode = true ∧ Reg.r7 ∈ [Reg.r1, .r3, .r5, .r7] := by decide

end Sys2Proof.Tests
end

section
/-! PROOFS. What one step does, said once: which of its parts answers a next state, and that each of them is
`Sound`, so that a step keeps the parameters (spec/00_scope.md R6; spec/10_state.md R40). -/

namespace Sys2Proof.Machine

/-! ## What a step runs -/

/-- An awake CPU that takes no interrupt runs the instruction at the PC (R330, R294). -/
theorem step_awake {s : State} (ha : s.asleep = false) (hq : s.nextIrq = none) :
    step s = runInstruction s := by
  simp only [step, runStep, hq, ha, Bool.false_eq_true, if_false]

theorem runInstruction_decoded {s : State} {i : Instr} {rest : List Byte} (hd : decode s.fetched = .ok (i, rest)) :
    runInstruction s = exec i s := by
  simp only [runInstruction, hd]

/-- Settles O5: awake and without an interrupt a step is the instruction at the PC, which the fetched bytes
name. -/
theorem stepRunsDecoded : Obligations.StepRunsDecoded := by
  intro s i rest ha hq hd
  rw [step_awake ha hq, runInstruction_decoded hd]

/-- A step that answers a next state took an interrupt, ran an instruction, or entered InvalidInstruction. -/
theorem step_cases {s t : State} (h : step s = .next t) :
    (∃ q others, s.nextIrq = some (q, others) ∧ s.takeIrq q others = .next t) ∨
    (s.nextIrq = none ∧ s.asleep = false ∧
      ((∃ i rest, decode s.fetched = .ok (i, rest) ∧ exec i s = .next t) ∨
        (decode s.fetched = .error .unassigned ∧ s.raise .invalidInstruction = .next t))) := by
  cases hq : s.nextIrq with
  | some p =>
    obtain ⟨q, others⟩ := p
    rw [step, runStep, hq] at h
    exact .inl ⟨q, others, rfl, h⟩
  | none =>
    cases ha : s.asleep with
    | true => simp [step, runStep, hq, ha] at h
    | false =>
      rw [step_awake ha hq, runInstruction] at h
      refine .inr ⟨rfl, rfl, ?_⟩
      split at h
      next i rest hd => exact .inl ⟨i, rest, hd, h⟩
      next hd => exact .inr ⟨hd, h⟩
      next => cases h

/-- `sound_finish` with the equation first: it says which body there is to be sound. -/
theorem sound_of_finish {s t : State} {b : Body State} (h : finish b = .next t) (hb : b.sound s) : Sound s t :=
  sound_finish hb h

/-- A meaning that always completes. -/
theorem sound_of_next {s t u : State} (h : (.next u : Result) = .next t) (hu : Sound s u) : Sound s t := by
  cases h
  exact hu

/-! ## Bodies that write CP

In minimum mode CP stays (R35), so the steps of a body that write it are sound in maximum mode only. -/

/-- A body whose second part may use what the first part keeps. -/
theorem Body.sound.bind_sound {s : State} {b : Body State} {f : State → Body State} (hb : b.sound s)
    (hf : ∀ t, Sound s t → (f t).sound t) : Body.sound s (b >>= f) := by
  match b with
  | .ok t => exact (hf t hb).after hb
  | .error (.raised _ t) => exact hb
  | .error (.refuse _) => trivial

theorem sound_maxModeOnly {s : State} {b : Body State} (h : s.params.maxMode = true → b.sound s) :
    Body.sound s (maxModeOnly s b) := by
  cases hm : s.params.maxMode with
  | true => simpa [maxModeOnly, hm] using h hm
  | false => simp [maxModeOnly, hm, Body.sound]

theorem sound_pageJump {s : State} (hm : s.params.maxMode = true) (p : Byte × Word) : Sound s (s.pageJump p) :=
  (sound_setCP s p.1 hm).trans (sound_jump ..)

theorem sound_popCP {s : State} (hm : s.params.maxMode = true) : Body.sound s s.popCP :=
  sound_pop16 fun _ => sound_setCP (s.setReg .r7 (s.sp + 2)) _ hm

theorem sound_popPC (s : State) : Body.sound s s.popPC :=
  sound_pop16 fun _ => sound_jump ..

theorem sound_returnFromException (s : State) : Body.sound s s.returnFromException := by
  refine sound_pop16 fun v => ?_
  generalize s.setReg .r7 (s.sp + 2) = u
  have hsr : Sound u { u with sr := v } := .of_eq rfl rfl rfl rfl rfl
  refine Body.sound.after ?_ hsr
  by_cases hm : u.params.maxMode = true
  · simp only [hm, if_true]
    exact (sound_popCP (s := { u with sr := v }) hm).bind sound_popPC
  · simp only [hm, Bool.false_eq_true, if_false]
    exact sound_popPC _

/-! ## The other bodies -/

theorem sound_moveIn (sz : Size) (rd : Reg) (v : BitVec sz.bits) (s : State) : Sound s (moveIn sz rd v s) :=
  (sound_wr ..).trans (sound_setAlu ..)

theorem sound_addSP (s : State) (k : Imm) : Sound s (addSP s k) := sound_setReg ..

theorem sound_changeBit (sz : Size) (k : BitVec 4) (ea : EA) (s : State)
    (change : BitVec sz.bits → BitVec sz.bits → BitVec sz.bits) : Body.sound s (changeBit sz k ea s change) :=
  sound_refuseIf _ _ (sound_modify ..)

theorem sound_testBit (sz : Size) (k : BitVec 4) (ea : EA) (s : State) : Body.sound s (testBit sz k ea s) :=
  sound_refuseIf _ _ (sound_examine ..)

theorem sound_combineCtrl (imm : Imm) (cr : CtrlReg) (s : State) (op : Word → Word → Word) :
    Body.sound s (combineCtrl imm cr s op) :=
  sound_refuseIf _ _ ((sound_advance ..).trans (sound_setCtrl ..))

theorem sound_decimalInto (rs rd : Reg) (s : State) (op : Byte → Byte → Bool → Byte × Bool) :
    Sound s (decimalInto rs rd s op) := by
  refine (sound_advance s 3).trans ?_
  unfold decimalInto
  dsimp only
  split
  · exact (sound_wr ..).trans (sound_setNZVC ..)
  · exact ((sound_draw _).trans (sound_wr ..)).trans (sound_setNZVC ..)

theorem sound_mulxuByte (src : EA) (rd : Reg) (s : State) : Body.sound s (mulxuByte src rd s) :=
  sound_refuseIf _ _ <| Body.sound.after (sound_source fun _ =>
    ((sound_resolve ..).trans (sound_setReg ..)).trans (sound_setAlu ..)) (sound_advance ..)

theorem sound_mulxuWord (src : EA) (rd : Reg) (s : State) : Body.sound s (mulxuWord src rd s) := by
  unfold mulxuWord
  cases pairLow? rd with
  | none => trivial
  | some low =>
    exact sound_refuseIf _ _ <| Body.sound.after (sound_source fun _ =>
      (((sound_resolve ..).trans (sound_setReg ..)).trans (sound_setReg ..)).trans (sound_setAlu ..))
      (sound_advance ..)

theorem sound_divxuOverflowFlags (s : State) : Sound s (divxuOverflowFlags s) :=
  (sound_draw s).trans (sound_setNZVC ..)

theorem sound_divxuOverflowDest (s : State) (rd : Reg) : Sound s (divxuOverflowDest s rd) := by
  unfold divxuOverflowDest
  cases s.params.divxuOvfDest with
  | any => exact (sound_draw s).trans (sound_setReg ..)
  | unchanged => exact .refl s

theorem sound_divxuByte (src : EA) (rd : Reg) (s : State) : Body.sound s (divxuByte src rd s) := by
  refine sound_refuseIf _ _ <| Body.sound.after (sound_source fun v => ?_) (sound_advance s (eaLen src + 1))
  refine Body.sound.after ?_ (sound_resolve .b src (s.advance (eaLen src + 1)))
  dsimp only
  split
  · exact .refl _
  · split
    · exact (sound_divxuOverflowFlags _).trans (sound_divxuOverflowDest ..)
    · exact (sound_setReg ..).trans (sound_setAlu ..)

theorem sound_divxuWord (src : EA) (rd : Reg) (s : State) : Body.sound s (divxuWord src rd s) := by
  unfold divxuWord
  cases pairLow? rd with
  | none => trivial
  | some low =>
    refine sound_refuseIf _ _ <| Body.sound.after (sound_source fun v => ?_) (sound_advance s (eaLen src + 1))
    refine Body.sound.after ?_ (sound_resolve .w src (s.advance (eaLen src + 1)))
    dsimp only
    split
    · exact .refl _
    · split
      · exact ((sound_divxuOverflowFlags _).trans (sound_divxuOverflowDest ..)).trans (sound_divxuOverflowDest ..)
      · exact ((sound_setReg ..).trans (sound_setReg ..)).trans (sound_setAlu ..)

theorem sound_popRegs (l : List Reg) (s : State) : Body.sound s (popRegs l s) := by
  induction l generalizing s with
  | nil => exact .refl s
  | cons i rest ih =>
    refine sound_pop16 fun v => (ih _).after ?_
    split
    · exact .refl _
    · exact sound_setReg ..

theorem sound_pushRegs (l : List Reg) (s : State) : Body.sound s (pushRegs l s) := by
  induction l generalizing s with
  | nil => exact .refl s
  | cons i rest ih => exact (sound_push16 ..).bind ih

/-! ## Instructions with a body of their own -/

section
variable {s t : State}

theorem sound_execAddQ {sz : Size} {k : QuickImm} {dst : EA} (h : execAddQ sz k dst s = .next t) : Sound s t :=
  sound_of_finish h ((sound_modify ..).bind sound_draw)

theorem sound_execMulxu {sz : Size} {src : EA} {rd : Reg} (h : execMulxu sz src rd s = .next t) : Sound s t := by
  cases sz with
  | b => exact sound_of_finish h (sound_mulxuByte ..)
  | w => exact sound_of_finish h (sound_mulxuWord ..)

theorem sound_execDivxu {sz : Size} {src : EA} {rd : Reg} (h : execDivxu sz src rd s = .next t) : Sound s t := by
  cases sz with
  | b => exact sound_of_finish h (sound_divxuByte ..)
  | w => exact sound_of_finish h (sound_divxuWord ..)

theorem sound_execCmpGImm {imm : Imm} {dst : EA} (h : execCmpGImm imm dst s = .next t) : Sound s t := by
  cases imm with
  | i8 v => exact sound_of_finish h (sound_examine ..)
  | i16 v => exact sound_of_finish h (sound_examine ..)

theorem sound_execClr {sz : Size} {dst : EA} (h : execClr sz dst s = .next t) : Sound s t :=
  sound_of_finish h (Body.sound.after ((sound_st ..).bind fun _ => sound_setNZVC ..)
    ((sound_advance ..).trans (sound_resolve ..)))

theorem sound_execSwap {rd : Reg} (h : execSwap rd s = .next t) : Sound s t := by
  have swapped := (sound_advance s 2).trans (sound_setReg _ rd (loByte (s.reg rd) ++ hiByte (s.reg rd)))
  refine sound_of_next h (swapped.trans ?_)
  cases s.params.swapScope with
  | byte => exact sound_setAlu ..
  | word => exact sound_setAlu ..

theorem sound_execMovtpe {rs : Reg} {dst : EA} (h : execMovtpe rs dst s = .next t) : Sound s t :=
  sound_of_finish h (sound_refuseIf _ _ <|
    (sound_st ..).after ((sound_advance ..).trans (sound_resolve ..)))

theorem sound_execMovfpe {src : EA} {rd : Reg} (h : execMovfpe src rd s = .next t) : Sound s t :=
  sound_of_finish h (sound_refuseIf _ _ <| Body.sound.after
    (sound_source fun _ => (sound_resolve ..).trans (sound_wr ..)) (sound_advance ..))

theorem sound_execBcc {cond : Cond} {disp : Disp} (h : execBcc cond disp s = .next t) : Sound s t := by
  refine sound_of_next h ((sound_advance s (dispLen disp + 1)).trans ?_)
  split
  · exact sound_jump ..
  · exact .refl _

theorem sound_execScb {cond : ScbCond} {rn : Reg} {d : Byte} (h : execScb cond rn d s = .next t) : Sound s t := by
  refine sound_of_next h ((sound_advance s 3).trans ?_)
  split
  · exact .refl _
  · refine (sound_setReg _ rn (s.reg rn - 1)).trans ?_
    dsimp only
    split
    · exact .refl _
    · exact sound_jump ..

theorem sound_execPjmp {target : PageEA} (h : execPjmp target s = .next t) : Sound s t := by
  refine sound_of_finish h (sound_maxModeOnly fun hm => ?_)
  cases s.pageTarget target with
  | none => trivial
  | some p => exact sound_pageJump hm p

/-- The page of PJSR is written behind two pushes, which keep the operating mode. -/
theorem sound_execPjsr {target : PageEA} (h : execPjsr target s = .next t) : Sound s t := by
  refine sound_of_finish h (sound_maxModeOnly fun hm => ?_)
  cases s.pageTarget target with
  | none => trivial
  | some p =>
    refine Body.sound.after ?_ (sound_advance s (pageLen target))
    refine (sound_push16 ..).bind_sound fun v hv => (sound_pushCP v).bind_sound fun w hw => ?_
    exact sound_pageJump (by rw [hw.params, hv.params]; exact hm) p

theorem sound_execPrts (h : execPrts s = .next t) : Sound s t :=
  sound_of_finish h (sound_maxModeOnly fun hm =>
    Body.sound.after ((sound_popCP (s := s.advance 2) hm).bind sound_popPC) (sound_advance s 2))

theorem sound_execRtd {k : Imm} (h : execRtd k s = .next t) : Sound s t :=
  sound_of_finish h (Body.sound.after ((sound_popPC _).bind fun u => sound_addSP u k) (sound_advance s (immLen k + 1)))

theorem sound_execPrtd {k : Imm} (h : execPrtd k s = .next t) : Sound s t :=
  sound_of_finish h (sound_maxModeOnly fun hm => Body.sound.after
    ((sound_popCP (s := s.advance (immLen k + 2)) hm).bind fun u => (sound_popPC u).bind fun v => sound_addSP v k)
    (sound_advance s (immLen k + 2)))

theorem sound_execTrapa {v : BitVec 4} (h : execTrapa v s = .next t) : Sound s t :=
  sound_of_finish h (Body.sound.after ((sound_pushFrame ..).bind fun _ => sound_enterVector ..) (sound_advance s 2))

theorem sound_execTrapvs (h : execTrapvs s = .next t) : Sound s t := by
  refine sound_of_finish h ?_
  split
  · exact sound_advance s 1
  · exact sound_advance s 1

theorem sound_execLink {k : Imm} (h : execLink k s = .next t) : Sound s t :=
  sound_of_finish h (Body.sound.after ((sound_push16 ..).bind fun u =>
    (sound_setReg u .r6 u.sp).trans (sound_addSP _ k)) (sound_advance s (immLen k + 1)))

theorem sound_execUnlk (h : execUnlk s = .next t) : Sound s t :=
  sound_of_finish h (Body.sound.after (sound_pop16 fun _ => sound_setReg ..)
    ((sound_advance s 1).trans (sound_setReg _ .r7 (s.reg .r6))))

theorem sound_execSleep (h : execSleep s = .next t) : Sound s t :=
  sound_of_next h ((sound_advance s 1).trans (.of_eq rfl rfl rfl rfl rfl))

theorem sound_execLdc {sz : Size} {src : EA} {cr : CtrlReg} (h : execLdc sz src cr s = .next t) : Sound s t :=
  sound_of_finish h (sound_refuseIf _ _ <| Body.sound.after
    (sound_source fun _ => (sound_resolve ..).trans (sound_setCtrl ..)) (sound_advance ..))

theorem sound_execStc {sz : Size} {cr : CtrlReg} {dst : EA} (h : execStc sz cr dst s = .next t) : Sound s t :=
  sound_of_finish h (sound_refuseIf _ _ <| (sound_st ..).after
    (((sound_advance ..).trans (sound_resolve ..)).trans (sound_readCtrl ..)))

end

/-! ## Every instruction and every step -/

/-- An instruction that answers a next state is sound: by the shape it shares with others, or by its own body. -/
theorem sound_exec {i : Instr} {s t : State} (h : exec i s = .next t) : Sound s t := by
  cases i with
  -- the result of Rd and a source into Rd
  | movGLoad | addG | addx | sub | subx | and | or | xor => exact sound_of_finish h (sound_intoReg ..)
  | adds | subs => exact sound_of_finish h (sound_intoRegWord ..)
  -- an operand replaced
  | neg | tas | shal | shar | shll | shlr | rotl | rotr | rotxl | rotxr | not =>
    exact sound_of_finish h (sound_modify ..)
  | addQ => exact sound_execAddQ h
  | clr => exact sound_execClr h
  | bsetImm | bclrImm | bnotImm => exact sound_of_finish h (sound_changeBit ..)
  | bsetReg | bclrReg | bnotReg => exact sound_of_finish h (sound_refuseIf _ _ (sound_changeBit ..))
  -- an operand examined
  | cmpG => exact sound_of_finish h (sound_refuseIf _ _ (sound_examine ..))
  | cmpGImm => exact sound_execCmpGImm h
  | tst => exact sound_of_finish h (sound_examine ..)
  | btstImm => exact sound_of_finish h (sound_testBit ..)
  | btstReg => exact sound_of_finish h (sound_refuseIf _ _ (sound_testBit ..))
  | cmpE | cmpI => exact sound_of_next h ((sound_advance ..).trans (sound_setAlu ..))
  -- a value moved to memory
  | movGStore => exact sound_of_finish h (sound_refuseIf _ _ (sound_moveOut ..))
  | movGImm8 | movGImm16 => exact sound_of_finish h (sound_moveOut ..)
  | movS | movFStore =>
    exact sound_of_finish h (Body.sound.after ((sound_st ..).bind fun _ => sound_setAlu ..) (sound_advance s 2))
  | movtpe => exact sound_execMovtpe h
  | stm => exact sound_of_finish h (sound_refuseIf _ _ ((sound_pushRegs ..).after (sound_advance ..)))
  -- a value moved to registers
  | movE | movI => exact sound_of_next h ((sound_advance ..).trans (sound_moveIn ..))
  | movL | movFLoad =>
    exact sound_of_finish h (Body.sound.after (sound_ld fun _ => sound_moveIn ..) (sound_advance s 2))
  | movfpe => exact sound_execMovfpe h
  | ldm => exact sound_of_finish h (sound_refuseIf _ _ ((sound_popRegs ..).after (sound_advance ..)))
  | xch => exact sound_of_next h (((sound_advance ..).trans (sound_setReg ..)).trans (sound_setReg ..))
  | swap => exact sound_execSwap h
  | exts | extu => exact sound_of_next h (((sound_advance ..).trans (sound_setReg ..)).trans (sound_setAlu ..))
  | dadd | dsub => exact sound_of_next h (sound_decimalInto ..)
  | mulxu => exact sound_execMulxu h
  | divxu => exact sound_execDivxu h
  -- branches, calls and returns
  | bcc => exact sound_execBcc h
  | jmp => exact sound_of_next h (sound_jump ..)
  | pjmp => exact sound_execPjmp h
  | bsr | jsr =>
    exact sound_of_finish h (Body.sound.after ((sound_push16 ..).bind fun _ => sound_jump ..) (sound_advance ..))
  | pjsr => exact sound_execPjsr h
  | rts => exact sound_of_finish h ((sound_popPC _).after (sound_advance ..))
  | prts => exact sound_execPrts h
  | rtd => exact sound_execRtd h
  | prtd => exact sound_execPrtd h
  | scb => exact sound_execScb h
  -- system control
  | trapa => exact sound_execTrapa h
  | trapvs => exact sound_execTrapvs h
  | rte => exact sound_of_finish h ((sound_returnFromException _).after (sound_advance ..))
  | link => exact sound_execLink h
  | unlk => exact sound_execUnlk h
  | sleep => exact sound_execSleep h
  | ldc => exact sound_execLdc h
  | stc => exact sound_execStc h
  | andc | orc | xorc => exact sound_of_finish h (sound_combineCtrl ..)
  | nop => exact sound_of_next h (sound_advance ..)

/-- The entry of an interrupt (R330). -/
theorem sound_enterIrq {s t : State} {q : Irq} (h : s.enterIrq q = .next t) : Sound s t := by
  have hawake : Sound s { s with asleep := false } := .of_eq rfl rfl rfl rfl rfl
  have hframe := (sound_pushFrame { s with asleep := false } s.pc).after hawake
  rw [State.enterIrq] at h
  cases hf : State.pushFrame { s with asleep := false } s.pc with
  | error e => cases e <;> simp [hf, entryStopped] at h
  | ok u =>
    simp only [hf, Host.Outcome.next.injEq] at h hframe
    have hmask : Sound u { u with sr := srWithMask u.sr q.level } := .of_eq rfl rfl rfl rfl rfl
    subst h
    exact (Sound.trans hframe hmask).trans (sound_enterVector ..)

/-- A step is sound, the list of waiting interrupts apart: an accepted one is taken off it. -/
theorem sound_step {s t : State} (h : step s = .next t) : ∃ waiting, Sound { s with irq := waiting } t := by
  obtain ⟨q, others, -, ht⟩ | ⟨-, -, ⟨i, rest, -, ht⟩ | ⟨-, ht⟩⟩ := step_cases h
  · exact ⟨others, sound_enterIrq ht⟩
  · exact ⟨s.irq, sound_exec ht⟩
  · exact ⟨s.irq, sound_raise ht⟩

/-- Settles O14: whichever part of a step answers the next state is sound, and what is sound keeps the
parameters. -/
theorem stepKeepsParams : Obligations.StepKeepsParams := by
  intro s t h
  obtain ⟨waiting, hs⟩ := sound_step h
  exact hs.params

end Sys2Proof.Machine
end

section
/-! PROOFS. Statements of the state chapter that need no layer of their own: minimum mode (spec/10_state.md R35),
reset (R45, spec/70_reset_and_hazards.md R350, R351), and the refusals that the spec asks for by name. -/

namespace Sys2Proof.Machine

/-! ## Minimum mode and reset -/

/-- Settles O15: a step is sound, and soundness says of minimum mode that CP and the bytes above H'FFFF stay.
An interrupt taken off the list touches neither. -/
theorem minimumModeConfined : Obligations.MinimumModeConfined := by
  intro s t hm h
  obtain ⟨waiting, hs⟩ := sound_step h
  exact ⟨hs.cp hm, hs.high hm⟩

theorem flagT_resetFrom (params : Config.Params) (mem : Memory) : (State.resetFrom params mem).flagT = false := by
  show BitVec.getLsbD (0x0700 : Word) 15 = false
  decide

theorem intMask_resetFrom (params : Config.Params) (mem : Memory) : (State.resetFrom params mem).intMask = 7 := by
  show BitVec.extractLsb' 8 3 (0x0700 : Word) = 7
  decide

/-- Settles O10: `State.resetFrom` holds these values field by field (R45, R350, R351). -/
theorem resetValues : Obligations.ResetValues := by
  refine ⟨fun params mem => ⟨flagT_resetFrom params mem, intMask_resetFrom params mem, rfl, rfl, rfl, rfl,
    fun hm => ?_, fun hm => ?_⟩, rfl⟩
  · simp [State.resetFrom, hm]
  · simp [State.resetFrom, hm]

/-- Settles O11: the memory after reset lists no byte, and no address is stale. -/
theorem resetIsWellFormed : Obligations.ResetIsWellFormed := rfl

/-! ## Refusals by name -/

theorem finish_refuseIf {c : Bool} {r : Refusal} {k : Body State} (h : c = true) :
    finish (refuseIf c r k) = .refused r := by
  rw [h, refuseIf_true, finish_refuse]

/-- The second of two refusals, where the first does not apply. -/
theorem finish_refuseIf_second {c d : Bool} {q r : Refusal} {k : Body State} (hc : c = false) (hd : d = true) :
    finish (refuseIf c q (refuseIf d r k)) = .refused r := by
  rw [hc, refuseIf_false, finish_refuseIf hd]

/-- A list that names an updated register overlaps the addressing mode (R94). -/
theorem overlaps_of_updates {ea : EA} {r : Reg} {l : List Reg} (h : ea = .preDec r ∨ ea = .postInc r)
    (hr : r ∈ l) : overlaps ea l = true := by
  obtain rfl | rfl := h
  · simpa [overlaps, updatedReg] using hr
  · simpa [overlaps, updatedReg] using hr

theorem beyond_byte {k : BitVec 4} (h : 8 ≤ k.toNat) : beyond .b k = true := decide_eq_true h

theorem toNat_bitNumber (s : State) (r : Reg) : (s.bitNumber r).toNat = (s.reg r).toNat % 16 := by
  simp [State.bitNumber, BitVec.extractLsb'_toNat]

theorem pairLow?_odd {r : Reg} (h : r ∈ [Reg.r1, .r3, .r5, .r7]) : pairLow? r = none := by
  fin_cases h <;> rfl

theorem mulxuWord_odd {rd : Reg} (h : pairLow? rd = none) (src : EA) (s : State) :
    mulxuWord src rd s = .error (.refuse .oddRegisterPair) := by
  simp only [mulxuWord, h]

theorem divxuWord_odd {rd : Reg} (h : pairLow? rd = none) (src : EA) (s : State) :
    divxuWord src rd s = .error (.refuse .oddRegisterPair) := by
  simp only [divxuWord, h]

/-- The word forms of MULXU and DIVXU on an even register whose pair the addressing mode updates (R94). -/
theorem mulxuWord_overlap {rd low : Reg} {src : EA} (h : pairLow? rd = some low)
    (ho : overlaps src [rd, low] = true) (s : State) :
    mulxuWord src rd s = .error (.refuse .registerOverlap) := by
  simp only [mulxuWord, h, ho, refuseIf_true]

theorem divxuWord_overlap {rd low : Reg} {src : EA} (h : pairLow? rd = some low)
    (ho : overlaps src [rd, low] = true) (s : State) :
    divxuWord src rd s = .error (.refuse .registerOverlap) := by
  simp only [divxuWord, h, ho, refuseIf_true]

theorem overlaps_pair {ea : EA} {r low : Reg}
    (h : ea = .preDec r ∨ ea = .postInc r ∨ ea = .preDec low ∨ ea = .postInc low) :
    overlaps ea [r, low] = true := by
  obtain h | h | h | h := h
  · exact overlaps_of_updates (.inl h) (by simp)
  · exact overlaps_of_updates (.inr h) (by simp)
  · exact overlaps_of_updates (.inl h) (by simp)
  · exact overlaps_of_updates (.inr h) (by simp)

/-- R7 is no target of a page jump, as it has no next register (R256). -/
theorem pageJump_r7_refused {s : State} (hm : s.params.maxMode = true) :
    ∀ i ∈ [Instr.pjmp (.ind .r7), .pjsr (.ind .r7)], exec i s = .refused .pageJumpThroughR7 := by
  intro i hi
  have hmax : ∀ k : Body State, maxModeOnly s k = k := fun k => by simp [maxModeOnly, hm]
  fin_cases hi
  · exact congrArg finish (hmax _)
  · exact congrArg finish (hmax _)

/-- Settles O60: each meaning tests what the spec has it refuse before it does anything else. -/
theorem specRefusals : Obligations.SpecRefusals := by
  intro s sz ea r low k list cr imm g
  refine ⟨fun h i hi => ?disallowed, fun h i hi => ?disallowedImm, fun h i hi => ?overlap, fun h ho i hi => ?pair,
    fun h i hi => ?bitImm, fun h ho i hi => ?bitReg, fun h i hi => ?odd, fun h => ⟨?stm, fun hl => ?ldm⟩,
    fun h i hi => ?minimum, pageJump_r7_refused⟩
  case disallowed =>
    have hc : (!ctrlAllowed cr sz) = true := by rw [h]; rfl
    fin_cases hi <;> exact finish_refuseIf hc
  case disallowedImm =>
    have hc : (!ctrlAllowed cr imm.size) = true := by rw [h]; rfl
    fin_cases hi <;> exact finish_refuseIf hc
  case overlap =>
    have hc : overlaps ea [r] = true := overlaps_of_updates h (List.mem_singleton_self r)
    fin_cases hi <;> exact finish_refuseIf hc
  case pair =>
    fin_cases hi
    · exact congrArg finish (mulxuWord_overlap h (overlaps_pair ho) s)
    · exact congrArg finish (divxuWord_overlap h (overlaps_pair ho) s)
  case bitImm => fin_cases hi <;> exact finish_refuseIf (beyond_byte h)
  case bitReg =>
    have hb : beyond .b (s.bitNumber r) = true := beyond_byte (by rw [toNat_bitNumber]; exact h)
    fin_cases hi <;> exact finish_refuseIf_second ho hb
  case odd =>
    fin_cases hi
    · exact congrArg finish (mulxuWord_odd (pairLow?_odd h) ea s)
    · exact congrArg finish (divxuWord_odd (pairLow?_odd h) ea s)
  case stm => exact finish_refuseIf h
  case ldm => exact finish_refuseIf (by rw [h, hl]; rfl)
  case minimum =>
    have hc : (!s.params.maxMode) = true := by rw [h]; rfl
    fin_cases hi <;> exact finish_refuseIf hc

end Sys2Proof.Machine
end

section
/-! PROOFS. Which parts of the control state an instruction writes (spec/10_state.md R29, R31, R32, R35, R38): a
table of the parts that each form may write, and that every body keeps the others up to its end, however it
ends. -/

namespace Sys2Proof.Machine

/-! ## Parts of the control state -/

/-- The parts of the control state that the statements tell apart; the four page and base registers are one. -/
inductive Part where
  | pages
  | mask
  | cp
  | run
  | params
  | flagN
  | flagZ
  | flagV
  | flagC
  deriving DecidableEq

/-- A part is the same in two states. -/
def Part.same (s t : State) : Part → Prop
  | .pages => t.br = s.br ∧ t.ep = s.ep ∧ t.dp = s.dp ∧ t.tp = s.tp
  | .mask => t.intMask = s.intMask
  | .cp => t.cp = s.cp
  | .run => t.asleep = s.asleep
  | .params => t.params = s.params
  | .flagN => t.flagN = s.flagN
  | .flagZ => t.flagZ = s.flagZ
  | .flagV => t.flagV = s.flagV
  | .flagC => t.flagC = s.flagC

/-- The four flags. -/
def flagParts : List Part := [.flagN, .flagZ, .flagV, .flagC]

/-- What the control registers hold. -/
def controlParts : List Part := .pages :: .mask :: flagParts

/-- The parts that an instruction may write by its own effect (R29, R31, R35, R38). -/
def writes : Instr → List Part
  | .ldm _ | .stm _ | .xch _ _ | .movtpe _ _ | .movfpe _ _ | .adds _ _ _ | .subs _ _ _
  | .bcc _ _ | .jmp _ | .bsr _ | .jsr _ | .rts | .rtd _ | .scb _ _ _
  | .trapvs | .link _ | .unlk | .stc _ _ _ | .nop => []
  | .bsetImm _ _ _ | .bsetReg _ _ _ | .bclrImm _ _ _ | .bclrReg _ _ _
  | .btstImm _ _ _ | .btstReg _ _ _ | .bnotImm _ _ _ | .bnotReg _ _ _ => [.flagZ]
  | .dadd _ _ | .dsub _ _ => [.flagZ, .flagC]
  | .pjmp _ | .pjsr _ | .prts | .prtd _ | .trapa _ => [.cp]
  | .rte => .cp :: .mask :: flagParts
  | .sleep => [.run]
  | .ldc _ _ _ | .andc _ _ | .orc _ _ | .xorc _ _ => controlParts
  | _ => flagParts

/-- From `s` to `t` every part outside the list is kept. -/
structure Keeps (l : List Part) (s t : State) : Prop where
  same : ∀ p, p ∉ l → p.same s t

theorem Part.same_trans {s t u : State} {p : Part} (h : p.same s t) (k : p.same t u) : p.same s u := by
  cases p with
  | pages =>
    obtain ⟨hbr, hep, hdp, htp⟩ := h
    obtain ⟨kbr, kep, kdp, ktp⟩ := k
    exact ⟨kbr.trans hbr, kep.trans hep, kdp.trans hdp, ktp.trans htp⟩
  | mask | cp | run | params | flagN | flagZ | flagV | flagC => exact Eq.trans k h

variable {l : List Part}

theorem Keeps.trans {s t u : State} (h : Keeps l s t) (k : Keeps l t u) : Keeps l s u :=
  ⟨fun p hp => Part.same_trans (h.same p hp) (k.same p hp)⟩

theorem Keeps.mono {m : List Part} {s t : State} (h : Keeps l s t) (hs : l ⊆ m) : Keeps m s t :=
  ⟨fun p hp => h.same p fun hl => hp (hs hl)⟩

/-- An update of other fields only. -/
theorem Keeps.of_eq {s t : State} (hsr : t.sr = s.sr) (hbr : t.br = s.br) (hep : t.ep = s.ep) (hdp : t.dp = s.dp)
    (htp : t.tp = s.tp) (hcp : t.cp = s.cp) (hrun : t.asleep = s.asleep) (hparams : t.params = s.params) :
    Keeps l s t := by
  refine ⟨fun p _ => ?_⟩
  cases p with
  | pages => exact ⟨hbr, hep, hdp, htp⟩
  | mask => exact congrArg (BitVec.extractLsb' 8 3) hsr
  | cp => exact hcp
  | run => exact hrun
  | params => exact hparams
  | flagN => exact flagN_of_sr hsr
  | flagZ => exact flagZ_of_sr hsr
  | flagV => exact flagV_of_sr hsr
  | flagC => exact flagC_of_sr hsr

theorem Keeps.refl (s : State) : Keeps l s s := .of_eq rfl rfl rfl rfl rfl rfl rfl rfl

/-! ## Updates -/

theorem keeps_setReg (s : State) (i : Reg) (v : Word) : Keeps l s (s.setReg i v) :=
  .of_eq rfl rfl rfl rfl rfl rfl rfl rfl
theorem keeps_wr (s : State) (i : Reg) (sz : Size) (v : BitVec sz.bits) : Keeps l s (s.wr i sz v) := by
  cases sz <;> exact keeps_setReg ..
theorem keeps_draw (s : State) : Keeps l s s.draw.2 := .of_eq rfl rfl rfl rfl rfl rfl rfl rfl
theorem keeps_advance (s : State) (n : Nat) : Keeps l s (s.advance n) := .of_eq rfl rfl rfl rfl rfl rfl rfl rfl
theorem keeps_jump (s : State) (target : Word) : Keeps l s (s.jump target) :=
  .of_eq rfl rfl rfl rfl rfl rfl rfl rfl
theorem keeps_writeByte (s : State) (a : Nat) (v : Byte) : Keeps l s (s.writeByte a v) :=
  .of_eq rfl rfl rfl rfl rfl rfl rfl rfl
theorem keeps_resolve (sz : Size) (ea : EA) (s : State) : Keeps l s (resolve sz ea s).2 :=
  .of_eq (by simp) (by simp) (by simp) (by simp) (by simp) (by simp) (by simp) (by simp)
theorem keeps_readCtrl (s : State) (cr : CtrlReg) : Keeps l s (s.readCtrl cr).2 := by
  cases cr <;> exact .of_eq rfl rfl rfl rfl rfl rfl rfl rfl

/-- The state in which a shape resolved its EA field. -/
theorem keeps_resolved (sz : Size) (ea : EA) (n : Nat) (s : State) : Keeps l s (resolve sz ea (s.advance n)).2 :=
  (keeps_advance s n).trans (keeps_resolve ..)

/-- Flags replaced on the way from `s`: those outside the list must be the flags of `s`. -/
theorem Keeps.setNZVC {s t : State} (h : Keeps l s t) {n z v c : Bool} (hn : .flagN ∉ l → n = s.flagN)
    (hz : .flagZ ∉ l → z = s.flagZ) (hv : .flagV ∉ l → v = s.flagV) (hc : .flagC ∉ l → c = s.flagC) :
    Keeps l s (t.setNZVC n z v c) := by
  refine ⟨fun p hp => ?_⟩
  cases p with
  | mask => exact (intMask_setNZVC ..).trans (h.same .mask hp)
  | flagN => exact (flagN_setNZVC ..).trans (hn hp)
  | flagZ => exact (flagZ_setNZVC ..).trans (hz hp)
  | flagV => exact (flagV_setNZVC ..).trans (hv hp)
  | flagC => exact (flagC_setNZVC ..).trans (hc hp)
  | pages => exact h.same .pages hp
  | cp => exact h.same .cp hp
  | run => exact h.same .run hp
  | params => exact h.same .params hp

/-- All four flags replaced. -/
theorem Keeps.setFlags {s t : State} (h : Keeps flagParts s t) (n z v c : Bool) :
    Keeps flagParts s (t.setNZVC n z v c) :=
  h.setNZVC (absurd (by decide)) (absurd (by decide)) (absurd (by decide)) (absurd (by decide))

theorem Keeps.setAlu {w : Nat} {s t : State} (h : Keeps flagParts s t) (r : Alu w) : Keeps flagParts s (t.setAlu r) :=
  h.setFlags ..

/-- The flags that a result writes lie in the list; the others are those of `s`. -/
structure Alu.Within {w : Nat} (l : List Part) (s : State) (r : Alu w) : Prop where
  n : .flagN ∉ l → r.n = s.flagN
  z : .flagZ ∉ l → r.z = s.flagZ
  v : .flagV ∉ l → r.v = s.flagV
  c : .flagC ∉ l → r.c = s.flagC

theorem Alu.within_flagParts {w : Nat} (s : State) (r : Alu w) : r.Within flagParts s :=
  ⟨absurd (by decide), absurd (by decide), absurd (by decide), absurd (by decide)⟩

/-- A bit instruction writes Z only (R230). -/
theorem bitOp_within {w : Nat} (change : BitVec w → BitVec w → BitVec w) (k : BitVec 4) (s : State) (a : BitVec w) :
    (bitOp change k s a).Within [.flagZ] s :=
  ⟨fun _ => rfl, absurd (by decide), fun _ => rfl, fun _ => rfl⟩

theorem Keeps.setAlu_within {w : Nat} {s t : State} (h : Keeps l s t) {r : Alu w} (hr : r.Within l s) :
    Keeps l s (t.setAlu r) := h.setNZVC hr.n hr.z hr.v hr.c

theorem keeps_moveIn (sz : Size) (rd : Reg) (v : BitVec sz.bits) (s : State) :
    Keeps flagParts s (moveIn sz rd v s) := (keeps_wr ..).setAlu _

theorem keeps_setCP (s : State) (v : Byte) (hl : .cp ∈ l) : Keeps l s { s with cp := v } := by
  refine ⟨fun p hp => ?_⟩
  cases p with
  | cp => exact absurd hl hp
  | pages => exact ⟨rfl, rfl, rfl, rfl⟩
  | mask | run | params | flagN | flagZ | flagV | flagC => rfl

/-- SR replaced: the mask and the flags. -/
theorem keeps_setSR (s : State) (v : Word) (hl : .mask :: flagParts ⊆ l) : Keeps l s { s with sr := v } := by
  refine ⟨fun p hp => ?_⟩
  cases p with
  | pages => exact ⟨rfl, rfl, rfl, rfl⟩
  | cp | run | params => rfl
  | mask | flagN | flagZ | flagV | flagC => exact absurd (hl (by decide)) hp

theorem keeps_setPages (s : State) (br ep dp tp : Byte) (hl : .pages ∈ l) :
    Keeps l s { s with br := br, ep := ep, dp := dp, tp := tp } := by
  refine ⟨fun p hp => ?_⟩
  cases p with
  | pages => exact absurd hl hp
  | cp | run | params | mask | flagN | flagZ | flagV | flagC => rfl

theorem keeps_setCtrl (s : State) (cr : CtrlReg) (v : Word) : Keeps controlParts s (s.setCtrl cr v) := by
  cases cr with
  | sr | ccr => exact keeps_setSR _ _ (by decide)
  | br | ep | dp | tp => exact keeps_setPages s _ _ _ _ (by decide)
  | none2 | none6 => exact .refl s

/-- T cleared: the mask and the flags are kept (R320). -/
theorem keeps_clearT (s : State) : Keeps l s { s with sr := srClearT s.sr } := by
  have bit (k : Nat) (hk : k < 15) : (srClearT s.sr).getLsbD k = s.sr.getLsbD k := by
    rw [srClearT_bit, decide_eq_true hk, Bool.true_and]
  refine ⟨fun p _ => ?_⟩
  cases p with
  | pages => exact ⟨rfl, rfl, rfl, rfl⟩
  | cp | run | params => rfl
  | mask =>
    refine BitVec.eq_of_getLsbD_eq fun k hk => ?_
    simp only [State.intMask, BitVec.getLsbD_extractLsb', bit (8 + k) (by omega)]
  | flagN => exact bit 3 (by decide)
  | flagZ => exact bit 2 (by decide)
  | flagV => exact bit 1 (by decide)
  | flagC => exact bit 0 (by decide)

theorem keeps_pageJump (s : State) (target : Byte × Word) (hl : .cp ∈ l) : Keeps l s (s.pageJump target) :=
  (keeps_setCP s target.1 hl).trans (keeps_jump ..)

theorem keeps_vectorTo (s : State) (entry : Byte) (hl : .cp ∈ l) : Keeps l s (s.vectorTo entry) := by
  rw [State.vectorTo]
  split
  · exact (keeps_setCP _ _ hl).trans (keeps_jump ..)
  · exact keeps_jump ..

theorem keeps_enterVector (s : State) (entry : Byte) (hl : .cp ∈ l) : Keeps l s (s.enterVector entry) :=
  (keeps_clearT s).trans (keeps_vectorTo _ entry hl)

/-! ## Bodies -/

/-- Up to its end a body writes no part outside the list, however it ends; InvalidInstruction is no exception of an
instruction. -/
def Body.keeps (l : List Part) (s : State) : Body State → Prop
  | .ok t => Keeps l s t
  | .error (.raised e t) => Keeps l s t ∧ e ≠ .invalidInstruction
  | .error (.refuse _) => True

theorem Body.keeps.after {s t : State} {b : Body State} (hb : b.keeps l t) (h : Keeps l s t) : b.keeps l s := by
  match b with
  | .ok u => exact h.trans hb
  | .error (.raised e u) => exact ⟨h.trans hb.1, hb.2⟩
  | .error (.refuse _) => trivial

/-- The second part of a body, from the state before the first. -/
theorem Body.keeps.bind_from {s : State} {b : Body State} {f : State → Body State} (hb : b.keeps l s)
    (hf : ∀ t, Keeps l s t → (f t).keeps l s) : Body.keeps l s (b >>= f) := by
  match b with
  | .ok t => exact hf t hb
  | .error (.raised _ t) => exact hb
  | .error (.refuse _) => trivial

theorem Body.keeps.bind {s : State} {b : Body State} {f : State → Body State} (hb : b.keeps l s)
    (hf : ∀ t, (f t).keeps l t) : Body.keeps l s (b >>= f) :=
  hb.bind_from fun t ht => (hf t).after ht

theorem keeps_refuseIf {s : State} {b : Body State} (c : Bool) (r : Refusal) (h : b.keeps l s) :
    Body.keeps l s (refuseIf c r b) := by
  cases c with
  | false => exact h
  | true => trivial

theorem keeps_store (s : State) (a : Nat) (sz : Size) (v : BitVec sz.bits) : Body.keeps l s (s.store a sz v) := by
  cases sz with
  | b => exact keeps_refuseIf _ _ (keeps_writeByte ..)
  | w =>
    by_cases h : a % 2 = 0
    · rw [store_even h]
      exact keeps_refuseIf _ _ ((keeps_writeByte ..).trans (keeps_writeByte ..))
    · rw [store_odd h]
      exact ⟨.refl s, by decide⟩

theorem keeps_st (s : State) (loc : Loc) (sz : Size) (v : BitVec sz.bits) : Body.keeps l s (s.st loc sz v) := by
  cases loc with
  | reg i => exact keeps_wr ..
  | mem k off => exact keeps_store ..
  | imm w => trivial

theorem keeps_ld {s : State} {loc : Loc} {sz : Size} {f : BitVec sz.bits → Body State}
    (h : ∀ v, (f v).keeps l s) : Body.keeps l s (s.ld loc sz >>= f) := by
  cases ha : s.canAccess loc sz with
  | false => rw [ld_odd ha]; exact ⟨.refl s, by decide⟩
  | true => rw [ld_ok ha]; exact h _

theorem keeps_source {s : State} {sz : Size} {ea : EA} {f : BitVec sz.bits × State → Body State}
    (h : ∀ v, (f (v, (resolve sz ea s).2)).keeps l (resolve sz ea s).2) :
    Body.keeps l s (source sz ea s >>= f) := by
  cases ha : (resolve sz ea s).2.canAccess (resolve sz ea s).1 sz with
  | false => rw [source_odd ha]; exact ⟨keeps_resolve .., by decide⟩
  | true => rw [source_ok ha]; exact (h _).after (keeps_resolve ..)

theorem keeps_push16 (s : State) (v : Word) : Body.keeps l s (s.push16 v) :=
  (keeps_store (s.setReg .r7 (s.sp - 2)) _ .w v).after (keeps_setReg ..)

theorem keeps_pop16 {s : State} {f : Word × State → Body State}
    (h : ∀ v, (f (v, s.setReg .r7 (s.sp + 2))).keeps l (s.setReg .r7 (s.sp + 2))) :
    Body.keeps l s (s.pop16 >>= f) := by
  by_cases he : s.spEven
  · rw [pop16_ok he]; exact (h _).after (keeps_setReg ..)
  · rw [pop16_odd he]; exact ⟨.refl s, by decide⟩

theorem keeps_pushCP (s : State) : Body.keeps l s s.pushCP := (keeps_push16 s.draw.2 _).after (keeps_draw s)

theorem keeps_pushSR (s : State) : Body.keeps l s s.pushSR := (keeps_push16 s.draw.2 _).after (keeps_draw s)

theorem keeps_popPC (s : State) : Body.keeps l s s.popPC := keeps_pop16 fun _ => keeps_jump ..

theorem keeps_popCP (s : State) (hl : .cp ∈ l) : Body.keeps l s s.popCP := keeps_pop16 fun _ => keeps_setCP _ _ hl

theorem keeps_pushFrame (s : State) (pc : Word) : Body.keeps l s (s.pushFrame pc) := by
  refine (keeps_push16 s pc).bind fun t => ?_
  by_cases h : t.params.maxMode = true
  · simp only [h, if_true]
    exact (keeps_pushCP t).bind keeps_pushSR
  · simp only [h, Bool.false_eq_true, if_false]
    exact keeps_pushSR t

/-! ## What a meaning answers -/

theorem keeps_enter {s t : State} {entry : Byte} {pc : Word} (h : s.enter entry pc = .next t) (hl : .cp ∈ l) :
    Keeps l s t := by
  rw [State.enter] at h
  have hb : Body.keeps l s _ := keeps_pushFrame s pc
  cases hf : s.pushFrame pc with
  | error e => cases e <;> simp [hf, entryStopped] at h
  | ok u =>
    simp only [hf, Host.Outcome.next.injEq] at h hb
    subst h
    exact Keeps.trans hb (keeps_enterVector u entry hl)

/-- An exception's entry writes CP only. -/
theorem keeps_raise {s t : State} {e : Exn} (h : s.raise e = .next t) (hl : .cp ∈ l) : Keeps l s t := by
  rw [State.raise] at h
  cases hv : s.vectorOf e with
  | none => simp [hv] at h
  | some entry =>
    simp only [hv] at h
    refine Keeps.trans ?_ (keeps_enter h hl)
    cases e with
    | zeroDivide | trapVS => exact .refl s
    | invalidInstruction | addressError => exact keeps_draw s

/-- A result is what a meaning answers for a body that keeps every part outside the list. -/
def Runs (l : List Part) (s : State) (r : Result) : Prop := ∃ b, r = finish b ∧ b.keeps l s

/-- A meaning that always completes. -/
theorem Runs.of_next {s t : State} (h : Keeps l s t) : Runs l s (.next t) := ⟨.ok t, rfl, h⟩

/-- CP apart, which an exception's entry writes, a next state keeps what the body keeps. -/
theorem Runs.keeps {s t : State} (h : Runs l s (.next t)) : Keeps (.cp :: l) s t := by
  obtain ⟨b, hr, hb⟩ := h
  match b with
  | .ok u =>
    cases hr
    exact Keeps.mono hb (List.subset_cons_self ..)
  | .error (.raised e u) =>
    exact (Keeps.mono hb.1 (List.subset_cons_self ..)).trans (keeps_raise hr.symm (by simp))
  | .error (.refuse _) => cases hr

/-- Where no exception of an instruction has a vector, CP is no exception to it. -/
theorem Runs.keeps_of_no_vector {s t : State} (h : Runs l s (.next t)) (hl : .params ∉ l)
    (hz : s.params.vecZeroDiv = none) (hv : s.params.vecTrapVS = none) (ha : s.params.vecAddrErr = none) :
    Keeps l s t := by
  obtain ⟨b, hr, hb⟩ := h
  match b with
  | .ok u => cases hr; exact hb
  | .error (.refuse _) => cases hr
  | .error (.raised e u) =>
    obtain ⟨hk, hi⟩ := hb
    have hp : u.params = s.params := hk.same .params hl
    have hn : u.vectorOf e = none := by cases e <;> simp_all [State.vectorOf]
    rw [finish_raised, State.raise, hn] at hr
    cases hr

/-! ## The shapes of instruction -/

theorem keeps_intoReg (sz : Size) (ea : EA) (rd : Reg) (s : State)
    (op : State → BitVec sz.bits → BitVec sz.bits → Alu sz.bits) :
    Body.keeps flagParts s (intoReg sz ea rd s op) :=
  keeps_refuseIf _ _ <| Body.keeps.after (keeps_source fun _ => (keeps_wr ..).setAlu _) (keeps_advance ..)

theorem keeps_intoRegWord (sz : Size) (ea : EA) (rd : Reg) (s : State) (op : Word → Word → Word) :
    Body.keeps l s (intoRegWord sz ea rd s op) :=
  keeps_refuseIf _ _ <| Body.keeps.after (keeps_source fun _ => keeps_setReg ..) (keeps_advance ..)

theorem keeps_modify_within (sz : Size) (ea : EA) (s : State) {op : State → BitVec sz.bits → Alu sz.bits}
    (hop : ∀ u a, (op u a).Within l u) : Body.keeps l s (modify sz ea s op) :=
  Body.keeps.after (keeps_ld fun a => (keeps_st ..).bind_from fun _ ht => ht.setAlu_within (hop _ a))
    (keeps_resolved ..)

theorem keeps_modify (sz : Size) (ea : EA) (s : State) (op : State → BitVec sz.bits → Alu sz.bits) :
    Body.keeps flagParts s (modify sz ea s op) :=
  keeps_modify_within sz ea s fun _ _ => Alu.within_flagParts ..

theorem keeps_examine_within (sz : Size) (ea : EA) (n : Nat) (s : State)
    {op : State → BitVec sz.bits → Alu sz.bits} (hop : ∀ u a, (op u a).Within l u) :
    Body.keeps l s (examine sz ea n s op) :=
  Body.keeps.after (keeps_source fun a => (Keeps.refl _).setAlu_within (hop _ a)) (keeps_advance ..)

theorem keeps_examine (sz : Size) (ea : EA) (n : Nat) (s : State) (op : State → BitVec sz.bits → Alu sz.bits) :
    Body.keeps flagParts s (examine sz ea n s op) :=
  keeps_examine_within sz ea n s fun _ _ => Alu.within_flagParts ..

theorem keeps_moveOut (sz : Size) (ea : EA) (n : Nat) (s : State) (v : State → BitVec sz.bits) :
    Body.keeps flagParts s (moveOut sz ea n s v) :=
  Body.keeps.after ((keeps_st ..).bind fun t => (Keeps.refl t).setAlu _) (keeps_resolved ..)

theorem keeps_changeBit (sz : Size) (k : BitVec 4) (ea : EA) (s : State)
    (change : BitVec sz.bits → BitVec sz.bits → BitVec sz.bits) :
    Body.keeps [.flagZ] s (changeBit sz k ea s change) :=
  keeps_refuseIf _ _ <| keeps_modify_within sz ea s fun u a => bitOp_within change k u a

theorem keeps_testBit (sz : Size) (k : BitVec 4) (ea : EA) (s : State) :
    Body.keeps [.flagZ] s (testBit sz k ea s) :=
  keeps_refuseIf _ _ <| keeps_examine_within sz ea 1 s fun u a => bitOp_within _ k u a

theorem keeps_combineCtrl (imm : Imm) (cr : CtrlReg) (s : State) (op : Word → Word → Word) :
    Body.keeps controlParts s (combineCtrl imm cr s op) :=
  keeps_refuseIf _ _ ((keeps_advance ..).trans (keeps_setCtrl ..))

theorem keeps_maxModeOnly {s t : State} {b : Body State} (h : b.keeps l s) : Body.keeps l s (maxModeOnly t b) :=
  keeps_refuseIf _ _ h

/-! ## The other bodies -/

/-- DADD and DSUB write Z and C (R29, R168). -/
theorem keeps_decimalInto (rs rd : Reg) (s : State) (op : Byte → Byte → Bool → Byte × Bool) :
    Keeps [.flagZ, .flagC] s (decimalInto rs rd s op) := by
  have setZC {u t : State} (h : Keeps [.flagZ, .flagC] u t) (hsr : t.sr = u.sr) (z c : Bool) :
      Keeps [.flagZ, .flagC] u (t.setZC z c) :=
    h.setNZVC (fun _ => flagN_of_sr hsr) (absurd (by decide)) (fun _ => flagV_of_sr hsr) (absurd (by decide))
  refine (keeps_advance s 3).trans ?_
  unfold decimalInto
  dsimp only
  split
  · exact setZC (keeps_wr ..) (wr_sr ..) _ _
  · exact setZC ((keeps_draw _).trans (keeps_wr ..)) (wr_sr ..) _ _

theorem keeps_mulxuByte (src : EA) (rd : Reg) (s : State) : Body.keeps flagParts s (mulxuByte src rd s) :=
  keeps_refuseIf _ _ <| Body.keeps.after (keeps_source fun _ => (keeps_setReg ..).setAlu _) (keeps_advance ..)

theorem keeps_mulxuWord (src : EA) (rd : Reg) (s : State) : Body.keeps flagParts s (mulxuWord src rd s) := by
  unfold mulxuWord
  cases pairLow? rd with
  | none => trivial
  | some low =>
    exact keeps_refuseIf _ _ <| Body.keeps.after
      (keeps_source fun _ => ((keeps_setReg ..).trans (keeps_setReg ..)).setAlu _) (keeps_advance ..)

theorem keeps_divxuOverflowFlags (s : State) : Keeps flagParts s (divxuOverflowFlags s) :=
  (keeps_draw s).setFlags ..

theorem keeps_divxuOverflowDest (s : State) (rd : Reg) : Keeps l s (divxuOverflowDest s rd) := by
  unfold divxuOverflowDest
  cases s.params.divxuOvfDest with
  | any => exact (keeps_draw s).trans (keeps_setReg ..)
  | unchanged => exact .refl s

theorem keeps_divxuByte (src : EA) (rd : Reg) (s : State) : Body.keeps flagParts s (divxuByte src rd s) := by
  refine keeps_refuseIf _ _ <| Body.keeps.after (keeps_source fun v => ?_) (keeps_advance s (eaLen src + 1))
  dsimp only
  split
  · exact ⟨.refl _, by decide⟩
  · split
    · exact (keeps_divxuOverflowFlags _).trans (keeps_divxuOverflowDest ..)
    · exact (keeps_setReg ..).setAlu _

theorem keeps_divxuWord (src : EA) (rd : Reg) (s : State) : Body.keeps flagParts s (divxuWord src rd s) := by
  unfold divxuWord
  cases pairLow? rd with
  | none => trivial
  | some low =>
    refine keeps_refuseIf _ _ <| Body.keeps.after (keeps_source fun v => ?_) (keeps_advance s (eaLen src + 1))
    dsimp only
    split
    · exact ⟨.refl _, by decide⟩
    · split
      · exact ((keeps_divxuOverflowFlags _).trans (keeps_divxuOverflowDest ..)).trans (keeps_divxuOverflowDest ..)
      · exact ((keeps_setReg ..).trans (keeps_setReg ..)).setAlu _

theorem keeps_popRegs (regs : List Reg) (s : State) : Body.keeps l s (popRegs regs s) := by
  induction regs generalizing s with
  | nil => exact .refl s
  | cons i rest ih =>
    refine keeps_pop16 fun v => (ih _).after ?_
    split
    · exact .refl _
    · exact keeps_setReg ..

theorem keeps_pushRegs (regs : List Reg) (s : State) : Body.keeps l s (pushRegs regs s) := by
  induction regs generalizing s with
  | nil => exact .refl s
  | cons i rest ih => exact (keeps_push16 ..).bind ih

theorem keeps_returnFromException (s : State) : Body.keeps (writes .rte) s s.returnFromException := by
  refine keeps_pop16 fun v => ?_
  generalize s.setReg .r7 (s.sp + 2) = u
  have hsr : Keeps (writes .rte) u { u with sr := v } := keeps_setSR u v (by decide)
  refine Body.keeps.after ?_ hsr
  by_cases hm : u.params.maxMode = true
  · simp only [hm, if_true]
    exact (keeps_popCP { u with sr := v } (by decide)).bind keeps_popPC
  · simp only [hm, Bool.false_eq_true, if_false]
    exact keeps_popPC _

theorem keeps_asleep (s : State) : Keeps [.run] s { s with asleep := true } := by
  refine ⟨fun p hp => ?_⟩
  cases p with
  | run => exact absurd (List.mem_singleton_self _) hp
  | pages => exact ⟨rfl, rfl, rfl, rfl⟩
  | mask | cp | params | flagN | flagZ | flagV | flagC => rfl

/-! ## Instructions with a body of their own -/

section
variable {s : State}

theorem runs_execMulxu (sz : Size) (src : EA) (rd : Reg) : Runs flagParts s (execMulxu sz src rd s) := by
  cases sz with
  | b => exact ⟨_, rfl, keeps_mulxuByte ..⟩
  | w => exact ⟨_, rfl, keeps_mulxuWord ..⟩

theorem runs_execDivxu (sz : Size) (src : EA) (rd : Reg) : Runs flagParts s (execDivxu sz src rd s) := by
  cases sz with
  | b => exact ⟨_, rfl, keeps_divxuByte ..⟩
  | w => exact ⟨_, rfl, keeps_divxuWord ..⟩

theorem runs_execCmpGImm (imm : Imm) (dst : EA) : Runs flagParts s (execCmpGImm imm dst s) := by
  cases imm with
  | i8 v => exact ⟨_, rfl, keeps_examine ..⟩
  | i16 v => exact ⟨_, rfl, keeps_examine ..⟩

theorem runs_execSwap (rd : Reg) : Runs flagParts s (execSwap rd s) := by
  have swapped (v : Word) : Keeps flagParts s ((s.advance 2).setReg rd v) := (keeps_advance ..).trans (keeps_setReg ..)
  refine .of_next ?_
  cases s.params.swapScope with
  | byte => exact (swapped _).setAlu _
  | word => exact (swapped _).setAlu _

theorem runs_execBcc (cond : Cond) (disp : Disp) : Runs l s (execBcc cond disp s) := by
  refine .of_next ((keeps_advance s (dispLen disp + 1)).trans ?_)
  split
  · exact keeps_jump ..
  · exact .refl _

theorem runs_execScb (cond : ScbCond) (rn : Reg) (d : Byte) : Runs l s (execScb cond rn d s) := by
  refine .of_next ((keeps_advance s 3).trans ?_)
  split
  · exact .refl _
  · refine (keeps_setReg _ rn (s.reg rn - 1)).trans ?_
    dsimp only
    split
    · exact .refl _
    · exact keeps_jump ..

theorem runs_execPjmp (target : PageEA) : Runs [.cp] s (execPjmp target s) := by
  refine ⟨_, rfl, keeps_maxModeOnly ?_⟩
  cases s.pageTarget target with
  | none => trivial
  | some p => exact keeps_pageJump s p (by decide)

theorem runs_execPjsr (target : PageEA) : Runs [.cp] s (execPjsr target s) := by
  refine ⟨_, rfl, keeps_maxModeOnly ?_⟩
  cases s.pageTarget target with
  | none => trivial
  | some p =>
    exact Body.keeps.after ((keeps_push16 ..).bind fun v => (keeps_pushCP v).bind fun w =>
      keeps_pageJump w p (by decide)) (keeps_advance s (pageLen target))

theorem runs_execTrapvs : Runs l s (execTrapvs s) := by
  refine ⟨_, rfl, ?_⟩
  split
  · exact ⟨keeps_advance s 1, by decide⟩
  · exact keeps_advance s 1

end

/-! ## Every instruction -/

/-- An instruction runs a body that writes no part but its own: by the shape it shares with others, or by its own
body. -/
theorem runs_exec (i : Instr) (s : State) : Runs (writes i) s (exec i s) := by
  cases i with
  -- the result of Rd and a source into Rd
  | movGLoad | addG | addx | sub | subx | and | or | xor => exact ⟨_, rfl, keeps_intoReg ..⟩
  | adds | subs => exact ⟨_, rfl, keeps_intoRegWord ..⟩
  -- an operand replaced
  | neg | tas | shal | shar | shll | shlr | rotl | rotr | rotxl | rotxr | not => exact ⟨_, rfl, keeps_modify ..⟩
  | addQ => exact ⟨_, rfl, (keeps_modify ..).bind keeps_draw⟩
  | clr =>
    exact ⟨_, rfl, Body.keeps.after ((keeps_st ..).bind fun t => (Keeps.refl t).setFlags ..) (keeps_resolved ..)⟩
  | bsetImm | bclrImm | bnotImm => exact ⟨_, rfl, keeps_changeBit ..⟩
  | bsetReg | bclrReg | bnotReg => exact ⟨_, rfl, keeps_refuseIf _ _ (keeps_changeBit ..)⟩
  -- an operand examined
  | cmpG => exact ⟨_, rfl, keeps_refuseIf _ _ (keeps_examine ..)⟩
  | cmpGImm => exact runs_execCmpGImm ..
  | tst => exact ⟨_, rfl, keeps_examine ..⟩
  | btstImm => exact ⟨_, rfl, keeps_testBit ..⟩
  | btstReg => exact ⟨_, rfl, keeps_refuseIf _ _ (keeps_testBit ..)⟩
  | cmpE | cmpI => exact .of_next ((keeps_advance ..).setAlu _)
  -- a value moved to memory
  | movGStore => exact ⟨_, rfl, keeps_refuseIf _ _ (keeps_moveOut ..)⟩
  | movGImm8 | movGImm16 => exact ⟨_, rfl, keeps_moveOut ..⟩
  | movS | movFStore =>
    exact ⟨_, rfl, Body.keeps.after ((keeps_st ..).bind fun t => (Keeps.refl t).setAlu _) (keeps_advance s 2)⟩
  | movtpe => exact ⟨_, rfl, keeps_refuseIf _ _ ((keeps_st ..).after (keeps_resolved ..))⟩
  | stm => exact ⟨_, rfl, keeps_refuseIf _ _ ((keeps_pushRegs ..).after (keeps_advance ..))⟩
  -- a value moved to registers
  | movE | movI => exact .of_next ((keeps_advance ..).trans (keeps_moveIn ..))
  | movL | movFLoad => exact ⟨_, rfl, Body.keeps.after (keeps_ld fun _ => keeps_moveIn ..) (keeps_advance s 2)⟩
  | movfpe =>
    exact ⟨_, rfl, keeps_refuseIf _ _ (Body.keeps.after (keeps_source fun _ => keeps_wr ..) (keeps_advance ..))⟩
  | ldm => exact ⟨_, rfl, keeps_refuseIf _ _ ((keeps_popRegs ..).after (keeps_advance ..))⟩
  | xch => exact .of_next (((keeps_advance ..).trans (keeps_setReg ..)).trans (keeps_setReg ..))
  | swap => exact runs_execSwap ..
  | exts | extu => exact .of_next (((keeps_advance ..).trans (keeps_setReg ..)).setAlu _)
  | dadd | dsub => exact .of_next (keeps_decimalInto ..)
  | mulxu => exact runs_execMulxu ..
  | divxu => exact runs_execDivxu ..
  -- branches, calls and returns
  | bcc => exact runs_execBcc ..
  | jmp => exact .of_next (keeps_jump ..)
  | pjmp => exact runs_execPjmp ..
  | bsr | jsr =>
    exact ⟨_, rfl, Body.keeps.after ((keeps_push16 ..).bind fun _ => keeps_jump ..) (keeps_advance ..)⟩
  | pjsr => exact runs_execPjsr ..
  | rts => exact ⟨_, rfl, (keeps_popPC _).after (keeps_advance ..)⟩
  | prts =>
    exact ⟨_, rfl, keeps_maxModeOnly (Body.keeps.after ((keeps_popCP _ (List.mem_singleton_self _)).bind
      keeps_popPC) (keeps_advance s 2))⟩
  | rtd k =>
    exact ⟨_, rfl, Body.keeps.after ((keeps_popPC _).bind fun _ => keeps_setReg ..)
      (keeps_advance s (immLen k + 1))⟩
  | prtd k =>
    exact ⟨_, rfl, keeps_maxModeOnly (Body.keeps.after ((keeps_popCP _ (List.mem_singleton_self _)).bind fun t =>
      (keeps_popPC t).bind fun _ => keeps_setReg ..) (keeps_advance s (immLen k + 2)))⟩
  | scb => exact runs_execScb ..
  -- system control
  | trapa =>
    exact ⟨_, rfl, Body.keeps.after ((keeps_pushFrame ..).bind fun t => keeps_enterVector t _ (List.mem_singleton_self _))
      (keeps_advance s 2)⟩
  | trapvs => exact runs_execTrapvs
  | rte => exact ⟨_, rfl, (keeps_returnFromException _).after (keeps_advance ..)⟩
  | link k =>
    exact ⟨_, rfl, Body.keeps.after ((keeps_push16 ..).bind fun t =>
      (keeps_setReg t .r6 t.sp).trans (keeps_setReg ..)) (keeps_advance s (immLen k + 1))⟩
  | unlk =>
    exact ⟨_, rfl, Body.keeps.after (keeps_pop16 fun _ => keeps_setReg ..)
      ((keeps_advance s 1).trans (keeps_setReg _ .r7 (s.reg .r6)))⟩
  | sleep => exact .of_next ((keeps_advance s 1).trans (keeps_asleep _))
  | ldc =>
    exact ⟨_, rfl, keeps_refuseIf _ _ (Body.keeps.after (keeps_source fun _ => keeps_setCtrl ..)
      (keeps_advance ..))⟩
  | stc => exact ⟨_, rfl, keeps_refuseIf _ _ ((keeps_st ..).after ((keeps_resolved ..).trans (keeps_readCtrl ..)))⟩
  | andc | orc | xorc => exact ⟨_, rfl, keeps_combineCtrl ..⟩
  | nop => exact .of_next (keeps_advance ..)

/-! ## The table against the kinds of instruction -/

theorem pages_mem_writes (i : Instr) : decide (.pages ∈ writes i) = writesControl i := by
  cases i <;> rfl

theorem mask_mem_writes (i : Instr) : decide (.mask ∈ writes i) = (writesControl i || decide (i = .rte)) := by
  cases i <;> rfl

theorem cp_mem_writes (i : Instr) : decide (.cp ∈ writes i) = writesCP i := by
  cases i <;> rfl

theorem run_mem_writes (i : Instr) : decide (.run ∈ writes i) = decide (i = .sleep) := by
  cases i <;> rfl

theorem params_mem_writes (i : Instr) : decide (.params ∈ writes i) = false := by
  cases i <;> rfl

theorem flagN_mem_writes (i : Instr) :
    decide (.flagN ∈ writes i) = !(keepsFlags i || writesOnlyZ i || writesOnlyZC i) := by
  cases i <;> rfl

theorem flagZ_mem_writes (i : Instr) : decide (.flagZ ∈ writes i) = !keepsFlags i := by
  cases i <;> rfl

theorem flagV_mem_writes (i : Instr) :
    decide (.flagV ∈ writes i) = !(keepsFlags i || writesOnlyZ i || writesOnlyZC i) := by
  cases i <;> rfl

theorem flagC_mem_writes (i : Instr) : decide (.flagC ∈ writes i) = !(keepsFlags i || writesOnlyZ i) := by
  cases i <;> rfl

/-- A part that neither the instruction nor an exception's entry writes. -/
theorem exec_same {i : Instr} {s t : State} (h : exec i s = .next t) {p : Part} (hcp : p ≠ .cp)
    (hp : decide (p ∈ writes i) = false) : p.same s t := by
  have hr : Runs (writes i) s (.next t) := h ▸ runs_exec i s
  exact hr.keeps.same p (List.not_mem_cons_of_ne_of_not_mem hcp (of_decide_eq_false hp))

/-- CP, where no exception of an instruction has a vector. -/
theorem exec_cp {i : Instr} {s t : State} (h : exec i s = .next t) (hw : writesCP i = false)
    (hz : s.params.vecZeroDiv = none) (hv : s.params.vecTrapVS = none) (ha : s.params.vecAddrErr = none) :
    t.cp = s.cp := by
  have hr : Runs (writes i) s (.next t) := h ▸ runs_exec i s
  have hcp : .cp ∉ writes i := of_decide_eq_false ((cp_mem_writes i).trans hw)
  exact (hr.keeps_of_no_vector (of_decide_eq_false (params_mem_writes i)) hz hv ha).same .cp hcp

/-- Settles O16: each part is written by the instructions that the table names for it, and CP also by an
exception's entry. -/
theorem controlStateWriters : Obligations.ControlStateWriters := by
  intro i s t h
  refine ⟨fun hc => ?pages, fun hc hr => ?mask, fun hw hz hv ha => exec_cp h hw hz hv ha, fun hs => ?run,
    (sound_exec h).irq⟩
  case pages => exact exec_same (p := .pages) h (by decide) (by rw [pages_mem_writes, hc])
  case mask => exact exec_same (p := .mask) h (by decide) (by rw [mask_mem_writes, hc, decide_eq_false hr]; rfl)
  case run => exact exec_same (p := .run) h (by decide) (by rw [run_mem_writes, decide_eq_false hs])

/-- Settles O17: the flags by the same table; an exception's entry writes none. -/
theorem flagWriters : Obligations.FlagWriters := by
  intro i s t h
  have hN := exec_same (p := .flagN) h (by decide)
  have hZ := exec_same (p := .flagZ) h (by decide)
  have hV := exec_same (p := .flagV) h (by decide)
  have hC := exec_same (p := .flagC) h (by decide)
  rw [flagN_mem_writes] at hN
  rw [flagZ_mem_writes] at hZ
  rw [flagV_mem_writes] at hV
  rw [flagC_mem_writes] at hC
  refine ⟨fun hk => ?_, fun hz => ?_, fun hzc => ?_⟩
  · exact ⟨hN (by simp [hk]), hZ (by simp [hk]), hV (by simp [hk]), hC (by simp [hk])⟩
  · exact ⟨hN (by simp [hz]), hV (by simp [hz]), hC (by simp [hz])⟩
  · exact ⟨hN (by simp [hzc]), hV (by simp [hzc])⟩

end Sys2Proof.Machine
end

section
/-! PROOFS. The decoder reads back what the encoder writes, whatever bytes follow: first the fields, then the EA
field, which leaves the Op field to `decodeOp`, then one case per instruction form (spec/30_encoding.md R80 to
R107). -/

namespace Sys2Proof

open Sys2Proof.Machine (hi_lo)
open Sys2Proof.Laws.EncodedLength (length_ea)

/-! ## Fields -/

@[simp] theorem hiNibble_nibbleByte (h k : BitVec 4) : hiNibble (nibbleByte h k) = h := by
  refine BitVec.eq_of_getLsbD_eq fun i hi => ?_
  have hlow : ¬4 + i < 4 := by omega
  simp only [hiNibble, nibbleByte, BitVec.getLsbD_extractLsb', BitVec.getLsbD_append, hi, hlow, decide_true,
    Bool.true_and, if_false, Nat.add_sub_cancel_left]

@[simp] theorem loNibble_nibbleByte (h k : BitVec 4) : loNibble (nibbleByte h k) = k := by
  refine BitVec.eq_of_getLsbD_eq fun i hi => ?_
  simp only [loNibble, nibbleByte, BitVec.getLsbD_extractLsb', BitVec.getLsbD_append, hi, decide_true,
    Bool.true_and, if_true, Nat.zero_add]

/-- A 16-bit field is read back from its two bytes (R57). -/
@[simp] theorem takeWord_wordBytes (w : Word) (rest : List Byte) : takeWord (wordBytes w ++ rest) = .ok (w, rest) := by
  simp only [wordBytes, List.cons_append, List.nil_append, takeWord, hi_lo]

theorem withWord_wordBytes (w : Word) (rest : List Byte) (f : Word → Instr) :
    withWord (wordBytes w ++ rest) f = .ok (f w, rest) := by
  simp only [withWord, takeWord_wordBytes]

theorem whenAssigned_of {c : Bool} (h : c = true) (d : Decoded Instr) : whenAssigned c d = d := by
  rw [whenAssigned, if_pos h]

/-- An instruction that one size only has, at that size. -/
theorem whenAssigned_size {c : Bool} (h : c = true) (sz : Size) (d : Decoded Instr) :
    whenAssigned (c && sz = sz) d = d := whenAssigned_of (by rw [h, decide_eq_true rfl]; rfl) d

/-! ## Classes of EA field -/

theorem isSource_of_isDest {ea : EA} (h : ea.isDest = true) (sz : Size) : ea.isSource sz = true := by
  cases ea with
  | imm8 | imm16 => cases h
  | reg | ind | disp8 | disp16 | preDec | postInc | abs8 | abs16 => rfl

theorem isSource_of_isMem {ea : EA} (h : ea.isMem = true) (sz : Size) : ea.isSource sz = true :=
  isSource_of_isDest (Machine.isDest_of_isMem h) sz

/-- The EA field that a control register instruction's immediate is. -/
def Imm.toEA : Imm → EA
  | .i8 v => .imm8 v
  | .i16 v => .imm16 v

theorem encodeImmEA_eq (imm : Imm) : encodeImmEA imm = encodeEA imm.size imm.toEA := by
  cases imm <;> rfl

theorem Imm.isSource_toEA (imm : Imm) : imm.toEA.isSource imm.size = true := by
  cases imm <;> rfl

/-! ## The general format -/

/-- An EA field is read back with its size, and leaves the decoder at the Op field (R81, R85, R86). -/
theorem decode_encodeEA {sz : Size} {ea : EA} (h : ea.isSource sz = true) (rest : List Byte) :
    decode (encodeEA sz ea ++ rest) = decodeOp sz ea rest := by
  cases ea with
  | reg r | ind r | preDec r | postInc r | disp8 _ r => cases sz <;> cases r <;> rfl
  | abs8 => cases sz <;> rfl
  | imm8 v =>
    cases sz with
    | b => rfl
    | w => cases h
  | disp16 d r =>
    have hd : decode (encodeEA sz (.disp16 d r) ++ rest) = decodeOp sz (.disp16 (hiByte d ++ loByte d) r) rest := by
      cases sz <;> cases r <;> rfl
    rwa [hi_lo] at hd
  | abs16 a =>
    have ha : decode (encodeEA sz (.abs16 a) ++ rest) = decodeOp sz (.abs16 (hiByte a ++ loByte a)) rest := by
      cases sz <;> rfl
    rwa [hi_lo] at ha
  | imm16 v =>
    cases sz with
    | b => cases h
    | w =>
      have hv : decode (encodeEA .w (.imm16 v) ++ rest) = decodeOp .w (.imm16 (hiByte v ++ loByte v)) rest := rfl
      rwa [hi_lo] at hv

/-- An instruction of the general format is read back where its Op field is. -/
theorem decode_general {sz : Size} {ea : EA} {op rest : List Byte} {i : Instr} (h : ea.isSource sz = true)
    (hop : decodeOp sz ea (op ++ rest) = .ok (i, rest)) :
    decode ((encodeEA sz ea ++ op) ++ rest) = .ok (i, rest) := by
  rw [List.append_assoc, decode_encodeEA h, hop]

/-- The Op field of an instruction that only a register or a memory operand has. -/
theorem decode_dest {sz : Size} {ea : EA} {op rest : List Byte} {i : Instr} (h : ea.isDest = true)
    (hop : decodeOp sz ea (op ++ rest) = whenAssigned ea.isDest (.ok (i, rest))) :
    decode ((encodeEA sz ea ++ op) ++ rest) = .ok (i, rest) :=
  decode_general (isSource_of_isDest h sz) (hop.trans (whenAssigned_of h _))

section
variable (sz : Size) (ea : EA) (rest : List Byte)

/-- Op bytes `1100 kkkk` to `1111 kkkk`: a bit number in the low half (R95). -/
theorem decodeOp_bsetImm (k : BitVec 4) :
    decodeOp sz ea (nibbleByte 0xC k :: rest) = whenAssigned ea.isDest (.ok (.bsetImm sz k ea, rest)) := by
  simp only [decodeOp, takeByte, hiNibble_nibbleByte, loNibble_nibbleByte]
  cases bit3 (nibbleByte 0xC k) <;> rfl

theorem decodeOp_bclrImm (k : BitVec 4) :
    decodeOp sz ea (nibbleByte 0xD k :: rest) = whenAssigned ea.isDest (.ok (.bclrImm sz k ea, rest)) := by
  simp only [decodeOp, takeByte, hiNibble_nibbleByte, loNibble_nibbleByte]
  cases bit3 (nibbleByte 0xD k) <;> rfl

theorem decodeOp_bnotImm (k : BitVec 4) :
    decodeOp sz ea (nibbleByte 0xE k :: rest) = whenAssigned ea.isDest (.ok (.bnotImm sz k ea, rest)) := by
  simp only [decodeOp, takeByte, hiNibble_nibbleByte, loNibble_nibbleByte]
  cases bit3 (nibbleByte 0xE k) <;> rfl

theorem decodeOp_btstImm (k : BitVec 4) :
    decodeOp sz ea (nibbleByte 0xF k :: rest) = whenAssigned ea.isDest (.ok (.btstImm sz k ea, rest)) := by
  simp only [decodeOp, takeByte, hiNibble_nibbleByte, loNibble_nibbleByte]
  cases bit3 (nibbleByte 0xF k) <;> rfl

variable {ea}

/-- Behind a register or a memory operand the Op codes that control register instructions share are bit
instructions (R95, R110). -/
theorem bitOrControl_dest (h : ea.isDest = true) (bit : Instr) (ctrl : Imm → Instr) :
    bitOrControl ea bit ctrl rest = .ok (bit, rest) := by
  cases ea with
  | imm8 | imm16 => cases h
  | reg | ind | disp8 | disp16 | preDec | postInc | abs8 | abs16 => rfl

theorem decodeOp_bsetReg (h : ea.isDest = true) (r : Reg) :
    decodeOp sz ea (codeByte 0b01001 r.toBits :: rest) = .ok (.bsetReg sz r ea, rest) := by
  rw [← bitOrControl_dest rest h (.bsetReg sz r ea) fun v => .orc v (CtrlReg.ofBits r.toBits)]
  cases r <;> rfl

theorem decodeOp_bclrReg (h : ea.isDest = true) (r : Reg) :
    decodeOp sz ea (codeByte 0b01011 r.toBits :: rest) = .ok (.bclrReg sz r ea, rest) := by
  rw [← bitOrControl_dest rest h (.bclrReg sz r ea) fun v => .andc v (CtrlReg.ofBits r.toBits)]
  cases r <;> rfl

theorem decodeOp_bnotReg (h : ea.isDest = true) (r : Reg) :
    decodeOp sz ea (codeByte 0b01101 r.toBits :: rest) = .ok (.bnotReg sz r ea, rest) := by
  rw [← bitOrControl_dest rest h (.bnotReg sz r ea) fun v => .xorc v (CtrlReg.ofBits r.toBits)]
  cases r <;> rfl

theorem decodeOp_movtpe (h : ea.isMem = true) (r : Reg) :
    decodeOp .b ea (0x00 :: codeByte 0b10010 r.toBits :: rest) = .ok (.movtpe r ea, rest) := by
  cases ea with
  | imm8 | imm16 | reg => cases h
  | ind | disp8 | disp16 | preDec | postInc | abs8 | abs16 => cases r <;> rfl

theorem decodeOp_movfpe (h : ea.isMem = true) (r : Reg) :
    decodeOp .b ea (0x00 :: codeByte 0b10000 r.toBits :: rest) = .ok (.movfpe ea r, rest) := by
  cases ea with
  | imm8 | imm16 | reg => cases h
  | ind | disp8 | disp16 | preDec | postInc | abs8 | abs16 => cases r <;> rfl

theorem storeOrXch_mem (h : ea.isMem = true) (r : Reg) :
    storeOrXch sz ea r rest = .ok (.movGStore sz r ea, rest) := by
  cases ea with
  | imm8 | imm16 | reg => cases h
  | ind | disp8 | disp16 | preDec | postInc | abs8 | abs16 => cases sz <;> rfl

end

/-- A control register instruction with an immediate. -/
theorem decode_control {imm : Imm} {op rest : List Byte} {i : Instr}
    (hop : decodeOp imm.size imm.toEA (op ++ rest) = .ok (i, rest)) :
    decode ((encodeImmEA imm ++ op) ++ rest) = .ok (i, rest) := by
  rw [encodeImmEA_eq]
  exact decode_general imm.isSource_toEA hop

/-- TRAPA's second byte (R104). -/
theorem decodeTrapa_nibbleByte (v : BitVec 4) (rest : List Byte) :
    decodeTrapa (nibbleByte 0x1 v :: rest) = .ok (.trapa v, rest) := by
  simp only [decodeTrapa, takeByte, hiNibble_nibbleByte, loNibble_nibbleByte]
  rfl

/-! ## Every instruction form -/

/-- The bytes of a well-formed instruction decode to it, whatever follows them (R80). -/
theorem decode_encode {i : Instr} (h : i.wellFormed = true) (rest : List Byte) :
    decode (encode i ++ rest) = .ok (i, rest) := by
  cases i with
  -- a source, and Rd or a control register in the Op byte
  | movGLoad sz ea r | addG sz ea r | adds sz ea r | addx sz ea r | sub sz ea r | subs sz ea r | subx sz ea r
  | mulxu sz ea r | divxu sz ea r | cmpG sz ea r | and sz ea r | or sz ea r | xor sz ea r | ldc sz ea r =>
    exact decode_general h (by cases r <;> rfl)
  -- a register or memory operand, and the Op byte alone
  | addQ sz k ea => exact decode_dest h (by cases k <;> rfl)
  | tst | neg | clr | shal | shar | shll | shlr | rotl | rotr | rotxl | rotxr | not =>
    exact decode_dest h rfl
  | tas ea => exact decode_general (isSource_of_isDest h .b) (whenAssigned_size h .b _)
  -- a bit number
  | bsetImm sz k ea => exact decode_dest h (decodeOp_bsetImm ..)
  | bclrImm sz k ea => exact decode_dest h (decodeOp_bclrImm ..)
  | bnotImm sz k ea => exact decode_dest h (decodeOp_bnotImm ..)
  | btstImm sz k ea => exact decode_dest h (decodeOp_btstImm ..)
  | bsetReg sz r ea => exact decode_general (isSource_of_isDest h sz) (decodeOp_bsetReg sz rest h r)
  | bclrReg sz r ea => exact decode_general (isSource_of_isDest h sz) (decodeOp_bclrReg sz rest h r)
  | bnotReg sz r ea => exact decode_general (isSource_of_isDest h sz) (decodeOp_bnotReg sz rest h r)
  | btstReg sz r ea => exact decode_dest h (by cases r <;> rfl)
  -- a memory operand
  | movGStore sz r ea =>
    exact decode_general (isSource_of_isMem h sz) (Eq.trans (by cases r <;> rfl) (storeOrXch_mem sz rest h r))
  | movGImm8 sz v ea => exact decode_general (isSource_of_isMem h sz) (whenAssigned_of h _)
  | movGImm16 v ea =>
    exact decode_general (isSource_of_isMem h .w) ((whenAssigned_size h .w _).trans (withWord_wordBytes ..))
  | cmpGImm imm ea =>
    cases imm with
    | i8 v => exact decode_general (isSource_of_isMem h .b) (whenAssigned_size h .b _)
    | i16 v =>
      exact decode_general (isSource_of_isMem h .w) ((whenAssigned_size h .w _).trans (withWord_wordBytes ..))
  | movtpe r ea => exact decode_general (isSource_of_isMem h .b) (decodeOp_movtpe rest h r)
  | movfpe ea r => exact decode_general (isSource_of_isMem h .b) (decodeOp_movfpe rest h r)
  | stc sz cr ea => exact decode_dest h (by cases cr <;> rfl)
  -- a register operand
  | xch rs r | dadd rs r | dsub rs r => exact decode_general rfl (by cases r <;> rfl)
  | swap | exts | extu => exact decode_general rfl rfl
  -- an immediate operand
  | andc imm cr | orc imm cr | xorc imm cr =>
    cases imm <;> cases cr <;> exact decode_control rfl
  -- the short formats
  | movE v r | cmpE v r => cases r <;> rfl
  | movI v r | cmpI v r =>
    conv_rhs => rw [← hi_lo v]
    cases r <;> rfl
  | movL sz _ r | movS sz r _ | movFLoad sz _ r | movFStore sz r _ => cases sz <;> cases r <;> rfl
  -- branches, calls and returns
  | bcc c d =>
    cases d with
    | d8 d => cases c <;> rfl
    | d16 d =>
      conv_rhs => rw [← hi_lo d]
      cases c <;> rfl
  | jmp target | jsr target =>
    cases target with
    | abs16 a =>
      conv_rhs => rw [← hi_lo a]
      rfl
    | ind r | disp8 d r => cases r <;> rfl
    | disp16 d r =>
      conv_rhs => rw [← hi_lo d]
      cases r <;> rfl
  | pjmp target | pjsr target =>
    cases target with
    | abs24 page a =>
      conv_rhs => rw [← hi_lo a]
      rfl
    | ind r => cases r <;> rfl
  | bsr d =>
    cases d with
    | d8 d => rfl
    | d16 d =>
      conv_rhs => rw [← hi_lo d]
      rfl
  | rtd k | prtd k | link k =>
    cases k with
    | i8 v => rfl
    | i16 v =>
      conv_rhs => rw [← hi_lo v]
      rfl
  | scb c r d => cases c <;> cases r <;> rfl
  -- formats of fixed bytes
  | trapa v => exact decodeTrapa_nibbleByte v rest
  | ldm | stm | rts | prts | trapvs | rte | unlk | sleep | nop => rfl

/-! ## Lengths -/

theorem eaLen_le (ea : EA) : Machine.eaLen ea ≤ 3 := by
  cases ea <;> exact Nat.le_of_ble_eq_true rfl

/-- K + J of the general format (R81, R84). -/
theorem length_general_le (sz : Size) (ea : EA) {op : List Byte} (h : op.length ≤ 3) :
    (encodeEA sz ea ++ op).length ≤ maxLength := by
  have hk := eaLen_le ea
  rw [length_ea, maxLength]
  omega

/-- No instruction is longer than six bytes (R80). -/
theorem encode_length_le (i : Instr) : (encode i).length ≤ maxLength := by
  cases i with
  | movGLoad | addG | adds | addx | sub | subs | subx | mulxu | divxu | cmpG | and | or | xor | ldc
  | addQ | tst | neg | clr | tas | shal | shar | shll | shlr | rotl | rotr | rotxl | rotxr | not
  | bsetImm | bclrImm | bnotImm | btstImm | bsetReg | bclrReg | bnotReg | btstReg
  | movGStore | movGImm8 | movGImm16 | movtpe | movfpe | stc | xch | dadd | dsub | swap | exts | extu =>
    exact length_general_le _ _ (Nat.le_of_ble_eq_true rfl)
  | cmpGImm imm => cases imm <;> exact length_general_le _ _ (Nat.le_of_ble_eq_true rfl)
  | andc imm | orc imm | xorc imm => cases imm <;> exact Nat.le_of_ble_eq_true rfl
  | bcc _ d | bsr d => cases d <;> exact Nat.le_of_ble_eq_true rfl
  | jmp target | jsr target | pjmp target | pjsr target => cases target <;> exact Nat.le_of_ble_eq_true rfl
  | rtd k | prtd k | link k => cases k <;> exact Nat.le_of_ble_eq_true rfl
  | movE | movI | cmpE | cmpI | movL | movS | movFLoad | movFStore | ldm | stm | rts | prts | scb
  | trapa | trapvs | rte | unlk | sleep | nop => exact Nat.le_of_ble_eq_true rfl

end Sys2Proof

namespace Sys2Proof.Machine

/-! ## Fetching -/

/-- Code bytes that stand in memory, below H'10000 and outside the stale bytes, are the first bytes fetched
(R26, R70). -/
theorem fetchFrom_append {s : State} {l : List Byte} {n off : Nat} (hn : l.length ≤ n)
    (hend : off + l.length ≤ 65536)
    (hmem : ∀ k (h : k < l.length), s.mem.read (s.phys .code (BitVec.ofNat 16 (off + k))) = l[k] ∧
      s.phys .code (BitVec.ofNat 16 (off + k)) ∉ s.stale) :
    ∃ rest, fetchFrom s n off = l ++ rest := by
  induction l generalizing n off with
  | nil => exact ⟨_, rfl⟩
  | cons b l ih =>
    rw [List.length_cons] at hn hend
    obtain ⟨n, rfl⟩ : ∃ m, n = m + 1 := ⟨n - 1, by omega⟩
    obtain ⟨hb, hfresh⟩ := hmem 0 (Nat.zero_lt_succ _)
    obtain ⟨rest, hrest⟩ := ih (n := n) (off := off + 1) (by omega) (by omega) fun k hk => by
      have hk' := hmem (k + 1) (Nat.succ_lt_succ hk)
      rwa [Nat.add_right_comm]
    refine ⟨rest, ?_⟩
    rw [fetchFrom, if_pos ⟨by omega, hfresh⟩, hrest]
    exact congrArg (· :: (l ++ rest)) hb

/-- Settles O6: the bytes fetched begin with the instruction's, which decode to it whatever follows them. -/
theorem stepRunsInstructionInMemory : Obligations.StepRunsInstructionInMemory := by
  intro s i hw ha hq hend hmem
  have haddr (k : Nat) : BitVec.ofNat 16 (s.pc.toNat + k) = s.pc + BitVec.ofNat 16 k := by
    rw [BitVec.ofNat_add, BitVec.ofNat_toNat, BitVec.setWidth_eq]
  obtain ⟨rest, hf⟩ := fetchFrom_append (encode_length_le i) hend fun k hk => by
    rw [haddr]
    exact hmem k hk
  have hd : decode s.fetched = .ok (i, rest) := by rw [State.fetched, hf, decode_encode hw]
  exact stepRunsDecoded s i rest ha hq hd

end Sys2Proof.Machine
end

section
/-! PROOFS. The laws of memory as the statements put them (spec/20_memory.md R51, R56): a canonical memory is
determined by what it reads as, and every step leads from a well-formed state to one. -/

namespace Sys2Proof.Machine

/-- Settles O13: the state that a step answers is reached by sound operations, the taken interrupt aside, and what is
sound keeps the canonical form of memory and the addresses of the stale bytes. -/
theorem stepKeepsWellFormed : Obligations.StepKeepsWellFormed := by
  intro s t hs h
  obtain ⟨waiting, hsound⟩ := sound_step h
  exact hsound.wf hs

/-! ## Canonical memories are determined by their bytes -/

/-- The first listed byte is not what an unlisted address reads as, so a memory that lists only addresses above it
reads differently there. -/
theorem read_ne_of_first_below {k : Nat} {x : Byte} {m n : Memory} (hx : x ≠ unlistedByte)
    (hn : ∀ c ∈ n, k < c.1) : Memory.read ((k, x) :: m) k ≠ Memory.read n k := by
  rwa [read_below hn, read_cons, if_pos rfl]

/-- Behind a first entry with the same address, memories read alike where the tails do. -/
theorem read_tail_eq {k : Nat} {x y : Byte} {m n : Memory} (hm : ∀ c ∈ m, k < c.1) (hn : ∀ c ∈ n, k < c.1)
    (h : ∀ a, Memory.read ((k, x) :: m) a = Memory.read ((k, y) :: n) a) (a : Nat) : m.read a = n.read a := by
  by_cases e : k = a
  · subst e
    rw [read_below hm, read_below hn]
  · simpa only [read_cons, if_neg e] using h a

/-- Canonical memories that read alike everywhere are the same list of bytes (R56). -/
theorem eq_of_read_eq {m n : Memory} (hm : m.wf = true) (hn : n.wf = true) (h : ∀ a, m.read a = n.read a) :
    m = n := by
  induction m generalizing n with
  | nil =>
    cases n with
    | nil => rfl
    | cons d n =>
      obtain ⟨-, hy, -, -⟩ := (wf_cons_iff ..).mp hn
      exact absurd (h d.1).symm (read_ne_of_first_below hy (by simp))
  | cons c m ih =>
    obtain ⟨k, x⟩ := c
    obtain ⟨hkm, hx, -, hwm⟩ := (wf_cons_iff ..).mp hm
    cases n with
    | nil => exact absurd (h k) (read_ne_of_first_below hx (by simp))
    | cons d n =>
      obtain ⟨j, y⟩ := d
      obtain ⟨hjn, hy, -, hwn⟩ := (wf_cons_iff ..).mp hn
      obtain hlt | rfl | hgt := Nat.lt_trichotomy k j
      · refine absurd (h k) (read_ne_of_first_below hx ?_)
        exact List.forall_mem_cons.mpr ⟨hlt, fun c hc => hlt.trans (hjn c hc)⟩
      · have hxy : x = y := by simpa using h k
        rw [hxy, ih hwm hwn (read_tail_eq hkm hjn h)]
      · refine absurd (h j).symm (read_ne_of_first_below hy ?_)
        exact List.forall_mem_cons.mpr ⟨hgt, fun c hc => hgt.trans (hkm c hc)⟩

/-- Settles O12, from the laws of a single write and the extensionality of the canonical form. -/
theorem memoryLaws : Obligations.MemoryLaws := by
  refine ⟨fun m a b v hm => ?_, fun m a v hm ha => wf_write hm ha v, fun m n hm hn h => eq_of_read_eq hm hn h⟩
  split
  next e => rw [e, read_write_same hm]
  next e => exact read_write_other m v e

end Sys2Proof.Machine
end

section
/-! PROOFS. Word accesses at odd addresses (spec/20_memory.md R58, R63): where an operand's word or the stack's raises
AddressError, and how the exception's entry then ends (spec/60_exceptions.md R312, R318, R326). -/

namespace Sys2Proof.Machine

open Sys2Proof.Laws

/-- Every instruction has the length of its row (R84). -/
theorem length_eq_lengthOf (i : Instr) : i.length = EncodedLength.lengthOf i := by
  cases i with
  | movGLoad | movGStore | movGImm8 | movGImm16 | movtpe | movfpe | addG | addQ | adds | addx | sub | subs | subx
  | mulxu | divxu | cmpG | tst | neg | clr | tas | shal | shar | shll | shlr | rotl | rotr | rotxl | rotxr
  | and | or | xor | not | bsetImm | bsetReg | bclrImm | bclrReg | btstImm | btstReg | bnotImm | bnotReg | ldc | stc =>
    exact EncodedLength.length_ea ..
  | cmpGImm imm dst => exact EncodedLength.cmpGImm imm dst
  | bcc _ disp | bsr disp => cases disp <;> rfl
  | jmp target | jsr target | pjmp target | pjsr target => cases target <;> rfl
  | rtd k | prtd k | link k | andc k | orc k | xorc k => cases k <;> rfl
  | movE | movI | movL | movS | movFLoad | movFStore | ldm | stm | xch | swap | dadd | dsub | cmpE | cmpI | exts | extu
  | rts | prts | scb | trapa | trapvs | rte | unlk | sleep | nop => rfl

/-- Moving the PC past the instruction before its EA field is resolved moves the PC and nothing else. -/
theorem resolve_advance_state (sz : Size) (ea : EA) (s : State) (n : Nat) :
    (resolve sz ea (s.advance n)).2 = (resolve sz ea s).2.advance n := by
  cases ea <;> rfl

theorem canAccess_congr {s t : State} (h : ∀ k off, t.phys k off = s.phys k off) (l : Loc) (sz : Size) :
    t.canAccess l sz = s.canAccess l sz := by
  cases l <;> cases sz <;> simp only [State.canAccess, h]

/-- Whether an operand can be accessed does not depend on the PC. -/
theorem canAccess_resolve_advance (sz : Size) (ea : EA) (s : State) (n : Nat) :
    (resolve sz ea (s.advance n)).2.canAccess (resolve sz ea (s.advance n)).1 sz =
      (resolve sz ea s).2.canAccess (resolve sz ea s).1 sz := by
  rw [resolve_advance]
  exact canAccess_congr (by simp) _ _

/-- Every bit number lies in a word (R230). -/
theorem beyond_word (k : BitVec 4) : beyond .w k = false :=
  decide_eq_false (Nat.not_le.mpr k.isLt)

theorem refuseIf_of_false {α : Type} {c : Bool} {r : Refusal} {k : Body α} (h : c = false) :
    refuseIf c r k = k := by
  rw [h, refuseIf_false]

/-- A body that ends early goes no further. -/
theorem bind_of_error {α β : Type} {b : Body α} {e : Stop} {f : α → Body β} (h : b = .error e) :
    (b >>= f) = .error e := by
  rw [h]
  rfl

/-! ## The AddressError exception -/

theorem raise_addressError_none {s : State} (h : s.params.vecAddrErr = none) :
    s.raise .addressError = .fault .addressError := by
  simp only [State.raise, State.vectorOf, h, Exn.fault]

theorem raise_addressError_some {s : State} {e : Byte} (h : s.params.vecAddrErr = some e) :
    s.raise .addressError = s.draw.2.enter e s.draw.1 := by
  simp only [State.raise, State.vectorOf, h, State.savedPC]

/-- An odd SP makes the entry of AddressError a double fault (R326). -/
theorem raise_addressError_odd {s : State} (h : ¬s.spEven) (hv : s.params.vecAddrErr ≠ none) :
    s.raise .addressError = .fault .doubleFault := by
  obtain ⟨e, he⟩ := Option.ne_none_iff_exists'.mp hv
  rw [raise_addressError_some he]
  exact enter_odd (s := s.draw.2) h ..

/-- An entry depends on neither the PC nor the free values that the interrupted state holds. -/
theorem Entered.of_moved {p t : State} {npc : Word} {k : Nat} {e : Byte} {w : Word}
    (h : Entered { p with pc := npc, freeIdx := k } t e w) : Entered p t e w :=
  ⟨h.sp, h.pc_pushed, h.cp_pushed, h.sr_pushed, h.pc_max, h.cp_max, h.pc_min, h.cp_min, h.regs, h.mem, h.pages,
    h.refetched⟩

/-- An instruction that ends in AddressError in `p`, the PC past it, does what R312, R318 and R326 say, where the
effects before it left alone what an entry saves or keeps. -/
theorem raisesAddressError_of {i : Instr} {s p : State} {k : Nat}
    (hx : exec i s = State.raise { p with pc := s.npc i, freeIdx := k } .addressError)
    (hparams : p.params = s.params) (hcp : p.cp = s.cp) (hsr : p.sr = s.sr) (hasleep : p.asleep = s.asleep)
    (hirq : p.irq = s.irq) : raisesAddressError i s p := by
  refine ⟨fun hv => ?_, fun e he => ?_⟩
  · rw [hx]
    exact raise_addressError_none (by rw [← hv, ← hparams])
  rw [hx, raise_addressError_some (e := e) (by rw [← he, ← hparams])]
  generalize hu : (State.draw { p with pc := s.npc i, freeIdx := k }).2 = u
  generalize (State.draw { p with pc := s.npc i, freeIdx := k }).1 = saved
  have hframe : s.storable (s.npc i) p.frameBytes ↔ u.storable u.pc u.frameBytes := by
    subst hu
    exact ⟨storable_congr hparams hcp, storable_congr hparams.symm hcp.symm⟩
  refine ⟨fun heven => ⟨fun hw => ?entered, fun hw => ?refused⟩, fun hodd => ?double⟩
  case entered =>
    obtain ⟨t, ht, hentered, htsr, htasleep, htirq⟩ :=
      enter_spec (s := u) (by subst hu; exact heven) (hframe.mp hw) e saved
    subst hu
    exact ⟨t, saved, ht, Entered.of_moved (p := p) hentered, traceCleared_of (htsr.trans (congrArg srClearT hsr)),
      htasleep.trans hasleep, htirq.trans hirq⟩
  case refused => exact enter_blocked (by subst hu; exact heven) (hframe.not.mp hw) ..
  case double =>
    have hnot : ¬p.spEven := by
      rw [State.spEven]
      omega
    exact enter_odd (by subst hu; exact hnot) ..

section
variable {i : Instr} {s : State} {ea : EA} {n : Nat}

/-- The state in which an instruction of the general format raises an exception on its operand. -/
theorem resolve_advance_moved (hl : i.length = n) (sz : Size) :
    (resolve sz ea (s.advance n)).2 =
      { (resolve sz ea s).2 with pc := s.npc i, freeIdx := (resolve sz ea s).2.freeIdx } := by
  rw [resolve_advance_state, npc_of_length hl, State.advance, resolve_pc]

/-- An instruction of the general format whose body ends at its word operand. -/
theorem raisesAddressError_of_operand {b : Body State} (hx : exec i s = finish b)
    (hl : EncodedLength.lengthOf i = n)
    (hb : b = .error (.raised .addressError (resolve .w ea (s.advance n)).2)) :
    raisesAddressError i s (resolve .w ea s).2 := by
  have hlen : i.length = n := (length_eq_lengthOf i).trans hl
  refine raisesAddressError_of (k := (resolve .w ea s).2.freeIdx) ?_ (by simp) (by simp) (by simp) (by simp) (by simp)
  rw [hx, hb, finish_raised, resolve_advance_moved hlen]

end

/-! ## Word operands -/

section
variable {i : Instr} {s : State} {ea : EA} {r : Reg} {n : Nat}
  (h : (resolve .w ea s).2.canAccess (resolve .w ea s).1 .w = false)
include h

theorem odd_intoReg {op : State → Word → Word → Alu 16} (ho : overlaps ea [r] = false)
    (hx : exec i s = finish (intoReg .w ea r s op)) (hl : EncodedLength.lengthOf i = eaLen ea + 1) :
    raisesAddressError i s (resolve .w ea s).2 :=
  raisesAddressError_of_operand hx hl (intoReg_odd ho rfl ((canAccess_resolve_advance ..).trans h))

theorem odd_intoRegWord {op : Word → Word → Word} (ho : overlaps ea [r] = false)
    (hx : exec i s = finish (intoRegWord .w ea r s op)) (hl : EncodedLength.lengthOf i = eaLen ea + 1) :
    raisesAddressError i s (resolve .w ea s).2 := by
  refine raisesAddressError_of_operand hx hl ?_
  simp only [intoRegWord, ho, refuseIf_false, source_odd ((canAccess_resolve_advance ..).trans h), bind, Except.bind]

theorem odd_modify {op : State → Word → Alu 16}
    (hx : exec i s = finish (modify .w ea s op)) (hl : EncodedLength.lengthOf i = eaLen ea + 1) :
    raisesAddressError i s (resolve .w ea s).2 :=
  raisesAddressError_of_operand hx hl (modify_odd rfl ((canAccess_resolve_advance ..).trans h))

theorem odd_examine {op : State → Word → Alu 16}
    (hx : exec i s = finish (examine .w ea n s op)) (hl : EncodedLength.lengthOf i = eaLen ea + n) :
    raisesAddressError i s (resolve .w ea s).2 :=
  raisesAddressError_of_operand hx hl (examine_odd rfl ((canAccess_resolve_advance ..).trans h))

theorem odd_moveOut {v : State → Word}
    (hx : exec i s = finish (moveOut .w ea n s v)) (hl : EncodedLength.lengthOf i = eaLen ea + n) :
    raisesAddressError i s (resolve .w ea s).2 :=
  raisesAddressError_of_operand hx hl (moveOut_odd rfl ((canAccess_resolve_advance ..).trans h))

/-- A bit instruction of word size: every bit number lies in the operand. -/
theorem odd_changeBit {k : BitVec 4} {change : Word → Word → Word}
    (hx : exec i s = finish (changeBit .w k ea s change)) (hl : EncodedLength.lengthOf i = eaLen ea + 1) :
    raisesAddressError i s (resolve .w ea s).2 :=
  odd_modify h (hx.trans (congrArg finish (refuseIf_of_false (beyond_word k)))) hl

theorem odd_testBit {k : BitVec 4}
    (hx : exec i s = finish (testBit .w k ea s)) (hl : EncodedLength.lengthOf i = eaLen ea + 1) :
    raisesAddressError i s (resolve .w ea s).2 :=
  odd_examine h (hx.trans (congrArg finish (refuseIf_of_false (beyond_word k)))) hl

/-- The word forms of MULXU and DIVXU, whose pair the addressing mode does not update. -/
theorem odd_mulxuWord {rd low : Reg} (hp : pairLow? rd = some low) (ho : overlaps ea [rd, low] = false) :
    mulxuWord ea rd s = .error (.raised .addressError (resolve .w ea (s.advance (eaLen ea + 1))).2) := by
  simp only [mulxuWord, hp, ho, refuseIf_false, source_odd ((canAccess_resolve_advance ..).trans h), bind, Except.bind]

theorem odd_divxuWord {rd low : Reg} (hp : pairLow? rd = some low) (ho : overlaps ea [rd, low] = false) :
    divxuWord ea rd s = .error (.raised .addressError (resolve .w ea (s.advance (eaLen ea + 1))).2) := by
  simp only [divxuWord, hp, ho, refuseIf_false, source_odd ((canAccess_resolve_advance ..).trans h), bind, Except.bind]

/-- CLR only writes its operand. -/
theorem odd_clr : raisesAddressError (.clr .w ea) s (resolve .w ea s).2 :=
  raisesAddressError_of_operand rfl rfl (bind_of_error (st_odd ((canAccess_resolve_advance ..).trans h) _))

/-- LDC of SR, the one control register of word size (R31). -/
theorem odd_ldc : raisesAddressError (.ldc .w ea .sr) s (resolve .w ea s).2 :=
  raisesAddressError_of_operand rfl rfl (bind_of_error (source_odd ((canAccess_resolve_advance ..).trans h)))

/-- STC has drawn the reserved bits of SR before it stores (R301). -/
theorem odd_stc : raisesAddressError (.stc .w .sr ea) s (resolve .w ea s).2 := by
  rw [← canAccess_resolve_advance .w ea s (eaLen ea + 1)] at h
  have hlen : (Instr.stc .w .sr ea).length = eaLen ea + 1 := length_eq_lengthOf _
  refine raisesAddressError_of (k := (resolve .w ea s).2.freeIdx + 1) ?_ (by simp) (by simp) (by simp) (by simp)
    (by simp)
  calc exec (.stc .w .sr ea) s
      = State.raise (resolve .w ea (s.advance (eaLen ea + 1))).2.draw.2 .addressError :=
        congrArg finish (st_odd (s := (resolve .w ea (s.advance (eaLen ea + 1))).2.draw.2) h _)
    _ = _ := by rw [resolve_advance_moved hlen]; rfl

/-- ADD:Q draws a free value behind the operand's access only (R162). -/
theorem odd_addQ (q : QuickImm) : raisesAddressError (.addQ .w q ea) s (resolve .w ea s).2 :=
  raisesAddressError_of_operand rfl rfl (bind_of_error (modify_odd rfl ((canAccess_resolve_advance ..).trans h)))

end

/-- The short forms of MOV resolve no EA field: nothing is changed before the access. -/
theorem odd_shortLoad {i : Instr} {s : State} (hl : EncodedLength.lengthOf i = 2) {l : Loc} {f : Word → Body State}
    (hx : exec i s = finish ((s.advance 2).ld l .w >>= f)) (h : s.canAccess l .w = false) :
    raisesAddressError i s s := by
  refine raisesAddressError_of (k := s.freeIdx) ?_ rfl rfl rfl rfl rfl
  rw [hx, ld_odd (s := s.advance 2) ((canAccess_congr (by simp) ..).trans h), State.npc, length_eq_lengthOf, hl]
  rfl

theorem odd_shortStore {i : Instr} {s : State} (hl : EncodedLength.lengthOf i = 2) {l : Loc} {v : Word}
    {f : State → Body State} (hx : exec i s = finish ((s.advance 2).st l .w v >>= f)) (h : s.canAccess l .w = false) :
    raisesAddressError i s s := by
  refine raisesAddressError_of (k := s.freeIdx) ?_ rfl rfl rfl rfl rfl
  rw [hx, st_odd (s := s.advance 2) ((canAccess_congr (by simp) ..).trans h), State.npc, length_eq_lengthOf, hl]
  rfl

/-- Settles O23: each form ends at the access of its operand, in the state that the addressing mode has made. -/
theorem oddWordOperand : Obligations.OddWordOperand := by
  refine ⟨fun ea r m low v w q k s _ ho hm hpair h => ?general,
    fun x r s => ⟨fun h => ⟨?movL, ?movS⟩, fun h => ⟨?movFLoad, ?movFStore⟩⟩⟩
  case movL => exact odd_shortLoad rfl rfl h
  case movS => exact odd_shortStore rfl rfl h
  case movFLoad => exact odd_shortLoad rfl rfl h
  case movFStore => exact odd_shortStore rfl rfl h
  case general =>
    have free {b : Body State} : finish (refuseIf (overlaps ea [r]) .registerOverlap b) = finish b := by
      rw [ho, refuseIf_false]
    simp only [List.forall_mem_cons]
    exact ⟨odd_intoReg h ho rfl rfl, odd_moveOut h free rfl, odd_moveOut h rfl rfl, odd_moveOut h rfl rfl,
      -- ADD:G to CMP:G
      odd_intoReg h ho rfl rfl, odd_addQ h q, odd_intoRegWord h ho rfl rfl, odd_intoReg h ho rfl rfl,
      odd_intoReg h ho rfl rfl, odd_intoRegWord h ho rfl rfl, odd_intoReg h ho rfl rfl, odd_examine h free rfl,
      odd_examine h rfl rfl,
      -- TST, NEG, CLR, the shifts and rotates
      odd_examine h rfl rfl, odd_modify h rfl rfl, odd_clr h, odd_modify h rfl rfl, odd_modify h rfl rfl,
      odd_modify h rfl rfl, odd_modify h rfl rfl, odd_modify h rfl rfl, odd_modify h rfl rfl, odd_modify h rfl rfl,
      odd_modify h rfl rfl,
      -- AND, OR, XOR, NOT, the bit instructions
      odd_intoReg h ho rfl rfl, odd_intoReg h ho rfl rfl, odd_intoReg h ho rfl rfl, odd_modify h rfl rfl,
      odd_changeBit h rfl rfl, odd_changeBit h free rfl, odd_changeBit h rfl rfl, odd_changeBit h free rfl,
      odd_testBit h rfl rfl, odd_testBit h free rfl, odd_changeBit h rfl rfl, odd_changeBit h free rfl,
      -- MULXU, DIVXU, LDC, STC
      raisesAddressError_of_operand rfl rfl (odd_mulxuWord h hm hpair),
      raisesAddressError_of_operand rfl rfl (odd_divxuWord h hm hpair), odd_ldc h, odd_stc h, List.forall_mem_nil _⟩

end Sys2Proof.Machine
end

section
/-! PROOFS. The stack at an odd SP (spec/20_memory.md R58, R63): a body whose first access is a push or a pop ends in
AddressError with SP still odd, so that the exception's own entry is a double fault (spec/60_exceptions.md R318,
R326). -/

namespace Sys2Proof.Machine

/-- A body that ends in AddressError at an odd SP. -/
def Body.misaligned {α : Type} (s : State) (b : Body α) : Prop :=
  ∃ u, b = .error (.raised .addressError u) ∧ u.params = s.params ∧ ¬u.spEven

/-- What an instruction with such a body does (R318, R326). -/
theorem Body.misaligned.finish_eq {s : State} {b : Body State} (h : b.misaligned s) :
    (s.params.vecAddrErr = none → finish b = .fault .addressError) ∧
      (s.params.vecAddrErr ≠ none → finish b = .fault .doubleFault) := by
  obtain ⟨u, rfl, hp, hodd⟩ := h
  rw [finish_raised, ← hp]
  exact ⟨raise_addressError_none, raise_addressError_odd hodd⟩

theorem Body.misaligned.bind {α β : Type} {s : State} {b : Body α} (h : b.misaligned s) (f : α → Body β) :
    Body.misaligned s (b >>= f) := by
  obtain ⟨u, hb, hu⟩ := h
  exact ⟨u, bind_of_error hb, hu⟩

/-! ## Pushes and pops -/

section
variable {s : State} (h : ¬s.spEven)
include h

theorem misaligned_push16 (v : Word) : (s.push16 v).misaligned s :=
  ⟨_, push16_odd h v, rfl, by rwa [State.spEven, sp_setReg, toNat_sub_two_mod]⟩

theorem misaligned_pop16 : s.pop16.misaligned s := ⟨s, pop16_odd h, rfl, h⟩

theorem misaligned_popPC : s.popPC.misaligned s := (misaligned_pop16 h).bind _

theorem misaligned_popCP : s.popCP.misaligned s := (misaligned_pop16 h).bind _

theorem misaligned_pushFrame (pc : Word) : (s.pushFrame pc).misaligned s := (misaligned_push16 h pc).bind _

theorem misaligned_returnFromException : s.returnFromException.misaligned s := (misaligned_pop16 h).bind _

/-- LDM and STM with a register in the list. -/
theorem misaligned_popRegs {l : List Reg} (hl : l ≠ []) : (popRegs l s).misaligned s := by
  cases l with
  | nil => exact absurd rfl hl
  | cons i rest => exact (misaligned_pop16 h).bind _

theorem misaligned_pushRegs {l : List Reg} (hl : l ≠ []) : (pushRegs l s).misaligned s := by
  cases l with
  | nil => exact absurd rfl hl
  | cons i rest => exact (misaligned_push16 h _).bind _

/-- An interrupt's entry stacks its frame first (R330). -/
theorem takeIrq_odd (q : Irq) (others : List Irq) : s.takeIrq q others = .fault .doubleFault := by
  have hf := pushFrame_odd (s := { s with irq := others, asleep := false }) h s.pc
  simp only [State.takeIrq, State.enterIrq, hf, entryStopped]

end

/-- Every register has a bit in the list of LDM and STM, and every bit a register (R24). -/
theorem listedRegs_ne_nil {list : Byte} (h : list ≠ 0) : listedRegs list ≠ [] := by
  intro hnil
  have hbit (r : Reg) : list.getLsbD r.toBits.toNat = false := by
    have hr : r ∈ allRegs := by cases r <;> decide
    simpa using List.filter_eq_nil_iff.mp hnil r hr
  refine h (BitVec.eq_of_getLsbD_eq fun k hk => ?_)
  have hreg := hbit (Reg.ofBits (BitVec.ofNat 3 k))
  interval_cases k <;> exact hreg

/-- A page jump that has a target and runs in maximum mode. -/
theorem maxModeOnly_of {s : State} (h : s.params.maxMode = true) (b : Body State) : maxModeOnly s b = b := by
  rw [maxModeOnly, h, Bool.not_true, refuseIf_false]

theorem misaligned_execPjsr {s : State} {g : PageEA} (hmax : s.params.maxMode = true)
    (hg : (s.pageTarget g).isSome = true) (h : ¬s.spEven) :
    ∃ b, exec (.pjsr g) s = finish b ∧ b.misaligned s := by
  obtain ⟨target, ht⟩ := Option.isSome_iff_exists.mp hg
  refine ⟨_, congrArg finish ((maxModeOnly_of hmax _).trans (by rw [ht])), ?_⟩
  exact (misaligned_push16 (s := s.advance (pageLen g)) h _).bind _

/-! ## Every user of the stack -/

/-- Settles O24: the first access of each of these instructions is at the odd SP. -/
theorem oddStackPointer : Obligations.OddStackPointer := by
  intro s v d j g m list stops
  have stops_of {i : Instr} {b : Body State} (hx : exec i s = finish b) (hb : b.misaligned s) : stops i := by
    dsimp only [stops]
    rw [hx]
    exact hb.finish_eq
  refine ⟨fun hsp => ?sp, fun hfp => ?unlk⟩
  case sp =>
    have hodd : ¬s.spEven := by
      rw [State.spEven]
      omega
    have hadv (n : Nat) : ¬(s.advance n).spEven := hodd
    refine ⟨?plain, fun hmax hg => ?page, fun hlist h7 => ?lists, fun hirq => ?irq⟩
    case plain =>
      simp only [List.forall_mem_cons]
      exact ⟨stops_of rfl ((misaligned_pushFrame (hadv 2) _).bind _),
        stops_of rfl (misaligned_returnFromException (hadv 1)),
        stops_of rfl ((misaligned_push16 (hadv _) _).bind _), stops_of rfl ((misaligned_push16 (hadv _) _).bind _),
        stops_of rfl (misaligned_popPC (hadv 1)), stops_of rfl ((misaligned_popPC (hadv _)).bind _),
        stops_of rfl ((misaligned_push16 (hadv _) _).bind _), List.forall_mem_nil _⟩
    case page =>
      obtain ⟨b, hx, hb⟩ := misaligned_execPjsr hmax hg hodd
      simp only [List.forall_mem_cons]
      exact ⟨stops_of hx hb,
        stops_of (congrArg finish (maxModeOnly_of hmax _)) ((misaligned_popCP (hadv 2)).bind _),
        stops_of (congrArg finish (maxModeOnly_of hmax _)) ((misaligned_popCP (hadv _)).bind _),
        List.forall_mem_nil _⟩
    case lists =>
      have hne := listedRegs_ne_nil hlist
      have hldm : (list.getLsbD 7 && decide (s.params.ldmR7 = .refuse)) = false := by rw [h7, Bool.false_and]
      simp only [List.forall_mem_cons]
      exact ⟨stops_of (congrArg finish (refuseIf_of_false hldm)) (misaligned_popRegs (hadv 2) hne),
        stops_of (congrArg finish (refuseIf_of_false h7))
          (misaligned_pushRegs (hadv 2) (List.reverse_ne_nil_iff.mpr hne)), List.forall_mem_nil _⟩
    case irq =>
      obtain ⟨⟨q, others⟩, hq⟩ := Option.ne_none_iff_exists'.mp hirq
      simp only [step, runStep, hq]
      exact takeIrq_odd hodd q others
  case unlk =>
    have hodd : ¬((s.advance 1).setReg .r7 (s.reg .r6)).spEven := by
      rw [State.spEven, sp_setReg]
      omega
    exact stops_of rfl ((misaligned_pop16 hodd).bind _)

end Sys2Proof.Machine
end

section
/-! PROOFS. Instructions whose bytes end too early: the decoder reads its bytes from the front, so that the beginning
of an instruction is no other instruction and not unassigned, and a step whose fetch ends inside an instruction is
refused (spec/10_state.md R26; spec/20_memory.md R70; spec/30_encoding.md R80). -/

namespace Sys2Proof

/-! ## The decoder reads from the front -/

/-- What a decoding step answers, with more bytes left unread. -/
def followedBy {α : Type} (rest : List Byte) : Decoded α → Decoded α
  | .ok (v, t) => .ok (v, t ++ rest)
  | .error e => .error e

/-- `r'` is what a step answers that has `rest` behind the bytes for which it answers `r`: the same, unless it lacked
bytes. -/
def Agrees {α : Type} (rest : List Byte) (r r' : Decoded α) : Prop :=
  r = .error .truncated ∨ r' = followedBy rest r

section
variable {α : Type} (rest t : List Byte)

@[simp] theorem agrees_ok (v : α) : Agrees rest (.ok (v, t)) (.ok (v, t ++ rest)) := .inr rfl

@[simp] theorem agrees_truncated (r : Decoded α) : Agrees rest (.error .truncated) r := .inl rfl

@[simp] theorem agrees_unassigned : Agrees (α := α) rest (.error .unassigned) (.error .unassigned) := .inr rfl

@[simp] theorem agrees_whenAssigned {r r' : Decoded Instr} {c : Bool} (h : Agrees rest r r') :
    Agrees rest (whenAssigned c r) (whenAssigned c r') := by
  cases c
  · exact .inr rfl
  · exact h

/-- A step that goes on behind the first byte agrees where what follows does. -/
theorem agrees_of_cons {d : List Byte → Decoded α} (hnil : d [] = .error .truncated)
    (hcons : ∀ b t, Agrees rest (d (b :: t)) (d (b :: (t ++ rest)))) : Agrees rest (d t) (d (t ++ rest)) := by
  cases t with
  | nil => exact .inl hnil
  | cons b t => exact hcons b t

@[simp] theorem agrees_withByte (f : Byte → Instr) : Agrees rest (withByte t f) (withByte (t ++ rest) f) :=
  agrees_of_cons (d := (withByte · f)) rest t rfl fun _ _ => .inr rfl

@[simp] theorem agrees_withWord (f : Word → Instr) : Agrees rest (withWord t f) (withWord (t ++ rest) f) :=
  agrees_of_cons (d := (withWord · f)) rest t rfl fun b t =>
    agrees_of_cons (d := fun t => withWord (b :: t) f) rest t rfl fun _ _ => .inr rfl

/-! ## The parts of the decoder -/

/-- A field read in front of the end of a step. -/
theorem agrees_ext8 {f : Byte → α} :
    Agrees rest (match takeByte t with | .ok (d, t) => .ok (f d, t) | .error e => .error e)
      (match takeByte (t ++ rest) with | .ok (d, t) => .ok (f d, t) | .error e => .error e) := by
  cases t with
  | nil => exact .inl rfl
  | cons b t => exact .inr rfl

theorem agrees_ext16 {f : Word → α} :
    Agrees rest (match takeWord t with | .ok (d, t) => .ok (f d, t) | .error e => .error e)
      (match takeWord (t ++ rest) with | .ok (d, t) => .ok (f d, t) | .error e => .error e) := by
  rcases t with _ | ⟨b, _ | ⟨c, t⟩⟩
  · exact .inl rfl
  · exact .inl rfl
  · exact .inr rfl

theorem agrees_decodeEA (b : Byte) : Agrees rest (decodeEA b t) (decodeEA b (t ++ rest)) := by
  unfold decodeEA
  dsimp only
  split
  case h_5 => exact agrees_ext8 (f := fun d => (_, EA.disp8 d _)) rest t
  case h_6 => exact agrees_ext16 (f := fun d => (_, EA.disp16 d _)) rest t
  case h_7 =>
    split
    · exact agrees_ext8 (f := fun aa => (_, EA.abs8 aa)) rest t
    · exact agrees_ext8 (f := fun v => (_, EA.imm8 v)) rest t
    · exact agrees_ext16 (f := fun v => (_, EA.imm16 v)) rest t
    · exact agrees_unassigned rest
  case h_8 =>
    split
    · exact agrees_ext16 (f := fun aa => (_, EA.abs16 aa)) rest t
    · exact agrees_unassigned rest
  all_goals simp

@[simp] theorem agrees_decodeOp00 (sz : Size) (ea : EA) :
    Agrees rest (decodeOp00 sz ea t) (decodeOp00 sz ea (t ++ rest)) := by
  refine agrees_whenAssigned rest ?_
  cases t with
  | nil => exact .inl rfl
  | cons op t =>
    simp only [List.cons_append, takeByte]
    split <;> simp

@[simp] theorem agrees_decodeOp0 (l : BitVec 4) (sz : Size) (ea : EA) :
    Agrees rest (decodeOp0 l sz ea t) (decodeOp0 l sz ea (t ++ rest)) := by
  unfold decodeOp0
  split <;> simp

@[simp] theorem agrees_decodeOp1 (l : BitVec 4) (sz : Size) (ea : EA) :
    Agrees rest (decodeOp1 l sz ea t) (decodeOp1 l sz ea (t ++ rest)) := by
  unfold decodeOp1
  split
  case h_1 | h_2 | h_3 => split <;> simp
  all_goals simp

@[simp] theorem agrees_bitOrControl (ea : EA) (bit : Instr) (ctrl : Imm → Instr) :
    Agrees rest (bitOrControl ea bit ctrl t) (bitOrControl ea bit ctrl (t ++ rest)) := by
  cases ea <;> exact .inr rfl

@[simp] theorem agrees_storeOrXch (sz : Size) (ea : EA) (r : Reg) :
    Agrees rest (storeOrXch sz ea r t) (storeOrXch sz ea r (t ++ rest)) := by
  unfold storeOrXch
  split <;> simp

theorem agrees_decodeOp (sz : Size) (ea : EA) : Agrees rest (decodeOp sz ea t) (decodeOp sz ea (t ++ rest)) := by
  refine agrees_of_cons rest t rfl fun op t => ?_
  simp only [decodeOp, takeByte]
  split <;> simp

@[simp] theorem agrees_decodeGeneral (b : Byte) : Agrees rest (decodeGeneral b t) (decodeGeneral b (t ++ rest)) := by
  obtain h | h := agrees_decodeEA rest t b
  · exact .inl (by rw [decodeGeneral, h])
  · rw [decodeGeneral, decodeGeneral, h]
    cases decodeEA b t with
    | error e => exact .inr rfl
    | ok p => exact agrees_decodeOp rest p.2 p.1.1 p.1.2

@[simp] theorem agrees_decode11 : Agrees rest (decode11 t) (decode11 (t ++ rest)) := by
  refine agrees_of_cons rest t rfl fun b t => ?_
  simp only [decode11, takeByte]
  split
  case h_1 => split <;> simp
  all_goals simp

@[simp] theorem agrees_decodeScb (c : ScbCond) : Agrees rest (decodeScb c t) (decodeScb c (t ++ rest)) := by
  refine agrees_of_cons rest t rfl fun b t => ?_
  simp only [decodeScb, takeByte]
  split <;> simp

@[simp] theorem agrees_decodeTrapa : Agrees rest (decodeTrapa t) (decodeTrapa (t ++ rest)) := by
  refine agrees_of_cons rest t rfl fun b t => ?_
  simp only [decodeTrapa, takeByte]
  split <;> simp

@[simp] theorem agrees_decodePage24 (f : PageEA → Instr) :
    Agrees rest (decodePage24 f t) (decodePage24 f (t ++ rest)) :=
  agrees_of_cons rest t rfl fun _ t => agrees_withWord rest t _

@[simp] theorem agrees_decode0 (b : Byte) : Agrees rest (decode0 b t) (decode0 b (t ++ rest)) := by
  unfold decode0
  split <;> simp

@[simp] theorem agrees_decode1 (b : Byte) : Agrees rest (decode1 b t) (decode1 b (t ++ rest)) := by
  unfold decode1
  split <;> simp

/-- More bytes behind those that the decoder was given change nothing where it lacked none. -/
theorem agrees_decode : Agrees rest (decode t) (decode (t ++ rest)) := by
  refine agrees_of_cons rest t rfl fun b t => ?_
  simp only [decode, takeByte]
  split <;> simp

end

/-- The beginning of an instruction is no instruction, and not unassigned either: bytes are missing (R80). -/
theorem decode_take_encode {i : Instr} (h : i.wellFormed = true) {n : Nat} (hn : n < i.length) :
    decode ((encode i).take n) = .error .truncated := by
  have hall : decode (encode i) = .ok (i, []) := by simpa using decode_encode h []
  obtain hd | hd := agrees_decode ((encode i).drop n) ((encode i).take n)
  · exact hd
  · rw [List.take_append_drop, hall] at hd
    cases hp : decode ((encode i).take n) with
    | error e => simp [hp, followedBy] at hd
    | ok p =>
      simp only [hp, followedBy, Except.ok.injEq, Prod.mk.injEq, List.nil_eq, List.append_eq_nil_iff,
        List.drop_eq_nil_iff] at hd
      obtain ⟨-, -, hlen⟩ := hd
      exact absurd hn (Nat.not_lt.mpr hlen)

end Sys2Proof
namespace Sys2Proof.Machine

/-! ## A fetch that ends early -/

/-- Code bytes that stand in memory, with H'10000 or a stale byte behind them, are all that is fetched (R26, R70). -/
theorem fetchFrom_stops {s : State} {l : List Byte} {n off : Nat} (hn : l.length < n)
    (hmem : ∀ k (h : k < l.length), off + k < 65536 ∧
      s.mem.read (s.phys .code (BitVec.ofNat 16 (off + k))) = l[k] ∧
      s.phys .code (BitVec.ofNat 16 (off + k)) ∉ s.stale)
    (hstop : off + l.length < 65536 → s.phys .code (BitVec.ofNat 16 (off + l.length)) ∈ s.stale) :
    fetchFrom s n off = l := by
  induction l generalizing n off with
  | nil =>
    obtain ⟨n, rfl⟩ : ∃ m, n = m + 1 := ⟨n - 1, by rw [List.length_nil] at hn; omega⟩
    rw [fetchFrom, if_neg fun h => h.2 (hstop h.1)]
  | cons b l ih =>
    rw [List.length_cons] at hn hstop
    obtain ⟨n, rfl⟩ : ∃ m, n = m + 1 := ⟨n - 1, by omega⟩
    obtain ⟨hend, hb, hfresh⟩ := hmem 0 (Nat.zero_lt_succ _)
    have hrest : fetchFrom s n (off + 1) = l := by
      refine ih (by omega) (fun k hk => ?_) ?_
      · have hk' := hmem (k + 1) (Nat.succ_lt_succ hk)
        rwa [Nat.add_right_comm off 1 k]
      · rwa [Nat.add_right_comm off 1 l.length]
    rw [fetchFrom, if_pos ⟨by omega, hfresh⟩, hrest]
    exact congrArg (· :: l) hb

/-- A step that fetches the first `n` bytes of an instruction and no more of it is refused, because of a stale byte
behind them, or else because the page ends there. -/
theorem step_cut_short {s : State} {i : Instr} {n : Nat} (hw : i.wellFormed = true) (ha : s.asleep = false)
    (hq : s.nextIrq = none) (hn : n < i.length) (hpc : s.pc.toNat + n ≤ 65536)
    (hmem : ∀ k (h : k < (encode i).length), k < n →
      s.mem.read (s.phys .code (s.pc + BitVec.ofNat 16 k)) = (encode i)[k] ∧
      s.phys .code (s.pc + BitVec.ofNat 16 k) ∉ s.stale)
    (hstop : s.pc.toNat + n < 65536 → s.phys .code (s.pc + BitVec.ofNat 16 n) ∈ s.stale) :
    step s = .refused (if s.pc.toNat + n < 65536 then .staleInstructionFetch else .straddlesPcWrap) := by
  have haddr (k : Nat) : BitVec.ofNat 16 (s.pc.toNat + k) = s.pc + BitVec.ofNat 16 k := by
    rw [BitVec.ofNat_add, BitVec.ofNat_toNat, BitVec.setWidth_eq]
  have hlen : ((encode i).take n).length = n := List.length_take_of_le (Nat.le_of_lt hn)
  have hf : s.fetched = (encode i).take n := by
    refine fetchFrom_stops (by rw [hlen]; exact Nat.lt_of_lt_of_le hn (encode_length_le i)) (fun k hk => ?_) ?_
    · rw [hlen] at hk
      rw [haddr, List.getElem_take]
      exact ⟨by omega, hmem k (Nat.lt_trans hk hn) hk⟩
    · rw [hlen, haddr]
      exact hstop
  rw [step_awake ha hq, runInstruction, hf, decode_take_encode hw hn, State.fetchRefusal, hf, hlen]

end Sys2Proof.Machine
end

section
/-! PROOFS. What every instruction does to the prefetch window behind it (spec/20_memory.md R70;
spec/70_reset_and_hazards.md R361): the body of one that does not transfer control is recorded, and the body of one
that does is recorded up to the jump, which empties the list of stale bytes. -/

namespace Sys2Proof.Machine

open Sys2Proof.Laws

/-! ## Bodies that are no shared shape -/

theorem recorded_moveIn (sz : Size) (rd : Reg) (v : BitVec sz.bits) (s : State) : Recorded s (moveIn sz rd v s) :=
  (recorded_wr ..).trans (recorded_setAlu ..)

theorem recorded_changeBit (sz : Size) (k : BitVec 4) (ea : EA) (s : State)
    (change : BitVec sz.bits → BitVec sz.bits → BitVec sz.bits) :
    Body.recorded (s.advance (eaLen ea + 1)) (changeBit sz k ea s change) :=
  recorded_refuseIf _ _ (recorded_modify ..)

theorem recorded_testBit (sz : Size) (k : BitVec 4) (ea : EA) (s : State) :
    Body.recorded (s.advance (eaLen ea + 1)) (testBit sz k ea s) :=
  recorded_refuseIf _ _ (recorded_examine ..)

theorem recorded_combineCtrl (imm : Imm) (cr : CtrlReg) (s : State) (op : Word → Word → Word) :
    Body.recorded (s.advance (immLen imm + 2)) (combineCtrl imm cr s op) :=
  recorded_refuseIf _ _ (recorded_setCtrl ..)

theorem recorded_decimalInto (rs rd : Reg) (s : State) (op : Byte → Byte → Bool → Byte × Bool) :
    Recorded (s.advance 3) (decimalInto rs rd s op) := by
  unfold decimalInto
  dsimp only
  split
  · exact (recorded_wr ..).trans (recorded_setNZVC ..)
  · exact ((recorded_draw _).trans (recorded_wr ..)).trans (recorded_setNZVC ..)

section
variable (src : EA) (rd : Reg) (s : State)

theorem recorded_mulxuByte : Body.recorded (s.advance (eaLen src + 1)) (mulxuByte src rd s) :=
  recorded_refuseIf _ _ <| recorded_source fun _ => (recorded_setReg ..).trans (recorded_setAlu ..)

theorem recorded_mulxuWord : Body.recorded (s.advance (eaLen src + 1)) (mulxuWord src rd s) := by
  unfold mulxuWord
  cases pairLow? rd with
  | none => trivial
  | some low =>
    exact recorded_refuseIf _ _ <| recorded_source fun _ =>
      ((recorded_setReg ..).trans (recorded_setReg ..)).trans (recorded_setAlu ..)

theorem recorded_divxuOverflowFlags : Recorded s (divxuOverflowFlags s) :=
  (recorded_draw s).trans (recorded_setNZVC ..)

theorem recorded_divxuOverflowDest : Recorded s (divxuOverflowDest s rd) := by
  unfold divxuOverflowDest
  cases s.params.divxuOvfDest with
  | any => exact (recorded_draw s).trans (recorded_setReg ..)
  | unchanged => exact .refl s

theorem recorded_divxuByte : Body.recorded (s.advance (eaLen src + 1)) (divxuByte src rd s) := by
  refine recorded_refuseIf _ _ <| recorded_source fun v => ?_
  dsimp only
  split
  · exact ⟨.refl _, by decide⟩
  · split
    · exact (recorded_divxuOverflowFlags _).trans (recorded_divxuOverflowDest ..)
    · exact (recorded_setReg ..).trans (recorded_setAlu ..)

theorem recorded_divxuWord : Body.recorded (s.advance (eaLen src + 1)) (divxuWord src rd s) := by
  unfold divxuWord
  cases pairLow? rd with
  | none => trivial
  | some low =>
    refine recorded_refuseIf _ _ <| recorded_source fun v => ?_
    dsimp only
    split
    · exact ⟨.refl _, by decide⟩
    · split
      · exact ((recorded_divxuOverflowFlags _).trans (recorded_divxuOverflowDest ..)).trans
          (recorded_divxuOverflowDest ..)
      · exact ((recorded_setReg ..).trans (recorded_setReg ..)).trans (recorded_setAlu ..)

end

theorem recorded_popRegs (l : List Reg) (s : State) : Body.recorded s (popRegs l s) := by
  induction l generalizing s with
  | nil => exact .refl s
  | cons i rest ih =>
    refine recorded_pop16 fun v => (ih _).after ?_
    split
    · exact .refl _
    · exact recorded_setReg ..

theorem recorded_pushRegs (l : List Reg) (s : State) : Body.recorded s (pushRegs l s) := by
  induction l generalizing s with
  | nil => exact .refl s
  | cons i rest ih => exact (recorded_push16 ..).bind ih

/-! ## Instructions that do not transfer control -/

/-- The instruction runs a body that is recorded from the state with the PC past it. -/
def Records (i : Instr) (s : State) : Prop :=
  ∃ b, exec i s = finish b ∧ Body.recorded (s.advance (EncodedLength.lengthOf i)) b

/-- A meaning that always completes. -/
theorem Records.of_next {i : Instr} {s t : State} (hx : exec i s = .next t)
    (h : Recorded (s.advance (EncodedLength.lengthOf i)) t) : Records i s := ⟨.ok t, hx, h⟩

section
variable (s : State)

theorem records_mulxu (sz : Size) (src : EA) (rd : Reg) : Records (.mulxu sz src rd) s := by
  cases sz with
  | b => exact ⟨_, rfl, recorded_mulxuByte ..⟩
  | w => exact ⟨_, rfl, recorded_mulxuWord ..⟩

theorem records_divxu (sz : Size) (src : EA) (rd : Reg) : Records (.divxu sz src rd) s := by
  cases sz with
  | b => exact ⟨_, rfl, recorded_divxuByte ..⟩
  | w => exact ⟨_, rfl, recorded_divxuWord ..⟩

theorem records_cmpGImm (imm : Imm) (dst : EA) : Records (.cmpGImm imm dst) s := by
  cases imm with
  | i8 v => exact ⟨_, rfl, recorded_examine .b dst 2 s _⟩
  | i16 v => exact ⟨_, rfl, recorded_examine .w dst 3 s _⟩

theorem records_swap (rd : Reg) : Records (.swap rd) s := by
  refine .of_next rfl ((recorded_setReg _ rd (loByte (s.reg rd) ++ hiByte (s.reg rd))).trans ?_)
  cases s.params.swapScope with
  | byte => exact recorded_setAlu ..
  | word => exact recorded_setAlu ..

theorem records_trapvs : Records .trapvs s := by
  refine ⟨_, rfl, ?_⟩
  split
  · exact ⟨.refl _, by decide⟩
  · exact .refl _

/-- ANDC, ORC and XORC, whose length is their immediate's and two more. -/
theorem records_combineCtrl {i : Instr} {imm : Imm} {cr : CtrlReg} {op : Word → Word → Word}
    (hx : exec i s = finish (combineCtrl imm cr s op)) (hl : EncodedLength.lengthOf i = 2 + immLen imm) :
    Records i s := by
  refine ⟨_, hx, ?_⟩
  rw [hl, Nat.add_comm]
  exact recorded_combineCtrl ..

/-- LINK pushes FP and then moves SP and FP (R290). -/
theorem records_link (k : Imm) : Records (.link k) s := by
  refine ⟨_, rfl, ?_⟩
  rw [show EncodedLength.lengthOf (.link k) = immLen k + 1 from Nat.add_comm ..]
  exact (recorded_push16 ..).bind fun u => (recorded_setReg u .r6 u.sp).trans (recorded_setReg ..)

/-- An instruction that does not transfer control runs a recorded body: by the shape it shares with others, or by its
own. -/
theorem records_of_not_mayTransfer {i : Instr} (h : mayTransfer i = false) : Records i s := by
  cases i with
  -- the result of Rd and a source into Rd
  | movGLoad | addG | addx | sub | subx | and | or | xor => exact ⟨_, rfl, recorded_intoReg ..⟩
  | adds | subs => exact ⟨_, rfl, recorded_intoRegWord ..⟩
  -- an operand replaced
  | neg | tas | shal | shar | shll | shlr | rotl | rotr | rotxl | rotxr | not => exact ⟨_, rfl, recorded_modify ..⟩
  | addQ => exact ⟨_, rfl, (recorded_modify ..).bind recorded_draw⟩
  | clr =>
    exact ⟨_, rfl, Body.recorded.after ((recorded_st ..).bind fun t => recorded_setNZVC t ..) (recorded_resolve ..)⟩
  | bsetImm | bclrImm | bnotImm => exact ⟨_, rfl, recorded_changeBit ..⟩
  | bsetReg | bclrReg | bnotReg => exact ⟨_, rfl, recorded_refuseIf _ _ (recorded_changeBit ..)⟩
  -- an operand examined
  | cmpG => exact ⟨_, rfl, recorded_refuseIf _ _ (recorded_examine ..)⟩
  | cmpGImm => exact records_cmpGImm ..
  | tst => exact ⟨_, rfl, recorded_examine ..⟩
  | btstImm => exact ⟨_, rfl, recorded_testBit ..⟩
  | btstReg => exact ⟨_, rfl, recorded_refuseIf _ _ (recorded_testBit ..)⟩
  | cmpE | cmpI => exact .of_next rfl (recorded_setAlu ..)
  -- a value moved to memory
  | movGStore => exact ⟨_, rfl, recorded_refuseIf _ _ (recorded_moveOut ..)⟩
  | movGImm8 | movGImm16 => exact ⟨_, rfl, recorded_moveOut ..⟩
  | movS | movFStore => exact ⟨_, rfl, (recorded_st ..).bind fun t => recorded_setAlu t _⟩
  | movtpe => exact ⟨_, rfl, recorded_refuseIf _ _ ((recorded_st ..).after (recorded_resolve ..))⟩
  | stm => exact ⟨_, rfl, recorded_refuseIf _ _ (recorded_pushRegs ..)⟩
  -- a value moved to registers
  | movE | movI => exact .of_next rfl (recorded_moveIn ..)
  | movL | movFLoad => exact ⟨_, rfl, recorded_ld fun _ => recorded_moveIn ..⟩
  | movfpe => exact ⟨_, rfl, recorded_refuseIf _ _ (recorded_source fun _ => recorded_wr ..)⟩
  | ldm => exact ⟨_, rfl, recorded_refuseIf _ _ (recorded_popRegs ..)⟩
  | xch => exact .of_next rfl ((recorded_setReg ..).trans (recorded_setReg ..))
  | swap => exact records_swap ..
  | exts | extu => exact .of_next rfl ((recorded_setReg ..).trans (recorded_setAlu ..))
  | dadd | dsub => exact .of_next rfl (recorded_decimalInto ..)
  | mulxu => exact records_mulxu ..
  | divxu => exact records_divxu ..
  -- branches, calls and returns
  | bcc | jmp | pjmp | bsr | jsr | pjsr | rts | prts | rtd | prtd | scb | trapa | rte => cases h
  -- system control
  | trapvs => exact records_trapvs s
  | link => exact records_link ..
  | unlk =>
    exact ⟨_, rfl, Body.recorded.after (recorded_pop16 fun _ => recorded_setReg ..) (recorded_setReg _ .r7 _)⟩
  | sleep => exact .of_next rfl (.of_eq rfl rfl rfl rfl rfl)
  | ldc => exact ⟨_, rfl, recorded_refuseIf _ _ (recorded_source fun _ => recorded_setCtrl ..)⟩
  | stc =>
    exact ⟨_, rfl, recorded_refuseIf _ _
      ((recorded_st ..).after ((recorded_resolve ..).trans (recorded_readCtrl ..)))⟩
  | andc | orc | xorc => exact records_combineCtrl s rfl rfl
  | nop => exact .of_next rfl (.refl _)

end

/-! ## Transfers of control -/

/-- From `s`, its PC past the instruction, to `t`: no byte changes that a store to is refused, and the list of stale
bytes is empty. -/
def Transferred (s t : State) : Prop :=
  (∀ a, s.blocked a = true → t.mem.read a = s.mem.read a) ∧ t.stale = []

theorem transferred_of_eq {s t : State} (hm : t.mem = s.mem) (hs : t.stale = []) : Transferred s t :=
  ⟨fun _ _ => by rw [hm], hs⟩

@[simp] theorem enterVector_stale (s : State) (entry : Byte) : (s.enterVector entry).stale = [] := by
  simp only [State.enterVector, State.vectorTo]
  split <;> rfl

/-- An exception's entry transfers control (R361). -/
theorem raise_stale {s t : State} {e : Exn} (h : s.raise e = .next t) : t.stale = [] := by
  rw [State.raise] at h
  cases hv : s.vectorOf e with
  | none => simp [hv] at h
  | some entry =>
    simp only [hv, State.enter] at h
    cases hf : (s.savedPC e).2.pushFrame (s.savedPC e).1 with
    | error stop => cases stop <;> simp [hf, entryStopped] at h
    | ok u =>
      simp only [hf, Host.Outcome.next.injEq] at h
      rw [← h, enterVector_stale]

/-- A body that transfers control where it completes, and is recorded where it raises an exception. -/
def Body.transfers (s : State) : Body State → Prop
  | .ok t => Transferred s t
  | .error (.raised _ t) => Recorded s t
  | .error (.refuse _) => True

theorem Body.transfers.after {s t : State} {b : Body State} (hb : b.transfers t) (h : Recorded s t) :
    b.transfers s := by
  match b with
  | .ok u =>
    obtain ⟨hguards, hstale⟩ := hb
    exact ⟨fun a ha => (hguards a (blocked_congr h.params h.cp h.pc a ▸ ha)).trans (h.guards a ha), hstale⟩
  | .error (.raised _ u) => exact h.trans hb
  | .error (.refuse _) => trivial

theorem Body.recorded.bind_transfers {s : State} {b : Body State} {f : State → Body State} (hb : b.recorded s)
    (hf : ∀ t, (f t).transfers t) : Body.transfers s (b >>= f) := by
  match b with
  | .ok t => exact (hf t).after hb
  | .error (.raised _ t) => exact hb.1
  | .error (.refuse _) => trivial

theorem transfers_maxModeOnly {s t : State} {b : Body State} (h : b.transfers s) :
    Body.transfers s (maxModeOnly t b) := by
  unfold maxModeOnly
  cases t.params.maxMode
  · trivial
  · exact h

/-- What a meaning answers for such a body. -/
theorem transferred_finish {s t : State} {b : Body State} (hb : b.transfers s) (h : finish b = .next t) :
    Transferred s t := by
  match b with
  | .ok u => cases h; exact hb
  | .error (.refuse _) => cases h
  | .error (.raised _ u) =>
    have hr : Recorded s u := hb
    exact ⟨fun a ha => (raise_guards h (blocked_congr hr.params hr.cp hr.pc a ▸ ha)).trans (hr.guards a ha),
      raise_stale h⟩

/-! ### Returns

A return pops without an exception where SP is even, and raises at its first pop where SP is odd. -/

/-- A body that completes with memory kept and the list of stale bytes empty. -/
def Body.returns (s : State) (b : Body State) : Prop := ∃ t, b = .ok t ∧ t.mem = s.mem ∧ t.stale = []

theorem spEven_popped {s : State} (h : s.spEven) : (s.setReg .r7 (s.sp + 2)).spEven := by
  rwa [State.spEven, sp_setReg, toNat_add_two_mod]

theorem returns_popPC {s : State} (h : s.spEven) : s.popPC.returns s := ⟨_, popPC_ok h, rfl, rfl⟩

theorem returns_popCP {s : State} {f : State → Body State} (h : s.spEven) (hf : ∀ u, u.spEven → (f u).returns u) :
    Body.returns s (s.popCP >>= f) := by
  rw [popCP_ok h]
  exact hf _ (spEven_popped h)

theorem Body.returns.addSP {s : State} {b : Body State} (h : b.returns s) (k : Imm) :
    Body.returns s (b >>= fun t => pure (addSP t k)) := by
  obtain ⟨t, rfl, hm, hs⟩ := h
  exact ⟨_, rfl, hm, hs⟩

theorem returns_returnFromException {s : State} (h : s.spEven) : s.returnFromException.returns s := by
  simp only [State.returnFromException, pop16_ok h]
  have heven := spEven_popped h
  by_cases hm : s.params.maxMode = true
  · simp only [bind, Except.bind, setReg_params, hm, if_true]
    exact returns_popCP (s := { s.setReg .r7 (s.sp + 2) with sr := s.mem.word (s.phys .stack s.sp) }) heven
      fun _ => returns_popPC
  · simp only [bind, Except.bind, setReg_params, hm, Bool.false_eq_true, if_false, pure, Except.pure]
    exact returns_popPC (s := { s.setReg .r7 (s.sp + 2) with sr := s.mem.word (s.phys .stack s.sp) }) heven

theorem transfers_of_returns {s : State} {b : Body State} (heven : s.spEven → b.returns s)
    (hodd : ¬s.spEven → b = .error (.raised .addressError s)) : b.transfers s := by
  by_cases h : s.spEven
  · obtain ⟨t, rfl, hm, hs⟩ := heven h
    exact transferred_of_eq hm hs
  · rw [hodd h]
    exact .refl s

theorem transfers_popPC (s : State) : s.popPC.transfers s :=
  transfers_of_returns returns_popPC fun h => bind_of_error (pop16_odd h)

theorem transfers_returnFromException (s : State) : s.returnFromException.transfers s :=
  transfers_of_returns returns_returnFromException fun h => bind_of_error (pop16_odd h)

/-! ### Every transfer but the conditional ones -/

/-- The instruction runs a body that transfers control from the state with the PC past it. -/
def Transfers (i : Instr) (s : State) : Prop :=
  ∃ b, exec i s = finish b ∧ Body.transfers (s.advance (EncodedLength.lengthOf i)) b

section
variable (s : State)

theorem transfers_pjmp (target : PageEA) : Transfers (.pjmp target) s := by
  refine ⟨_, rfl, transfers_maxModeOnly ?_⟩
  cases s.pageTarget target with
  | none => trivial
  | some p => exact transferred_of_eq rfl rfl

theorem transfers_pjsr (target : PageEA) : Transfers (.pjsr target) s := by
  refine ⟨_, rfl, transfers_maxModeOnly ?_⟩
  cases s.pageTarget target with
  | none => trivial
  | some p =>
    exact (recorded_push16 ..).bind_transfers fun v =>
      ((recorded_push16 v.draw.2 _).after (recorded_draw v)).bind_transfers fun w => transferred_of_eq rfl rfl

theorem transfers_bsr (d : Disp) : Transfers (.bsr d) s := by
  refine ⟨_, rfl, ?_⟩
  rw [show EncodedLength.lengthOf (.bsr d) = dispLen d + 1 from Nat.add_comm ..]
  exact (recorded_push16 ..).bind_transfers fun u => transferred_of_eq rfl rfl

theorem transfers_rtd (k : Imm) : Transfers (.rtd k) s := by
  refine ⟨_, rfl, ?_⟩
  rw [show EncodedLength.lengthOf (.rtd k) = immLen k + 1 from Nat.add_comm ..]
  exact transfers_of_returns (fun h => (returns_popPC h).addSP k) fun h => bind_of_error (bind_of_error (pop16_odd h))

theorem transfers_prts : Transfers .prts s :=
  ⟨_, rfl, transfers_maxModeOnly (transfers_of_returns (fun h => returns_popCP h fun _ => returns_popPC)
    fun h => bind_of_error (bind_of_error (pop16_odd h)))⟩

theorem transfers_prtd (k : Imm) : Transfers (.prtd k) s := by
  refine ⟨_, rfl, transfers_maxModeOnly ?_⟩
  rw [show EncodedLength.lengthOf (.prtd k) = immLen k + 2 from Nat.add_comm ..]
  exact transfers_of_returns (fun h => returns_popCP h fun _ hu => (returns_popPC hu).addSP k)
    fun h => bind_of_error (bind_of_error (pop16_odd h))

/-- A jump, a call, a return or TRAPA runs a body that transfers control. -/
theorem transfers_of_mayTransfer {i : Instr} (h : mayTransfer i = true) (hbcc : ∀ c d, i ≠ .bcc c d)
    (hscb : ∀ c r d, i ≠ .scb c r d) : Transfers i s := by
  cases i with
  | jmp target => exact ⟨.ok (s.jump (s.jumpTarget target)), rfl, transferred_of_eq rfl rfl⟩
  | pjmp => exact transfers_pjmp ..
  | bsr => exact transfers_bsr ..
  | jsr => exact ⟨_, rfl, (recorded_push16 ..).bind_transfers fun u => transferred_of_eq rfl rfl⟩
  | pjsr => exact transfers_pjsr ..
  | rts => exact ⟨_, rfl, transfers_popPC _⟩
  | prts => exact transfers_prts s
  | rtd => exact transfers_rtd ..
  | prtd => exact transfers_prtd ..
  | trapa =>
    exact ⟨_, rfl, (recorded_pushFrame ..).bind_transfers fun u =>
      transferred_of_eq (enterVector_mem ..) (enterVector_stale ..)⟩
  | rte => exact ⟨_, rfl, transfers_returnFromException _⟩
  | bcc c d => exact absurd rfl (hbcc c d)
  | scb c r d => exact absurd rfl (hscb c r d)
  | _ => cases h

/-! ### Conditional transfers -/

/-- A branch keeps memory, and the list of stale bytes where it is not taken (R250). -/
theorem exec_bcc (c : Cond) (d : Disp) :
    ∃ t, exec (.bcc c d) s = .next t ∧ t.mem = s.mem ∧ t.stale = if s.holds c then [] else s.stale := by
  refine ⟨_, rfl, ?_⟩
  split
  · exact ⟨rfl, rfl⟩
  · exact ⟨rfl, rfl⟩

theorem sub_one_eq_max_iff (v : Word) : v - 1 = 0xFFFF ↔ v = 0 := by
  constructor <;> intro h <;> bv_omega

/-- SCB keeps memory, and the list of stale bytes where its condition holds or its count runs out (R270). -/
theorem exec_scb (c : ScbCond) (r : Reg) (d : Byte) :
    ∃ t, exec (.scb c r d) s = .next t ∧ t.mem = s.mem ∧
      t.stale = if s.scbHolds c ∨ s.reg r = 0 then s.stale else [] := by
  refine ⟨_, rfl, ?_⟩
  by_cases hc : s.scbHolds c = true
  · simp only [hc, if_true, true_or]
    exact ⟨rfl, rfl⟩
  · by_cases hr : s.reg r = 0
    · have hcount : s.reg r - 1 = 0xFFFF := (sub_one_eq_max_iff _).mpr hr
      simp only [hc, Bool.false_eq_true, if_false, if_pos hcount, if_pos hr, false_or]
      exact ⟨rfl, rfl⟩
    · have hcount : ¬s.reg r - 1 = 0xFFFF := hr ∘ (sub_one_eq_max_iff _).mp
      simp only [hc, Bool.false_eq_true, if_false, if_neg hcount, if_neg hr, false_or]
      exact ⟨rfl, rfl⟩

end

end Sys2Proof.Machine
end

section
/-! PROOFS. Stores into the prefetch window where they are refused: every form that stores or pushes is refused by
name (spec/20_memory.md R70), and the statement about the window and the end of the page assembled. -/

namespace Sys2Proof.Machine

open Sys2Proof.Laws

/-! ## The window behind an instruction -/

/-- The window of the state with the PC past an instruction is the window behind the instruction. -/
theorem inWindow_behind (i : Instr) (s : State) (a : Nat) :
    (s.advance (EncodedLength.lengthOf i)).inWindow a = true ↔ s.mayBeFetched (s.npc i) a := by
  rw [← length_eq_lengthOf, inWindow_iff]
  exact mayBeFetched_congr rfl rfl _ _

theorem blocked_behind {i : Instr} {s : State} {a : Nat} (hr : s.params.windowStore = .refuse)
    (h : s.mayBeFetched (s.npc i) a) : (s.advance (EncodedLength.lengthOf i)).blocked a = true := by
  rw [blocked_iff, ← inWindow_iff]
  exact ⟨hr, (inWindow_behind i s a).mpr h⟩

/-- What cannot be stored to behind an instruction cannot be stored to on the way through it. -/
theorem not_storable_behind {i : Instr} {s u : State} {l : List Nat} (hw : ¬s.storable (s.npc i) l)
    (hp : u.params = s.params) (hc : u.cp = s.cp) (hpc : u.pc = (s.advance (EncodedLength.lengthOf i)).pc) :
    ¬u.storable u.pc l := by
  have hnpc : u.pc = s.npc i := hpc.trans (by rw [← length_eq_lengthOf]; rfl)
  rw [hnpc]
  exact hw ∘ storable_congr hp.symm hc.symm

theorem bytesAt_congr {s t : State} (h : ∀ k off, t.phys k off = s.phys k off) (l : Loc) (sz : Size) :
    t.bytesAt l sz = s.bytesAt l sz := by
  cases l <;> cases sz <;> simp only [State.bytesAt, h]

/-- The bytes of an operand do not depend on the PC. -/
theorem bytesAt_resolve_advance (sz : Size) (ea : EA) (s : State) (n : Nat) :
    (resolve sz ea (s.advance n)).2.bytesAt (resolve sz ea (s.advance n)).1 sz =
      (resolve sz ea s).2.bytesAt (resolve sz ea s).1 sz := by
  rw [resolve_advance]
  exact bytesAt_congr (by simp) _ _

/-- An instruction whose body ends at a store into the window. -/
theorem refused_of_body {i : Instr} {s : State} {b : Body State} (hx : exec i s = finish b)
    (hb : b = .error (.refuse .storeInPrefetchWindow)) : exec i s = .refused .storeInPrefetchWindow := by
  rw [hx, hb, finish_refuse]

/-! ## Forms of the general format -/

/-- Every bit number that an instruction is not refused for lies in its operand (R230). -/
theorem beyond_eq_false {sz : Size} {k : BitVec 4} (h : sz = .b → k.toNat < 8) : beyond sz k = false := by
  cases sz with
  | b => exact decide_eq_false (Nat.not_le.mpr (h rfl))
  | w => exact beyond_word k

section
variable {i : Instr} {s : State} {sz : Size} {ea : EA} {n : Nat}

/-- An operand that can be accessed and has a byte in the window is still such an operand with the PC past the
instruction. -/
theorem blocked_operand (h : (resolve sz ea s).2.canAccess (resolve sz ea s).1 sz = true)
    (hw : ¬s.storable (s.npc i) ((resolve sz ea s).2.bytesAt (resolve sz ea s).1 sz))
    (hl : EncodedLength.lengthOf i = n) {p : Loc × State} (hp : p = resolve sz ea (s.advance n)) :
    p.2.canAccess p.1 sz = true ∧ ¬p.2.storable p.2.pc (p.2.bytesAt p.1 sz) := by
  subst hl hp
  refine ⟨(canAccess_resolve_advance ..).trans h, ?_⟩
  rw [bytesAt_resolve_advance]
  exact not_storable_behind hw (by simp) (by simp) (by simp)

variable (h : (resolve sz ea s).2.canAccess (resolve sz ea s).1 sz = true)
  (hw : ¬s.storable (s.npc i) ((resolve sz ea s).2.bytesAt (resolve sz ea s).1 sz))
include h hw

theorem refused_modify {op : State → BitVec sz.bits → Alu sz.bits}
    (hx : exec i s = finish (modify sz ea s op)) (hl : EncodedLength.lengthOf i = eaLen ea + 1) :
    exec i s = .refused .storeInPrefetchWindow := by
  obtain ⟨ha, hb⟩ := blocked_operand h hw hl rfl
  exact refused_of_body hx (modify_blocked rfl ha hb)

theorem refused_moveOut {v : State → BitVec sz.bits}
    (hx : exec i s = finish (moveOut sz ea n s v)) (hl : EncodedLength.lengthOf i = eaLen ea + n) :
    exec i s = .refused .storeInPrefetchWindow := by
  obtain ⟨ha, hb⟩ := blocked_operand h hw hl rfl
  exact refused_of_body hx (moveOut_blocked rfl ha hb)

theorem refused_changeBit {k : BitVec 4} {change : BitVec sz.bits → BitVec sz.bits → BitVec sz.bits}
    (hk : sz = .b → k.toNat < 8) (hx : exec i s = finish (changeBit sz k ea s change))
    (hl : EncodedLength.lengthOf i = eaLen ea + 1) : exec i s = .refused .storeInPrefetchWindow :=
  refused_modify h hw (hx.trans (congrArg finish (refuseIf_of_false (beyond_eq_false hk)))) hl

/-- A form that stores to its resolved operand and goes on. -/
theorem refused_st {v : BitVec sz.bits} {f : State → Body State} (hl : EncodedLength.lengthOf i = n)
    (hx : exec i s = finish ((resolve sz ea (s.advance n)).2.st (resolve sz ea (s.advance n)).1 sz v >>= f)) :
    exec i s = .refused .storeInPrefetchWindow := by
  obtain ⟨ha, hb⟩ := blocked_operand h hw hl rfl
  exact refused_of_body hx (bind_of_error (st_blocked ha hb v))

end

section
variable {s : State} {sz : Size} {ea : EA}

/-- ADD:Q draws a free value behind its store only (R162). -/
theorem refused_addQ (q : QuickImm) (h : (resolve sz ea s).2.canAccess (resolve sz ea s).1 sz = true)
    (hw : ¬s.storable (s.npc (.addQ sz q ea)) ((resolve sz ea s).2.bytesAt (resolve sz ea s).1 sz)) :
    exec (.addQ sz q ea) s = .refused .storeInPrefetchWindow := by
  obtain ⟨ha, hb⟩ := blocked_operand h hw rfl rfl
  exact refused_of_body rfl (bind_of_error (modify_blocked rfl ha hb))

/-- MOVTPE stores without flags (R150). -/
theorem refused_movtpe {r : Reg} (ho : overlaps ea [r] = false)
    (h : (resolve .b ea s).2.canAccess (resolve .b ea s).1 .b = true)
    (hw : ¬s.storable (s.npc (.movtpe r ea)) ((resolve .b ea s).2.bytesAt (resolve .b ea s).1 .b)) :
    exec (.movtpe r ea) s = .refused .storeInPrefetchWindow := by
  obtain ⟨ha, hb⟩ := blocked_operand h hw rfl rfl
  exact refused_of_body rfl ((refuseIf_of_false ho).trans (st_blocked ha hb _))

theorem readCtrl_phys (s : State) (cr : CtrlReg) (k : Kind) (off : Word) :
    (s.readCtrl cr).2.phys k off = s.phys k off := by
  cases cr <;> exact phys_congr rfl k (by cases k <;> rfl) off

/-- STC reads the control register out, which may draw a free value, and then stores (R301). -/
theorem refused_stc {cr : CtrlReg} (hc : ctrlAllowed cr sz = true)
    (h : (resolve sz ea s).2.canAccess (resolve sz ea s).1 sz = true)
    (hw : ¬s.storable (s.npc (.stc sz cr ea)) ((resolve sz ea s).2.bytesAt (resolve sz ea s).1 sz)) :
    exec (.stc sz cr ea) s = .refused .storeInPrefetchWindow := by
  obtain ⟨ha, hb⟩ := blocked_operand (n := eaLen ea + 1) h hw rfl rfl
  refine refused_of_body rfl ((refuseIf_of_false (by rw [hc]; rfl)).trans (st_blocked ?_ ?_ _))
  · exact (canAccess_congr (readCtrl_phys _ cr) ..).trans ha
  · have hr := recorded_readCtrl (resolve sz ea (s.advance (eaLen ea + 1))).2 cr
    rw [bytesAt_congr (readCtrl_phys _ cr), hr.pc]
    exact hb ∘ storable_congr hr.params.symm hr.cp.symm

end

/-! ## Short forms and pushes -/

/-- The short forms of MOV that store. -/
theorem refused_shortStore {i : Instr} {s : State} {l : Loc} {sz : Size} {v : BitVec sz.bits} {f : State → Body State}
    (h : s.canAccess l sz = true) (hw : ¬s.storable (s.npc i) (s.bytesAt l sz)) (hl : EncodedLength.lengthOf i = 2)
    (hx : exec i s = finish ((s.advance 2).st l sz v >>= f)) : exec i s = .refused .storeInPrefetchWindow := by
  have ha : (s.advance 2).canAccess l sz = true := (canAccess_congr (by simp) ..).trans h
  have hb : ¬(s.advance 2).storable (s.advance 2).pc ((s.advance 2).bytesAt l sz) := by
    rw [bytesAt_congr (s := s) (by simp)]
    exact not_storable_behind hw rfl rfl (by rw [hl])
  exact refused_of_body hx (bind_of_error (st_blocked ha hb v))

/-- An instruction whose first access is a push. -/
theorem refused_push {i : Instr} {s : State} {n : Nat} {v : Word} {f : State → Body State} (hsp : s.spEven)
    (hw : ¬s.storable (s.npc i) (s.stackBytes (-2))) (hl : EncodedLength.lengthOf i = n)
    (hx : exec i s = finish ((s.advance n).push16 v >>= f)) : exec i s = .refused .storeInPrefetchWindow := by
  have hb : ¬(s.advance n).storable (s.advance n).pc ((s.advance n).stackBytes (-2)) :=
    not_storable_behind hw rfl rfl (by rw [hl])
  exact refused_of_body hx (bind_of_error (push16_blocked (s := s.advance n) hsp hb v))

theorem spEven_pushed {s : State} (h : s.spEven) (v : Word) : (s.pushed v).spEven := by
  rwa [State.spEven, pushed_sp, toNat_sub_two_mod]

/-- PJSR is refused for either of its pushes (R262). -/
theorem refused_pjsr {s : State} {g : PageEA} (hsp : s.spEven) (hmax : s.params.maxMode = true)
    (hg : (s.pageTarget g).isSome = true)
    (hw : ¬s.storable (s.npc (.pjsr g)) (s.stackBytes (-2) ++ s.stackBytes (-4))) :
    exec (.pjsr g) s = .refused .storeInPrefetchWindow := by
  obtain ⟨target, ht⟩ := Option.isSome_iff_exists.mp hg
  refine refused_of_body rfl ((maxModeOnly_of hmax _).trans ?_)
  rw [ht]
  have hb : ¬(s.advance (pageLen g)).storable (s.advance (pageLen g)).pc (s.stackBytes (-2) ++ s.stackBytes (-4)) :=
    not_storable_behind hw rfl rfl rfl
  generalize hu : s.advance (pageLen g) = u at hb
  have hbytes (n : Word) : s.stackBytes n = u.stackBytes n := by rw [← hu]; rfl
  have heven : u.spEven := by rw [← hu]; exact hsp
  rw [hbytes, hbytes] at hb
  by_cases h1 : u.storable u.pc (u.stackBytes (-2))
  · have h2 : ¬(u.pushed u.pc).storable (u.pushed u.pc).pc ((u.pushed u.pc).stackBytes (-2)) := by
      rw [stackBytes_pushed]
      exact fun h => hb (storable_append h1 (storable_congr rfl rfl h))
    simp only [push16_ok heven h1, bind, Except.bind, pushCP_blocked (spEven_pushed heven _) h2]
  · exact bind_of_error (push16_blocked heven h1 _)

/-- The pushes of STM are refused for the first of them that is (R145). -/
theorem pushRegs_blocked {l : List Reg} {s : State} {k : Nat} (hsp : s.spEven) (hk : k < l.length)
    (hw : ¬s.storable s.pc (s.stackBytes (-BitVec.ofNat 16 (2 * k + 2)))) :
    pushRegs l s = .error (.refuse .storeInPrefetchWindow) := by
  induction l generalizing s k with
  | nil => cases hk
  | cons r rest ih =>
    by_cases h1 : s.storable s.pc (s.stackBytes (-2))
    · cases k with
      | zero => exact absurd h1 hw
      | succ k =>
        have hoff : (2 : Word) + BitVec.ofNat 16 (2 * k + 2) = BitVec.ofNat 16 (2 * (k + 1) + 2) := by
          rw [show 2 * (k + 1) + 2 = 2 + (2 * k + 2) by omega]
          exact (BitVec.ofNat_add 2 (2 * k + 2)).symm
        have hbytes : (s.pushed (s.reg r)).stackBytes (-BitVec.ofNat 16 (2 * k + 2)) =
            s.stackBytes (-BitVec.ofNat 16 (2 * (k + 1) + 2)) := by
          rw [stackBytes_pushed, hoff]
        have hrest := ih (spEven_pushed hsp (s.reg r)) (Nat.lt_of_succ_lt_succ hk)
          (by rw [hbytes]; exact hw ∘ storable_congr rfl rfl)
        simp only [pushRegs, push16_ok hsp h1, bind, Except.bind, hrest]
    · exact bind_of_error (push16_blocked hsp h1 _)

theorem refused_stm {list : Byte} {s : State} {k : Nat} (hsp : s.spEven) (h7 : list.getLsbD 7 = false)
    (hk : k < (listedRegs list).length)
    (hw : ¬s.storable (s.npc (.stm list)) (s.stackBytes (-BitVec.ofNat 16 (2 * k + 2)))) :
    exec (.stm list) s = .refused .storeInPrefetchWindow := by
  have hb : ¬(s.advance 2).storable (s.advance 2).pc ((s.advance 2).stackBytes (-BitVec.ofNat 16 (2 * k + 2))) :=
    not_storable_behind hw rfl rfl rfl
  refine refused_of_body rfl ((refuseIf_of_false h7).trans (pushRegs_blocked (s := s.advance 2) hsp ?_ hb))
  rwa [List.length_reverse]

/-! ## The statement -/

/-- Where no exception has a vector, an instruction that does not transfer control is recorded as a whole. -/
theorem recorded_exec {i : Instr} {s t : State} (hi : mayTransfer i = false) (hz : s.params.vecZeroDiv = none)
    (hv : s.params.vecTrapVS = none) (ha : s.params.vecAddrErr = none) (h : exec i s = .next t) :
    Recorded (s.advance (EncodedLength.lengthOf i)) t := by
  obtain ⟨b, hx, hb⟩ := records_of_not_mayTransfer s hi
  exact recorded_finish hz hv ha hb (hx ▸ h)

/-- A recorded body that refuses stores into the window adds nothing to the list of stale bytes; an entry empties
it. -/
theorem finish_clean {s t : State} {b : Body State} (hb : b.recorded s) (h : finish b = .next t)
    (hr : s.params.windowStore = .refuse) : ∀ a ∈ t.stale, a ∈ s.stale := by
  match b with
  | .ok u => cases h; exact Recorded.clean hb hr
  | .error (.refuse _) => cases h
  | .error (.raised _ u) => simp [raise_stale h]

theorem transferred_exec {i : Instr} {s t : State} (hi : mayTransfer i = true) (hbcc : ∀ c d, i ≠ .bcc c d)
    (hscb : ∀ c r d, i ≠ .scb c r d) (h : exec i s = .next t) :
    Transferred (s.advance (EncodedLength.lengthOf i)) t := by
  obtain ⟨b, hx, hb⟩ := transfers_of_mayTransfer s hi hbcc hscb
  exact transferred_finish hb (hx ▸ h)

/-- What memory and the list of stale bytes are behind an instruction, under the setting that refuses stores into the
window. -/
def Guarded (i : Instr) (s t : State) : Prop :=
  (∀ a, s.mayBeFetched (s.npc i) a → t.mem.read a = s.mem.read a) ∧ ∀ a ∈ t.stale, a ∈ s.stale

/-- A conditional transfer keeps memory and adds nothing to the list. -/
theorem guarded_of_mem_eq {i : Instr} {s t u : State} {c : Prop} [Decidable c] {l m : List Nat}
    (hx : exec i s = .next u) (h : exec i s = .next t) (hm : u.mem = s.mem) (hs : u.stale = if c then l else m)
    (hl : l ⊆ s.stale) (hm' : m ⊆ s.stale) : Guarded i s t := by
  obtain rfl : u = t := by simpa using hx.symm.trans h
  refine ⟨fun _ _ => by rw [hm], ?_⟩
  rw [hs]
  split
  · exact fun _ h => hl h
  · exact fun _ h => hm' h

/-- No instruction that completes changes a byte that it may not store to (R70). -/
theorem guarded_exec {i : Instr} {s t : State} (hr : s.params.windowStore = .refuse) (h : exec i s = .next t) :
    Guarded i s t := by
  by_cases hbcc : ∃ c d, i = .bcc c d
  · obtain ⟨c, d, rfl⟩ := hbcc
    obtain ⟨u, hx, hm, hs⟩ := exec_bcc s c d
    exact guarded_of_mem_eq hx h hm hs (List.nil_subset _) (List.Subset.refl _)
  by_cases hscb : ∃ c r d, i = .scb c r d
  · obtain ⟨c, r, d, rfl⟩ := hscb
    obtain ⟨u, hx, hm, hs⟩ := exec_scb s c r d
    exact guarded_of_mem_eq hx h hm hs (List.Subset.refl _) (List.nil_subset _)
  cases hi : mayTransfer i with
  | false =>
    obtain ⟨b, hx, hb⟩ := records_of_not_mayTransfer s hi
    have hclean : ∀ a ∈ t.stale, a ∈ s.stale := finish_clean (s := s.advance _) hb (hx ▸ h) hr
    exact ⟨fun a ha => finish_guards hb (hx ▸ h) (blocked_behind hr ha), hclean⟩
  | true =>
    obtain ⟨hguards, hstale⟩ :=
      transferred_exec hi (fun c d e => hbcc ⟨c, d, e⟩) (fun c r d e => hscb ⟨c, r, d, e⟩) h
    exact ⟨fun a ha => hguards a (blocked_behind hr ha), by simp [hstale]⟩

/-- Settles O8: a step that fetches part of an instruction is refused; the bodies of the instructions are recorded, or
transfer control; and every form that stores or pushes meets the refusal of its store. -/
theorem fetchRefusals : Obligations.FetchRefusals := by
  refine ⟨fun s i n hw ha hq hn hpc hmem hstale => ?stale, fun s i hw ha hq hfresh hlong hmem => ?wrap,
    fun i s t hi hz hv ha h => ?recorded, fun i s t hi hbcc hscb h => (transferred_exec hi hbcc hscb h).2,
    fun s t c disp sc rn d => ⟨fun h => ?bcc, fun h => ?scb⟩, fun i s t hr h => guarded_exec hr h,
    fun sz dst r x w q k cr s _ => ?general, fun sz x r s => ?short,
    fun d j m g list s hsp => ⟨?pushes, fun hmax hg hw => refused_pjsr hsp hmax hg hw,
      fun h7 k hk hw => refused_stm hsp h7 hk hw⟩⟩
  case stale =>
    rw [step_cut_short hw ha hq hn (Nat.le_of_lt hpc) hmem fun _ => hstale, if_pos hpc]
  case wrap =>
    have hlt := s.pc.isLt
    rw [step_cut_short (n := 65536 - s.pc.toNat) hw ha hq (by omega) (by omega)
      (fun k hk hlt => ⟨hmem k hk (by omega), by simp [hfresh]⟩) (by omega), if_neg (by omega)]
  case recorded =>
    have hr := recorded_exec hi hz hv ha h
    exact ⟨hr.keeps, fun a hne hw => hr.records a hne ((inWindow_behind i s a).mpr hw),
      fun a hat => (hr.only a hat).imp id (inWindow_behind i s a).mp⟩
  case bcc =>
    obtain ⟨u, hx, -, hs⟩ := exec_bcc s c disp
    obtain rfl : u = t := by simpa using hx.symm.trans h
    exact hs
  case scb =>
    obtain ⟨u, hx, -, hs⟩ := exec_scb s sc rn d
    obtain rfl : u = t := by simpa using hx.symm.trans h
    exact hs
  case general =>
    intro free isBit
    have unmet {l : List Reg} {b : Body State} (ho : overlaps dst l = false) :
        finish (refuseIf (overlaps dst l) .registerOverlap b) = finish b := congrArg finish (refuseIf_of_false ho)
    have bit {k : BitVec 4} {n : Nat} (hk : k.toNat = n) (h : isBit n) : sz = .b → k.toNat < 8 := by rwa [hk]
    have hreg := toNat_bitNumber s r
    simp only [List.forall_mem_cons]
    exact ⟨fun ho h hw => refused_moveOut h hw (unmet ho) rfl, fun _ h hw => refused_moveOut h hw rfl rfl,
      fun _ h hw => refused_moveOut h hw rfl rfl, fun ho h hw => refused_movtpe ho h hw,
      -- ADD:Q, NEG, CLR, TAS
      fun _ h hw => refused_addQ q h hw, fun _ h hw => refused_modify h hw rfl rfl,
      fun _ h hw => refused_st h hw rfl rfl, fun _ h hw => refused_modify h hw rfl rfl,
      -- the shifts and rotates, NOT
      fun _ h hw => refused_modify h hw rfl rfl, fun _ h hw => refused_modify h hw rfl rfl,
      fun _ h hw => refused_modify h hw rfl rfl, fun _ h hw => refused_modify h hw rfl rfl,
      fun _ h hw => refused_modify h hw rfl rfl, fun _ h hw => refused_modify h hw rfl rfl,
      fun _ h hw => refused_modify h hw rfl rfl, fun _ h hw => refused_modify h hw rfl rfl,
      fun _ h hw => refused_modify h hw rfl rfl,
      -- the bit instructions that store, STC
      fun hb h hw => refused_changeBit h hw hb rfl rfl, fun hb h hw => refused_changeBit h hw hb rfl rfl,
      fun hb h hw => refused_changeBit h hw hb rfl rfl,
      fun ⟨ho, hb⟩ h hw => refused_changeBit h hw (bit hreg hb) (unmet ho) rfl,
      fun ⟨ho, hb⟩ h hw => refused_changeBit h hw (bit hreg hb) (unmet ho) rfl,
      fun ⟨ho, hb⟩ h hw => refused_changeBit h hw (bit hreg hb) (unmet ho) rfl,
      fun hc h hw => refused_stc hc h hw, List.forall_mem_nil _⟩
  case short =>
    simp only [List.forall_mem_cons]
    exact ⟨fun h hw => refused_shortStore h hw rfl rfl, fun h hw => refused_shortStore h hw rfl rfl,
      List.forall_mem_nil _⟩
  case pushes =>
    simp only [List.forall_mem_cons]
    exact ⟨fun hw => refused_push hsp hw (Nat.add_comm ..) rfl, fun hw => refused_push hsp hw rfl rfl,
      fun hw => refused_push hsp hw (Nat.add_comm ..) rfl, List.forall_mem_nil _⟩

end Sys2Proof.Machine
end

section
/-! PROOFS. Nothing but encodings decodes: what the decoder answers is well formed, and the bytes that it read are the
encoding of its answer, followed through the parts of the decoder (spec/30_encoding.md R85, R86, R95 to R113). -/

namespace Sys2Proof

/-! ## Fields -/

@[simp] theorem Reg.toBits_ofBits (v : BitVec 3) : (Reg.ofBits v).toBits = v := by
  decide +revert

@[simp] theorem CtrlReg.toBits_ofBits (v : BitVec 3) : (CtrlReg.ofBits v).toBits = v := by
  decide +revert

@[simp] theorem Cond.toBits_ofBits (v : BitVec 4) : (Cond.ofBits v).toBits = v := by
  decide +revert

@[simp] theorem Size.toBit_ofBit (v : Bool) : (Size.ofBit v).toBit = BitVec.ofBool v := by
  cases v <;> rfl

@[simp] theorem wordBytes_append (h l : Byte) : wordBytes (h ++ l) = [h, l] := by
  rw [wordBytes, Machine.hiByte_append, Machine.loByte_append]

/-- The low half of a byte is its Sz bit and its register field (R85). -/
theorem loNibble_eq (b : Byte) : loNibble b = BitVec.ofBool (bit3 b) ++ low3 b := by
  refine BitVec.eq_of_getLsbD_eq fun i hi => ?_
  simp only [loNibble, bit3, low3, BitVec.getLsbD_append, BitVec.getLsbD_extractLsb', BitVec.getLsbD_ofBool]
  by_cases h : i < 3
  · simp [h, hi]
  · have e : i = 3 := by omega
    simp [e]

section
variable {b : Byte} {h : BitVec 4}

/-- A byte is put together again from its halves. -/
theorem nibbleByte_fields (hh : hiNibble b = h) : nibbleByte h (loNibble b) = b := by
  subst hh
  refine BitVec.eq_of_getLsbD_eq fun i hi => ?_
  simp only [nibbleByte, hiNibble, loNibble, BitVec.getLsbD_append, BitVec.getLsbD_extractLsb']
  by_cases h : i < 4
  · simp [h]
  · have h4 : i - 4 < 4 := by omega
    have e : 4 + (i - 4) = i := by omega
    simp [h, h4, e]

/-- A byte whose halves are known. -/
theorem eq_nibbleByte {l : BitVec 4} (hh : hiNibble b = h) (hl : loNibble b = l) : b = nibbleByte h l := by
  rw [← hl, nibbleByte_fields hh]

theorem modeByte_fields (hh : hiNibble b = h) : modeByte h (BitVec.ofBool (bit3 b)) (low3 b) = b := by
  refine Eq.trans ?_ (nibbleByte_fields hh)
  rw [loNibble_eq, nibbleByte, modeByte, BitVec.append_assoc]
  rfl

theorem codeByte_fields {s : Bool} (hh : hiNibble b = h) (hs : bit3 b = s) :
    codeByte (h ++ BitVec.ofBool s) (low3 b) = b := by
  rw [← hs]
  exact modeByte_fields hh

end

/-! ## What a step of the decoder reads -/

/-- With the bytes `pre` read before it and the bytes `t` ahead, a step answers none but a well-formed instruction,
whose encoding is the bytes read when it ends. -/
def Exact (pre t : List Byte) (d : Decoded Instr) : Prop :=
  ∀ i rest, d = .ok (i, rest) → i.wellFormed = true ∧ pre ++ t = encode i ++ rest

section
variable {pre t : List Byte}

@[simp] theorem exact_error (e : DecodeError) : Exact pre t (.error e) := fun _ _ h => by cases h

theorem exact_ok {i : Instr} (hw : i.wellFormed = true) (he : encode i = pre) : Exact pre t (.ok (i, t)) := by
  intro j rest h
  cases h
  exact ⟨hw, by rw [he]⟩

theorem exact_whenAssigned {c : Bool} {d : Decoded Instr} (h : c = true → Exact pre t d) :
    Exact pre t (whenAssigned c d) := by
  cases c with
  | false => exact exact_error _
  | true => exact h rfl

/-- An instruction that the EA class and the size both restrict. -/
theorem exact_whenAssigned_and {c : Bool} {p : Prop} [Decidable p] {d : Decoded Instr}
    (h : c = true → p → Exact pre t d) : Exact pre t (whenAssigned (c && p) d) :=
  exact_whenAssigned fun hc => by
    obtain ⟨hc, hp⟩ := Bool.and_eq_true_iff.mp hc
    exact h hc (of_decide_eq_true hp)

/-- One of the bytes ahead is read. -/
theorem exact_cons {b : Byte} {d : Decoded Instr} (h : Exact (pre ++ [b]) t d) : Exact pre (b :: t) d := by
  intro i rest hd
  rw [List.append_cons]
  exact h i rest hd

/-- A step that goes on behind one more byte. -/
theorem exact_of_cons {d : List Byte → Decoded Instr} (hnil : d [] = .error .truncated)
    (hcons : ∀ b t, Exact (pre ++ [b]) t (d (b :: t))) : Exact pre t (d t) := by
  cases t with
  | nil => exact hnil ▸ exact_error _
  | cons b t => exact exact_cons (hcons b t)

/-- An instruction that one more byte ends. -/
theorem exact_withByte {f : Byte → Instr} (hw : ∀ v, (f v).wellFormed = true)
    (he : ∀ v, encode (f v) = pre ++ [v]) : Exact pre t (withByte t f) :=
  exact_of_cons (d := (withByte · f)) rfl fun v _ => exact_ok (hw v) (he v)

/-- An instruction that a 16-bit field ends. -/
theorem exact_withWord {f : Word → Instr} (hw : ∀ v, (f v).wellFormed = true)
    (he : ∀ v, encode (f v) = pre ++ wordBytes v) : Exact pre t (withWord t f) :=
  exact_of_cons (d := (withWord · f)) rfl fun h t =>
    exact_of_cons (d := fun t => withWord (h :: t) f) rfl fun l _ =>
      exact_ok (hw (h ++ l)) (by rw [he, wordBytes_append, List.append_assoc]; rfl)

section
variable {b : Byte} {h : BitVec 4} {d : Decoded Instr}

/-- The byte just read, as the encoder writes it: an Op code and a register field. -/
theorem exact_of_code {s : Bool} (hh : hiNibble b = h) (hs : bit3 b = s)
    (hd : Exact (pre ++ [codeByte (h ++ BitVec.ofBool s) (low3 b)]) t d) : Exact (pre ++ [b]) t d := by
  rwa [codeByte_fields hh hs] at hd

/-- The byte just read, with its Sz bit and register field. -/
theorem exact_of_mode (hh : hiNibble b = h)
    (hd : Exact (pre ++ [modeByte h (BitVec.ofBool (bit3 b)) (low3 b)]) t d) : Exact (pre ++ [b]) t d := by
  rwa [modeByte_fields hh] at hd

/-- The byte just read, as its two halves. -/
theorem exact_of_nibble (hh : hiNibble b = h) (hd : Exact (pre ++ [nibbleByte h (loNibble b)]) t d) :
    Exact (pre ++ [b]) t d := by
  rwa [nibbleByte_fields hh] at hd

end

end

/-! ## The EA field -/

/-- What decodes as an EA field is the encoding of one, an immediate of the size that it announces (R85, R86). -/
theorem decodeEA_only {b : Byte} {t rest : List Byte} {sz : Size} {ea : EA}
    (h : decodeEA b t = .ok ((sz, ea), rest)) : ea.isSource sz = true ∧ b :: t = encodeEA sz ea ++ rest := by
  unfold decodeEA at h
  dsimp only at h
  split at h
  -- Rn, @-Rn, @Rn+, @Rn
  case h_1 hh | h_2 hh | h_3 hh | h_4 hh =>
    cases h
    exact ⟨rfl, by simp [encodeEA, modeByte_fields hh]⟩
  -- @(d:8,Rn) and @(d:16,Rn)
  case h_5 hh =>
    rcases t with _ | ⟨d, t⟩ <;> cases h
    exact ⟨rfl, by simp [encodeEA, modeByte_fields hh]⟩
  case h_6 hh =>
    rcases t with _ | ⟨d, _ | ⟨d', t⟩⟩ <;> cases h
    exact ⟨rfl, by simp [encodeEA, modeByte_fields hh]⟩
  -- @aa:8, #xx:8, #xx:16
  case h_7 hh =>
    split at h
    next hr =>
      rcases t with _ | ⟨d, t⟩ <;> cases h
      exact ⟨rfl, by simp [encodeEA, ← hr, modeByte_fields hh]⟩
    next hr hs =>
      rw [hs] at h
      rcases t with _ | ⟨d, t⟩ <;> cases h
      have hb : b = 0x04 := by rw [← modeByte_fields hh, hr, ← Size.toBit_ofBit, hs]; rfl
      exact ⟨rfl, by rw [hb]; rfl⟩
    next hr hs =>
      rw [hs] at h
      rcases t with _ | ⟨d, _ | ⟨d', t⟩⟩ <;> cases h
      have hb : b = 0x0C := by rw [← modeByte_fields hh, hr, ← Size.toBit_ofBit, hs]; rfl
      exact ⟨rfl, by simp [encodeEA, hb]⟩
    next => cases h
  -- @aa:16
  case h_8 hh =>
    split at h
    next hr =>
      rcases t with _ | ⟨d, _ | ⟨d', t⟩⟩ <;> cases h
      exact ⟨rfl, by simp [encodeEA, ← hr, modeByte_fields hh]⟩
    next => cases h
  case h_9 => cases h

/-! ## The Op field -/

section
variable {sz : Size} {ea : EA} {pre : List Byte} (t : List Byte)

/-- The Op byte H'00 goes on with a second one (R100). -/
theorem exact_decodeOp00 : Exact (encodeEA sz ea ++ [0x00]) t (decodeOp00 sz ea t) := by
  refine exact_whenAssigned fun hsz => ?_
  obtain rfl := of_decide_eq_true hsz
  cases t with
  | nil => exact exact_error _
  | cons op t =>
    refine exact_cons ?_
    dsimp only [takeByte]
    split
    -- DADD and DSUB
    case h_1 hh hs | h_2 hh hs => exact exact_of_code hh hs (exact_ok rfl (by simp [encode]))
    -- MOVFPE and MOVTPE
    case h_3 hh hs | h_4 hh hs =>
      exact exact_whenAssigned fun hc => exact_of_code hh hs (exact_ok hc (by simp [encode]))
    case h_5 => exact exact_error _

/-- Op bytes H'00 to H'0F (R95). -/
theorem exact_decodeOp0 (l : BitVec 4) : Exact (encodeEA sz ea ++ [nibbleByte 0x0 l]) t (decodeOp0 l sz ea t) := by
  unfold decodeOp0
  split
  case h_1 => exact exact_whenAssigned fun _ => exact_decodeOp00 t
  -- CMP:G and MOV:G with an immediate
  case h_2 =>
    refine exact_whenAssigned_and fun hc hsz => ?_
    subst hsz
    exact exact_withByte (fun _ => hc) fun _ => List.append_cons ..
  case h_3 =>
    refine exact_whenAssigned_and fun hc hsz => ?_
    subst hsz
    exact exact_withWord (fun _ => hc) fun _ => List.append_cons ..
  case h_4 => exact exact_whenAssigned fun hc => exact_withByte (fun _ => hc) fun _ => List.append_cons ..
  case h_5 =>
    refine exact_whenAssigned_and fun hc hsz => ?_
    subst hsz
    exact exact_withWord (fun _ => hc) fun _ => List.append_cons ..
  -- ADD:Q
  case h_6 | h_7 | h_8 | h_9 => exact exact_whenAssigned fun hc => exact_ok hc rfl
  case h_10 => exact exact_error _

/-- Op bytes H'10 to H'1F (R95). -/
theorem exact_decodeOp1 (l : BitVec 4) : Exact (encodeEA sz ea ++ [nibbleByte 0x1 l]) t (decodeOp1 l sz ea t) := by
  unfold decodeOp1
  split
  -- SWAP, EXTS, EXTU
  case h_1 | h_2 | h_3 =>
    split
    · exact exact_ok rfl rfl
    · exact exact_error _
  -- TAS
  case h_8 =>
    refine exact_whenAssigned_and fun hc hsz => ?_
    subst hsz
    exact exact_ok hc rfl
  -- ROTXR, the last one
  case h_16 =>
    obtain rfl : l = 0xF#4 := by decide +revert
    exact exact_whenAssigned fun hc => exact_ok hc rfl
  -- CLR, NEG, NOT, TST, the other shifts and rotates
  all_goals exact exact_whenAssigned fun hc => exact_ok hc rfl

/-- Op codes that a class I field turns into control register instructions (R95, R110). -/
theorem exact_bitOrControl {op : Byte} {bit : Instr} {ctrl : Imm → Instr} (hbw : bit.wellFormed = ea.isDest)
    (hbe : encode bit = encodeEA sz ea ++ [op]) (hcw : ∀ v, (ctrl v).wellFormed = true)
    (hce : ∀ v, encode (ctrl v) = encodeImmEA v ++ [op]) :
    Exact (encodeEA sz ea ++ [op]) t (bitOrControl ea bit ctrl t) := by
  cases ea with
  | imm8 | imm16 => exact exact_ok (hcw _) (hce _)
  | reg | ind | disp8 | disp16 | preDec | postInc | abs8 | abs16 => exact exact_ok hbw hbe

/-- Op code 10010 is XCH or a store (R95). -/
theorem exact_storeOrXch {op : Byte} (hh : hiNibble op = 0x9) (hs : bit3 op = false) :
    Exact (encodeEA sz ea ++ [op]) t (storeOrXch sz ea (Reg.ofBits (low3 op)) t) := by
  unfold storeOrXch
  split
  · exact exact_of_code hh hs (exact_ok rfl (by simp [encode]))
  · exact exact_whenAssigned fun hc => exact_of_code hh hs (exact_ok hc (by simp [encode]))

/-- What decodes as an Op field is that of an instruction with the EA field before it (R95). -/
theorem exact_decodeOp (h : ea.isSource sz = true) : Exact (encodeEA sz ea) t (decodeOp sz ea t) := by
  refine exact_of_cons rfl fun op t => ?_
  simp only [decodeOp, takeByte]
  split
  case h_1 hh => exact exact_of_nibble hh (exact_decodeOp0 t _)
  case h_2 hh => exact exact_of_nibble hh (exact_decodeOp1 t _)
  -- a bit instruction, or a control register and an immediate
  case h_8 hh hs | h_10 hh hs | h_12 hh hs =>
    refine exact_of_code hh hs (exact_bitOrControl t rfl ?_ (fun _ => rfl) fun _ => ?_) <;> simp [encode]
  -- BTST with a register, STC
  case h_14 hh hs | h_18 hh hs =>
    exact exact_whenAssigned fun hc => exact_of_code hh hs (exact_ok hc (by simp [encode]))
  case h_17 hh hs => exact exact_storeOrXch t hh hs
  -- a bit number
  case h_23 hh | h_24 hh | h_25 hh =>
    exact exact_whenAssigned fun hc => exact_of_nibble hh (exact_ok hc rfl)
  case h_26 =>
    -- no other high half is left
    have hh : hiNibble op = 0xF#4 := by cases hs : bit3 op <;> simp_all <;> bv_omega
    exact exact_whenAssigned fun hc => exact_of_nibble hh (exact_ok hc rfl)
  -- a source, and Rd or a control register
  case h_3 hh hs | h_4 hh hs | h_5 hh hs | h_6 hh hs | h_7 hh hs | h_9 hh hs | h_11 hh hs | h_13 hh hs | h_15 hh hs
    | h_16 hh hs | h_19 hh hs | h_20 hh hs | h_21 hh hs | h_22 hh hs =>
    exact exact_of_code hh hs (exact_ok h (by simp [encode]))

/-- What decodes in the general format is an EA field and the Op field of an instruction that takes it (R81). -/
theorem exact_decodeGeneral (b : Byte) : Exact [b] t (decodeGeneral b t) := by
  intro i rest h
  unfold decodeGeneral at h
  split at h
  next hea =>
    obtain ⟨hsource, hbytes⟩ := decodeEA_only hea
    rw [List.singleton_append, hbytes]
    exact exact_decodeOp _ hsource i rest h
  next => cases h

/-! ## The special formats -/

/-- What decodes behind H'11 is a jump or a return (R105). -/
theorem exact_decode11 : Exact [0x11] t (decode11 t) := by
  refine exact_of_cons rfl fun b t => ?_
  simp only [decode11, takeByte]
  split
  -- PRTD and PRTS
  case h_1 hh =>
    split
    next hl =>
      obtain rfl := eq_nibbleByte hh hl
      exact exact_withByte (fun _ => rfl) fun _ => rfl
    next hl =>
      obtain rfl := eq_nibbleByte hh hl
      exact exact_ok rfl rfl
    next hl =>
      obtain rfl := eq_nibbleByte hh hl
      exact exact_withWord (fun _ => rfl) fun _ => rfl
    next => exact exact_error _
  -- targets @Rn, @(d:8,Rn), @(d:16,Rn)
  case h_2 hh hs | h_3 hh hs | h_4 hh hs | h_5 hh hs =>
    exact exact_of_mode hh (exact_ok rfl (by simp [encode, encodeJump, encodePageJump, hs]))
  case h_6 hh hs | h_7 hh hs =>
    exact exact_of_mode hh (exact_withByte (fun _ => rfl) fun _ => by simp [encode, encodeJump, hs])
  case h_8 hh hs | h_9 hh hs =>
    exact exact_of_mode hh (exact_withWord (fun _ => rfl) fun _ => by simp [encode, encodeJump, hs])
  case h_10 => exact exact_error _

theorem exact_decodeScb (c : ScbCond) : Exact [c.toByte] t (decodeScb c t) := by
  refine exact_of_cons rfl fun b t => ?_
  simp only [decodeScb, takeByte]
  split
  next hh hs =>
    exact exact_of_code hh hs (exact_withByte (fun _ => rfl) fun _ => by simp [encode])
  next => exact exact_error _

theorem exact_decodeTrapa : Exact [0x08] t (decodeTrapa t) := by
  refine exact_of_cons rfl fun b t => ?_
  simp only [decodeTrapa, takeByte]
  split
  next hh => exact exact_of_nibble hh (exact_ok rfl rfl)
  next => exact exact_error _

theorem exact_decodePage24 {b : Byte} {f : PageEA → Instr} (hw : ∀ p, (f p).wellFormed = true)
    (he : ∀ page aa, encode (f (.abs24 page aa)) = b :: page :: wordBytes aa) :
    Exact [b] t (decodePage24 f t) :=
  exact_of_cons rfl fun _ _ => exact_withWord (fun _ => hw _) fun _ => he ..

/-- First bytes H'00 to H'0F (R107). -/
theorem exact_decode0 (l : BitVec 4) : Exact [nibbleByte 0x0 l] t (decode0 (nibbleByte 0x0 l) t) := by
  unfold decode0
  rw [loNibble_nibbleByte]
  split
  -- SCB, LDM and BSR, PJSR, the EA fields, TRAPA
  case h_2 | h_9 | h_10 => exact exact_decodeScb t _
  case h_3 | h_15 => exact exact_withByte (fun _ => rfl) fun _ => rfl
  case h_4 => exact exact_decodePage24 t (fun _ => rfl) fun _ _ => rfl
  case h_5 | h_6 | h_7 | h_8 => exact exact_decodeGeneral t _
  case h_11 => exact exact_decodeTrapa t
  -- NOP, TRAP/VS, RTE; H'0B; UNLK
  case h_1 | h_12 | h_13 => exact exact_ok rfl rfl
  case h_14 => exact exact_error _
  case h_16 =>
    obtain rfl : l = 0xF#4 := by decide +revert
    exact exact_ok rfl rfl

/-- First bytes H'10 to H'1F (R107). -/
theorem exact_decode1 (l : BitVec 4) : Exact [nibbleByte 0x1 l] t (decode1 (nibbleByte 0x1 l) t) := by
  unfold decode1
  rw [loNibble_nibbleByte]
  split
  -- H'11; STM, RTD, LINK with a byte; PJMP; the EA fields; H'16 and H'1B
  case h_2 => exact exact_decode11 t
  case h_3 | h_5 | h_10 => exact exact_withByte (fun _ => rfl) fun _ => rfl
  case h_4 => exact exact_decodePage24 t (fun _ => rfl) fun _ _ => rfl
  case h_6 | h_7 => exact exact_decodeGeneral t _
  case h_8 | h_9 => exact exact_error _
  -- RTS, SLEEP; JMP, JSR, RTD, BSR, LINK with a 16-bit field
  case h_12 | h_13 => exact exact_ok rfl rfl
  case h_1 | h_11 | h_14 | h_15 => exact exact_withWord (fun _ => rfl) fun _ => rfl
  case h_16 =>
    obtain rfl : l = 0xF#4 := by decide +revert
    exact exact_withWord (fun _ => rfl) fun _ => rfl

/-- Nothing but encodings decodes. -/
theorem exact_decode : Exact [] t (decode t) := by
  refine exact_of_cons rfl fun b t => ?_
  simp only [decode, takeByte]
  split
  case h_1 hh =>
    rw [eq_nibbleByte hh rfl]
    exact exact_decode0 t _
  case h_2 hh =>
    rw [eq_nibbleByte hh rfl]
    exact exact_decode1 t _
  -- Bcc
  case h_3 hh => exact exact_of_nibble hh (exact_withByte (fun _ => rfl) fun _ => by simp [encode])
  case h_4 hh => exact exact_of_nibble hh (exact_withWord (fun _ => rfl) fun _ => by simp [encode])
  -- CMP:E, CMP:I, MOV:E, MOV:I
  case h_5 hh hs | h_7 hh hs => exact exact_of_code hh hs (exact_withByte (fun _ => rfl) fun _ => by simp [encode])
  case h_6 hh hs | h_8 hh hs => exact exact_of_code hh hs (exact_withWord (fun _ => rfl) fun _ => by simp [encode])
  -- MOV:L, MOV:S, MOV:F
  case h_9 hh | h_10 hh | h_11 hh | h_12 hh =>
    exact exact_of_mode hh (exact_withByte (fun _ => rfl) fun _ => by simp [encode])
  case h_13 => exact exact_decodeGeneral t b

end

/-- Settles O2: what the decoder answers from the first byte on is exact. -/
theorem decodeOnlyEncodings : Obligations.DecodeOnlyEncodings :=
  fun bytes => exact_decode bytes

end Sys2Proof
end

section
/-! PROOFS. The statements about encodings that rest on the round trip: the length of an encoding, the words of the
spec's examples, and the first bytes that no encoding has (spec/30_encoding.md R80, R86, R112). -/

namespace Sys2Proof

/-- An instruction has a first byte: no bytes are no instruction. -/
theorem length_pos {i : Instr} (h : i.wellFormed = true) : 1 ≤ i.length := by
  refine List.length_pos_iff.mpr fun hnil => ?_
  have hd : decode (encode i) = .ok (i, []) := by simpa using decode_encode h []
  rw [hnil] at hd
  cases hd

/-- Settles O1: the decoder reads back what the encoder writes, which is one to six bytes. -/
theorem decodeOfEncode : Obligations.DecodeOfEncode :=
  fun i rest h => ⟨decode_encode h rest, length_pos h, encode_length_le i⟩

/-- Settles O3: each of the words decodes as the spec's example says. -/
theorem specWordsDecode : Obligations.SpecWordsDecode :=
  ⟨rfl, rfl, rfl, rfl, rfl, rfl, rfl, rfl, rfl, rfl⟩

/-! ## First bytes -/

/-- Bytes that are not refused as unassigned do not begin with a byte that always is. -/
theorem head?_ne_of_decode {b : Byte} (hb : ∀ rest, decode (b :: rest) = .error .unassigned) {l : List Byte}
    (hl : decode l ≠ .error .unassigned) : l.head? ≠ some b := by
  intro h
  obtain ⟨rest, rfl⟩ := List.head?_eq_some_iff.mp h
  exact hl (hb rest)

/-- Every EA field is one of some operand size, which its bytes then announce. -/
theorem exists_isSource (sz : Size) (ea : EA) : ∃ sz', ea.isSource sz' = true ∧ encodeEA sz' ea = encodeEA sz ea := by
  cases ea with
  | imm8 => exact ⟨.b, rfl, rfl⟩
  | imm16 => exact ⟨.w, rfl, rfl⟩
  | reg | ind | disp8 | disp16 | preDec | postInc | abs8 | abs16 => exact ⟨sz, rfl, rfl⟩

/-- An EA field with nothing behind it lacks its Op field, so it is not unassigned. -/
theorem decode_encodeEA_alone (sz : Size) (ea : EA) : decode (encodeEA sz ea) = .error .truncated := by
  obtain ⟨sz', hsource, he⟩ := exists_isSource sz ea
  have hd := decode_encodeEA hsource []
  rw [List.append_nil, he] at hd
  exact hd

/-- No instruction, well formed or not, begins with a byte that is not assigned. -/
theorem head?_encode_ne {b : Byte} (hb : ∀ rest, decode (b :: rest) = .error .unassigned) (i : Instr) :
    (encode i).head? ≠ some b := by
  have general (sz : Size) (ea : EA) (op : List Byte) : (encodeEA sz ea ++ op).head? ≠ some b := by
    rw [List.head?_append_of_ne_nil _ (by cases ea <;> simp [encodeEA])]
    exact head?_ne_of_decode hb (by simp [decode_encodeEA_alone])
  have special (h : i.wellFormed = true) : (encode i).head? ≠ some b := by
    refine head?_ne_of_decode hb ?_
    have hd : decode (encode i) = .ok (i, []) := by simpa using decode_encode h []
    simp [hd]
  cases i with
  | movGLoad | addG | adds | addx | sub | subs | subx | mulxu | divxu | cmpG | and | or | xor | ldc
  | addQ | tst | neg | clr | tas | shal | shar | shll | shlr | rotl | rotr | rotxl | rotxr | not
  | bsetImm | bclrImm | bnotImm | btstImm | bsetReg | bclrReg | bnotReg | btstReg
  | movGStore | movGImm8 | movGImm16 | movtpe | movfpe | stc => exact general _ _ _
  | cmpGImm imm => cases imm <;> exact general _ _ _
  | xch | dadd | dsub | swap | exts | extu | andc | orc | xorc | bcc | bsr | jmp | jsr | pjmp | pjsr | rtd | prtd | link
  | movE | movI | cmpE | cmpI | movL | movS | movFLoad | movFStore | ldm | stm | rts | prts | scb
  | trapa | trapvs | rte | unlk | sleep | nop => exact special rfl

/-- Settles O4: the three bytes are refused whatever follows them, so no encoding begins with one of them. -/
theorem unassignedFirstBytes : Obligations.UnassignedFirstBytes := by
  intro b hb
  have hd (rest : List Byte) : decode (b :: rest) = .error .unassigned := by
    obtain rfl | rfl | rfl := hb <;> rfl
  exact ⟨hd, head?_encode_ne hd⟩

end Sys2Proof
end

section
/-! PROOFS. What a step does with unassigned bytes (spec/30_encoding.md R114; spec/60_exceptions.md R312, R317, R326),
and the operands of the ten addressing modes (spec/30_encoding.md R90, R91). -/

namespace Sys2Proof.Machine

/-! ## The InvalidInstruction exception -/

theorem runInstruction_unassigned {s : State} (hd : decode s.fetched = .error .unassigned) :
    runInstruction s = s.raise .invalidInstruction := by
  simp only [runInstruction, hd]

theorem raise_invalidInstruction_none {s : State} (h : s.params.vecInvalid = none) :
    s.raise .invalidInstruction = .fault .invalidInstruction := by
  simp only [State.raise, State.vectorOf, h, Exn.fault]

theorem raise_invalidInstruction_some {s : State} {e : Byte} (h : s.params.vecInvalid = some e) :
    s.raise .invalidInstruction = s.draw.2.enter e s.draw.1 := by
  simp only [State.raise, State.vectorOf, h, State.savedPC]

/-- Settles O7: the step raises InvalidInstruction, whose entry saves a drawn word as the PC. -/
theorem unassignedBytesRaise : Obligations.UnassignedBytesRaise := by
  intro s ha hq hd
  rw [step_awake ha hq, runInstruction_unassigned hd]
  refine ⟨raise_invalidInstruction_none, fun e he => ?_⟩
  rw [raise_invalidInstruction_some he]
  refine ⟨fun heven => ⟨fun hw => ?entered, fun hw => ?refused⟩, fun hodd => ?double⟩
  case entered =>
    obtain ⟨t, ht, hentered, hsr, hasleep, hirq⟩ := enter_spec (s := s.draw.2) heven hw e s.draw.1
    exact ⟨t, s.draw.1, ht, Entered.of_moved (p := s) hentered, traceCleared_of hsr, hasleep, hirq⟩
  case refused => exact enter_blocked (s := s.draw.2) heven hw ..
  case double =>
    have hnot : ¬s.spEven := by
      rw [State.spEven]
      omega
    exact enter_odd (s := s.draw.2) hnot ..

/-! ## Addressing modes -/

/-- What @-Rn leaves in its register (R90). -/
theorem afterMode_preDec (s : State) (sz : Size) (rn : Reg) :
    s.afterMode sz (.preDec rn) rn = s.reg rn - s.stride sz rn := by
  rw [← resolve_reg]
  simp [resolve]

/-- What @Rn+ leaves in its register (R90). -/
theorem afterMode_postInc (s : State) (sz : Size) (rn : Reg) :
    s.afterMode sz (.postInc rn) rn = s.reg rn + s.stride sz rn := by
  rw [← resolve_reg]
  simp [resolve]

/-- Minimum mode has no pages: the address is the offset (R53). -/
theorem phys_eq_offset {s : State} (h : s.params.maxMode = false) (k : Kind) (off : Word) :
    s.phys k off = off.toNat := by
  simp [State.phys, h]

/-- In maximum mode the address is page : offset (R53). -/
theorem phys_eq_paged {s : State} (h : s.params.maxMode = true) (k : Kind) (off : Word) :
    s.phys k off = off.toNat + 65536 * (s.page k).toNat := by
  rw [State.phys, if_pos h, Nat.add_comm, Nat.mul_comm]

/-- Settles O25: each mode's location by the equations of `resolve`, with the step of @-Rn and @Rn+ as the statement
words it. -/
theorem addressingModes : Obligations.AddressingModes := by
  intro sz rn d8 aa8 d16 aa16 s kind
  have hkind : kind = baseKind rn := rfl
  rw [hkind, afterMode_preDec, afterMode_postInc]
  refine ⟨rfl, rfl, rfl, rfl, rfl, rfl, rfl, rfl, ?imm8, ?imm16,
    fun k off => ⟨fun hm => phys_eq_offset hm k off, fun hm => ?paged⟩⟩
  case imm8 =>
    have hv : s.valueAt (.imm (d8.setWidth 16)) .b = d8 := by
      simp [State.valueAt, loByte_setWidth]
    exact ⟨_, rfl, hv, (ld_ok rfl).trans (congrArg _ hv)⟩
  case imm16 => exact ⟨_, rfl, rfl, ld_ok rfl⟩
  case paged =>
    rw [phys_eq_paged hm]
    cases k <;> rfl

end Sys2Proof.Machine
end

section
/-! PROOFS. The moves of the data transfer chapter (spec/40_data_transfer.md R130 to R151): the forms of the general
format by the lemmas of their shapes, the short forms by one lemma for the loads and one for the stores. -/

namespace Sys2Proof.Machine

open Sys2Proof.Laws (EncodedLength.lengthOf)

/-! ## Moves of the general format -/

/-- Settles O26: MOV:G to a register has the shape of `intoReg`, its result the source alone. -/
theorem movLoadResult : Obligations.MovLoadResult := by
  intro sz src rd s ho p h v
  have hcarry : p.2.flagC = s.flagC := flagC_of_sr (by simp [p])
  exact intoReg_completes (op := fun u _ b => nzFlags b false u.flagC) (r := nzFlags v false s.flagC) rfl
    (length_eq_lengthOf _) ho rfl h (by rw [← hcarry])

/-- A register operand that the addressing mode does not update is read as it was before the instruction. -/
theorem rd_resolve {sz : Size} {ea : EA} {r : Reg} {s : State} {n : Nat} (ho : overlaps ea [r] = false) :
    (resolve sz ea (s.advance n)).2.rd r sz = s.valueAt (.reg r) sz := by
  rw [rd_eq, valueAt_reg_resolve ho]

/-- Settles O27: the three stores have the shape of `moveOut` and differ in the value. -/
theorem movStoreResult : Obligations.MovStoreResult := by
  refine ⟨?register, ?imm8, ?imm16⟩
  case register =>
    intro sz rs dst s hs hm ho p h hw v
    have hx : exec (.movGStore sz rs dst) s = finish (moveOut sz dst 1 s fun u => u.rd rs sz) :=
      congrArg finish (refuseIf_of_false ho)
    exact moveOut_completes hx (length_eq_lengthOf _) hs (isDest_of_isMem hm) rfl h hw (rd_resolve ho).symm
  case imm8 =>
    intro sz x dst s hs hm p h hw v
    exact moveOut_completes rfl (length_eq_lengthOf _) hs (isDest_of_isMem hm) rfl h hw rfl
  case imm16 =>
    intro v dst s hs hm p h hw
    exact moveOut_completes rfl (length_eq_lengthOf _) hs (isDest_of_isMem hm) rfl h hw rfl

/-- Settles O34: a byte can be accessed at every location, and neither instruction writes SR. -/
theorem peripheralMoveResult : Obligations.PeripheralMoveResult := by
  intro ea r s hs hm ho p
  have ha : p.2.canAccess p.1 .b = true := by cases p.1 <;> rfl
  have hd := isDest_of_isMem hm
  refine ⟨fun hw => ?movtpe, ?movfpe⟩
  case movtpe =>
    have hst := st_ok ha (storable_npc (length_eq_lengthOf _) rfl hw) (resolve_not_imm hd _ _) (s.valueAt (.reg r) .b)
    rw [← rd_resolve (n := eaLen ea + 2) ho] at hst ⊢
    refine ⟨_, congrArg finish ((refuseIf_of_false ho).trans hst), ?_, by simp [p], ?_⟩
    · exact intoOperand_put hs hd _ rfl (fun _ => rfl) rfl (by simp [p])
    · exact sequential_of (length_eq_lengthOf _) (by simp [p, EncodedLength.lengthOf]) (by simp [p, controlsKept])
  case movfpe =>
    have hbody : finish (refuseIf (overlaps ea [r]) .registerOverlap _) = .next _ :=
      congrArg finish ((refuseIf_of_false ho).trans
        (congrArg (· >>= fun q => pure (q.2.wr r .b q.1)) (source_ok ha)))
    refine ⟨_, hbody, intoRegister_wr (n := eaLen ea + 2) ho _ (fun _ => rfl) (by simp), by simp, ?_⟩
    exact sequential_of (length_eq_lengthOf _) (by simp [EncodedLength.lengthOf]) (by simp [controlsKept])

/-! ## Short forms -/

section
variable {i : Instr} {s : State} {n : Nat} {sz : Size} {r : Reg}

/-- Everything that an instruction does whose effect is one register write and a result's flags. -/
theorem wr_setAlu_completes {w : Nat} {v : BitVec sz.bits} (a : Alu w)
    (hx : exec i s = .next (((s.advance n).wr r sz v).setAlu a)) (hl : EncodedLength.lengthOf i = n) :
    ∃ t, exec i s = .next t ∧ t.valueAt (.reg r) sz = v ∧ (sz = .b → hiByte (t.reg r) = hiByte (s.reg r)) ∧
      regsKeptBut s t [r] ∧ memKept s t ∧ flagsSet s t a.n a.z a.v a.c ∧ sequential i s t := by
  refine ⟨_, hx, ?value, ?upper, fun j hj => ?regs, fun b => by simp, flagsSet_setAlu (by simp) a, ?seq⟩
  case value => rw [valueAt_setAlu, ← rd_eq, rd_wr]
  case upper =>
    rintro rfl
    simp
  case regs => rw [reg_setAlu, reg_wr_of_ne (by simpa using hj), reg_advance]
  case seq => exact sequential_of ((length_eq_lengthOf i).trans hl) (by simp) (by simp [controlsKept])

/-- Everything that a short load does. -/
theorem shortLoad_completes {l : Loc} (h : s.canAccess l sz = true)
    (hx : exec i s = finish ((s.advance 2).ld l sz >>= fun v => pure (moveIn sz r v (s.advance 2))))
    (hl : EncodedLength.lengthOf i = 2) :
    ∃ t, exec i s = .next t ∧ t.valueAt (.reg r) sz = s.valueAt l sz ∧
      (sz = .b → hiByte (t.reg r) = hiByte (s.reg r)) ∧ regsKeptBut s t [r] ∧ memKept s t ∧
      flagsSet s t (s.valueAt l sz).msb (s.valueAt l sz == 0) false s.flagC ∧ sequential i s t := by
  have hld : (s.advance 2).ld l sz = .ok (s.valueAt l sz) := by
    rw [ld_ok ((canAccess_congr (by simp) l sz).trans h), valueAt_congr (s := s) (by simp) (by simp) (by simp)]
  rw [hld] at hx
  exact wr_setAlu_completes (nzFlags (s.valueAt l sz) false s.flagC) hx hl

/-- Everything that a short store does. -/
theorem shortStore_completes {k : Kind} {off : Word} (hs : s.wf = true) (h : s.canAccess (.mem k off) sz = true)
    (hw : s.storable (s.npc i) (s.bytesAt (.mem k off) sz))
    (hx : exec i s = finish ((s.advance 2).st (.mem k off) sz ((s.advance 2).rd r sz) >>= fun t =>
      pure (t.setAlu (nzFlags ((s.advance 2).rd r sz) false t.flagC))))
    (hl : EncodedLength.lengthOf i = 2) :
    ∃ t, exec i s = .next t ∧ t.valueAt (.mem k off) sz = s.valueAt (.reg r) sz ∧ t.regs = s.regs ∧
      memKeptBut s t (s.bytesAt (.mem k off) sz) ∧
      flagsSet s t (s.valueAt (.reg r) sz).msb (s.valueAt (.reg r) sz == 0) false s.flagC ∧ sequential i s t := by
  have hlen : i.length = 2 := (length_eq_lengthOf i).trans hl
  have hv : (s.advance 2).rd r sz = s.valueAt (.reg r) sz := rd_eq ..
  have hbytes := bytesAt_congr (s := s) (t := s.advance 2) (by simp) (.mem k off) sz
  have hst := st_ok (s := s.advance 2) ((canAccess_congr (by simp) _ sz).trans h)
    (by rw [hbytes, advance_pc, ← npc_of_length hlen]; exact storable_congr rfl rfl hw) (by simp)
    (s.valueAt (.reg r) sz)
  generalize s.valueAt (.reg r) sz = v at hv hst
  rw [hv, hst] at hx
  refine ⟨_, hx, ?value, ?regs, fun a ha => ?mem, ?flags, ?seq⟩
  case value =>
    rw [valueAt_setAlu]
    exact put_valueAt (s := s.advance 2) (Bool.and_eq_true_iff.mp hs).1 (by simp) sz v
  case regs => simp [State.put]
  case mem => rw [setAlu_mem, put_read_of_not_mem (by rwa [hbytes]), advance_mem]
  case flags =>
    have hsr : ((s.advance 2).put (.mem k off) sz v).sr = s.sr := by simp
    rw [flagC_of_sr hsr]
    exact flagsSet_setAlu hsr (nzFlags v false s.flagC)
  case seq => exact sequential_of hlen (by simp) (by simp [controlsKept])

end

/-- Settles O28: both are short moves to a register, of the one size each has. -/
theorem movShortImmediateResult : Obligations.MovShortImmediateResult := by
  intro x v rd s
  refine ⟨⟨rfl, ?movE⟩, rfl, ?movI⟩
  case movE =>
    obtain ⟨t, hx, hvalue, hupper, hframe⟩ :=
      wr_setAlu_completes (i := .movE x rd) (s := s) (sz := .b) (nzFlags x false s.flagC) rfl rfl
    refine ⟨t, hx, ?_, hframe⟩
    rw [← hi_lo (t.reg rd), hupper rfl]
    exact congrArg _ hvalue
  case movI =>
    obtain ⟨t, hx, hvalue, -, hframe⟩ :=
      wr_setAlu_completes (i := .movI v rd) (s := s) (sz := .w) (nzFlags v false s.flagC) rfl rfl
    exact ⟨t, hx, hvalue, hframe⟩

/-- Settles O29: MOV:L and MOV:S differ from the two forms of MOV:F in the location alone. -/
theorem movShortMemoryResult : Obligations.MovShortMemoryResult := by
  intro sz x r s atBr atFp
  simp only [List.forall_mem_cons]
  exact ⟨⟨fun h => shortLoad_completes h rfl rfl, fun h => shortLoad_completes h rfl rfl, List.forall_mem_nil _⟩,
    fun hs h hw => shortStore_completes hs h hw rfl rfl, fun hs h hw => shortStore_completes hs h hw rfl rfl,
    List.forall_mem_nil _⟩

/-! ## Registers exchanged -/

/-- The Op code of XCH with byte size is unassigned: no register is a destination of MOV:G's store (R95, C6). -/
theorem decode_xch_byte (rs rd : Reg) (rest : List Byte) :
    decode (encodeEA .b (.reg rs) ++ codeByte 0b10010 rd.toBits :: rest) = .error .unassigned := by
  rw [decode_encodeEA rfl]
  cases rd <;> rfl

/-- Settles O32: two register writes with the values of before, the second to Rd. -/
theorem xchResult : Obligations.XchResult := by
  intro rs rd s
  refine ⟨rfl, decode_xch_byte rs rd, _, rfl, by simp, ?rs, fun j hj => ?regs, fun _ => rfl, rfl,
    sequential_of (n := 2) (length_eq_lengthOf _) rfl (by simp [controlsKept])⟩
  case rs =>
    simp only [reg_setReg, if_true]
    split
    · rename_i he
      rw [he]
    · rfl
  case regs =>
    simp only [List.mem_cons, List.not_mem_nil, or_false, not_or] at hj
    simp [hj]

/-- N of a byte result is bit 7 of the word that the byte is the low half of. -/
theorem msb_loByte (v : Word) : (loByte v).msb = v.getLsbD 7 := by
  simp [loByte, BitVec.msb_eq_getLsbD_last]

/-- SWAP is one register write with the flags of the low byte, or of the word, of what it writes (R148). -/
theorem exec_swap_byte {s : State} (h : s.params.swapScope = .byte) (rd : Reg) :
    exec (.swap rd) s = .next (((s.advance 2).wr rd .w (loByte (s.reg rd) ++ hiByte (s.reg rd))).setAlu
      (nzFlags (loByte (loByte (s.reg rd) ++ hiByte (s.reg rd))) false s.flagC)) := by
  simp only [exec, execSwap, h]
  rfl

theorem exec_swap_word {s : State} (h : s.params.swapScope = .word) (rd : Reg) :
    exec (.swap rd) s = .next (((s.advance 2).wr rd .w (loByte (s.reg rd) ++ hiByte (s.reg rd))).setAlu
      (nzFlags (loByte (s.reg rd) ++ hiByte (s.reg rd)) false s.flagC)) := by
  simp only [exec, execSwap, h]
  rfl

/-- Settles O33: one write of the whole register, and the flags of its low byte or of the word by the parameter. -/
theorem swapResult : Obligations.SwapResult := by
  intro rd s
  cases hscope : s.params.swapScope with
  | byte =>
    obtain ⟨t, hx, hrd, -, hregs, hmem, hflags, hseq⟩ := wr_setAlu_completes _ (exec_swap_byte hscope rd) rfl
    rw [State.valueAt] at hrd
    rw [← hrd] at hflags
    refine ⟨t, hx, by simp [hrd], by simp [hrd], hregs, hmem, fun _ => ?_, fun h => (nomatch h), hseq⟩
    rw [← msb_loByte]
    exact hflags
  | word =>
    obtain ⟨t, hx, hrd, -, hregs, hmem, hflags, hseq⟩ := wr_setAlu_completes _ (exec_swap_word hscope rd) rfl
    rw [State.valueAt] at hrd
    rw [← hrd] at hflags
    exact ⟨t, hx, by simp [hrd], by simp [hrd], hregs, hmem, fun h => (nomatch h), fun _ => hflags, hseq⟩

end Sys2Proof.Machine
end

section
/-! PROOFS. LDM and STM (spec/40_data_transfer.md R144, R145): what a run of pops and a run of pushes do, by induction
on the registers of the list, and the two instructions behind each other. -/

namespace Sys2Proof.Machine

/-! ## Register lists -/

theorem nodup_listedRegs (list : Byte) : (listedRegs list).Nodup :=
  List.Nodup.filter _ (by decide)

theorem length_listedRegs_le (list : Byte) : (listedRegs list).length ≤ 8 := List.length_filter_le ..

/-- Bit 7 of the list stands for R7 (R24). -/
theorem r7_not_mem_listedRegs {list : Byte} (h : list.getLsbD 7 = false) : Reg.r7 ∉ listedRegs list := fun hmem =>
  absurd (h.symm.trans (List.mem_filter.mp hmem).2) (by decide)

/-! ## Offsets of stack words -/

/-- Two bytes and `n` more. -/
theorem two_add_offset (n : Nat) : (2 : Word) + BitVec.ofNat 16 n = BitVec.ofNat 16 (n + 2) := by
  rw [Nat.add_comm n 2]
  exact (BitVec.ofNat_add 2 n).symm

/-- Offsets below 2^16 bytes are told apart. -/
theorem sub_offset_ne (sp : Word) {m n : Nat} (hm : m < 65536) (hn : n < 65536) (h : m ≠ n) :
    sp - BitVec.ofNat 16 m ≠ sp - BitVec.ofNat 16 n := by
  bv_omega

/-- Behind `n` pushes, the word `k` words above SP is the one of push number `n - 1 - k`, counted from 0. -/
theorem offset_from_below {n k : Nat} (h : k < n) (sp : Word) :
    sp - BitVec.ofNat 16 (2 * n) + BitVec.ofNat 16 (2 * k) = sp - BitVec.ofNat 16 (2 * (n - 1 - k) + 2) := by
  rw [show 2 * n = 2 * k + (2 * (n - 1 - k) + 2) by omega, BitVec.ofNat_add]
  bv_omega

theorem sub_even {v : Word} (h : v.toNat % 2 = 0) (n : Nat) : (v - BitVec.ofNat 16 (2 * n)).toNat % 2 = 0 := by
  rw [BitVec.toNat_sub, BitVec.toNat_ofNat]
  omega

/-! ## Pops -/

/-- The state behind one pop of LDM: the word popped for R7 is thrown away (R144). -/
def State.popInto (s : State) (r : Reg) : State :=
  let g := s.regs.set .r7 (s.sp + 2)
  { s with regs := if r = .r7 then g else g.set r (s.stackWord 0) }

theorem reg_popInto (s : State) (r i : Reg) :
    (s.popInto r).reg i = if i = .r7 then s.sp + 2 else if i = r then s.stackWord 0 else s.reg i := by
  by_cases hr : r = .r7
  · subst hr
    simp only [State.popInto, State.reg, if_true, regs_get_set]
    split <;> rfl
  · simp only [State.popInto, State.reg, if_neg hr, regs_get_set]
    by_cases hi : i = r
    · simp [hi, hr]
    · simp [hi]

theorem popInto_sp (s : State) (r : Reg) : (s.popInto r).sp = s.sp + 2 := by
  rw [State.sp, reg_popInto, if_pos rfl]

theorem popRegs_cons {s : State} (h : s.spEven) (r : Reg) (rest : List Reg) :
    popRegs (r :: rest) s = popRegs rest (s.popInto r) := by
  have hword : s.mem.word (s.phys .stack s.sp) = s.stackWord 0 := by simp [State.stackWord]
  simp only [popRegs, pop16_ok h, State.popInto, bind, Except.bind, hword]
  split <;> rfl

/-- The state behind the pops of LDM, in the order given. -/
def State.poppedRegs (s : State) : List Reg → State
  | [] => s
  | r :: rest => (s.popInto r).poppedRegs rest

theorem popRegs_ok {s : State} (h : s.spEven) (l : List Reg) : popRegs l s = .ok (s.poppedRegs l) := by
  induction l generalizing s with
  | nil => rfl
  | cons r rest ih =>
    rw [popRegs_cons h]
    exact ih (by rwa [State.spEven, popInto_sp, toNat_add_two_mod])

/-- The pops write registers only. -/
theorem poppedRegs_eq (s : State) (l : List Reg) : s.poppedRegs l = { s with regs := (s.poppedRegs l).regs } := by
  induction l generalizing s with
  | nil => rfl
  | cons r rest ih => exact ih _

/-- The pops leave SP above the words popped. -/
theorem poppedRegs_sp (s : State) (l : List Reg) :
    (s.poppedRegs l).sp = s.sp + BitVec.ofNat 16 (2 * l.length) := by
  induction l generalizing s with
  | nil => exact (BitVec.add_zero _).symm
  | cons r rest ih =>
    rw [State.poppedRegs, ih, popInto_sp, BitVec.add_assoc, two_add_offset]
    rfl

theorem reg_poppedRegs_of_not_mem {l : List Reg} {i : Reg} (h : i ∉ .r7 :: l) (s : State) :
    (s.poppedRegs l).reg i = s.reg i := by
  induction l generalizing s with
  | nil => rfl
  | cons r rest ih =>
    simp only [List.mem_cons, not_or] at h ih
    obtain ⟨h7, hr, hrest⟩ := h
    rw [State.poppedRegs, ih ⟨h7, hrest⟩, reg_popInto, if_neg h7, if_neg hr]

/-- Memory is kept, so that a word above SP is behind a pop the word two bytes nearer to SP. -/
theorem stackWord_popInto (s : State) (r : Reg) (n : Nat) :
    (s.popInto r).stackWord (BitVec.ofNat 16 n) = s.stackWord (BitVec.ofNat 16 (n + 2)) := by
  rw [State.stackWord, popInto_sp, BitVec.add_assoc, two_add_offset]
  rfl

/-- Each register of the list but R7 holds its word, the first of the list the lowest one. -/
theorem reg_poppedRegs {l : List Reg} (hl : l.Nodup) (s : State) {k : Nat} (hk : k < l.length) (h7 : l[k] ≠ .r7) :
    (s.poppedRegs l).reg l[k] = s.stackWord (BitVec.ofNat 16 (2 * k)) := by
  induction l generalizing s k with
  | nil => cases hk
  | cons r rest ih =>
    obtain ⟨hr, hrest⟩ := List.nodup_cons.mp hl
    cases k with
    | zero =>
      simp only [List.getElem_cons_zero] at h7 ⊢
      rw [State.poppedRegs, reg_poppedRegs_of_not_mem (by simp [h7, hr]), reg_popInto, if_neg h7, if_pos rfl]
      rfl
    | succ k => exact (ih hrest _ (Nat.lt_of_succ_lt_succ hk) h7).trans (stackWord_popInto ..)

/-! ## Pushes -/

/-- The state behind the pushes of STM, in the order given (R145). -/
def State.pushedRegs (s : State) : List Reg → State
  | [] => s
  | r :: rest => (s.pushed (s.reg r)).pushedRegs rest

/-- The word of the next push but `n` bytes is `n + 2` bytes below SP. -/
theorem stackBytes_behind_push (s : State) (v : Word) (n : Nat) :
    (s.pushed v).stackBytes (-BitVec.ofNat 16 n) = s.stackBytes (-BitVec.ofNat 16 (n + 2)) := by
  rw [stackBytes_pushed, two_add_offset]

theorem pushRegs_ok {l : List Reg} {s : State} (h : s.spEven)
    (hw : ∀ k < l.length, s.storable s.pc (s.stackBytes (-BitVec.ofNat 16 (2 * k + 2)))) :
    pushRegs l s = .ok (s.pushedRegs l) := by
  induction l generalizing s with
  | nil => rfl
  | cons r rest ih =>
    have hrest := ih (spEven_pushed h (s.reg r)) fun k hk => by
      rw [stackBytes_behind_push]
      exact storable_congr rfl rfl (hw (k + 1) (Nat.succ_lt_succ hk))
    simp only [pushRegs, push16_ok h (hw 0 (Nat.zero_lt_succ _)), bind, Except.bind, hrest]
    rfl

/-- The pushes write SP, memory and the list of stale bytes only. -/
theorem pushedRegs_eq (s : State) (l : List Reg) :
    s.pushedRegs l = { s with
      regs := (s.pushedRegs l).regs, mem := (s.pushedRegs l).mem, stale := (s.pushedRegs l).stale } := by
  induction l generalizing s with
  | nil => rfl
  | cons r rest ih => exact ih _

theorem pushedRegs_sp (s : State) (l : List Reg) :
    (s.pushedRegs l).sp = s.sp - BitVec.ofNat 16 (2 * l.length) := by
  induction l generalizing s with
  | nil => exact (BitVec.sub_zero _).symm
  | cons r rest ih =>
    rw [State.pushedRegs, ih, pushed_sp, sub_sub_word, two_add_offset]
    rfl

theorem reg_pushedRegs {i : Reg} (h : i ≠ .r7) (s : State) (l : List Reg) : (s.pushedRegs l).reg i = s.reg i := by
  induction l generalizing s with
  | nil => rfl
  | cons r rest ih => rw [State.pushedRegs, ih, pushed_reg, if_neg h]

/-- Every byte outside the words pushed is kept. -/
theorem read_pushedRegs {l : List Reg} {s : State} {a : Nat}
    (h : ∀ k < l.length, a ∉ s.stackBytes (-BitVec.ofNat 16 (2 * k + 2))) :
    (s.pushedRegs l).mem.read a = s.mem.read a := by
  induction l generalizing s with
  | nil => rfl
  | cons r rest ih =>
    have hrest : ∀ k < rest.length, a ∉ (s.pushed (s.reg r)).stackBytes (-BitVec.ofNat 16 (2 * k + 2)) := by
      intro k hk
      rw [stackBytes_behind_push]
      exact h (k + 1) (Nat.succ_lt_succ hk)
    exact (ih hrest).trans (memKeptBut_pushed s (s.reg r) a (h 0 (Nat.zero_lt_succ _)))

/-- Every other even word of the stack page is kept. -/
theorem word_pushedRegs_of_ne {l : List Reg} {s : State} (h : s.spEven) {off : Word} (ho : off.toNat % 2 = 0)
    (hne : ∀ k < l.length, off ≠ s.sp - BitVec.ofNat 16 (2 * k + 2)) :
    (s.pushedRegs l).mem.word (s.phys .stack off) = s.mem.word (s.phys .stack off) := by
  induction l generalizing s with
  | nil => rfl
  | cons r rest ih =>
    have hrest : ∀ k < rest.length, off ≠ (s.pushed (s.reg r)).sp - BitVec.ofNat 16 (2 * k + 2) := by
      intro k hk
      rw [pushed_sp, sub_sub_word, two_add_offset]
      exact hne (k + 1) (Nat.succ_lt_succ hk)
    have hword := ih (spEven_pushed h (s.reg r)) hrest
    rw [phys_pushed] at hword
    exact hword.trans (word_pushed h _ ho (hne 0 (Nat.zero_lt_succ _)))

/-- The pushes of registers other than R7 do not overlap: each register's word holds it. -/
theorem word_pushedRegs {l : List Reg} (hlen : l.length ≤ 8) (h7 : Reg.r7 ∉ l) {s : State} (hs : s.mem.wf = true)
    (h : s.spEven) {k : Nat} (hk : k < l.length) :
    (s.pushedRegs l).mem.word (s.phys .stack (s.sp - BitVec.ofNat 16 (2 * k + 2))) = s.reg l[k] := by
  induction l generalizing s k with
  | nil => cases hk
  | cons r rest ih =>
    simp only [List.length_cons, List.mem_cons, not_or] at hlen h7 hk
    cases k with
    | zero =>
      have hkept : ∀ k < rest.length,
          s.sp - 2 ≠ (s.pushed (s.reg r)).sp - BitVec.ofNat 16 (2 * k + 2) := by
        intro k hk
        rw [pushed_sp, sub_sub_word, two_add_offset]
        exact sub_offset_ne s.sp (m := 2) (by omega) (by omega) (by omega)
      have hword := word_pushedRegs_of_ne (spEven_pushed h (s.reg r)) (toNat_sub_two_mod.trans h) hkept
      rw [phys_pushed] at hword
      exact hword.trans (pushed_word hs _)
    | succ k =>
      have hk' : k < rest.length := Nat.lt_of_succ_lt_succ hk
      have hword := ih (by omega) h7.2 (pushed_wf hs h (s.reg r)) (spEven_pushed h (s.reg r)) hk'
      rw [phys_pushed, pushed_sp, sub_sub_word, two_add_offset, pushed_reg,
        if_neg fun e => h7.2 (List.mem_of_getElem e)] at hword
      exact hword

/-! ## The instructions -/

/-- Settles O30: LDM is a run of pops of the list, STM a run of pushes of the list reversed. -/
theorem ldmStmResult : Obligations.LdmStmResult := by
  intro list s hsp l
  refine ⟨fun h7 => ?ldm, fun hs h7 hw => ?stm⟩
  case ldm =>
    have hrun : (list.getLsbD 7 && decide (s.params.ldmR7 = .refuse)) = false := by
      rcases h7 with h | h
      · rw [h, Bool.false_and]
      · rw [h]
        exact Bool.and_false _
    have hpops := popRegs_ok (s := s.advance 2) hsp l
    refine ⟨_, congrArg finish ((refuseIf_of_false hrun).trans hpops), fun k hk h => ?_, ?_, fun i hi => ?_, ?_⟩
    · exact reg_poppedRegs (nodup_listedRegs list) (s.advance 2) hk h
    · exact poppedRegs_sp (s.advance 2) l
    · exact reg_poppedRegs_of_not_mem hi (s.advance 2)
    · rw [poppedRegs_eq]
      exact ⟨fun _ => rfl, rfl, rfl, by simp [controlsKept]⟩
  case stm =>
    have hlen : l.reverse.length = l.length := List.length_reverse
    have hpushes : pushRegs l.reverse (s.advance 2) = .ok ((s.advance 2).pushedRegs l.reverse) :=
      pushRegs_ok hsp fun k hk => storable_congr rfl rfl (hw k (hlen ▸ hk))
    generalize ht : (s.advance 2).pushedRegs l.reverse = t at hpushes
    have htsp : t.sp = s.sp - BitVec.ofNat 16 (2 * l.length) := by
      rw [← ht, pushedRegs_sp, hlen]
      rfl
    have hphys (off : Word) : t.phys .stack off = s.phys .stack off := by
      rw [← ht, pushedRegs_eq]
      exact phys_congr rfl .stack rfl off
    refine ⟨t, congrArg finish ((refuseIf_of_false h7).trans hpushes), htsp, fun k hk => ?word, fun i hi => ?regs,
      fun a ha => ?mem, ?frame⟩
    case word =>
      have hword := word_pushedRegs (l := l.reverse) (s := s.advance 2) (k := l.length - 1 - k)
        (hlen ▸ length_listedRegs_le list) (by simpa using r7_not_mem_listedRegs h7) (Bool.and_eq_true_iff.mp hs).1
        hsp (by omega)
      rw [ht] at hword
      rw [State.stackWord, htsp, offset_from_below hk, hphys]
      refine hword.trans ?_
      simp only [List.getElem_reverse, reg_advance, show l.length - 1 - (l.length - 1 - k) = k by omega]
    case regs =>
      rw [← ht]
      exact reg_pushedRegs (by simpa using hi) (s.advance 2) l.reverse
    case mem =>
      rw [← ht]
      refine read_pushedRegs (s := s.advance 2) fun k hk hmem => ha (l.length - 1 - k) (by omega) ?_
      rw [State.stackBytes, htsp, offset_from_below (by omega), hphys,
        show l.length - 1 - (l.length - 1 - k) = k by omega, ← stackBytes_eq]
      exact hmem
    case frame =>
      rw [← ht, pushedRegs_eq]
      exact ⟨rfl, rfl, by simp [controlsKept]⟩

/-- Settles O31: LDM reads the words that STM wrote, at the same SP. -/
theorem stmThenLdm : Obligations.StmThenLdm := by
  intro list s hs hsp h7 hw
  obtain ⟨t, ht, htsp, hwords, -⟩ := (ldmStmResult list s hsp).2 hs h7 hw
  refine ⟨t, ht, fun g hg => ?_⟩
  have heven : ({ t with regs := g } : State).sp.toNat % 2 = 0 := by
    rw [State.sp, State.reg, hg, htsp]
    exact sub_even hsp _
  obtain ⟨u, hu, hloaded, husp, hkept, -⟩ := (ldmStmResult list { t with regs := g } heven).1 (.inl h7)
  refine ⟨u, hu, fun i hi => ?listed, ?sp, fun i hi hi7 => hkept i (by simp [hi, hi7])⟩
  case listed =>
    obtain ⟨k, hk, rfl⟩ := List.mem_iff_getElem.mp hi
    have hword : ({ t with regs := g } : State).stackWord (BitVec.ofNat 16 (2 * k)) =
        t.stackWord (BitVec.ofNat 16 (2 * k)) := by
      rw [State.stackWord, State.sp, State.reg, hg]
      rfl
    rw [hloaded k hk fun e => r7_not_mem_listedRegs h7 (List.mem_of_getElem e), hword, hwords k hk]
  case sp =>
    rw [husp, State.sp, State.reg, hg, htsp, BitVec.sub_add_cancel]

end Sys2Proof.Machine
end

section
/-! PROOFS. Sums, differences and comparisons (spec/41_arithmetic.md R160 to R164, R170 to R172, R180 to R192): each
instruction by the lemma of its shape, its flags by what the flag computation means in exact arithmetic. -/

namespace Sys2Proof.Machine

open Sys2Proof.Laws (EncodedLength.lengthOf)

/-! ## Into a register -/

/-- Settles O35: the four have the shape of `intoReg`, and C and V of each are those of the exact sum or difference. -/
theorem addSubtractResult : Obligations.AddSubtractResult := by
  intro sz src rd s ho p h a b c carry
  have hcarry : p.2.flagC = c := flagC_of_sr (by simp [p])
  have hz (zero : Bool) : extendedZ p.2.params.zExtended p.2.flagZ zero = s.zAfter zero := by
    rw [← extendedZ_eq]
    simp [p, State.flagZ]
  have completes {i : Instr} {op : State → BitVec sz.bits → BitVec sz.bits → Alu sz.bits} {r : BitVec sz.bits}
      {nf zf vf cf : Bool} (hx : exec i s = finish (intoReg sz src rd s op))
      (hl : EncodedLength.lengthOf i = eaLen src + 1) (hr : op p.2 a b = ⟨r, nf, zf, vf, cf⟩) :
      ∃ t, exec i s = .next t ∧ intoRegister s t sz src rd r ∧ flagsSet s t nf zf vf cf ∧ sequential i s t :=
    intoReg_completes hx ((length_eq_lengthOf i).trans hl) ho rfl h hr.symm
  refine ⟨completes rfl rfl ?addG, completes rfl rfl ?sub, completes rfl rfl ?addx, completes rfl rfl ?subx⟩
  case addG => exact addFlags_no_carry (bits_pos sz) a b
  case sub => exact subFlags_no_borrow (bits_pos sz) a b
  case addx => rw [Alu.withExtendedZ, hz, hcarry, addFlags_eq (bits_pos sz)]
  case subx => rw [Alu.withExtendedZ, hz, hcarry, subFlags_eq (bits_pos sz)]

/-- Settles O36: both have the shape of `intoRegWord`, which reads the source as a word. -/
theorem addsSubsResult : Obligations.AddsSubsResult := by
  intro sz src rd s ho p h b
  have hb : wordOf sz (p.2.valueAt p.1 sz) = b := wordOf_eq ..
  simp only [List.forall_mem_cons, ← hb]
  exact ⟨intoRegWord_completes (op := (· + ·)) rfl (length_eq_lengthOf _) ho rfl h,
    intoRegWord_completes (op := (· - ·)) rfl (length_eq_lengthOf _) ho rfl h, List.forall_mem_nil _⟩

/-- Settles O42: EXTS and EXTU write a word with the value of the low byte, so that the word is 0 where the byte is
and has the sign of the byte, or none. -/
theorem extendResult : Obligations.ExtendResult := by
  intro rd s
  refine ⟨⟨rfl, ?exts⟩, rfl, ?extu⟩
  case exts =>
    obtain ⟨t, hx, hrd, -, hregs, hmem, hflags, hseq⟩ := wr_setAlu_completes (i := .exts rd) (s := s) (sz := .w)
      (nzFlags ((loByte (s.reg rd)).signExtend 16) false false) rfl rfl
    rw [State.valueAt] at hrd
    have hvalue : ((loByte (s.reg rd)).signExtend 16).toInt = (loByte (s.reg rd)).toInt :=
      BitVec.toInt_signExtend_of_le (by decide)
    have hn : ((loByte (s.reg rd)).signExtend 16).msb = (s.reg rd).getLsbD 7 := by
      rw [BitVec.msb_eq_toInt, hvalue, ← BitVec.msb_eq_toInt, msb_loByte]
    have hz : decide ((loByte (s.reg rd)).signExtend 16 = 0) = (loByte (s.reg rd) == 0) := by
      rw [Bool.eq_iff_iff, decide_eq_true_iff, beq_iff_eq, ← BitVec.toInt_inj, ← BitVec.toInt_inj, hvalue]
      rfl
    simp only [nzFlags, hn, hz] at hflags
    exact ⟨t, hx, by rw [hrd, hvalue], hregs, hmem, hflags, hseq⟩
  case extu =>
    obtain ⟨t, hx, hrd, -, hregs, hmem, hflags, hseq⟩ := wr_setAlu_completes (i := .extu rd) (s := s) (sz := .w)
      (nzFlags ((loByte (s.reg rd)).setWidth 16) false false) rfl rfl
    rw [State.valueAt] at hrd
    have hvalue : ((loByte (s.reg rd)).setWidth 16).toNat = (loByte (s.reg rd)).toNat :=
      BitVec.toNat_setWidth_of_le (by decide)
    have hn : ((loByte (s.reg rd)).setWidth 16).msb = false := by
      rw [BitVec.msb_eq_false_iff_two_mul_lt, hvalue]
      have := (loByte (s.reg rd)).isLt
      omega
    have hz : decide ((loByte (s.reg rd)).setWidth 16 = 0) = (loByte (s.reg rd) == 0) := by
      rw [Bool.eq_iff_iff, decide_eq_true_iff, beq_iff_eq, ← BitVec.toNat_inj, ← BitVec.toNat_inj, hvalue]
      rfl
    simp only [nzFlags, hn, hz] at hflags
    exact ⟨t, hx, by rw [hrd, hvalue], hregs, hmem, hflags, hseq⟩

/-! ## Into an operand -/

section
variable {sz : Size} {ea : EA} {s : State} {i : Instr}

/-- Everything that a write to an operand's location does, with any flags and any number of free values drawn. -/
theorem put_setNZVC_completes (hs : s.wf = true) (hd : ea.isDest = true) (hl : i.length = eaLen ea + 1)
    {p : Loc × State} (hp : p = resolve sz ea (s.advance (eaLen ea + 1))) {v : BitVec sz.bits} {nf zf vf cf : Bool}
    {k : Nat} (hx : exec i s = .next { (p.2.put p.1 sz v).setNZVC nf zf vf cf with freeIdx := k }) :
    ∃ t, exec i s = .next t ∧ intoOperand s t sz ea p.2 p.1 v ∧ flagsSet s t nf zf vf cf ∧ sequential i s t := by
  refine ⟨_, hx, ?_, ?_, sequential_of hl (by simp [hp]) (by simp [hp, controlsKept])⟩
  · subst hp
    refine intoOperand_put hs hd v rfl (fun j => rfl) rfl fun j off => ?_
    exact phys_congr (by simp) j (by cases j <;> simp [State.page]) off
  · exact flagsSet_setNZVC (u := { p.2.put p.1 sz v with freeIdx := k }) (by simp [hp]) nf zf vf cf

end

/-- Settles O37: ADD:Q has the shape of `modify` with a free value drawn behind it, whichever C it is for. -/
theorem addQuickResult : Obligations.AddQuickResult := by
  intro sz q dst s hs hd p h hw a r
  have hparams : p.2.params = s.params := by simp [p]
  obtain ⟨c, hflags, hpos, hborrow, hadd⟩ := quickFlags_spec sz s.params.addqNegC (p.2.draw.1.getLsbD 0) q a
  have hmodify := modify_ok (op := fun u a => quickFlags u.params.addqNegC (u.draw.1.getLsbD 0) q a) hd
    (show p = _ from rfl) h (storable_npc (length_eq_lengthOf _) rfl hw)
  simp only [hparams] at hmodify
  rw [show p.2.valueAt p.1 sz = a from rfl, hflags] at hmodify
  have hx := congrArg (fun b => finish (b >>= fun t => pure t.draw.2)) hmodify
  obtain ⟨t, hx, hoperand, hflags, hseq⟩ :=
    put_setNZVC_completes (i := .addQ sz q dst) hs hd (length_eq_lengthOf _) (show p = _ from rfl) hx
  exact ⟨t, c, hx, hoperand, hflags, hpos, hborrow, hadd, hseq⟩

/-- CLR stores 0 and reads nothing (R190). -/
theorem exec_clr {sz : Size} {dst : EA} {s : State} (hd : dst.isDest = true)
    {p : Loc × State} (hp : p = resolve sz dst (s.advance (eaLen dst + 1))) (h : p.2.canAccess p.1 sz = true)
    (hw : s.storable (s.npc (.clr sz dst)) (p.2.bytesAt p.1 sz)) :
    exec (.clr sz dst) s = .next ((p.2.put p.1 sz 0).setNZVC false true false false) := by
  subst hp
  have hst := st_ok h (storable_npc (length_eq_lengthOf _) rfl hw) (resolve_not_imm hd _ _) 0
  exact congrArg (fun b => finish (b >>= fun t => pure (t.setNZVC false true false false))) hst

/-- Bit 7 set, and the other seven as before (R192). -/
theorem bitReplaced_or_bit7 (a : Byte) : bitReplaced (a ||| 0x80) a 7 true := by
  intro k hk
  rw [show (0x80 : Byte) = BitVec.twoPow 8 7 from rfl, BitVec.getLsbD_or, BitVec.getLsbD_twoPow]
  by_cases h7 : k = 7
  · simp [h7]
  · simp [h7, Ne.symm h7]

/-- A byte can be accessed at every location. -/
theorem canAccess_byte (s : State) (l : Loc) : s.canAccess l .b = true := by
  cases l <;> rfl

/-- Settles O43: TST only reads; NEG and TAS have the shape of `modify`, and CLR that of its store alone. -/
theorem tstNegClrTasResult : Obligations.TstNegClrTasResult := by
  refine ⟨?general, ?tas⟩
  case' general =>
    intro sz dst s hs hd p h a
    refine ⟨?tst, fun hw => ?neg, fun hw => ?clr⟩
  case tst => exact examine_completes (r := nzFlags a false false) rfl (length_eq_lengthOf _) rfl h rfl
  case neg =>
    have hparams : p.2.params = s.params := by simp [p]
    have hr : _ = negFlags p.2.params.negV a := (negFlags_eq sz a s.params.negV).symm.trans (by rw [hparams])
    exact modify_completes (op := fun u a => negFlags u.params.negV a) rfl (length_eq_lengthOf _) hs hd rfl h hw hr
  case clr => exact put_setNZVC_completes hs hd (length_eq_lengthOf _) rfl (exec_clr hd rfl h hw)
  case tas =>
    intro dst s hs hd p a hw
    obtain ⟨t, hx, hoperand, hflags, hseq⟩ := modify_completes (i := .tas dst)
      (r := { nzFlags a false false with res := a ||| 0x80 }) rfl (length_eq_lengthOf _) hs hd rfl
      (canAccess_byte ..) hw rfl
    exact ⟨t, _, hx, bitReplaced_or_bit7 a, hoperand, hflags, hseq⟩

/-! ## Comparisons -/

section
variable {i : Instr} {s : State} {sz : Size}

/-- Everything that a comparison with an operand in memory or a source does. -/
theorem examine_sub_completes {ea : EA} {n : Nat} {x y : BitVec sz.bits} {op : State → BitVec sz.bits → Alu sz.bits}
    {p : Loc × State} (hp : p = resolve sz ea (s.advance (eaLen ea + n))) (h : p.2.canAccess p.1 sz = true)
    (hop : op p.2 (p.2.valueAt p.1 sz) = subFlags x y false) (hx : exec i s = finish (examine sz ea n s op))
    (hl : i.length = eaLen ea + n) :
    ∃ t, exec i s = .next t ∧ onlyRead s t sz ea ∧
      flagsSet s t (x - y).msb (x == y) (subOverflows x y false) (decide (x.toNat < y.toNat)) ∧ sequential i s t :=
  examine_completes hx hl hp h ((subFlags_no_borrow (bits_pos sz) x y).symm.trans hop.symm)

/-- Everything that a comparison of a register with an immediate does. -/
theorem setAlu_sub_completes {n w : Nat} (hw : 0 < w) {x y : BitVec w}
    (hx : exec i s = .next ((s.advance n).setAlu (subFlags x y false))) (hl : i.length = n) :
    ∃ t, exec i s = .next t ∧ t.regs = s.regs ∧ memKept s t ∧
      flagsSet s t (x - y).msb (x == y) (subOverflows x y false) (decide (x.toNat < y.toNat)) ∧ sequential i s t := by
  rw [subFlags_no_borrow hw] at hx
  exact ⟨_, hx, rfl, fun _ => rfl, flagsSet_setAlu rfl _, sequential_of hl rfl (by simp [controlsKept])⟩

end

/-- Settles O41: the forms of the general format only read their operand, the short ones a register. -/
theorem compareResult : Obligations.CompareResult := by
  refine ⟨?cmpG, ?imm8, ?imm16, ?cmpE, ?cmpI⟩
  case cmpG =>
    intro sz src rd s ho p h a b
    exact examine_sub_completes (op := fun u b => subFlags (u.rd rd sz) b false) rfl h (by rw [rd_resolve ho])
      (congrArg finish (refuseIf_of_false ho)) (length_eq_lengthOf _)
  case imm8 =>
    intro b dst s _ p a
    exact examine_sub_completes rfl (canAccess_byte ..) rfl rfl (length_eq_lengthOf _)
  case imm16 =>
    intro b dst s _ p h a
    exact examine_sub_completes rfl h rfl rfl (length_eq_lengthOf _)
  case cmpE =>
    intro b rd s a
    have ha : (s.advance 2).rd rd .b = a := rd_eq ..
    exact setAlu_sub_completes (by decide) (by rw [← ha]; rfl) (length_eq_lengthOf _)
  case cmpI =>
    intro b rd s a
    exact setAlu_sub_completes (by decide) rfl (length_eq_lengthOf _)

end Sys2Proof.Machine
end

section
/-! PROOFS. Packed decimal sums and differences (spec/41_arithmetic.md R168, R174): one digit, two digits, and the two
instructions. -/

namespace Sys2Proof.Machine

open Sys2Proof.Laws (EncodedLength.lengthOf)

/-! ## Digits -/

@[simp] theorem hiNibble_append (h l : BitVec 4) : hiNibble (h ++ l) = h := BitVec.extractLsb'_append_eq_left

@[simp] theorem loNibble_append (h l : BitVec 4) : loNibble (h ++ l) = l := BitVec.extractLsb'_append_eq_right

theorem isDecimal_iff (b : Byte) : isDecimal b = true ↔ (hiNibble b).toNat ≤ 9 ∧ (loNibble b).toNat ≤ 9 := by
  simp only [isDecimal, Bool.and_eq_true, decide_eq_true_eq, BitVec.le_def]
  rfl

/-- A digit of a sum is a digit, and it is the sum but ten times the carry. -/
theorem digitAdd_spec {a b : BitVec 4} (ha : a.toNat ≤ 9) (hb : b.toNat ≤ 9) (c : Bool) :
    (digitAdd a b c).1.toNat ≤ 9 ∧
      (digitAdd a b c).1.toNat + 10 * (digitAdd a b c).2.toNat = a.toNat + b.toNat + c.toNat := by
  have hc := c.toNat_le
  simp only [digitAdd]
  split
  · rw [BitVec.toNat_ofNat, Bool.toNat_true]
    omega
  · rw [BitVec.toNat_ofNat, Bool.toNat_false]
    omega

/-- A digit of a difference is a digit, and it is the difference but ten times the borrow. -/
theorem digitSub_spec {a b : BitVec 4} (ha : a.toNat ≤ 9) (hb : b.toNat ≤ 9) (c : Bool) :
    (digitSub a b c).1.toNat ≤ 9 ∧
      (digitSub a b c).1.toNat + b.toNat + c.toNat = a.toNat + 10 * (digitSub a b c).2.toNat := by
  have hc := c.toNat_le
  simp only [digitSub]
  split
  · rw [BitVec.toNat_ofNat, Bool.toNat_true]
    omega
  · rw [BitVec.toNat_ofNat, Bool.toNat_false]
    omega

/-- The low digits pass their carry on to the high ones (R168). -/
theorem decimalAdd_spec {a b : Byte} (ha : isDecimal a = true) (hb : isDecimal b = true) (c : Bool) :
    isDecimal (decimalAdd a b c).1 = true ∧
      decimalValue (decimalAdd a b c).1 + 100 * (decimalAdd a b c).2.toNat =
        decimalValue a + decimalValue b + c.toNat := by
  obtain ⟨hahi, halo⟩ := (isDecimal_iff a).mp ha
  obtain ⟨hbhi, hblo⟩ := (isDecimal_iff b).mp hb
  obtain ⟨hlo, hlosum⟩ := digitAdd_spec halo hblo c
  obtain ⟨hhi, hhisum⟩ := digitAdd_spec hahi hbhi (digitAdd (loNibble a) (loNibble b) c).2
  simp only [isDecimal_iff, decimalValue, decimalAdd, bothDigits, hiNibble_append, loNibble_append]
  omega

/-- The low digits pass their borrow on to the high ones (R174). -/
theorem decimalSub_spec {a b : Byte} (ha : isDecimal a = true) (hb : isDecimal b = true) (c : Bool) :
    isDecimal (decimalSub a b c).1 = true ∧
      decimalValue (decimalSub a b c).1 + decimalValue b + c.toNat =
        decimalValue a + 100 * (decimalSub a b c).2.toNat := by
  obtain ⟨hahi, halo⟩ := (isDecimal_iff a).mp ha
  obtain ⟨hbhi, hblo⟩ := (isDecimal_iff b).mp hb
  obtain ⟨hlo, hlodiff⟩ := digitSub_spec halo hblo c
  obtain ⟨hhi, hhidiff⟩ := digitSub_spec hahi hbhi (digitSub (loNibble a) (loNibble b) c).2
  simp only [isDecimal_iff, decimalValue, decimalSub, bothDigits, hiNibble_append, loNibble_append]
  omega

/-! ## The instructions -/

section
variable {i : Instr} {s : State} {rs rd : Reg} {op : Byte → Byte → Bool → Byte × Bool}

/-- Whether both operands of DADD and DSUB hold decimal digits. -/
def decimalOperands (s : State) (rs rd : Reg) : Prop :=
  isDecimal (loByte (s.reg rd)) = true ∧ isDecimal (loByte (s.reg rs)) = true

theorem decimalInto_digits (h : decimalOperands s rs rd) :
    decimalInto rs rd s op =
      let r := op (loByte (s.reg rd)) (loByte (s.reg rs)) s.flagC
      ((s.advance 3).wr rd .b r.1).setZC (s.zAfter (r.1 == 0)) r.2 := by
  obtain ⟨hd, hs⟩ := h
  have hrd (r : Reg) : (s.advance 3).rd r .b = loByte (s.reg r) := rd_eq ..
  simp only [decimalInto, hrd, hd, hs, Bool.and_self, if_true]
  exact congrArg (State.setZC _ · _) (extendedZ_eq s _)

theorem decimalInto_free (h : ¬decimalOperands s rs rd) :
    decimalInto rs rd s op =
      ((s.draw.2.advance 3).wr rd .b (loByte s.draw.1)).setZC (s.draw.1.getLsbD 8) (s.draw.1.getLsbD 9) := by
  have hrd (r : Reg) : (s.advance 3).rd r .b = loByte (s.reg r) := rd_eq ..
  have hif : ¬(isDecimal (loByte (s.reg rd)) && isDecimal (loByte (s.reg rs))) = true := by
    rwa [Bool.and_eq_true]
  simp only [decimalInto, hrd, if_neg hif]
  rfl

/-- A byte into Rd with Z and C, any number of free values drawn. -/
theorem wr_setZC_completes {r : Byte} {z c : Bool} {k : Nat}
    (hx : exec i s = .next ((({ s with freeIdx := k } : State).advance 3).wr rd .b r |>.setZC z c))
    (hl : EncodedLength.lengthOf i = 3) :
    ∃ t, exec i s = .next t ∧ intoRegister s t .b (.reg rs) rd r ∧ flagsSet s t s.flagN z s.flagV c ∧
      sequential i s t := by
  generalize hu : (({ s with freeIdx := k } : State).advance 3).wr rd .b r = u at hx
  have hsr : u.sr = s.sr := by rw [← hu, wr_sr, advance_sr]
  refine ⟨_, hx, intoRegister_wr (sz := .b) (n := 3) rfl r (fun j => ?_) ?_, ?flags,
    sequential_of ((length_eq_lengthOf i).trans hl) ?_ ?_⟩
  case flags =>
    rw [State.setZC, flagN_of_sr hsr, flagV_of_sr hsr]
    exact flagsSet_setNZVC hsr ..
  all_goals subst hu
  · rfl
  · rfl
  · rfl
  · exact ⟨rfl, rfl, rfl, rfl, rfl, rfl, rfl, rfl⟩

/-- Everything that DADD and DSUB do: the operation's byte and carry on decimal digits, any on others. -/
theorem decimalInto_completes (hx : exec i s = .next (decimalInto rs rd s op)) (hl : EncodedLength.lengthOf i = 3) :
    ∃ t r z c, exec i s = .next t ∧ intoRegister s t .b (.reg rs) rd r ∧ flagsSet s t s.flagN z s.flagV c ∧
      sequential i s t ∧ (decimalOperands s rs rd →
        op (loByte (s.reg rd)) (loByte (s.reg rs)) s.flagC = (r, c) ∧ z = s.zAfter (r == 0)) := by
  by_cases h : decimalOperands s rs rd
  · rw [decimalInto_digits h] at hx
    obtain ⟨t, hx, hrd, hflags, hseq⟩ := wr_setZC_completes (k := s.freeIdx) hx hl
    exact ⟨t, _, _, _, hx, hrd, hflags, hseq, fun _ => ⟨rfl, rfl⟩⟩
  · rw [decimalInto_free h] at hx
    obtain ⟨t, hx, hrd, hflags, hseq⟩ := wr_setZC_completes (k := s.freeIdx + 1) hx hl
    exact ⟨t, _, _, _, hx, hrd, hflags, hseq, fun hdigits => absurd hdigits h⟩

end

/-- Settles O38: the two differ in the operation on digits. -/
theorem decimalResult : Obligations.DecimalResult := by
  intro rs rd s a b digits
  refine ⟨?dadd, ?dsub⟩
  case dadd =>
    obtain ⟨t, r, z, c, hx, hrd, hflags, hseq, hdigits⟩ :=
      decimalInto_completes (i := .dadd rs rd) (s := s) (op := decimalAdd) rfl rfl
    refine ⟨t, r, z, c, hx, hrd, hflags, hseq, fun h => ?_⟩
    obtain ⟨hr, hz⟩ := hdigits h
    obtain ⟨hdec, hsum⟩ := decimalAdd_spec h.1 h.2 s.flagC
    rw [hr] at hdec hsum
    exact ⟨hdec, hz, hsum⟩
  case dsub =>
    obtain ⟨t, r, z, c, hx, hrd, hflags, hseq, hdigits⟩ :=
      decimalInto_completes (i := .dsub rs rd) (s := s) (op := decimalSub) rfl rfl
    refine ⟨t, r, z, c, hx, hrd, hflags, hseq, fun h => ?_⟩
    obtain ⟨hr, hz⟩ := hdigits h
    obtain ⟨hdec, hdiff⟩ := decimalSub_spec h.1 h.2 s.flagC
    rw [hr] at hdec hdiff
    exact ⟨hdec, hz, hdiff⟩

end Sys2Proof.Machine
end

section
/-! PROOFS. MULXU and DIVXU (spec/41_arithmetic.md R176, R178): products, quotients and remainders as numbers, what a
body that writes registers behind its source leaves alone, and the ZeroDivide exception (spec/60_exceptions.md R312,
R316). -/

namespace Sys2Proof.Machine

open Sys2Proof.Laws (EncodedLength.lengthOf)

/-! ## Products, quotients and remainders -/

/-- Two values of `n` bits have a product of `2 * n` bits. -/
theorem toNat_mul_setWidth {n m : Nat} (h : n + n = m) (a b : BitVec n) :
    (a.setWidth m * b.setWidth m).toNat = a.toNat * b.toNat := by
  have ha : (a.setWidth m).toNat = a.toNat := BitVec.toNat_setWidth_of_le (by omega)
  have hb : (b.setWidth m).toNat = b.toNat := BitVec.toNat_setWidth_of_le (by omega)
  have hlt : a.toNat * b.toNat < 2 ^ m := by
    rw [← h, Nat.pow_add]
    exact Nat.mul_lt_mul'' a.isLt b.isLt
  rw [BitVec.toNat_mul_of_lt (by rwa [ha, hb]), ha, hb]

/-- The halves of a 32-bit value, as R176 puts them into a register pair. -/
theorem toNat_halves (m : BitVec 32) :
    (m.extractLsb' 16 16).toNat * 65536 + (m.extractLsb' 0 16).toNat = m.toNat := by
  simp only [BitVec.extractLsb'_toNat, Nat.shiftRight_eq_div_pow]
  omega

theorem msb_upper_half (m : BitVec 32) : (m.extractLsb' 16 16).msb = m.msb := by
  simp [BitVec.msb_eq_getLsbD_last]

theorem halves_eq_zero (m : BitVec 32) :
    (m.extractLsb' 16 16 == 0 && m.extractLsb' 0 16 == 0) = decide (m = 0) := by
  rw [Bool.eq_iff_iff, Bool.and_eq_true, beq_iff_eq, beq_iff_eq, decide_eq_true_iff, ← BitVec.toNat_inj,
    ← BitVec.toNat_inj, ← BitVec.toNat_inj, ← toNat_halves m]
  simp only [BitVec.ofNat_eq_ofNat, BitVec.toNat_ofNat, Nat.zero_mod]
  omega

section
variable {n : Nat} {hi lo b : BitVec n}

theorem toNat_pos_of_ne_zero (hb : b ≠ 0) : 0 < b.toNat :=
  Nat.pos_of_ne_zero ((BitVec.toNat_ne_iff_ne).mpr hb)

/-- The quotient of a dividend of two halves, at the divisor's width (R178). -/
def quotient (hi lo b : BitVec n) : BitVec n := BitVec.ofNat n ((hi.toNat * 2 ^ n + lo.toNat) / b.toNat)

/-- The remainder of a dividend of two halves, at the divisor's width (R178). -/
def remainder (hi lo b : BitVec n) : BitVec n := BitVec.ofNat n ((hi.toNat * 2 ^ n + lo.toNat) % b.toNat)

/-- The quotient does not fit where the upper half of the dividend is not below the divisor (R178). -/
theorem quotient_overflows_iff (hb : b ≠ 0) : 2 ^ n ≤ (hi.toNat * 2 ^ n + lo.toNat) / b.toNat ↔ b ≤ hi := by
  have hlo := lo.isLt
  rw [Nat.le_div_iff_mul_le (toNat_pos_of_ne_zero hb), BitVec.le_def, Nat.mul_comm]
  constructor
  · intro h
    by_contra hlt
    have hnext : (hi.toNat + 1) * 2 ^ n ≤ b.toNat * 2 ^ n := Nat.mul_le_mul_right _ (by omega)
    rw [Nat.add_mul] at hnext
    omega
  · intro h
    have hupper := Nat.mul_le_mul_right (2 ^ n) h
    omega

/-- The division equation, where the quotient fits. -/
theorem quotient_remainder (h : hi < b) :
    hi.toNat * 2 ^ n + lo.toNat = (quotient hi lo b).toNat * b.toNat + (remainder hi lo b).toNat ∧
      remainder hi lo b < b := by
  have hb : b ≠ 0 := by
    rintro rfl
    exact absurd h (by simp)
  have hq : (hi.toNat * 2 ^ n + lo.toNat) / b.toNat < 2 ^ n := by
    rw [← Nat.not_le, quotient_overflows_iff hb]
    exact BitVec.not_le.mpr h
  have hr := Nat.mod_lt (hi.toNat * 2 ^ n + lo.toNat) (toNat_pos_of_ne_zero hb)
  rw [BitVec.lt_def, quotient, remainder, BitVec.toNat_ofNat, BitVec.toNat_ofNat, Nat.mod_eq_of_lt hq,
    Nat.mod_eq_of_lt (hr.trans b.isLt)]
  exact ⟨(Nat.div_add_mod' ..).symm, hr⟩

/-- The three outcomes of a division, told apart by divisor and upper half. -/
theorem division_cases {α : Type} (zero overflow fits : α) :
    (if b.toNat = 0 then zero
      else if 2 ^ n ≤ (hi.toNat * 2 ^ n + lo.toNat) / b.toNat then overflow else fits) =
      if b = 0 then zero else if b ≤ hi then overflow else fits := by
  by_cases hb : b = 0
  · rw [if_pos hb, if_pos (by simp [hb])]
  · simp only [if_neg hb, if_neg (toNat_pos_of_ne_zero hb).ne', quotient_overflows_iff hb]

end

theorem toNat_hi_lo (v : Word) : (hiByte v).toNat * 2 ^ 8 + (loByte v).toNat = v.toNat := by
  simp only [hiByte, loByte, BitVec.extractLsb'_toNat, Nat.shiftRight_eq_div_pow]
  omega

/-! ## Registers written behind a source -/

/-- From `s` to `t` only the listed registers, SR and the count of free values drawn may differ. -/
structure WritesRegs (l : List Reg) (s t : State) : Prop where
  regs : regsKeptBut s t l
  mem : t.mem = s.mem
  pc : t.pc = s.pc
  controls : controlsKept s t

section
variable {l : List Reg} {s t u : State}

theorem controlsKept_trans (h : controlsKept s t) (k : controlsKept t u) : controlsKept s u := by
  obtain ⟨hbr, hep, hdp, htp, hcp, hasleep, hparams, hirq⟩ := h
  obtain ⟨kbr, kep, kdp, ktp, kcp, kasleep, kparams, kirq⟩ := k
  exact ⟨kbr.trans hbr, kep.trans hep, kdp.trans hdp, ktp.trans htp, kcp.trans hcp, kasleep.trans hasleep,
    kparams.trans hparams, kirq.trans hirq⟩

theorem WritesRegs.trans (h : WritesRegs l s t) (k : WritesRegs l t u) : WritesRegs l s u :=
  ⟨fun i hi => (k.regs i hi).trans (h.regs i hi), k.mem.trans h.mem, k.pc.trans h.pc,
    controlsKept_trans h.controls k.controls⟩

theorem WritesRegs.refl (s : State) : WritesRegs l s s := ⟨fun _ _ => rfl, rfl, rfl, by simp [controlsKept]⟩

theorem writesRegs_setReg {i : Reg} (hi : i ∈ l) (s : State) (v : Word) : WritesRegs l s (s.setReg i v) := by
  refine ⟨fun j hj => ?_, rfl, rfl, by simp [controlsKept]⟩
  have hne : j ≠ i := fun e => hj (e ▸ hi)
  rw [reg_setReg, if_neg hne]

theorem writesRegs_setNZVC (s : State) (n z v c : Bool) : WritesRegs l s (s.setNZVC n z v c) :=
  ⟨fun _ _ => rfl, rfl, rfl, by simp [controlsKept]⟩

theorem writesRegs_draw (s : State) : WritesRegs l s s.draw.2 :=
  ⟨fun _ _ => rfl, rfl, rfl, by simp [controlsKept]⟩

/-- What a body that writes registers behind its source leaves alone. -/
theorem WritesRegs.frame {i : Instr} {sz : Size} {ea : EA}
    (h : WritesRegs l (resolve sz ea (s.advance (eaLen ea + 1))).2 t) (hl : EncodedLength.lengthOf i = eaLen ea + 1) :
    (∀ j, j ∉ l → t.reg j = s.afterMode sz ea j) ∧ memKept s t ∧ sequential i s t := by
  refine ⟨fun j hj => ?_, fun a => ?_, sequential_of ((length_eq_lengthOf i).trans hl) ?_
    (controlsKept_trans controlsKept_resolve h.controls)⟩
  · rw [h.regs j hj, resolve_reg, afterMode_advance]
  · rw [h.mem, resolve_mem, advance_mem]
  · rw [h.pc, resolve_pc, advance_pc]

end

section
variable {i : Instr} {s : State} {sz : Size} {ea : EA} {rd low : Reg} {w : Nat} {a : Alu w} {x y : Word}
  {p : Loc × State} (hp : p = resolve sz ea (s.advance (eaLen ea + 1)))
include hp

/-- Everything that a body does that writes one whole register and a result's flags behind its source. -/
theorem setReg_completes (hx : exec i s = .next ((p.2.setReg rd x).setAlu a))
    (hl : EncodedLength.lengthOf i = eaLen ea + 1) :
    ∃ t, exec i s = .next t ∧ t.reg rd = x ∧ (∀ j, j ≠ rd → t.reg j = s.afterMode sz ea j) ∧ memKept s t ∧
      flagsSet s t a.n a.z a.v a.c ∧ sequential i s t := by
  subst hp
  obtain ⟨hregs, hmem, hseq⟩ := ((writesRegs_setReg (List.mem_singleton_self rd) _ x).trans
    (writesRegs_setNZVC _ a.n a.z a.v a.c)).frame hl
  exact ⟨_, hx, by simp, fun j hj => hregs j (by simpa using hj), hmem, flagsSet_setAlu (by simp) a, hseq⟩

/-- Everything that a body does that writes a register pair and a result's flags behind its source. -/
theorem setPair_completes (hne : rd ≠ low) (hx : exec i s = .next (((p.2.setReg rd x).setReg low y).setAlu a))
    (hl : EncodedLength.lengthOf i = eaLen ea + 1) :
    ∃ t, exec i s = .next t ∧ t.reg rd = x ∧ t.reg low = y ∧
      (∀ j, j ≠ rd → j ≠ low → t.reg j = s.afterMode sz ea j) ∧ memKept s t ∧
      flagsSet s t a.n a.z a.v a.c ∧ sequential i s t := by
  subst hp
  have hrd := writesRegs_setReg (l := [rd, low]) (i := rd) (by simp)
  have hlow := writesRegs_setReg (l := [rd, low]) (i := low) (by simp)
  obtain ⟨hregs, hmem, hseq⟩ := (((hrd _ x).trans (hlow _ y)).trans (writesRegs_setNZVC _ a.n a.z a.v a.c)).frame hl
  exact ⟨_, hx, by simp [hne], by simp, fun j hrd hlow => hregs j (by simp [hrd, hlow]), hmem,
    flagsSet_setAlu (by simp) a, hseq⟩

end

/-! ## Products -/

section
variable {src : EA} {rd low : Reg} {s : State}

theorem mulxuByte_ok (ho : overlaps src [rd] = false) {p : Loc × State}
    (hp : p = resolve .b src (s.advance (eaLen src + 1))) :
    mulxuByte src rd s =
      let m : Word := (loByte (s.reg rd)).setWidth 16 * (p.2.valueAt p.1 .b : Byte).setWidth 16
      .ok ((p.2.setReg rd m).setAlu (nzFlags m false false)) := by
  subst hp
  simp only [mulxuByte, ho, refuseIf_false, source_ok (canAccess_byte ..), rd_resolve ho, bind, Except.bind,
    pure, Except.pure]
  rfl

theorem mulxuWord_ok (hpair : pairLow? rd = some low) (ho : overlaps src [rd, low] = false) {p : Loc × State}
    (hp : p = resolve .w src (s.advance (eaLen src + 1))) (h : p.2.canAccess p.1 .w = true) :
    mulxuWord src rd s =
      let m : BitVec 32 := (s.reg low).setWidth 32 * (p.2.valueAt p.1 .w : Word).setWidth 32
      .ok (((p.2.setReg rd (m.extractLsb' 16 16)).setReg low (m.extractLsb' 0 16)).setAlu
        (nzFlags m false false)) := by
  subst hp
  have hlow : (resolve .w src (s.advance (eaLen src + 1))).2.reg low = s.reg low := by
    rw [resolve_reg, afterMode_of_not_overlaps ho (by simp), reg_advance]
  simp only [mulxuWord, hpair, ho, refuseIf_false, source_ok h, hlow, bind, Except.bind, pure, Except.pure]

end

theorem pairLow?_ne {rd low : Reg} (h : pairLow? rd = some low) : rd ≠ low := by
  rintro rfl
  cases rd <;> cases h

/-- Settles O39: the product is exact in twice the operand's width, and the pair holds its halves. -/
theorem mulxuResult : Obligations.MulxuResult := by
  refine ⟨?byte, ?word⟩
  case byte =>
    intro src rd s ho p
    have hx := congrArg finish (mulxuByte_ok (s := s) ho (show p = _ from rfl))
    obtain ⟨t, hx, hrd, hregs, hmem, hflags, hseq⟩ := setReg_completes (i := .mulxu .b src rd) rfl hx rfl
    refine ⟨t, hx, ?_, hregs, hmem, ?_, hseq⟩
    · rw [hrd]
      exact toNat_mul_setWidth rfl ..
    · rw [hrd]
      exact hflags
  case word =>
    intro src rd low s hpair ho p h
    have hx := congrArg finish (mulxuWord_ok hpair ho (show p = _ from rfl) h)
    obtain ⟨t, hx, hrd, hlow, hregs, hmem, hflags, hseq⟩ :=
      setPair_completes (i := .mulxu .w src rd) rfl (pairLow?_ne hpair) hx rfl
    refine ⟨t, hx, ?_, hregs, hmem, ?_, hseq⟩
    · rw [hrd, hlow, toNat_halves]
      exact toNat_mul_setWidth rfl ..
    · rw [hrd, hlow, halves_eq_zero, msb_upper_half]
      exact hflags

/-! ## Quotients -/

section
variable {src : EA} {rd low : Reg} {s : State} {p : Loc × State}

/-- DIVXU.B by whether the divisor is 0 and whether the quotient fits (R178). -/
theorem divxuByte_eq (ho : overlaps src [rd] = false) (hp : p = resolve .b src (s.advance (eaLen src + 1)))
    {b hi lo : Byte} (hb : b = p.2.valueAt p.1 .b) (hhi : hi = hiByte (s.reg rd)) (hlo : lo = loByte (s.reg rd)) :
    divxuByte src rd s =
      if b = 0 then .error (.raised .zeroDivide p.2)
      else if b ≤ hi then .ok (divxuOverflowDest (divxuOverflowFlags p.2) rd)
      else .ok ((p.2.setReg rd (remainder hi lo b ++ quotient hi lo b)).setAlu
        (nzFlags (quotient hi lo b) false false)) := by
  have hrd : p.2.reg rd = s.reg rd := by
    rw [hp, resolve_reg, afterMode_of_not_overlaps ho (List.mem_singleton_self rd), reg_advance]
  rw [← division_cases (lo := lo)]
  subst hb hhi hlo hp
  simp only [divxuByte, ho, refuseIf_false, source_ok (canAccess_byte ..), bind, Except.bind, pure, Except.pure, hrd,
    ← toNat_hi_lo (s.reg rd)]
  rfl

/-- DIVXU.W by whether the divisor is 0 and whether the quotient fits (R178). -/
theorem divxuWord_eq (hpair : pairLow? rd = some low) (ho : overlaps src [rd, low] = false)
    (hp : p = resolve .w src (s.advance (eaLen src + 1))) (h : p.2.canAccess p.1 .w = true)
    {b hi lo : Word} (hb : b = p.2.valueAt p.1 .w) (hhi : hi = s.reg rd) (hlo : lo = s.reg low) :
    divxuWord src rd s =
      if b = 0 then .error (.raised .zeroDivide p.2)
      else if b ≤ hi then .ok (divxuOverflowDest (divxuOverflowDest (divxuOverflowFlags p.2) rd) low)
      else .ok (((p.2.setReg rd (remainder hi lo b)).setReg low (quotient hi lo b)).setAlu
        (nzFlags (quotient hi lo b) false false)) := by
  have hreg {r : Reg} (hr : r ∈ [rd, low]) : p.2.reg r = s.reg r := by
    rw [hp, resolve_reg, afterMode_of_not_overlaps ho hr, reg_advance]
  have hrd := hreg (r := rd) (by simp)
  have hlow := hreg (r := low) (by simp)
  rw [← division_cases (lo := lo)]
  subst hb hhi hlo hp
  simp only [divxuWord, hpair, ho, refuseIf_false, source_ok h, bind, Except.bind, pure, Except.pure, hrd, hlow]
  rfl

end

section
variable {l : List Reg} {s t : State} {rd : Reg}

theorem writesRegs_divxuOverflowFlags (s : State) : WritesRegs l s (divxuOverflowFlags s) :=
  (writesRegs_draw s).trans (writesRegs_setNZVC ..)

/-- The destination is a register of the list, or kept by the parameter (R178, U9). -/
theorem writesRegs_divxuOverflowDest (h : s.params.divxuOvfDest = .unchanged ∨ rd ∈ l) :
    WritesRegs l s (divxuOverflowDest s rd) := by
  unfold divxuOverflowDest
  cases hdest : s.params.divxuOvfDest with
  | any => exact (writesRegs_draw s).trans (writesRegs_setReg (h.resolve_left (by simp [hdest])) ..)
  | unchanged => exact .refl s

theorem writesRegs_overflowByte (h : s.params.divxuOvfDest = .unchanged ∨ [rd] ⊆ l) :
    WritesRegs l s (divxuOverflowDest (divxuOverflowFlags s) rd) :=
  (writesRegs_divxuOverflowFlags s).trans (writesRegs_divxuOverflowDest (h.imp_right (· (List.mem_singleton_self rd))))

theorem writesRegs_overflowWord {low : Reg} (h : s.params.divxuOvfDest = .unchanged ∨ [rd, low] ⊆ l) :
    WritesRegs l s (divxuOverflowDest (divxuOverflowDest (divxuOverflowFlags s) rd) low) := by
  have hrd := writesRegs_overflowByte (h.imp_right fun hl =>
    List.cons_subset.mpr ⟨hl (List.mem_cons_self ..), List.nil_subset _⟩)
  obtain ⟨-, -, -, -, -, -, hparams, -⟩ := hrd.controls
  refine hrd.trans (writesRegs_divxuOverflowDest ?_)
  rw [hparams]
  exact h.imp_right (· (by simp))

@[simp] theorem divxuOverflowDest_sr (s : State) (rd : Reg) : (divxuOverflowDest s rd).sr = s.sr := by
  unfold divxuOverflowDest
  cases s.params.divxuOvfDest <;> rfl

theorem flagsSet_of_sr {u : State} {n z v c : Bool} (h : u.sr = t.sr) (hflags : flagsSet s t n z v c) :
    flagsSet s u n z v c := by
  simpa only [flagsSet, flagN_of_sr h, flagZ_of_sr h, flagV_of_sr h, flagC_of_sr h, h] using hflags

/-- Everything that an overflow with destination `rs` does: N and Z are any value (R178, U9). -/
theorem divxuOverflow_completes {i : Instr} {sz : Size} {ea : EA} {rs : List Reg} {p : Loc × State}
    (hp : p = resolve sz ea (s.advance (eaLen ea + 1))) (ho : overlaps ea rs = false)
    (hl : EncodedLength.lengthOf i = eaLen ea + 1) (ht : t.sr = (divxuOverflowFlags p.2).sr)
    (hw : ∀ {l}, p.2.params.divxuOvfDest = .unchanged ∨ rs ⊆ l → WritesRegs l p.2 t) :
    (∀ j, j ∉ rs → t.reg j = s.afterMode sz ea j) ∧ memKept s t ∧ sequential i s t ∧
      (∃ n z, flagsSet s t n z true false) ∧
      (s.params.divxuOvfDest = .unchanged → ∀ j ∈ rs, t.reg j = s.reg j) := by
  subst hp
  obtain ⟨hregs, hmem, hseq⟩ := (hw (.inr (List.Subset.refl rs))).frame hl
  refine ⟨hregs, hmem, hseq, ⟨_, _, flagsSet_of_sr ht (flagsSet_setNZVC (by simp) _ _ true false)⟩,
    fun hdest j hj => ?_⟩
  obtain ⟨hkept, -⟩ := (hw (l := []) (.inl (by simpa using hdest))).frame hl
  rw [hkept j List.not_mem_nil, afterMode_of_not_overlaps ho hj]

end

/-- Settles O40: the division equation where the quotient fits, the overflow's flags and destination where not. -/
theorem divxuResult : Obligations.DivxuResult := by
  refine ⟨?byte, ?word⟩
  case byte =>
    intro src rd s ho p b hb
    have hx : exec (.divxu .b src rd) s = _ := congrArg finish (divxuByte_eq ho (show p = _ from rfl) rfl rfl rfl)
    rw [if_neg hb] at hx
    by_cases hover : b ≤ hiByte (s.reg rd)
    · rw [if_pos hover] at hx
      obtain ⟨hregs, hmem, hseq, hflags, hkept⟩ := divxuOverflow_completes (i := .divxu .b src rd) rfl ho rfl
        (divxuOverflowDest_sr ..) writesRegs_overflowByte
      exact ⟨_, hx, fun j hj => hregs j (by simpa using hj), hmem, hseq,
        fun hlt => absurd hover (BitVec.not_le.mpr hlt), fun _ => ⟨hflags, fun hdest => hkept hdest rd (by simp)⟩⟩
    · rw [if_neg hover] at hx
      obtain ⟨t, hx, hrd, hregs, hmem, hflags, hseq⟩ := setReg_completes (i := .divxu .b src rd) rfl hx rfl
      refine ⟨t, hx, hregs, hmem, hseq, fun hlt => ?_, fun hle => absurd hle hover⟩
      rw [hrd, loByte_append, hiByte_append, ← toNat_hi_lo (s.reg rd)]
      obtain ⟨heq, hrem⟩ := quotient_remainder (lo := loByte (s.reg rd)) hlt
      exact ⟨heq, hrem, hflags⟩
  case word =>
    intro src rd low s hpair ho p b h hb
    have hx : exec (.divxu .w src rd) s = _ :=
      congrArg finish (divxuWord_eq hpair ho (show p = _ from rfl) h rfl rfl rfl)
    rw [if_neg hb] at hx
    by_cases hover : b ≤ s.reg rd
    · rw [if_pos hover] at hx
      obtain ⟨hregs, hmem, hseq, hflags, hkept⟩ := divxuOverflow_completes (i := .divxu .w src rd) rfl ho rfl
        (by simp) writesRegs_overflowWord
      exact ⟨_, hx, fun j hrd hlow => hregs j (by simp [hrd, hlow]), hmem, hseq,
        fun hlt => absurd hover (BitVec.not_le.mpr hlt),
        fun _ => ⟨hflags, fun hdest => ⟨hkept hdest rd (by simp), hkept hdest low (by simp)⟩⟩⟩
    · rw [if_neg hover] at hx
      obtain ⟨t, hx, hrd, hlow, hregs, hmem, hflags, hseq⟩ :=
        setPair_completes (i := .divxu .w src rd) rfl (pairLow?_ne hpair) hx rfl
      refine ⟨t, hx, hregs, hmem, hseq, fun hlt => ?_, fun hle => absurd hle hover⟩
      rw [hrd, hlow]
      obtain ⟨heq, hrem⟩ := quotient_remainder (lo := s.reg low) hlt
      exact ⟨heq, hrem, hflags⟩

/-! ## ZeroDivide -/

/-- An instruction that raises in `p` an exception whose entry saves the next instruction's address (R314, R316),
where the effects before it left alone what an entry saves or keeps. -/
theorem raise_next_spec {i : Instr} {s p : State} {x : Exn} {e : Byte} (hx : exec i s = p.raise x)
    (hsaved : p.savedPC x = (p.pc, p)) (he : p.vectorOf x = some e) (hpc : p.pc = s.npc i)
    (hparams : p.params = s.params) (hcp : p.cp = s.cp) (hsr : p.sr = s.sr) (hasleep : p.asleep = s.asleep)
    (hirq : p.irq = s.irq) :
    (p.sp.toNat % 2 = 0 →
      (s.storable (s.npc i) p.frameBytes → ∃ t, exec i s = .next t ∧ Entered p t e (s.npc i) ∧ traceCleared s t ∧
        t.asleep = s.asleep ∧ t.irq = s.irq) ∧
      (¬s.storable (s.npc i) p.frameBytes → exec i s = .refused .storeInPrefetchWindow)) ∧
    (p.sp.toNat % 2 = 1 → exec i s = .fault .doubleFault) := by
  have henter : exec i s = p.enter e (s.npc i) := by
    rw [hx, State.raise, he, hsaved, hpc]
  have hframe : s.storable (s.npc i) p.frameBytes ↔ p.storable p.pc p.frameBytes := by
    rw [hpc]
    exact ⟨storable_congr hparams hcp, storable_congr hparams.symm hcp.symm⟩
  rw [henter]
  refine ⟨fun heven => ⟨fun hw => ?entered, fun hw => ?refused⟩, fun hodd => ?double⟩
  case entered =>
    obtain ⟨t, ht, hentered, htsr, htasleep, htirq⟩ := enter_spec heven (hframe.mp hw) e (s.npc i)
    exact ⟨t, ht, hentered, traceCleared_of (htsr.trans (congrArg srClearT hsr)), htasleep.trans hasleep,
      htirq.trans hirq⟩
  case refused => exact enter_blocked heven (hframe.not.mp hw) ..
  case double =>
    have hnot : ¬p.spEven := by
      rw [State.spEven]
      omega
    exact enter_odd hnot ..

/-- Settles O22: with a divisor of 0 either size ends in ZeroDivide, in the state that the addressing mode has made. -/
theorem zeroDivideEntry : Obligations.ZeroDivideEntry := by
  intro sz src rd s hform p h hzero
  have hraise : exec (.divxu sz src rd) s = p.2.raise .zeroDivide := by
    rcases hform with ⟨rfl, ho⟩ | ⟨low, rfl, hpair, ho⟩
    · exact congrArg finish ((divxuByte_eq ho rfl rfl rfl rfl).trans (if_pos hzero))
    · exact congrArg finish ((divxuWord_eq hpair ho rfl h rfl rfl rfl).trans (if_pos hzero))
  have hvector : p.2.vectorOf .zeroDivide = s.params.vecZeroDiv := by simp [State.vectorOf, p]
  refine ⟨fun hnone => ?none, fun e he => ?some⟩
  case none =>
    rw [hraise, State.raise, hvector, hnone]
    rfl
  case some =>
    have hpc : p.2.pc = s.npc (.divxu sz src rd) := by
      rw [npc_of_length (length_eq_lengthOf _)]
      simp [p, EncodedLength.lengthOf]
    exact raise_next_spec hraise rfl (hvector.trans he) hpc (by simp [p]) (by simp [p]) (by simp [p]) (by simp [p])
      (by simp [p])

end Sys2Proof.Machine
end

section
/-! PROOFS. Shifts and rotates by one bit (spec/42_shift.md R201 to R209): all eight have the shape of `modify` with
the flags of their result, and each moves the bits as the lemmas of Laws/Shift.lean say. -/

namespace Sys2Proof.Machine

/-- Everything that `op <EAd>` does where N and Z are those of the result (R209), with `moved` for what is said of
the result's bits. -/
theorem modify_nzFlags_completes {i : Instr} {s : State} {sz : Size} {ea : EA}
    {op : State → BitVec sz.bits → Alu sz.bits} (hx : exec i s = finish (modify sz ea s op))
    (hl : i.length = eaLen ea + 1) (hs : s.wf = true) (hd : ea.isDest = true)
    {p : Loc × State} (hp : p = resolve sz ea (s.advance (eaLen ea + 1)))
    (h : p.2.canAccess p.1 sz = true) (hw : s.storable (s.npc i) (p.2.bytesAt p.1 sz))
    {r : BitVec sz.bits} {v c : Bool} (hr : op p.2 (p.2.valueAt p.1 sz) = nzFlags r v c)
    {moved : BitVec sz.bits → Prop} (hm : moved r) :
    ∃ t x, exec i s = .next t ∧ moved x ∧ intoOperand s t sz ea p.2 p.1 x ∧ flagsSet s t x.msb (x == 0) v c ∧
      sequential i s t := by
  obtain ⟨t, hnext, hoperand, hflags, hseq⟩ := modify_completes hx hl hs hd hp h hw hr.symm
  exact ⟨t, r, hnext, hm, hoperand, hflags, hseq⟩

/-- ROTXL and ROTXR read C behind the addressing mode, which leaves it alone. -/
theorem flagC_resolve_advance (sz : Size) (ea : EA) (n : Nat) (s : State) :
    (resolve sz ea (s.advance n)).2.flagC = s.flagC :=
  flagC_of_sr (by simp)

/-- Settles O44: the four share their shape, and differ in the bit that enters bit 0 and in the V of SHAL. -/
theorem shiftLeftResult : Obligations.ShiftLeftResult := by
  intro sz dst s hs hd p h a
  have completes {i : Instr} {op : State → BitVec sz.bits → Alu sz.bits} {r : BitVec sz.bits} {new v : Bool}
      (hx : exec i s = finish (modify sz dst s op)) (hl : i.length = eaLen dst + 1)
      (hr : op p.2 a = nzFlags r v a.msb) (hm : movedLeft r a new)
      (hw : s.storable (s.npc i) (p.2.bytesAt p.1 sz)) :=
    modify_nzFlags_completes hx hl hs hd rfl h hw hr (moved := (movedLeft · a new)) hm
  have hpos := bits_pos sz
  simp only [List.forall_mem_cons]
  refine ⟨completes rfl (length_eq_lengthOf _) ?shal (movedLeft_shift hpos a),
    completes rfl (length_eq_lengthOf _) ?shll (movedLeft_shift hpos a),
    completes rfl (length_eq_lengthOf _) ?rotl (movedLeft_rotate (one_lt_bits sz) a),
    completes rfl (length_eq_lengthOf _) ?rotxl (movedLeft_insert hpos a s.flagC), List.forall_mem_nil _⟩
  case shal => rw [← shal_overflows]; rfl
  case shll => rfl
  case rotl => rfl
  case rotxl => rw [← flagC_resolve_advance sz dst (eaLen dst + 1) s]; rfl

/-- Settles O45: the four share their shape, and differ in the bit that enters the top. -/
theorem shiftRightResult : Obligations.ShiftRightResult := by
  intro sz dst s hs hd p h a
  have completes {i : Instr} {op : State → BitVec sz.bits → Alu sz.bits} {r : BitVec sz.bits} {new : Bool}
      (hx : exec i s = finish (modify sz dst s op)) (hl : i.length = eaLen dst + 1)
      (hr : op p.2 a = nzFlags r false (a.getLsbD 0)) (hm : movedRight r a new)
      (hw : s.storable (s.npc i) (p.2.bytesAt p.1 sz)) :=
    modify_nzFlags_completes hx hl hs hd rfl h hw hr (moved := (movedRight · a new)) hm
  have hpos := bits_pos sz
  simp only [List.forall_mem_cons]
  refine ⟨completes rfl (length_eq_lengthOf _) ?shar (movedRight_arith hpos a),
    completes rfl (length_eq_lengthOf _) ?shlr (movedRight_shift hpos a),
    completes rfl (length_eq_lengthOf _) ?rotr (movedRight_rotate (one_lt_bits sz) a),
    completes rfl (length_eq_lengthOf _) ?rotxr (movedRight_insert hpos a s.flagC), List.forall_mem_nil _⟩
  case shar => rfl
  case shlr => rfl
  case rotr => rfl
  case rotxr => rw [← flagC_resolve_advance sz dst (eaLen dst + 1) s]; rfl

end Sys2Proof.Machine
end

section
/-! PROOFS. AND, OR, XOR and NOT (spec/43_logic.md R220 to R224): the first three have the shape of `intoReg`, NOT that
of `modify`, and all have the flags of R220. -/

namespace Sys2Proof.Machine

/-- Everything that `op <EAs>,Rd` does where N and Z are those of the result, V is cleared and C kept (R220), for any
operation `f` on the two operands. -/
theorem intoReg_logic_completes {i : Instr} {s : State} {sz : Size} {src : EA} {rd : Reg}
    {f : BitVec sz.bits → BitVec sz.bits → BitVec sz.bits}
    (hx : exec i s = finish (intoReg sz src rd s fun u a b => nzFlags (f a b) false u.flagC))
    (hl : i.length = eaLen src + 1) (ho : overlaps src [rd] = false)
    {p : Loc × State} (hp : p = resolve sz src (s.advance (eaLen src + 1)))
    (h : p.2.canAccess p.1 sz = true)
    {r : BitVec sz.bits} (hr : r = f (s.valueAt (.reg rd) sz) (p.2.valueAt p.1 sz)) :
    ∃ t, exec i s = .next t ∧ intoRegister s t sz src rd r ∧ flagsSet s t r.msb (r == 0) false s.flagC ∧
      sequential i s t := by
  have hcarry : p.2.flagC = s.flagC := hp ▸ flagC_resolve_advance sz src (eaLen src + 1) s
  exact intoReg_completes (r := nzFlags r false s.flagC) hx hl ho hp h (by rw [hr, hcarry])

/-- Settles O46: the encodings are the equations of `encode`; AND, OR and XOR differ in their operation alone, and NOT
reads C behind the addressing mode, which leaves it alone. -/
theorem logicResult : Obligations.LogicResult := by
  refine ⟨?intoRd, ?not⟩
  case intoRd =>
    intro sz src rd s ho p h a b
    simp only [List.forall_mem_cons]
    exact ⟨⟨rfl, intoReg_logic_completes (f := (· &&& ·)) rfl (length_eq_lengthOf _) ho rfl h rfl⟩,
      ⟨rfl, intoReg_logic_completes (f := (· ||| ·)) rfl (length_eq_lengthOf _) ho rfl h rfl⟩,
      ⟨rfl, intoReg_logic_completes (f := (· ^^^ ·)) rfl (length_eq_lengthOf _) ho rfl h rfl⟩, List.forall_mem_nil _⟩
  case not =>
    intro sz dst s hs hd p
    refine ⟨rfl, ?_⟩
    intro h hw r
    have hcarry : p.2.flagC = s.flagC := flagC_resolve_advance sz dst (eaLen dst + 1) s
    exact modify_completes (op := fun u a => nzFlags (~~~a) false u.flagC) (r := nzFlags r false s.flagC) rfl
      (length_eq_lengthOf _) hs hd rfl h hw (by rw [← hcarry])

end Sys2Proof.Machine
end

section
/-! PROOFS. BSET, BCLR, BNOT and BTST (spec/44_bit.md R230 to R238): the first three have the shape of `modify` and BTST
that of `examine`, behind the test of the bit number; the register forms run as the immediate ones with the number in
Rs. -/

namespace Sys2Proof.Machine

/-! ## One bit replaced -/

section
variable {w : Nat} (a : BitVec w) (k : BitVec 4)

/-- The mask of the three changes, which the model makes of a number, has bit `k` alone. -/
theorem getLsbD_bitMask {j : Nat} (hj : j < w) :
    ((1 <<< k.toNat : Nat) : BitVec w).getLsbD j = decide (j = k.toNat) := by
  rw [BitVec.natCast_eq_ofNat, BitVec.getLsbD_ofNat, Nat.one_shiftLeft, Nat.testBit_two_pow, decide_eq_true hj,
    Bool.true_and, decide_eq_decide, eq_comm]

theorem bitReplaced_setBit : bitReplaced (setBit a (1 <<< k.toNat)) a k true := by
  intro j hj
  rw [setBit, BitVec.getLsbD_or, getLsbD_bitMask k hj]
  by_cases hjk : j = k.toNat
  · simp [hjk]
  · simp [hjk, hj]

theorem bitReplaced_clearBit : bitReplaced (clearBit a (1 <<< k.toNat)) a k false := by
  intro j hj
  rw [clearBit, BitVec.getLsbD_and, BitVec.getLsbD_not, getLsbD_bitMask k hj]
  by_cases hjk : j = k.toNat
  · simp [hjk]
  · simp [hjk, hj]

theorem bitReplaced_invertBit : bitReplaced (invertBit a (1 <<< k.toNat)) a k (!a.getLsbD k.toNat) := by
  intro j hj
  rw [invertBit, BitVec.getLsbD_xor, getLsbD_bitMask k hj]
  by_cases hjk : j = k.toNat
  · simp [hjk]
  · simp [hjk, hj]

end

/-! ## The two shapes -/

/-- A bit number below the operand's width is not refused (R230). -/
theorem beyond_of_lt {sz : Size} {k : BitVec 4} (hk : k.toNat < sz.bits) : beyond sz k = false :=
  decide_eq_false (Nat.not_le.mpr hk)

/-- A bit instruction reads N, V and C behind the addressing mode, which leaves them alone. -/
theorem bitOp_resolve_advance {w : Nat} (change : BitVec w → BitVec w → BitVec w) (k : BitVec 4) (sz : Size)
    (ea : EA) (n : Nat) (s : State) (a : BitVec w) :
    bitOp change k (resolve sz ea (s.advance n)).2 a = bitOp change k s a := by
  have hsr : (resolve sz ea (s.advance n)).2.sr = s.sr := by simp
  simp only [bitOp, flagN_of_sr hsr, flagV_of_sr hsr, flagC_of_sr hsr]

/-- The register form of a bit instruction runs as its immediate form, where the addressing mode leaves Rs alone. -/
theorem finish_bitNumber {ea : EA} {rs : Reg} {s : State} {k : BitVec 4} (body : BitVec 4 → Body State)
    (ho : overlaps ea [rs] = false) (hk : (s.reg rs).toNat % 16 = k.toNat) :
    finish (refuseIf (overlaps ea [rs]) .registerOverlap (body (s.bitNumber rs))) = finish (body k) := by
  have hnumber : s.bitNumber rs = k := BitVec.eq_of_toNat_eq ((toNat_bitNumber s rs).trans hk)
  rw [refuseIf_of_false ho, hnumber]

section
variable {i : Instr} {s : State} {sz : Size} {ea : EA} {k : BitVec 4} (hk : k.toNat < sz.bits)
  (hl : i.length = eaLen ea + 1) {p : Loc × State} (hp : p = resolve sz ea (s.advance (eaLen ea + 1)))
  (h : p.2.canAccess p.1 sz = true)
include hk hl hp h

/-- Everything that a bit instruction does that writes its operand back. -/
theorem changeBit_completes {change : BitVec sz.bits → BitVec sz.bits → BitVec sz.bits}
    (hx : exec i s = finish (changeBit sz k ea s change)) (hs : s.wf = true) (hd : ea.isDest = true) {new : Bool}
    (hr : bitReplaced (change (p.2.valueAt p.1 sz) (1 <<< k.toNat)) (p.2.valueAt p.1 sz) k new)
    (hw : s.storable (s.npc i) (p.2.bytesAt p.1 sz)) :
    ∃ t r, exec i s = .next t ∧ bitReplaced r (p.2.valueAt p.1 sz) k new ∧ intoOperand s t sz ea p.2 p.1 r ∧
      flagsSet s t s.flagN (!(p.2.valueAt p.1 sz).getLsbD k.toNat) s.flagV s.flagC ∧ sequential i s t := by
  rw [changeBit, refuseIf_of_false (beyond_of_lt hk)] at hx
  have hop : bitOp change k s (p.2.valueAt p.1 sz) = bitOp change k p.2 (p.2.valueAt p.1 sz) :=
    hp ▸ (bitOp_resolve_advance ..).symm
  obtain ⟨t, hnext, hoperand, hflags, hseq⟩ := modify_completes hx hl hs hd hp h hw hop
  exact ⟨t, _, hnext, hr, hoperand, hflags, hseq⟩

/-- Everything that a bit instruction does that only reads its operand. -/
theorem testBit_completes (hx : exec i s = finish (testBit sz k ea s)) :
    ∃ t, exec i s = .next t ∧ onlyRead s t sz ea ∧
      flagsSet s t s.flagN (!(p.2.valueAt p.1 sz).getLsbD k.toNat) s.flagV s.flagC ∧ sequential i s t := by
  rw [testBit, refuseIf_of_false (beyond_of_lt hk)] at hx
  have hop : bitOp (fun a _ => a) k s (p.2.valueAt p.1 sz) = bitOp (fun a _ => a) k p.2 (p.2.valueAt p.1 sz) :=
    hp ▸ (bitOp_resolve_advance ..).symm
  exact examine_completes hx hl hp h hop

end

/-- Settles O47: the encodings are the equations of `encode`; BSET, BCLR and BNOT differ in the change of the bit alone,
and each register form runs as the immediate form with the low 4 bits of Rs. -/
theorem bitResult : Obligations.BitResult := by
  intro sz k rs dst s hs hd hk p h a old byReg
  have changes {i : Instr} {change : BitVec sz.bits → BitVec sz.bits → BitVec sz.bits} {new : Bool}
      (hx : exec i s = finish (changeBit sz k dst s change)) (hl : i.length = eaLen dst + 1)
      (hr : bitReplaced (change a (1 <<< k.toNat)) a k new) :=
    changeBit_completes hk hl (show p = _ from rfl) h hx hs hd hr
  have tests {i : Instr} (hx : exec i s = finish (testBit sz k dst s)) (hl : i.length = eaLen dst + 1) :=
    testBit_completes hk hl (show p = _ from rfl) h hx
  have byNumber (body : BitVec 4 → Body State) : byReg →
      finish (refuseIf (overlaps dst [rs]) .registerOverlap (body (s.bitNumber rs))) = finish (body k) :=
    fun ⟨ho, hnumber⟩ => finish_bitNumber body ho hnumber
  simp only [List.forall_mem_cons]
  refine ⟨⟨⟨rfl, fun _ => ?bsetImm⟩, ⟨rfl, fun _ => ?bclrImm⟩, ⟨rfl, fun _ => ?bnotImm⟩, ⟨rfl, fun hb => ?bsetReg⟩,
    ⟨rfl, fun hb => ?bclrReg⟩, ⟨rfl, fun hb => ?bnotReg⟩, List.forall_mem_nil _⟩,
    ⟨rfl, fun _ => ?btstImm⟩, ⟨rfl, fun hb => ?btstReg⟩, List.forall_mem_nil _⟩
  case bsetImm => exact changes rfl (length_eq_lengthOf _) (bitReplaced_setBit a k)
  case bclrImm => exact changes rfl (length_eq_lengthOf _) (bitReplaced_clearBit a k)
  case bnotImm => exact changes rfl (length_eq_lengthOf _) (bitReplaced_invertBit a k)
  case bsetReg =>
    exact changes (byNumber (changeBit sz · dst s setBit) hb) (length_eq_lengthOf _) (bitReplaced_setBit a k)
  case bclrReg =>
    exact changes (byNumber (changeBit sz · dst s clearBit) hb) (length_eq_lengthOf _) (bitReplaced_clearBit a k)
  case bnotReg =>
    exact changes (byNumber (changeBit sz · dst s invertBit) hb) (length_eq_lengthOf _) (bitReplaced_invertBit a k)
  case btstImm => exact tests rfl (length_eq_lengthOf _)
  case btstReg => exact tests (byNumber (testBit sz · dst s) hb) (length_eq_lengthOf _)

end Sys2Proof.Machine
end

section
/-! PROOFS. Branches and jumps (spec/45_branch.md R250, R251, R254, R270; spec/00_scope.md R12): the conditions as the
model spells them against the table and the orders of two operands, and what each branch leaves alone. -/

namespace Sys2Proof.Machine

/-! ## Jumps and conditional branches -/

/-- Settles O50: each form's target is the one that the addressing mode names, and its bytes are the equations of
`encode`. -/
theorem jmpResult : Obligations.JmpResult := by
  intro rn d w s
  have completes {g : JumpEA} : ∃ t, exec (.jmp g) s = .next t ∧ t.pc = s.jumpTarget g ∧ t.regs = s.regs ∧
      memKept s t ∧ t.sr = s.sr ∧ controlsKept s t :=
    ⟨_, rfl, rfl, rfl, fun _ => rfl, rfl, by simp [controlsKept]⟩
  simp only [List.forall_mem_cons]
  exact ⟨⟨rfl, completes⟩, ⟨rfl, completes⟩, ⟨rfl, completes⟩, ⟨rfl, completes⟩, List.forall_mem_nil _⟩

/-- Everything that a branch does, given whether its condition holds. -/
theorem bcc_completes {cond : Cond} {taken : Bool} {s : State} (h : s.holds cond = taken) (disp : Disp) :
    ∃ t, exec (.bcc cond disp) s = .next t ∧
      t.pc = (if taken then s.npc (.bcc cond disp) + dispWord disp else s.npc (.bcc cond disp)) ∧
      t.regs = s.regs ∧ memKept s t ∧ t.sr = s.sr ∧ controlsKept s t := by
  subst h
  rw [npc_of_length (n := dispLen disp + 1) ((length_eq_lengthOf _).trans (Nat.add_comm ..))]
  refine ⟨_, rfl, ?_⟩
  by_cases hc : s.holds cond = true
  · rw [if_pos hc, if_pos hc]
    exact ⟨rfl, rfl, fun _ => rfl, rfl, by simp [controlsKept]⟩
  · rw [if_neg hc, if_neg hc]
    exact ⟨rfl, rfl, fun _ => rfl, rfl, by simp [controlsKept]⟩

/-- Settles O48: the table's conditions are the model's, which writes the signed ones with exclusive or. -/
theorem bccResult : Obligations.BccResult := by
  intro disp s d n z v c
  have hd : d = dispWord disp := by cases disp <;> rfl
  rw [hd]
  have completes {cond : Cond} {taken : Bool} (h : s.holds cond = taken) := bcc_completes h disp
  have hbge : s.holds .bge = (n == v) := Bool.not_not _
  have hbgt : s.holds .bgt = (!z && n == v) := (Bool.not_or ..).trans (congrArg (!z && ·) hbge)
  simp only [List.forall_mem_cons]
  exact ⟨completes rfl, completes rfl, completes rfl, completes rfl, completes rfl, completes rfl, completes rfl,
    completes rfl, completes rfl, completes rfl, completes rfl, completes rfl, completes hbge, completes rfl,
    completes hbgt, completes rfl, List.forall_mem_nil _⟩

/-! ## Conditions behind a comparison -/

/-- N and V of a comparison differ where the first operand is the lower one in signed order (R12). -/
theorem msb_xor_subOverflows {w : Nat} (hw : 0 < w) (a b : BitVec w) :
    ((a - b).msb ^^ subOverflows a b false) = decide (a.toInt < b.toInt) := by
  obtain ⟨m, rfl⟩ : ∃ m, w = m + 1 := ⟨w - 1, by omega⟩
  have ha := a.isLt
  have hb := b.isLt
  have hr : (a - b).toNat = if b.toNat ≤ a.toNat then a.toNat - b.toNat else a.toNat + 2 * 2 ^ m - b.toNat := by
    simpa using toNat_sub_borrow a b false
  rw [Nat.pow_succ, Nat.mul_comm] at ha hb
  have hpow : (2 : Int) ^ (m + 1 - 1) = ((2 ^ m : Nat) : Int) := by norm_cast
  rw [Bool.eq_iff_iff, Bool.xor_iff_ne]
  simp only [subOverflows, msb_iff, toInt_cases, hr, hpow, ne_eq, Bool.eq_not, not_not, decide_eq_decide,
    decide_eq_true_iff, Bool.toNat_false, Nat.cast_zero, sub_zero]
  generalize 2 ^ m = M at *
  generalize a.toNat = A at *
  generalize b.toNat = B at *
  split <;> split <;> split <;> omega

section
variable {t : State} {α : Type} [LinearOrder α] {x y : α}

/-- The conditions on C and Z, where C is an order and Z its equality. -/
theorem holds_of_carry (hz : t.flagZ = decide (x = y)) (hc : t.flagC = decide (x < y)) :
    t.holds .bhi = decide (y < x) ∧ t.holds .bls = decide (x ≤ y) ∧ t.holds .bcc = decide (y ≤ x) ∧
      t.holds .bcs = decide (x < y) := by
  simp only [State.holds, hz, hc, ← Bool.decide_or, ← le_iff_lt_or_eq, ← decide_not, not_lt, not_le, and_self]

/-- The conditions on N, V and Z, where N and V differ by an order and Z is its equality. -/
theorem holds_of_signs (hz : t.flagZ = decide (x = y)) (hnv : (t.flagN ^^ t.flagV) = decide (x < y)) :
    t.holds .bge = decide (y ≤ x) ∧ t.holds .blt = decide (x < y) ∧ t.holds .bgt = decide (y < x) ∧
      t.holds .ble = decide (x ≤ y) := by
  simp only [State.holds, hz, hnv, Bool.or_comm (decide (x = y)), ← Bool.decide_or, ← le_iff_lt_or_eq, ← decide_not,
    not_lt, not_le, and_self]

end

/-- Settles O49: C of a comparison is the unsigned order and N ≠ V the signed one, and Z is equality in both. -/
theorem conditionsAfterCompare : Obligations.ConditionsAfterCompare := by
  intro sz src rd s ho p h a b
  obtain ⟨t, ht, -, ⟨hn, hz, hv, hc, -⟩, -⟩ := compareResult.1 sz src rd s ho h
  have hunsigned : t.flagZ = decide (a.toNat = b.toNat) := hz.trans (decide_eq_decide.mpr BitVec.toNat_inj.symm)
  have hsigned : t.flagZ = decide (a.toInt = b.toInt) := hz.trans (decide_eq_decide.mpr BitVec.toInt_inj.symm)
  obtain ⟨hbhi, hbls, hbcc, hbcs⟩ := holds_of_carry hunsigned hc
  obtain ⟨hbge, hblt, hbgt, hble⟩ := holds_of_signs hsigned
    ((congrArg₂ Bool.xor hn hv).trans (msb_xor_subOverflows (bits_pos sz) a b))
  refine ⟨t, ht, ?_⟩
  have branches {cond : Cond} {taken : Bool} (hholds : t.holds cond = taken) (disp : Disp) :
      ∃ u, exec (.bcc cond disp) t = .next u ∧
        u.pc = if taken then t.npc (.bcc cond disp) + dispWord disp else t.npc (.bcc cond disp) := by
    obtain ⟨u, hu, hpc, -⟩ := bcc_completes hholds disp
    exact ⟨u, hu, hpc⟩
  simp only [List.forall_mem_cons]
  exact ⟨branches hbhi, branches hbls, branches hbcc, branches hbcs, branches hbge, branches hblt, branches hbgt,
    branches hble, branches hz, branches (congrArg (!·) hz), List.forall_mem_nil _⟩

/-! ## SCB -/

/-- Everything that SCB does, given whether its condition holds (R270). -/
theorem scb_completes {cond : ScbCond} {ends : Bool} {s : State} (h : s.scbHolds cond = ends) (rn : Reg) (d : Byte) :
    ∃ t, exec (.scb cond rn d) s = .next t ∧
      t.reg rn = (if ends then s.reg rn else s.reg rn - 1) ∧
      t.pc = (if ends ∨ s.reg rn = 0 then s.npc (.scb cond rn d)
        else s.npc (.scb cond rn d) + BitVec.ofInt 16 d.toInt) ∧
      regsKeptBut s t [rn] ∧ memKept s t ∧ t.sr = s.sr ∧ controlsKept s t := by
  rw [npc_of_length (length_eq_lengthOf _)]
  cases ends with
  | true =>
    have hx : exec (.scb cond rn d) s = .next (s.advance 3) := congrArg Host.Outcome.next (if_pos h)
    exact ⟨_, hx, rfl, rfl, fun _ _ => rfl, fun _ => rfl, rfl, by simp [controlsKept]⟩
  | false =>
    have hgoes : ¬s.scbHolds cond = true := by rw [h]; exact Bool.false_ne_true
    have hx : exec (.scb cond rn d) s = .next (if s.reg rn - 1 = 0xFFFF then (s.advance 3).setReg rn (s.reg rn - 1)
        else ((s.advance 3).setReg rn (s.reg rn - 1)).jump (s.pc + BitVec.ofNat 16 3 + d.signExtend 16)) :=
      congrArg Host.Outcome.next (if_neg hgoes)
    have hregs := (writesRegs_setReg (List.mem_singleton_self rn) (s.advance 3) (s.reg rn - 1)).regs
    simp only [sub_one_eq_max_iff] at hx
    simp only [Bool.false_eq_true, if_false, false_or]
    by_cases hzero : s.reg rn = 0
    · rw [if_pos hzero] at hx
      rw [if_pos hzero]
      exact ⟨_, hx, by simp, rfl, hregs, fun _ => rfl, rfl, by simp [controlsKept]⟩
    · rw [if_neg hzero] at hx
      rw [if_neg hzero]
      exact ⟨_, hx, by simp, rfl, hregs, fun _ => rfl, rfl, by simp [controlsKept]⟩

/-- Settles O55: the three conditions are those of the table. -/
theorem scbResult : Obligations.ScbResult := by
  intro rn d s
  have completes {cond : ScbCond} {ends : Bool} (h : s.scbHolds cond = ends) := scb_completes h rn d
  simp only [List.forall_mem_cons]
  exact ⟨completes rfl, completes rfl, completes rfl, List.forall_mem_nil _⟩

end Sys2Proof.Machine
end

section
/-! PROOFS. Calls, returns and page jumps (spec/45_branch.md R256 to R268): what the pushes of a call and the pops of a
return leave, each said once, and a return behind a call. -/

namespace Sys2Proof.Machine

/-- `controlsKept` without CP, which the page forms write. -/
def keptButCP (s t : State) : Prop :=
  t.br = s.br ∧ t.ep = s.ep ∧ t.dp = s.dp ∧ t.tp = s.tp ∧ t.asleep = s.asleep ∧ t.params = s.params ∧ t.irq = s.irq

theorem controlsKept_iff {s t : State} : controlsKept s t ↔ t.cp = s.cp ∧ keptButCP s t := by
  simp only [controlsKept, keptButCP]
  tauto

theorem keptButCP.trans {s t u : State} (h : keptButCP s t) (k : keptButCP t u) : keptButCP s u := by
  obtain ⟨hbr, hep, hdp, htp, hasleep, hparams, hirq⟩ := h
  obtain ⟨kbr, kep, kdp, ktp, kasleep, kparams, kirq⟩ := k
  exact ⟨kbr.trans hbr, kep.trans hep, kdp.trans hdp, ktp.trans htp, kasleep.trans hasleep, kparams.trans hparams,
    kirq.trans hirq⟩

theorem keptButCP.params {s t : State} (h : keptButCP s t) : t.params = s.params := by
  obtain ⟨-, -, -, -, -, hparams, -⟩ := h
  exact hparams

theorem regsKeptBut_pushed (s : State) (v : Word) : regsKeptBut s (s.pushed v) [.r7] := fun i hi =>
  (pushed_reg s v i).trans (if_neg (by simpa using hi))

/-! ## Calls in a page -/

/-- The body of BSR and JSR: the next instruction's address pushed, then the jump (R258, R260). -/
def callBody (i : Instr) (target : Word) (s : State) : Body State := do
  let u ← (s.advance i.length).push16 (s.npc i)
  return u.jump target

theorem exec_bsr (disp : Disp) (s : State) :
    exec (.bsr disp) s = finish (callBody (.bsr disp) (s.npc (.bsr disp) + dispWord disp) s) := by
  have hlength : (Instr.bsr disp).length = dispLen disp + 1 := (length_eq_lengthOf _).trans (Nat.add_comm ..)
  rw [callBody, State.npc, hlength]
  rfl

theorem exec_jsr (target : JumpEA) (s : State) :
    exec (.jsr target) s = finish (callBody (.jsr target) (s.jumpTarget target) s) := by
  rw [callBody, State.npc, length_eq_lengthOf]
  rfl

/-- Everything that a call in the same page does. -/
theorem call_completes {i : Instr} {s : State} {target : Word} (hx : exec i s = finish (callBody i target s))
    (hs : s.wf = true) (hsp : s.spEven) (hw : s.storable (s.npc i) (s.stackBytes (-2))) :
    ∃ t, exec i s = .next t ∧ t.pc = target ∧ t.sp = s.sp - 2 ∧
      t.mem.word (s.phys .stack (s.sp - 2)) = s.npc i ∧ regsKeptBut s t [.r7] ∧
      memKeptBut s t (s.stackBytes (-2)) ∧ t.sr = s.sr ∧ controlsKept s t := by
  have hpush := push16_ok (s := s.advance i.length) hsp (storable_congr rfl rfl hw) (s.npc i)
  rw [callBody, hpush] at hx
  refine ⟨_, hx, rfl, pushed_sp (s.advance i.length) (s.npc i),
    pushed_word (s := s.advance i.length) (Bool.and_eq_true_iff.mp hs).1 (s.npc i),
    regsKeptBut_pushed (s.advance i.length) (s.npc i), memKeptBut_pushed (s.advance i.length) (s.npc i), rfl,
    by simp [controlsKept]⟩

/-- Settles O52: every form is the same call, and differs in its target alone. -/
theorem callResult : Obligations.CallResult := by
  intro s disp rn d w hs hsp
  have jsr (g : JumpEA) := call_completes (exec_jsr g s) hs hsp
  simp only [List.forall_mem_cons]
  exact ⟨call_completes (exec_bsr disp s) hs hsp, jsr _, jsr _, jsr _, jsr _, List.forall_mem_nil _⟩

/-! ## Page jumps -/

/-- The state behind the pushes of PJSR: the PC given, then CP on top (R262). -/
def State.pagePushed (s : State) (pc : Word) : State :=
  let t := s.pushed pc
  t.draw.2.pushed (loByte t.draw.1 ++ s.cp)

/-- Behind a push the next one is the word at SP - 4. -/
theorem sp_pushed_sub_two (s : State) (v : Word) : (s.pushed v).sp - 2 = s.sp - 4 := by
  rw [pushed_sp, sub_sub_word]
  rfl

theorem pagePushed_sp (s : State) (pc : Word) : (s.pagePushed pc).sp = s.sp - 4 :=
  (pushed_sp ..).trans (sp_pushed_sub_two s pc)

theorem regsKeptBut_pagePushed (s : State) (pc : Word) : regsKeptBut s (s.pagePushed pc) [.r7] := fun i hi =>
  (regsKeptBut_pushed (s.pushed pc).draw.2 _ i hi).trans (regsKeptBut_pushed s pc i hi)

theorem memKeptBut_pagePushed (s : State) (pc : Word) :
    memKeptBut s (s.pagePushed pc) (s.stackBytes (-2) ++ s.stackBytes (-4)) := by
  intro a ha
  obtain ⟨hfirst, hsecond⟩ := not_or.mp (List.mem_append.not.mp ha)
  have hbytes : (s.pushed pc).draw.2.stackBytes (-2) = s.stackBytes (-4) := stackBytes_pushed s pc 2
  exact (memKeptBut_pushed (s.pushed pc).draw.2 _ a (by rwa [hbytes])).trans (memKeptBut_pushed s pc a hfirst)

section
variable {s : State} (h : s.spEven)
include h

theorem pagePushed_ok (hw : s.storable s.pc (s.stackBytes (-2) ++ s.stackBytes (-4))) (pc : Word) :
    (s.push16 pc >>= State.pushCP) = .ok (s.pagePushed pc) := by
  have hfirst : s.storable s.pc (s.stackBytes (-2)) := hw.mono (by simp)
  have hsecond : (s.pushed pc).storable (s.pushed pc).pc ((s.pushed pc).stackBytes (-2)) := by
    rw [stackBytes_pushed]
    exact storable_congr rfl rfl (hw.mono (List.subset_append_right ..))
  rw [push16_ok h hfirst]
  exact pushCP_ok (spEven_pushed h pc) hsecond

/-- The word pushed second leaves the first alone. -/
theorem pagePushed_word_pc (hs : s.mem.wf = true) (pc : Word) :
    (s.pagePushed pc).mem.word (s.phys .stack (s.sp - 2)) = pc := by
  have hne : s.sp - 2 ≠ (s.pushed pc).draw.2.sp - 2 := by
    rw [sp_draw, sp_pushed_sub_two]
    exact word_ne (by decide)
  have hword := word_pushed (s := (s.pushed pc).draw.2) (spEven_pushed h pc) (loByte (s.pushed pc).draw.1 ++ s.cp)
    (toNat_sub_two_mod.trans h) hne
  rw [phys_draw, phys_pushed] at hword
  exact hword.trans (pushed_word hs pc)

theorem pagePushed_word_cp (hs : s.mem.wf = true) (pc : Word) :
    loByte ((s.pagePushed pc).mem.word (s.phys .stack (s.sp - 4))) = s.cp := by
  have hword := pushed_word (s := (s.pushed pc).draw.2) (pushed_wf hs h pc) (loByte (s.pushed pc).draw.1 ++ s.cp)
  rw [phys_draw, phys_pushed, sp_draw, sp_pushed_sub_two] at hword
  rw [State.pagePushed, hword, loByte_append]

end

section
variable {target : PageEA} {s : State} {page : Byte} {off : Word} (hmax : s.params.maxMode = true)
  (ht : s.pageTarget target = some (page, off)) (hsp : s.spEven)
  (hw : s.storable (s.npc (.pjsr target)) (s.stackBytes (-2) ++ s.stackBytes (-4)))
include hmax ht hsp hw

/-- PJSR is its two pushes and the page jump (R262). -/
theorem exec_pjsr : exec (.pjsr target) s =
    .next (((s.advance (pageLen target)).pagePushed (s.npc (.pjsr target))).pageJump (page, off)) := by
  have hpc : (s.advance (pageLen target)).pc = s.npc (.pjsr target) :=
    (npc_of_length (length_eq_lengthOf (.pjsr target)) s).symm
  have hpush := pagePushed_ok (s := s.advance (pageLen target)) hsp (hpc ▸ storable_congr rfl rfl hw)
    (s.npc (.pjsr target))
  have hx : exec (.pjsr target) s =
      finish (((s.advance (pageLen target)).push16 (s.npc (.pjsr target)) >>= State.pushCP) >>=
        fun w => pure (w.pageJump (page, off))) := by
    rw [bind_assoc, ← hpc]
    exact congrArg finish ((maxModeOnly_of hmax _).trans (by rw [ht]))
  rw [hx, hpush]
  rfl

/-- Everything that PJSR does in maximum mode, given its target. -/
theorem pjsr_completes (hs : s.wf = true) :
    ∃ t, exec (.pjsr target) s = .next t ∧ t.pc = off ∧ t.cp = page ∧ t.sp = s.sp - 4 ∧
      t.mem.word (s.phys .stack (s.sp - 2)) = s.npc (.pjsr target) ∧
      loByte (t.mem.word (s.phys .stack (s.sp - 4))) = s.cp ∧ regsKeptBut s t [.r7] ∧
      memKeptBut s t (s.stackBytes (-2) ++ s.stackBytes (-4)) ∧ t.sr = s.sr ∧ keptButCP s t := by
  have hmem : (s.advance (pageLen target)).mem.wf = true := (Bool.and_eq_true_iff.mp hs).1
  exact ⟨_, exec_pjsr hmax ht hsp hw, rfl, rfl, pagePushed_sp .., pagePushed_word_pc hsp hmem _,
    pagePushed_word_cp hsp hmem _, regsKeptBut_pagePushed (s.advance (pageLen target)) _,
    memKeptBut_pagePushed (s.advance (pageLen target)) _, rfl, by simp [keptButCP, State.pagePushed]⟩

end

/-- Settles O51: both forms of the operand name a target, which PJMP and PJSR go to alike. -/
theorem pageJumpResult : Obligations.PageJumpResult := by
  intro target s page off hs hmax htarget
  have ht : s.pageTarget target = some (page, off) := by
    rcases htarget with rfl | ⟨rn, next, rfl, hnext, rfl, rfl⟩
    · rfl
    · simp only [State.pageTarget, hnext]
  refine ⟨?pjmp, fun hsp hw => pjsr_completes hmax ht hsp hw hs⟩
  have hx : exec (.pjmp target) s = finish (pure (s.pageJump (page, off))) :=
    congrArg finish ((maxModeOnly_of hmax _).trans (by rw [ht]))
  exact ⟨_, hx, rfl, rfl, rfl, fun _ => rfl, rfl, rfl, rfl, rfl, rfl, rfl, rfl, rfl⟩

/-! ## Returns -/

/-- The state behind a return: CP, SP and the PC as given, the code at the PC to be fetched anew. -/
def State.returned (s : State) (cp : Byte) (sp pc : Word) : State :=
  ({ s with cp := cp }.setReg .r7 sp).jump pc

section
variable {i : Instr} {s : State} {cp : Byte} {sp pc : Word}

/-- Everything that a return does. -/
theorem return_completes (hx : exec i s = .next (s.returned cp sp pc)) :
    ∃ t, exec i s = .next t ∧ t.cp = cp ∧ t.pc = pc ∧ t.sp = sp ∧ regsKeptBut s t [.r7] ∧ memKept s t ∧
      t.sr = s.sr ∧ keptButCP s t := by
  have hregs := (writesRegs_setReg (List.mem_singleton_self .r7) { s with cp := cp } sp).regs
  exact ⟨_, hx, rfl, rfl, sp_setReg .., hregs, fun _ => rfl, rfl, by simp [keptButCP, State.returned]⟩

/-- Everything that a return in the same page does. -/
theorem return_completes_in_page (hx : exec i s = .next (s.returned s.cp sp pc)) :
    ∃ t, exec i s = .next t ∧ t.pc = pc ∧ t.sp = sp ∧ regsKeptBut s t [.r7] ∧ memKept s t ∧ t.sr = s.sr ∧
      controlsKept s t := by
  obtain ⟨t, ht, hcp, hpc, hsp, hregs, hmem, hsr, hkept⟩ := return_completes hx
  exact ⟨t, ht, hpc, hsp, hregs, hmem, hsr, controlsKept_iff.mpr ⟨hcp, hkept⟩⟩

end

/-- The word that SP points at. -/
theorem stackWord_zero (s : State) : s.stackWord 0 = s.mem.word (s.phys .stack s.sp) := by
  simp [State.stackWord]

section
variable {s : State} (h : s.spEven)
include h

/-- The pop of a return in the same page (R264). -/
theorem popPC_eq : s.popPC = .ok (s.returned s.cp (s.sp + 2) (s.stackWord 0)) := by
  rw [popPC_ok h, stackWord_zero]
  rfl

/-- The pops of a return to another page: CP, then the PC (R265). -/
theorem popCP_popPC_eq :
    (s.popCP >>= State.popPC) = .ok (s.returned (loByte (s.stackWord 0)) (s.sp + 4) (s.stackWord 2)) := by
  have hsp : s.sp + 2 + 2 = s.sp + 4 := BitVec.add_assoc ..
  rw [popCP_ok h, ← hsp, stackWord_zero]
  exact popPC_ok (s := { s.setReg .r7 (s.sp + 2) with cp := loByte (s.mem.word (s.phys .stack s.sp)) })
    (spEven_popped h)

theorem exec_rts : exec .rts s = .next (s.returned s.cp (s.sp + 2) (s.stackWord 0)) :=
  congrArg finish (popPC_eq (s := s.advance 1) h)

theorem exec_rtd (k : Imm) : exec (.rtd k) s = .next (s.returned s.cp (s.sp + 2 + immWord k) (s.stackWord 0)) :=
  congrArg (fun b => finish (b >>= fun t => pure (addSP t k))) (popPC_eq (s := s.advance (immLen k + 1)) h)

theorem exec_prts (hmax : s.params.maxMode = true) :
    exec .prts s = .next (s.returned (loByte (s.stackWord 0)) (s.sp + 4) (s.stackWord 2)) :=
  congrArg finish ((maxModeOnly_of hmax _).trans (popCP_popPC_eq (s := s.advance 2) h))

theorem exec_prtd (hmax : s.params.maxMode = true) (k : Imm) :
    exec (.prtd k) s = .next (s.returned (loByte (s.stackWord 0)) (s.sp + 4 + immWord k) (s.stackWord 2)) := by
  have hx : exec (.prtd k) s = finish (((s.advance (immLen k + 2)).popCP >>= State.popPC) >>=
      fun t => pure (addSP t k)) := by
    rw [bind_assoc]
    exact congrArg finish (maxModeOnly_of hmax _)
  rw [hx, popCP_popPC_eq (s := s.advance (immLen k + 2)) h]
  rfl

end

/-- Settles O53: each return pops the words of its page form and moves SP by its immediate. -/
theorem returnResult : Obligations.ReturnResult := by
  intro s k hsp n
  have hn : n = immWord k := by cases k <;> rfl
  rw [hn]
  simp only [List.forall_mem_cons, add_zero]
  exact ⟨⟨return_completes_in_page (exec_rts hsp), return_completes_in_page (exec_rtd hsp k), List.forall_mem_nil _⟩,
    fun hmax => ⟨return_completes (exec_prts hsp hmax), return_completes (exec_prtd hsp hmax k),
      List.forall_mem_nil _⟩⟩

/-! ## A return behind a call -/

section
variable {s t u : State}

/-- Where SP has come back and no other register was written, every register is as before. -/
theorem regs_eq_of_sp (h : regsKeptBut s t [.r7]) (k : regsKeptBut t u [.r7]) (hsp : u.sp = s.sp) :
    u.regs = s.regs := by
  refine regs_ext fun i => ?_
  by_cases hi : i = .r7
  · exact hi ▸ hsp
  · exact (k i (by simpa using hi)).trans (h i (by simpa using hi))

/-- A word that lies `n` bytes above the new SP, by its offset in the stack page. -/
theorem stackWord_eq (h : keptButCP s t) {n off : Word} (hoff : t.sp + n = off) :
    t.stackWord n = t.mem.word (s.phys .stack off) := by
  obtain ⟨-, -, -, htp, -, hparams, -⟩ := h
  rw [State.stackWord, hoff, phys_congr hparams .stack htp]

/-- What a call to `t` and a return that brings back CP and SP leave, together. -/
theorem return_restores {i : Instr} {l : List Nat} {pc : Word} (hregs : regsKeptBut s t [.r7])
    (hmem : memKeptBut s t l) (hsr : t.sr = s.sr) (hkept : keptButCP s t)
    (hx : exec i t = .next (t.returned s.cp s.sp pc)) :
    ∃ u, exec i t = .next u ∧ u.pc = pc ∧ u.regs = s.regs ∧ u.sr = s.sr ∧ controlsKept s u ∧ memKeptBut s u l := by
  obtain ⟨u, hu, hucp, hupc, husp, huregs, humem, husr, hukept⟩ := return_completes hx
  exact ⟨u, hu, hupc, regs_eq_of_sp hregs huregs husp, husr.trans hsr,
    controlsKept_iff.mpr ⟨hucp, hkept.trans hukept⟩, fun a ha => (humem a).trans (hmem a ha)⟩

end

/-- Settles O54: the return pops what the call pushed, from where it pushed it. -/
theorem callThenReturn : Obligations.CallThenReturn := by
  intro s hs hsp
  refine ⟨fun i hi hw => ?call, fun target hmax htarget hw => ?pageCall⟩
  case call =>
    obtain ⟨target, hx⟩ : ∃ target, exec i s = finish (callBody i target s) := by
      rcases hi with ⟨disp, rfl⟩ | ⟨target, rfl⟩
      · exact ⟨_, exec_bsr disp s⟩
      · exact ⟨_, exec_jsr target s⟩
    obtain ⟨t, ht, -, htsp, hword, hregs, hmem, hsr, hcontrols⟩ := call_completes hx hs hsp hw
    obtain ⟨hcp, hkept⟩ := controlsKept_iff.mp hcontrols
    have heven : t.spEven := by rwa [State.spEven, htsp, toNat_sub_two_mod]
    have hpopped : t.stackWord 0 = s.npc i := by
      rw [stackWord_eq hkept (off := s.sp - 2) (by rw [htsp, add_zero]), hword]
    have hrts := exec_rts heven
    rw [hpopped, hcp, htsp, BitVec.sub_add_cancel] at hrts
    obtain ⟨u, hu⟩ := return_restores hregs hmem hsr hkept hrts
    exact ⟨t, u, ht, hu⟩
  case pageCall =>
    obtain ⟨⟨page, off⟩, hp⟩ := Option.isSome_iff_exists.mp htarget
    obtain ⟨t, ht, -, -, htsp, hpcword, hcpword, hregs, hmem, hsr, hkept⟩ := pjsr_completes hmax hp hsp hw hs
    have heven : t.spEven := by
      rw [State.spEven, htsp]
      exact sub_even hsp 2
    have hpoppedCP : loByte (t.stackWord 0) = s.cp := by
      rw [stackWord_eq hkept (off := s.sp - 4) (by rw [htsp, add_zero]), hcpword]
    have hpoppedPC : t.stackWord 2 = s.npc (.pjsr target) := by
      rw [stackWord_eq hkept (off := s.sp - 2) (by rw [htsp]; bv_omega), hpcword]
    have hprts := exec_prts heven ((congrArg Config.Params.maxMode hkept.params).trans hmax)
    rw [hpoppedCP, hpoppedPC, htsp, BitVec.sub_add_cancel] at hprts
    obtain ⟨u, hu⟩ := return_restores hregs hmem hsr hkept hprts
    exact ⟨t, u, ht, hu⟩

end Sys2Proof.Machine
end

section
/-! PROOFS. Taking an exception by an instruction and returning from it (spec/46_system.md R280, R284, R286;
spec/60_exceptions.md R320, R324): TRAPA and TRAP/VS are the entry from the state with the PC past them, RTE is the
pops of the frame, and a return behind an entry pops what the entry pushed. -/

namespace Sys2Proof.Machine

/-! ## Entries -/

/-- An entry from behind the instruction is one from the state before it: the PC it saves is given apart. -/
theorem Entered.of_advance {s t : State} {n : Nat} {e : Byte} {w : Word} (h : Entered (s.advance n) t e w) :
    Entered s t e w := Entered.of_moved (p := s) h

theorem trapaEntry_eq (v : BitVec 4) : trapaEntry v = BitVec.ofNat 8 (16 + v.toNat) := by
  have hv := v.isLt
  apply BitVec.eq_of_toNat_eq
  rw [trapaEntry, BitVec.toNat_add, BitVec.toNat_setWidth, BitVec.toNat_ofNat]
  simp only [BitVec.ofNat_eq_ofNat, BitVec.toNat_ofNat]
  omega

/-- With an even SP no push of TRAPA's frame raises an exception, so that it is the entry itself. -/
theorem exec_trapa {s : State} (h : s.spEven) (v : BitVec 4) :
    exec (.trapa v) s = (s.advance 2).enter (trapaEntry v) (s.npc (.trapa v)) := by
  have hx : exec (.trapa v) s = finish ((s.advance 2).pushFrame (s.npc (.trapa v)) >>= fun t =>
      pure (t.enterVector (trapaEntry v))) := rfl
  have heven : (s.advance 2).spEven := h
  by_cases hw : (s.advance 2).storable (s.advance 2).pc (s.advance 2).frameBytes
  · rw [hx, pushFrame_ok heven hw, enter_ok heven hw]
    rfl
  · rw [hx, pushFrame_blocked heven hw, enter_blocked heven hw]
    rfl

/-- Settles O18: TRAPA is the entry through its vector from the state with the PC past it. (`trapaEntry` is the model's
name for the number of that vector.) -/
theorem trapaEntryResult : Obligations.TrapaEntry := by
  intro v s heven
  rw [exec_trapa heven, ← trapaEntry_eq]
  refine ⟨fun hw => ?entered, fun hw => ?refused⟩
  case entered =>
    obtain ⟨t, ht, hentered, hsr, hasleep, hirq⟩ :=
      enter_spec (s := s.advance 2) heven (storable_congr rfl rfl hw) (trapaEntry v) (s.npc (.trapa v))
    exact ⟨t, ht, hentered.of_advance, traceCleared_of hsr, hasleep, hirq⟩
  case refused => exact enter_blocked (s := s.advance 2) heven (hw ∘ storable_congr rfl rfl) ..

section
variable {s : State}

theorem exec_trapvs_clear (hv : s.flagV = false) : exec .trapvs s = .next (s.advance 1) :=
  congrArg finish (if_neg (by simp [hv]))

theorem exec_trapvs_set (hv : s.flagV = true) : exec .trapvs s = (s.advance 1).raise .trapVS :=
  congrArg finish (if_pos hv)

end

/-- Settles O19: the exception that V = 1 raises saves the next instruction's address. -/
theorem trapVsBothWays : Obligations.TrapVsBothWays := by
  intro s
  refine ⟨fun hv => exec_trapvs_clear hv, fun hv hnone => ?fault, fun e hv he => ?vector⟩
  case fault =>
    have hvector : (s.advance 1).vectorOf .trapVS = none := hnone
    rw [exec_trapvs_set hv, State.raise, hvector]
    rfl
  case vector =>
    obtain ⟨heven, hodd⟩ := raise_next_spec (exec_trapvs_set hv) rfl he rfl rfl rfl rfl rfl rfl
    refine ⟨fun hsp => ?even, hodd⟩
    obtain ⟨hentered, hrefused⟩ := heven hsp
    refine ⟨fun hw => ?_, hrefused⟩
    obtain ⟨t, ht, hentry, hrest⟩ := hentered hw
    exact ⟨t, ht, hentry.of_advance, hrest⟩

/-! ## RTE -/

/-- The CP that RTE returns to: the one on the stack in maximum mode, else the present one (R324). -/
def State.savedCP (s : State) : Byte := if s.params.maxMode then loByte (s.stackWord 2) else s.cp

/-- The state behind RTE: the words of the frame popped, SP moved past them (R286, R324). -/
def State.resumed (s : State) : State :=
  { s with sr := s.stackWord 0 }.returned s.savedCP (s.sp + s.frameSize) (s.stackWord (s.frameSize - 2))

/-- The stack words above the one popped. -/
theorem stackWord_popped (s : State) (n : Word) : (s.setReg .r7 (s.sp + 2)).stackWord n = s.stackWord (2 + n) := by
  simp only [State.stackWord, sp_setReg, phys_setReg, setReg_mem, BitVec.add_assoc]

theorem exec_rte {s : State} (h : s.spEven) : exec .rte s = .next s.resumed := by
  let popped : State := { (s.advance 1).setReg .r7 (s.sp + 2) with sr := s.stackWord 0 }
  have heven : popped.spEven := spEven_popped (s := s.advance 1) h
  have hsp : popped.sp = s.sp + 2 := sp_setReg ..
  have hword (n : Word) : popped.stackWord n = s.stackWord (2 + n) := stackWord_popped s n
  have hx : exec .rte s =
      finish (if s.params.maxMode then popped.popCP >>= State.popPC else popped.popPC) := by
    refine congrArg finish ((congrArg (· >>= _) (pop16_ok (s := s.advance 1) h)).trans ?_)
    rw [← stackWord_zero]
    rfl
  rw [hx, State.resumed, State.savedCP, State.frameSize]
  split
  · have hpop := popCP_popPC_eq heven
    rw [hword, hword, hsp, BitVec.add_assoc] at hpop
    exact congrArg finish hpop
  · have hpop := popPC_eq heven
    rw [hword, hsp, BitVec.add_assoc] at hpop
    exact congrArg finish hpop

/-- Everything that RTE leaves alone (R324). -/
theorem resumed_spec (s : State) : s.resumed.sp = s.sp + s.frameSize ∧ regsKeptBut s s.resumed [.r7] ∧
    memKept s s.resumed ∧ keptButCP s s.resumed := by
  have hregs := (writesRegs_setReg (List.mem_singleton_self .r7) s (s.sp + s.frameSize)).regs
  exact ⟨sp_setReg .., hregs, fun _ => rfl, by simp [keptButCP, State.resumed, State.returned]⟩

/-- Settles O20: the state behind RTE, in each operating mode. -/
theorem rteResult : Obligations.RteResult := by
  intro s heven
  obtain ⟨hsp, hregs, hmem, hkept⟩ := resumed_spec s
  refine ⟨s.resumed, exec_rte heven, rfl, fun hmax => ?max, fun hmin => ?min, hsp, hregs, hmem, hkept⟩
  case max =>
    have hcp : s.savedCP = loByte (s.stackWord 2) := if_pos hmax
    have hpc : s.frameSize - 2 = 4 := by
      rw [State.frameSize, if_pos hmax]
      rfl
    exact ⟨hcp, congrArg s.stackWord hpc⟩
  case min =>
    have hcp : s.savedCP = s.cp := if_neg (by simp [hmin])
    have hpc : s.frameSize - 2 = 2 := by
      rw [State.frameSize, if_neg (by simp [hmin])]
      rfl
    exact ⟨hcp, congrArg s.stackWord hpc⟩

/-! ## RTE behind TRAPA -/

section
variable {s t : State} {e : Byte} {pc : Word}

theorem frameSize_congr (h : t.params = s.params) : t.frameSize = s.frameSize := by
  rw [State.frameSize, State.frameSize, h]

/-- The stack words that an entry leaves, by their distance from the new SP. -/
theorem Entered.stackWord_eq (h : Entered s t e pc) (n : Word) :
    t.stackWord n = t.mem.word (s.phys .stack (s.sp - s.frameSize + n)) := by
  obtain ⟨-, -, -, htp, hparams⟩ := h.pages
  rw [State.stackWord, h.sp, phys_congr hparams .stack htp]

/-- RTE pops what the entry stacked: PC, the defined bits of SR, and CP (R320, R324). -/
theorem Entered.resumed (h : Entered s t e pc) (hs : s.mem.wf = true) :
    t.resumed.pc = pc ∧ t.resumed.sr &&& ~~~srReserved = s.sr &&& ~~~srReserved ∧ t.savedCP = s.cp := by
  obtain ⟨-, -, -, -, hparams⟩ := h.pages
  have hsize := frameSize_congr hparams
  have hpc : s.sp - s.frameSize + (s.frameSize - 2) = s.sp - 2 := by bv_omega
  refine ⟨?pc, ?sr, ?cp⟩
  case pc =>
    show t.stackWord (t.frameSize - 2) = pc
    rw [hsize, h.stackWord_eq, hpc, h.pc_pushed hs]
  case sr =>
    show t.stackWord 0 &&& ~~~srReserved = s.sr &&& ~~~srReserved
    rw [h.stackWord_eq, add_zero, h.sr_pushed hs]
  case cp =>
    rw [State.savedCP, hparams]
    split
    next hmax =>
      have hcp : s.sp - s.frameSize + 2 = s.sp - 4 := by
        rw [State.frameSize, if_pos hmax]
        bv_omega
      rw [h.stackWord_eq, hcp, h.cp_pushed hs hmax]
    next hmin => exact h.cp_min (by simpa using hmin)

end

/-- Settles O21: RTE pops the frame of TRAPA's entry, which left everything else but the PC alone. -/
theorem trapaThenRte : Obligations.TrapaThenRte := by
  intro v s hs heven hw
  obtain ⟨t, ht, hentered, -, hasleep, hirq⟩ := (trapaEntryResult v s heven).1 hw
  have hte : t.spEven := by
    rw [State.spEven, hentered.sp, State.frameSize]
    split
    · exact sub_even heven 3
    · exact sub_even heven 2
  obtain ⟨hbr, hep, hdp, htp, hparams⟩ := hentered.pages
  obtain ⟨husp, huregs, humem, hukept⟩ := resumed_spec t
  obtain ⟨hpc, hsr, hcp⟩ := hentered.resumed (Bool.and_eq_true_iff.mp hs).1
  have hsp : t.resumed.sp = s.sp := by
    rw [husp, hentered.sp, frameSize_congr hparams, BitVec.sub_add_cancel]
  have hkept : keptButCP s t := ⟨hbr, hep, hdp, htp, hasleep, hparams, hirq⟩
  exact ⟨t, t.resumed, ht, exec_rte hte, hpc, hsr, regs_eq_of_sp hentered.regs huregs hsp,
    fun a ha => (humem a).trans (hentered.mem a ha), controlsKept_iff.mpr ⟨hcp, hkept.trans hukept⟩⟩

end Sys2Proof.Machine
end

section
/-! PROOFS. LINK and UNLK, the control registers as operands, SLEEP and NOP (spec/46_system.md R290 to R308): the state
behind each of them, and what of it is as before. -/

namespace Sys2Proof.Machine

open Sys2Proof.Laws (EncodedLength.lengthOf)

/-! ## SLEEP and NOP -/

/-- Settles O57: both meanings are one update, and a step in the power-down state runs nothing. -/
theorem sleepNopResult : Obligations.SleepNopResult := by
  intro s
  refine ⟨rfl, fun hasleep hirq => ?stuck, rfl, rfl⟩
  case stuck => rw [step, runStep, hirq, hasleep]; rfl

/-! ## LINK and UNLK -/

/-- The state behind LINK: FP pushed, FP at the word pushed, SP moved by the immediate (R290). -/
def State.linked (s : State) (k : Imm) : State :=
  addSP (((s.advance (immLen k + 1)).pushed (s.reg .r6)).setReg .r6 (s.sp - 2)) k

/-- The state behind UNLK: SP at the saved FP and past it, FP loaded from there (R292). -/
def State.unlinked (s : State) : State :=
  ((s.advance 1).setReg .r7 (s.reg .r6 + 2)).setReg .r6 (s.mem.word (s.phys .stack (s.reg .r6)))

theorem link_length (k : Imm) : (Instr.link k).length = immLen k + 1 :=
  (length_eq_lengthOf _).trans (Nat.add_comm ..)

theorem exec_link {s : State} {k : Imm} (h : s.spEven) (hw : s.storable (s.npc (.link k)) (s.stackBytes (-2))) :
    exec (.link k) s = .next (s.linked k) := by
  rw [npc_of_length (link_length k)] at hw
  have hpush := push16_ok (s := s.advance (immLen k + 1)) h (storable_congr rfl rfl hw) (s.reg .r6)
  exact congrArg finish (congrArg (· >>= fun t => pure (addSP (t.setReg .r6 t.sp) k)) hpush)

theorem exec_unlk {s : State} (h : (s.reg .r6).toNat % 2 = 0) : exec .unlk s = .next s.unlinked := by
  have hsp : ((s.advance 1).setReg .r7 (s.reg .r6)).sp = s.reg .r6 := sp_setReg ..
  have hpop := pop16_ok (s := (s.advance 1).setReg .r7 (s.reg .r6)) (by rwa [State.spEven, hsp])
  rw [hsp] at hpop
  exact congrArg finish (congrArg (· >>= fun p => pure (p.2.setReg .r6 p.1)) hpop)

/-- Everything that UNLK does. -/
theorem unlinked_spec (s : State) :
    s.unlinked.reg .r6 = s.mem.word (s.phys .stack (s.reg .r6)) ∧ s.unlinked.sp = s.reg .r6 + 2 ∧
      regsKeptBut s s.unlinked [.r6, .r7] ∧ memKept s s.unlinked ∧ s.unlinked.sr = s.sr ∧
      sequential .unlk s s.unlinked := by
  have hwrites : WritesRegs [.r6, .r7] (s.advance 1) s.unlinked :=
    (writesRegs_setReg (by simp) ..).trans (writesRegs_setReg (by simp) ..)
  exact ⟨by simp [State.unlinked], by simp [State.unlinked, State.sp], hwrites.regs, fun _ => rfl, rfl, rfl,
    hwrites.controls⟩

/-- Everything that LINK does. -/
theorem linked_spec (s : State) (k : Imm) (hs : s.mem.wf = true) :
    (s.linked k).reg .r6 = s.sp - 2 ∧ (s.linked k).sp = s.sp - 2 + immWord k ∧
      (s.linked k).mem.word (s.phys .stack (s.sp - 2)) = s.reg .r6 ∧ regsKeptBut s (s.linked k) [.r6, .r7] ∧
      memKeptBut s (s.linked k) (s.stackBytes (-2)) ∧ (s.linked k).sr = s.sr ∧
      sequential (.link k) s (s.linked k) := by
  have hwrites : WritesRegs [.r6, .r7] ((s.advance (immLen k + 1)).pushed (s.reg .r6)) (s.linked k) :=
    (writesRegs_setReg (by simp) ..).trans (writesRegs_setReg (by simp) ..)
  refine ⟨?_, ?_, ?_, ?_, ?_, rfl, ?_⟩
  · simp [State.linked, addSP]
  · simp [State.linked, addSP, State.sp]
  · exact pushed_word (s := s.advance (immLen k + 1)) hs (s.reg .r6)
  · intro i hi
    exact (hwrites.regs i hi).trans (regsKeptBut_pushed (s.advance (immLen k + 1)) _ i
      fun h => hi (List.mem_cons_of_mem _ h))
  · exact memKeptBut_pushed (s.advance (immLen k + 1)) (s.reg .r6)
  · exact sequential_of (link_length k) rfl (by simp [controlsKept, State.linked, addSP])

/-- Settles O56: UNLK finds at FP the word that LINK pushed there. -/
theorem linkUnlkResult : Obligations.LinkUnlkResult := by
  refine ⟨fun k s hs heven hw => ?link, fun s heven => ⟨_, exec_unlk heven, unlinked_spec s⟩⟩
  intro n
  have hn : n = immWord k := by cases k <;> rfl
  obtain ⟨hfp, hsp, hword, hregs, hmem, hsr, hseq⟩ := linked_spec s k (Bool.and_eq_true_iff.mp hs).1
  have hunlk := exec_unlk (s := s.linked k) (by rw [hfp, toNat_sub_two_mod]; exact heven)
  obtain ⟨hfp', hsp', -⟩ := unlinked_spec (s.linked k)
  have hstack : (s.linked k).phys .stack (s.sp - 2) = s.phys .stack (s.sp - 2) := phys_congr rfl .stack rfl _
  rw [hfp, hstack, hword] at hfp'
  rw [hfp, BitVec.sub_add_cancel] at hsp'
  rw [hn]
  exact ⟨_, exec_link heven hw, hfp, hsp, hword, hregs, hmem, hsr, hseq, _, hunlk, hfp', hsp'⟩

/-! ## Control registers -/

/-- The pairs of R31 as the statements list them. -/
theorem ctrlAllowed_of_listed {cr : CtrlReg} {sz : Size}
    (h : cr = .sr ∧ sz = .w ∨ cr ∈ [CtrlReg.ccr, .br, .ep, .dp, .tp] ∧ sz = .b) : ctrlAllowed cr sz = true := by
  obtain ⟨rfl, rfl⟩ | ⟨hcr, rfl⟩ := h
  · rfl
  · fin_cases hcr <;> rfl

section
variable (s : State) (cr : CtrlReg) (v : Word)

@[simp] theorem setCtrl_regs : (s.setCtrl cr v).regs = s.regs := by cases cr <;> rfl
@[simp] theorem setCtrl_mem : (s.setCtrl cr v).mem = s.mem := by cases cr <;> rfl
@[simp] theorem setCtrl_pc : (s.setCtrl cr v).pc = s.pc := by cases cr <;> rfl

theorem reg_setCtrl (i : Reg) : (s.setCtrl cr v).reg i = s.reg i := by cases cr <;> rfl

theorem ctrlWritten_setCtrl : ctrlWritten s (s.setCtrl cr v) cr v := by
  cases cr <;> exact ⟨rfl, rfl, rfl, rfl, rfl, rfl, rfl, rfl, rfl⟩

end

/-- A control register written behind updates of other state. -/
theorem ctrlWritten_of_kept {s t u : State} {cr : CtrlReg} {v : Word} (hsr : t.sr = s.sr) (h : controlsKept s t)
    (hu : ctrlWritten t u cr v) : ctrlWritten s u cr v := by
  obtain ⟨hbr, hep, hdp, htp, hcp, hasleep, hparams, hirq⟩ := h
  simpa only [ctrlWritten, hsr, hbr, hep, hdp, htp, hcp, hasleep, hparams, hirq] using hu

/-- Everything that LDC does. -/
theorem ldc_completes {sz : Size} {src : EA} {cr : CtrlReg} {s : State} (hc : ctrlAllowed cr sz = true)
    {p : Loc × State} (hp : p = resolve sz src (s.advance (eaLen src + 1))) (h : p.2.canAccess p.1 sz = true) :
    ∃ t, exec (.ldc sz src cr) s = .next t ∧ ctrlWritten s t cr ((p.2.valueAt p.1 sz).setWidth 16) ∧
      t.pc = s.npc (.ldc sz src cr) ∧ onlyRead s t sz src := by
  subst hp
  have hx := congrArg finish ((refuseIf_of_false (c := !ctrlAllowed cr sz) (r := .disallowedControlRegister)
    (by rw [hc]; rfl)).trans (congrArg (· >>= fun q => pure (q.2.setCtrl cr (q.1.setWidth 16))) (source_ok h)))
  refine ⟨_, hx, ctrlWritten_of_kept (by simp) controlsKept_resolve (ctrlWritten_setCtrl ..), ?pc,
    fun i => by simp [reg_setCtrl], fun a => by simp⟩
  case pc =>
    rw [npc_of_length (length_eq_lengthOf _)]
    simp [EncodedLength.lengthOf]

/-- The immediate of ANDC, ORC and XORC as a word, #xx:8 with zeros above it: the registers of byte size take its low
byte. -/
def immBits : Imm → Word
  | .i8 x => x.setWidth 16
  | .i16 x => x

theorem combineCtrl_ok {imm : Imm} {cr : CtrlReg} (hc : ctrlAllowed cr imm.size = true) (s : State)
    (op : Word → Word → Word) : combineCtrl imm cr s op =
      .ok ((s.advance (immLen imm + 2)).setCtrl cr (op ((s.advance (immLen imm + 2)).ctrl cr) (immBits imm))) := by
  cases imm <;> exact refuseIf_of_false (by rw [hc]; rfl)

/-- Everything that ANDC, ORC and XORC do. -/
theorem combineCtrl_completes {i : Instr} {imm : Imm} {cr : CtrlReg} {s : State} {op : Word → Word → Word}
    (hx : exec i s = finish (combineCtrl imm cr s op)) (hl : EncodedLength.lengthOf i = 2 + immLen imm)
    (hc : ctrlAllowed cr imm.size = true) {old : Word} (hold : ∀ n, (s.advance n).ctrl cr = old) :
    ∃ t, exec i s = .next t ∧ ctrlWritten s t cr (op old (immBits imm)) ∧ t.pc = s.npc i ∧ t.regs = s.regs ∧
      memKept s t := by
  rw [combineCtrl_ok hc, hold] at hx
  refine ⟨_, hx, ctrlWritten_of_kept rfl (by simp [controlsKept]) (ctrlWritten_setCtrl ..), ?pc, by simp,
    fun a => by simp⟩
  case pc =>
    rw [npc_of_length ((length_eq_lengthOf i).trans hl), setCtrl_pc, advance_pc, Nat.add_comm]

/-- CCR is the low byte of SR (R32). -/
theorem setWidth_loByte (v : Word) : (loByte v).setWidth 16 = v &&& 0x00FF := by
  apply BitVec.eq_of_toNat_eq
  have hmod := Nat.and_two_pow_sub_one_eq_mod v.toNat 8
  rw [loByte_setWidth, BitVec.toNat_and, BitVec.toNat_setWidth, BitVec.toNat_setWidth]
  show v.toNat % 2 ^ 8 % 2 ^ 16 = v.toNat &&& 2 ^ 8 - 1
  omega

/-- Settles O58: each form writes the control register with `setCtrl`, LDC behind its source's addressing mode. -/
theorem controlWriteResult : Obligations.ControlWriteResult := by
  refine ⟨fun sz src cr s hlisted => ?ldc, fun imm cr s hlisted => ?combined⟩
  case ldc => exact fun h => ldc_completes (ctrlAllowed_of_listed hlisted) rfl h
  case combined =>
    intro v old
    have hv : v = immBits imm := by cases imm <;> rfl
    have hold (n : Nat) : (s.advance n).ctrl cr = old := by
      cases cr with
      | ccr => exact setWidth_loByte s.sr
      | sr | br | ep | dp | tp | none2 | none6 => rfl
    have hc := ctrlAllowed_of_listed hlisted
    rw [hv]
    simp only [List.forall_mem_cons]
    exact ⟨combineCtrl_completes rfl rfl hc hold, combineCtrl_completes rfl rfl hc hold,
      combineCtrl_completes rfl rfl hc hold, List.forall_mem_nil _⟩

/-! ## STC -/

/-- Reading a control register out changes nothing but the count of free values drawn (R301; log entry 10). -/
theorem readCtrl_state (s : State) (cr : CtrlReg) : ∃ k, (s.readCtrl cr).2 = { s with freeIdx := k } := by
  cases cr with
  | sr | ccr => exact ⟨s.freeIdx + 1, rfl⟩
  | br | ep | dp | tp | none2 | none6 => exact ⟨s.freeIdx, rfl⟩

/-- No write to a location looks at the count of free values drawn. -/
theorem put_withFreeIdx (s : State) (k : Nat) (l : Loc) (sz : Size) (v : BitVec sz.bits) :
    State.put { s with freeIdx := k } l sz v = { s.put l sz v with freeIdx := k } := by
  cases l with
  | reg i => cases sz <;> rfl
  | mem kind off => cases sz <;> rfl
  | imm w => rfl

/-- Everything that STC does, whatever value it reads out. -/
theorem stc_completes {sz : Size} {cr : CtrlReg} {dst : EA} {s : State} (hs : s.wf = true) (hd : dst.isDest = true)
    (hc : ctrlAllowed cr sz = true) {p : Loc × State} (hp : p = resolve sz dst (s.advance (eaLen dst + 1)))
    (h : p.2.canAccess p.1 sz = true) (hw : s.storable (s.npc (.stc sz cr dst)) (p.2.bytesAt p.1 sz)) :
    ∃ t, exec (.stc sz cr dst) s = .next t ∧
      intoOperand s t sz dst p.2 p.1 ((p.2.readCtrl cr).1.setWidth sz.bits) ∧ t.sr = s.sr ∧
      sequential (.stc sz cr dst) s t := by
  obtain ⟨k, hk⟩ := readCtrl_state p.2 cr
  have hphys (kind : Kind) (off : Word) : State.phys { p.2 with freeIdx := k } kind off = p.2.phys kind off :=
    phys_congr rfl kind (by cases kind <;> rfl) off
  have hstorable : State.storable { p.2 with freeIdx := k } p.2.pc
      (State.bytesAt { p.2 with freeIdx := k } p.1 sz) := by
    rw [bytesAt_congr hphys]
    exact storable_congr rfl rfl (storable_npc (n := 1) (length_eq_lengthOf _) hp hw)
  have hx : exec (.stc sz cr dst) s =
      .next { p.2.put p.1 sz ((p.2.readCtrl cr).1.setWidth sz.bits) with freeIdx := k } := by
    have hst := st_ok (s := { p.2 with freeIdx := k }) ((canAccess_congr hphys ..).trans h) hstorable
      (hp ▸ resolve_not_imm hd _ _) ((p.2.readCtrl cr).1.setWidth sz.bits)
    rw [put_withFreeIdx, ← hk] at hst
    subst hp
    exact congrArg finish ((refuseIf_of_false (by rw [hc]; rfl)).trans hst)
  subst hp
  refine ⟨_, hx, ?operand, by simp, ?sequential⟩
  case operand =>
    exact intoOperand_put hs hd _ rfl (fun _ => rfl) rfl fun kind off =>
      phys_congr (by simp) kind (by cases kind <;> simp [State.page]) off
  case sequential =>
    exact sequential_of (length_eq_lengthOf _) (by simp [EncodedLength.lengthOf]) (by simp [controlsKept])

/-- A byte of CCR has the flags of the SR that it is the low byte of (R28, R32). -/
theorem loByte_flags (v : Word) : (loByte v).setWidth 16 &&& 0x000F = v &&& 0x000F := by
  rw [setWidth_loByte, BitVec.and_assoc]
  rfl

/-- No flag is a reserved bit of SR (R28). -/
theorem and_flags (v : Word) : v &&& ~~~srReserved &&& 0x000F = v &&& 0x000F := by
  rw [BitVec.and_assoc]
  rfl

/-- Settles O59: STC stores what it reads out, and only the reserved bits of that are not the register's. -/
theorem controlReadResult : Obligations.ControlReadResult := by
  intro sz cr dst s hs hd hlisted p h hw
  obtain ⟨t, ht, hinto, hsr, hseq⟩ := stc_completes hs hd (ctrlAllowed_of_listed hlisted) rfl h hw
  refine ⟨t, _, ht, hinto, hsr, hseq, ?_⟩
  have hseen : srSeen p.2.sr p.2.draw.1 &&& ~~~srReserved = s.sr &&& ~~~srReserved :=
    (srSeen_defined ..).trans (by simp [p])
  have hstored (b : Byte) : ((b.setWidth 16).setWidth 8).setWidth 8 = b := by simp
  obtain ⟨rfl, rfl⟩ | ⟨hcr, rfl⟩ := hlisted
  case inl =>
    show ((srSeen p.2.sr p.2.draw.1).setWidth 16).setWidth 16 &&& _ = _
    rwa [BitVec.setWidth_eq, BitVec.setWidth_eq]
  case inr =>
    cases cr with
    | ccr =>
      show (((loByte (srSeen p.2.sr p.2.draw.1)).setWidth 16).setWidth 8).setWidth 16 &&& 0x000F = s.sr &&& 0x000F
      rw [← loByte_setWidth, loByte_flags, loByte_flags, ← and_flags, hseen, and_flags]
    | br => exact (hstored p.2.br).trans (by simp [p])
    | ep => exact (hstored p.2.ep).trans (by simp [p])
    | dp => exact (hstored p.2.dp).trans (by simp [p])
    | tp => exact (hstored p.2.tp).trans (by simp [p])
    | sr | none2 | none6 => simp at hcr

end Sys2Proof.Machine
end

section
/-! PROOFS. Taking an interrupt (spec/60_exceptions.md R328, R330): which waiting request the next step takes, what
its level makes of SR, and its entry, which is that of an exception but for the mask and the run state. -/

namespace Sys2Proof.Machine

/-! ## Which request is taken -/

section
variable {accept : Irq → Bool}

/-- What is accepted first leaves the list; the others stay in their order (log entry 30). -/
theorem firstAccepted_append {before after : List Irq} {q : Irq} (hb : ∀ r ∈ before, accept r = false)
    (hq : accept q = true) : firstAccepted accept (before ++ q :: after) = some (q, before ++ after) := by
  induction before with
  | nil => simp [firstAccepted, hq]
  | cons r rest ih =>
    obtain ⟨hr, hrest⟩ := List.forall_mem_cons.mp hb
    simp [firstAccepted, hr, ih hrest]

theorem firstAccepted_none {waiting : List Irq} (h : ∀ r ∈ waiting, accept r = false) :
    firstAccepted accept waiting = none := by
  induction waiting with
  | nil => rfl
  | cons r rest ih =>
    obtain ⟨hr, hrest⟩ := List.forall_mem_cons.mp h
    simp [firstAccepted, hr, ih hrest]

end

theorem accepts_iff {s : State} {q : Irq} : s.accepts q = true ↔ q.maskable = false ∨ s.intMask < q.level := by
  simp [State.accepts]

/-- What the mask holds back. -/
theorem accepts_eq_false_iff {s : State} {q : Irq} :
    s.accepts q = false ↔ q.maskable = true ∧ q.level ≤ s.intMask := by
  simp [State.accepts]

theorem step_of_nextIrq {s : State} {q : Irq} {others : List Irq} (h : s.nextIrq = some (q, others)) :
    step s = s.takeIrq q others := by
  simp only [step, runStep, h]

/-! ## SR -/

theorem srWithMask_bit (sr : Word) (level : BitVec 3) {k : Nat} (hk : k < 8 ∨ 10 < k) :
    (srWithMask sr level).getLsbD k = sr.getLsbD k := by
  simp only [srWithMask, BitVec.getLsbD_append, BitVec.getLsbD_extractLsb', Nat.zero_add]
  rcases hk with hlow | hhigh
  · simp [hlow]
  · have hout : k - 8 - 3 < 5 ∨ 16 ≤ k := by omega
    have hpos : 11 + (k - 8 - 3) = k := by omega
    have hnlow : ¬k < 8 := by omega
    have hnmid : ¬k - 8 < 3 := by omega
    rcases hout with hin | hbeyond
    · simp [hnlow, hnmid, hin, hpos]
    · simp [hnlow, hnmid, hpos, BitVec.getLsbD_of_ge sr k hbeyond]

theorem srWithMask_mask (sr : Word) (level : BitVec 3) : (srWithMask sr level).extractLsb' 8 3 = level := by
  refine BitVec.eq_of_getLsbD_eq fun k hk => ?_
  have hnlow : ¬8 + k < 8 := by omega
  simp only [srWithMask, BitVec.getLsbD_extractLsb', BitVec.getLsbD_append]
  simp [hk, hnlow]

/-- T lies outside the mask (R28). -/
theorem srClearT_mask (sr : Word) : (srClearT sr).extractLsb' 8 3 = sr.extractLsb' 8 3 := by
  refine BitVec.eq_of_getLsbD_eq fun k hk => ?_
  have hbit : 8 + k < 15 := by omega
  simp [srClearT_bit, hbit]

/-! ## The entry -/

/-- What SR holds at the vector part of an entry reaches SR behind it, T cleared, and nothing else. -/
theorem enterVector_withSR (u : State) (v : Word) (entry : Byte) :
    State.enterVector { u with sr := v } entry = { u.enterVector entry with sr := srClearT v } := by
  cases hm : u.params.maxMode <;> simp [State.enterVector, State.vectorTo, State.jump, State.phys, State.page, hm]

/-- `Entered` says nothing of the SR that the entry leaves. -/
theorem Entered.withSR {s t : State} {entry : Byte} {pc : Word} (h : Entered s t entry pc) (v : Word) :
    Entered s { t with sr := v } entry pc :=
  ⟨h.sp, h.pc_pushed, h.cp_pushed, h.sr_pushed, h.pc_max, h.cp_max, h.pc_min, h.cp_min, h.regs, h.mem, h.pages,
    h.refetched⟩

/-- An entry depends on neither the run state nor the waiting requests of the interrupted state. -/
theorem Entered.of_awakened {s t : State} {waiting : List Irq} {asleep : Bool} {entry : Byte} {pc : Word}
    (h : Entered { s with irq := waiting, asleep := asleep } t entry pc) : Entered s t entry pc :=
  ⟨h.sp, h.pc_pushed, h.cp_pushed, h.sr_pushed, h.pc_max, h.cp_max, h.pc_min, h.cp_min, h.regs, h.mem, h.pages,
    h.refetched⟩

section
variable {s : State} (heven : s.spEven)
include heven

/-- Everything that taking an interrupt does (R330): SR is stacked as it was, then the mask is set and T cleared. -/
theorem takeIrq_spec (hw : s.storable s.pc s.frameBytes) (q : Irq) (others : List Irq) :
    ∃ t, s.takeIrq q others = .next t ∧ Entered s t q.entry s.pc ∧ t.sr = srClearT (srWithMask s.sr q.level) ∧
      t.asleep = false ∧ t.irq = others := by
  have hf := framed_spec (s := { s with irq := others, asleep := false }) heven s.pc
  have hpush := pushFrame_ok (s := { s with irq := others, asleep := false }) heven (storable_congr rfl rfl hw) s.pc
  generalize State.framed { s with irq := others, asleep := false } s.pc = u at hf hpush
  obtain ⟨-, hsr, -, -, -, -, -, hasleep, -, hirq⟩ := hf.rest
  obtain ⟨hentered, -, hvasleep, hvirq, -⟩ := enterVector_spec hf q.entry
  refine ⟨_, ?_, (hentered.withSR (srClearT (srWithMask u.sr q.level))).of_awakened, by rw [hsr],
    hvasleep.trans hasleep, hvirq.trans hirq⟩
  simp only [State.takeIrq, State.enterIrq, hpush, enterVector_withSR]

/-- A frame with a byte in the window keeps the interrupt from being taken (R70; log entry 29). -/
theorem takeIrq_blocked (hw : ¬s.storable s.pc s.frameBytes) (q : Irq) (others : List Irq) :
    s.takeIrq q others = .refused .storeInPrefetchWindow := by
  have hpush := pushFrame_blocked (s := { s with irq := others, asleep := false }) heven (hw ∘ storable_congr rfl rfl)
    s.pc
  simp only [State.takeIrq, State.enterIrq, hpush, entryStopped]

end

/-- Settles O9: the list is searched from its front, and the step takes what the search finds. -/
theorem interruptEntry : Obligations.InterruptEntry := by
  refine ⟨fun s before after q hirq hbefore hq heven => ?taken, fun s hheld => ?held⟩
  case taken =>
    have hnext : s.nextIrq = some (q, before ++ after) := by
      rw [State.nextIrq, hirq]
      exact firstAccepted_append (fun r hr => accepts_eq_false_iff.mpr (hbefore r hr)) (accepts_iff.mpr hq)
    rw [step_of_nextIrq hnext]
    refine ⟨fun hw => ?entered, fun hw => takeIrq_blocked heven hw ..⟩
    obtain ⟨t, ht, hentered, hsr, hasleep, hothers⟩ := takeIrq_spec heven hw q (before ++ after)
    have hmask : t.intMask = q.level := by
      rw [State.intMask, hsr, srClearT_mask, srWithMask_mask]
    obtain ⟨hflagT, hbits⟩ := traceCleared_of (s := { s with sr := srWithMask s.sr q.level }) hsr
    exact ⟨t, ht, hentered, hmask, hflagT, fun k hk hout => (hbits k hk).trans (srWithMask_bit _ _ hout), hasleep,
      hothers⟩
  case held => exact firstAccepted_none fun r hr => accepts_eq_false_iff.mpr (hheld r hr)

end Sys2Proof.Machine
end
